-- ==== Sys2Proof/Word.lean ====
section
/-!
DEFINITION. The words of the machine and its sparse tables: register words, lane masks, and finite tables of
number and value pairs kept in rising order of the number.
-/
namespace Sys2Proof

/-- One byte (R5). -/
abbrev Byte := BitVec 8
/-- A vector register of one lane (R210). -/
abbrev Word := BitVec 32
/-- A uniform register, an address, an instruction word (R189, R210). -/
abbrev DWord := BitVec 64
/-- A set of lanes of one group, bit i for lane i (R9). -/
abbrev Mask := BitVec 32

/-- A sparse table: number and value pairs, the numbers rising. -/
abbrev Tab (α : Type) := List (Nat × α)

/-- The value at number `i`, or `d` where the table lists none. -/
def Tab.get {α : Type} (d : α) : Tab α → Nat → α
  | [], _ => d
  | (k, v) :: t, i => if i = k then v else Tab.get d t i

/-- The table with `x` at number `i`. -/
def Tab.put {α : Type} : Tab α → Nat → α → Tab α
  | [], i, x => [(i, x)]
  | (k, v) :: t, i, x =>
    if i < k then (i, x) :: (k, v) :: t
    else if i = k then (i, x) :: t
    else (k, v) :: Tab.put t i x

/-- The table without number `i`. -/
def Tab.drop {α : Type} (t : Tab α) (i : Nat) : Tab α := t.filter (fun c => !(c.1 == i))

/-- The lanes 0 to 31 in ascending order (R27). -/
def laneList : List Nat := List.range 32

/-- The lanes of a mask in ascending order. -/
def Mask.toList (m : Mask) : List Nat := laneList.filter (fun i => m.getLsbD i)

/-- The mask of one lane. -/
def Mask.one (i : Nat) : Mask := BitVec.ofNat 32 (2 ^ i)

/-- The mask of the lanes that meet a test. -/
def Mask.ofPred (f : Nat → Bool) : Mask :=
  BitVec.ofNat 32 ((laneList.filter f).foldl (fun a i => a + 2 ^ i) 0)

/-- How many lanes a mask holds. -/
def Mask.count (m : Mask) : Nat := (Mask.toList m).length

/-- The bits `hi` to `lo` of a 64-bit word, as a number (R3). -/
def bits (w : DWord) (hi lo : Nat) : Nat := w.toNat / 2 ^ lo % 2 ^ (hi + 1 - lo)

/-- A number's bits `hi` to `lo`. -/
def nbits (n hi lo : Nat) : Nat := n / 2 ^ lo % 2 ^ (hi + 1 - lo)

/-- A number read as a signed value of `w` bits. -/
def sgn (w n : Nat) : Int :=
  let m := n % 2 ^ w
  if m < 2 ^ (w - 1) then (m : Int) else (m : Int) - (2 ^ w : Nat)

/-- An exact integer reduced modulo 2^w (R224). -/
def wrapTo (w : Nat) (x : Int) : Nat := (x % (2 ^ w : Nat)).toNat

end Sys2Proof
end

