-- ==== Sys2Proof/Syntax.lean ====
section
/-!
DEFINITION. The syntax: the fields of each instruction word format (R202 to R205, R112, R294, R300, R309), the
extension word (R207) and `Instr`, one constructor per row of the opcode table. A row that issues as a word carries the
fields of its format, unless all of them are 0 or the row is a system word (majors 0xE4 to 0xF8, see `Ext.sys`); a row that is a step of another unit or of the outside world takes its
arguments from an `Ev`, as its comment says.
-/
namespace Sys2Proof

/-- A register that a word can name (R210, R213): vector, uniform, predicate or stream. -/
inductive Reg where
  | v (n : Nat)
  | k (n : Nat)
  | p (n : Nat)
  | x (n : Nat)
  deriving DecidableEq, Repr, Inhabited

/-- Format R (R202), bit 13 and major and sub-op apart. -/
structure FR where
  d : Byte
  a : Byte
  b : Byte
  c : Byte
  ak : BitVec 2
  bk : BitVec 2
  ck : BitVec 2
  ty : BitVec 5
  mo : Byte
  deriving DecidableEq, Repr, Inhabited

/-- Format I (R203). -/
structure FI where
  d : Byte
  a : Byte
  imm : Word
  ty : BitVec 4
  deriving DecidableEq, Repr, Inhabited

/-- Format M (R204); `uni` is the base kind. -/
structure FM where
  data : Byte
  base : Byte
  mo : Byte
  uni : Bool
  space : BitVec 2
  ty : BitVec 5
  off : BitVec 20
  deriving DecidableEq, Repr, Inhabited

/-- Format B (R205). -/
structure FB where
  d : Byte
  a : Byte
  pred : BitVec 3
  neg : Bool
  off : BitVec 28
  deriving DecidableEq, Repr, Inhabited

/-- The token format (R112). -/
structure FT where
  d : Byte
  a : Byte
  b : Byte
  size : BitVec 6
  lease : BitVec 4
  pub : Bool
  deriving DecidableEq, Repr, Inhabited

/-- The stream format (R294). -/
structure FX where
  d : Byte
  a : Byte
  b : Byte
  c : Byte
  mo : BitVec 4
  deriving DecidableEq, Repr, Inhabited

/-- The fence and barrier format (R300). -/
structure FF where
  d : Byte
  a : Byte
  b : Byte
  ak : BitVec 2
  bk : BitVec 2
  id : BitVec 4
  scope : BitVec 3
  deriving DecidableEq, Repr, Inhabited

/-- The engine and system format (R309); its governing predicate, bits [15:12], stands with the extension word's. -/
structure FS where
  d : Byte
  a : Byte
  b : Byte
  c : Byte
  ak : BitVec 2
  bk : BitVec 2
  num : Byte
  mo : BitVec 4
  deriving DecidableEq, Repr, Inhabited

/-- What governs a word from outside its own operands: the extension word (R207), an absent binding being off, and for
the engine and system format the word's own predicate field (R309), in `pred` and `neg`. `sys` holds the operand fields
of a word of majors 0xE4 to 0xF8: a type in Lean has at most 244 constructors with fields, so these rows carry none. [log 25, DESIGN CHOICE.] -/
structure Ext where
  pred : BitVec 3
  neg : Bool
  rnd : BitVec 3
  zero : Bool
  src4 : Byte
  kind4 : BitVec 2
  bindD : Option (BitVec 3)
  bindA : Option (BitVec 3)
  bindB : Option (BitVec 3)
  sys : FS
  deriving DecidableEq, Repr, Inhabited

/-- The defaults that hold where no extension word stands (R207). -/
def Ext.plain : Ext := ⟨0, false, 0, false, 0, 0, none, none, none, ⟨0, 0, 0, 0, 0, 0, 0, 0⟩⟩

/-- The arguments of a step that is no word: which unit it acts on and what comes from outside. -/
structure Ev where
  x : Nat := 0
  y : Nat := 0
  z : Nat := 0
  flag : Bool := false
  word : DWord := 0
  data : List Byte := []
  nums : List Nat := []
  deriving DecidableEq, Repr, Inhabited

/-- A step of the module: one constructor per row of the opcode table. -/
inductive Instr where
  /-- BRA (R229). Each lane whose Format B predicate holds transfers to the PC-relative target header. -/
  | bra (f : FB)
  /-- BRX_V (R229). Each taking lane transfers to the target in its vector register pair. -/
  | brxV (f : FB)
  /-- BRX_K (R229). Each taking lane transfers to the target in a uniform register. -/
  | brxK (f : FB)
  /-- CALL (R230). Each taking lane writes the following header's address to vd and transfers PC-relative. -/
  | call (f : FB)
  /-- CALL_V (R230). Each taking lane writes its return address and transfers through a vector register pair. -/
  | callV (f : FB)
  /-- CALL_K (R230). Each taking lane writes its return address and transfers through a uniform register. -/
  | callK (f : FB)
  /-- RET (R230). Each taking lane transfers to the address in its vector register pair. -/
  | ret (f : FB)
  /-- EXIT (R231). Each taking lane exits; when all lanes have exited, the group exits and frees its place. -/
  | exit (f : FB)
  /-- LOOP (R232). Lanes transfer to the loop clause, and the loop buffer replays its body for the passes that ka holds. -/
  | loop (f : FB)
  /-- ELECT (R234). Sets pd true only in the lowest participating lane. -/
  | elect (f : FB)
  /-- ELECT_K (R234). Elects the lowest participating lane and also writes its number to ka. -/
  | electK (f : FB)
  /-- ADD (R235). Integer add of a and b, modulo 2^w. -/
  | add (f : FR)
  /-- SUB (R235). Integer subtract of b from a, modulo 2^w. -/
  | sub (f : FR)
  /-- MUL_LO (R235). Low half of the product a × b. -/
  | mulLo (f : FR)
  /-- MUL_HI (R235). High half of the product a × b. -/
  | mulHi (f : FR)
  /-- MAD_LO (R235). a × b + c, modulo 2^w. -/
  | madLo (f : FR)
  /-- MUL_WIDE (R235). Full 64-bit product of 32-bit operands, written to an even pair. -/
  | mulWide (f : FR)
  /-- ABS (R235). Integer absolute value. -/
  | abs (f : FR)
  /-- NEG (R235). Integer negation. -/
  | neg (f : FR)
  /-- MIN (R235). Integer minimum. -/
  | min (f : FR)
  /-- MAX (R235). Integer maximum. -/
  | max (f : FR)
  /-- ADD_SAT (R235). Integer add clamped to the type's range. -/
  | addSat (f : FR)
  /-- SUB_SAT (R235). Integer subtract clamped to the type's range. -/
  | subSat (f : FR)
  /-- DIV (R236). Integer quotient truncated toward zero, with fixed results for division by zero and overflow. -/
  | div (f : FR)
  /-- REM (R236). Integer remainder with the sign of the dividend. -/
  | rem (f : FR)
  /-- AND (R237). Bitwise and. -/
  | and (f : FR)
  /-- OR (R237). Bitwise or. -/
  | or (f : FR)
  /-- XOR (R237). Bitwise exclusive or. -/
  | xor (f : FR)
  /-- NOT (R237). Bitwise not. -/
  | not (f : FR)
  /-- BOOL3 (R237). Three-input bitwise function given by an 8-bit truth table. -/
  | bool3 (f : FR)
  /-- SHL (R238). Logical shift left; 0 when the amount is at least w. -/
  | shl (f : FR)
  /-- SHR (R238). Logical shift right. -/
  | shr (f : FR)
  /-- SAR (R238). Arithmetic shift right. -/
  | sar (f : FR)
  /-- FSL (R238). Funnel shift left of the concatenation of a and b. -/
  | fsl (f : FR)
  /-- FSR (R238). Funnel shift right of the concatenation of a and b. -/
  | fsr (f : FR)
  /-- POPC (R239). Population count. -/
  | popc (f : FR)
  /-- CLZ (R239). Count of leading zero bits. -/
  | clz (f : FR)
  /-- CTZ (R239). Count of trailing zero bits. -/
  | ctz (f : FR)
  /-- BREV (R239). Bit reversal. -/
  | brev (f : FR)
  /-- BFE (R240). Bit-field extract. -/
  | bfe (f : FR)
  /-- BFI (R240). Bit-field insert. -/
  | bfi (f : FR)
  /-- BSEL (R241). Byte select with fill control. -/
  | bsel (f : FR)
  /-- SETP (R242). Integer compare, optionally accumulated into a predicate. -/
  | setp (f : FR)
  /-- SEL (R243). Selects a or b by a predicate. -/
  | sel (f : FR)
  /-- PLOP (R244). Three-input predicate logic. -/
  | plop (f : FR)
  /-- P2V (R244). Copies the predicate file into a vector register. -/
  | p2v (f : FR)
  /-- V2P (R244). Writes the predicates selected by a mask from a vector register. -/
  | v2p (f : FR)
  /-- LEA_EXT (R245). Address a + (b shl s). -/
  | leaExt (f : FR)
  /-- LEA_SP (R245). Scratchpad address with the gang rank inserted. -/
  | leaSp (f : FR)
  /-- MOV (R245). Register move. -/
  | mov (f : FR)
  /-- ADD_IMM (R246). Integer add with a 32-bit immediate. -/
  | addImm (f : FI)
  /-- SUB_IMM (R246). Integer subtract with an immediate. -/
  | subImm (f : FI)
  /-- MUL_LO_IMM (R246). Low product with an immediate. -/
  | mulLoImm (f : FI)
  /-- MUL_HI_IMM (R246). High product with an immediate. -/
  | mulHiImm (f : FI)
  /-- MIN_IMM (R246). Integer minimum with an immediate. -/
  | minImm (f : FI)
  /-- MAX_IMM (R246). Integer maximum with an immediate. -/
  | maxImm (f : FI)
  /-- ADD_SAT_IMM (R246). Saturating add with an immediate. -/
  | addSatImm (f : FI)
  /-- SUB_SAT_IMM (R246). Saturating subtract with an immediate. -/
  | subSatImm (f : FI)
  /-- DIV_IMM (R246). Integer divide by an immediate. -/
  | divImm (f : FI)
  /-- REM_IMM (R246). Integer remainder by an immediate. -/
  | remImm (f : FI)
  /-- AND_IMM (R246). Bitwise and with an immediate. -/
  | andImm (f : FI)
  /-- OR_IMM (R246). Bitwise or with an immediate. -/
  | orImm (f : FI)
  /-- XOR_IMM (R246). Bitwise exclusive or with an immediate. -/
  | xorImm (f : FI)
  /-- SHL_IMM (R246). Shift left by an immediate. -/
  | shlImm (f : FI)
  /-- SHR_IMM (R246). Logical shift right by an immediate. -/
  | shrImm (f : FI)
  /-- SAR_IMM (R246). Arithmetic shift right by an immediate. -/
  | sarImm (f : FI)
  /-- MOV_IMM (R246). Moves an immediate into a vector register. -/
  | movImm (f : FI)
  /-- U_ADD (R247). Uniform integer add, once per arrival. -/
  | uAdd (f : FR)
  /-- U_SUB (R247). Uniform integer subtract. -/
  | uSub (f : FR)
  /-- U_MUL_LO (R247). Uniform low product. -/
  | uMulLo (f : FR)
  /-- U_MUL_HI (R247). Uniform high product. -/
  | uMulHi (f : FR)
  /-- U_MAD_LO (R247). Uniform multiply-add. -/
  | uMadLo (f : FR)
  /-- U_MUL_WIDE (R247). Uniform widening product into one k register. -/
  | uMulWide (f : FR)
  /-- U_ABS (R247). Uniform absolute value. -/
  | uAbs (f : FR)
  /-- U_NEG (R247). Uniform negation. -/
  | uNeg (f : FR)
  /-- U_MIN (R247). Uniform minimum. -/
  | uMin (f : FR)
  /-- U_MAX (R247). Uniform maximum. -/
  | uMax (f : FR)
  /-- U_ADD_SAT (R247). Uniform saturating add. -/
  | uAddSat (f : FR)
  /-- U_SUB_SAT (R247). Uniform saturating subtract. -/
  | uSubSat (f : FR)
  /-- U_DIV (R247). Uniform divide. -/
  | uDiv (f : FR)
  /-- U_REM (R247). Uniform remainder. -/
  | uRem (f : FR)
  /-- U_AND (R247). Uniform bitwise and. -/
  | uAnd (f : FR)
  /-- U_OR (R247). Uniform bitwise or. -/
  | uOr (f : FR)
  /-- U_XOR (R247). Uniform bitwise exclusive or. -/
  | uXor (f : FR)
  /-- U_NOT (R247). Uniform bitwise not. -/
  | uNot (f : FR)
  /-- U_BOOL3 (R247). Uniform three-input bitwise function. -/
  | uBool3 (f : FR)
  /-- U_SHL (R247). Uniform shift left. -/
  | uShl (f : FR)
  /-- U_SHR (R247). Uniform logical shift right. -/
  | uShr (f : FR)
  /-- U_SAR (R247). Uniform arithmetic shift right. -/
  | uSar (f : FR)
  /-- U_FSL (R247). Uniform funnel shift left. -/
  | uFsl (f : FR)
  /-- U_FSR (R247). Uniform funnel shift right. -/
  | uFsr (f : FR)
  /-- U_POPC (R247). Uniform population count. -/
  | uPopc (f : FR)
  /-- U_CLZ (R247). Uniform leading-zero count. -/
  | uClz (f : FR)
  /-- U_CTZ (R247). Uniform trailing-zero count. -/
  | uCtz (f : FR)
  /-- U_BREV (R247). Uniform bit reversal. -/
  | uBrev (f : FR)
  /-- U_BFE (R247). Uniform bit-field extract. -/
  | uBfe (f : FR)
  /-- U_BFI (R247). Uniform bit-field insert. -/
  | uBfi (f : FR)
  /-- U_BSEL (R247). Uniform byte select. -/
  | uBsel (f : FR)
  /-- USETP (R248). Uniform compare, written to pd in every issuing lane. -/
  | usetp (f : FR)
  /-- U_SEL (R248). Uniform select on kc nonzero. -/
  | uSel (f : FR)
  /-- U_LEA_EXT (R248). Uniform address computation. -/
  | uLeaExt (f : FR)
  /-- U_LEA_SP (R248). Uniform scratchpad address with rank. -/
  | uLeaSp (f : FR)
  /-- U_MOV (R248). Uniform register move. -/
  | uMov (f : FR)
  /-- UMOV (R248). Moves a vector register of the lowest issuing lane into kd. -/
  | umov (f : FR)
  /-- U_ADD_IMM (R249). Uniform add with an immediate. -/
  | uAddImm (f : FI)
  /-- U_SUB_IMM (R249). Uniform subtract with an immediate. -/
  | uSubImm (f : FI)
  /-- U_MUL_LO_IMM (R249). Uniform low product with an immediate. -/
  | uMulLoImm (f : FI)
  /-- U_MIN_IMM (R249). Uniform minimum with an immediate. -/
  | uMinImm (f : FI)
  /-- U_MAX_IMM (R249). Uniform maximum with an immediate. -/
  | uMaxImm (f : FI)
  /-- U_AND_IMM (R249). Uniform and with an immediate. -/
  | uAndImm (f : FI)
  /-- U_OR_IMM (R249). Uniform or with an immediate. -/
  | uOrImm (f : FI)
  /-- U_XOR_IMM (R249). Uniform exclusive or with an immediate. -/
  | uXorImm (f : FI)
  /-- U_SHL_IMM (R249). Uniform shift left by an immediate. -/
  | uShlImm (f : FI)
  /-- U_SHR_IMM (R249). Uniform logical shift right by an immediate. -/
  | uShrImm (f : FI)
  /-- U_SAR_IMM (R249). Uniform arithmetic shift right by an immediate. -/
  | uSarImm (f : FI)
  /-- U_MOV_IMM (R249). Moves an immediate into kd. -/
  | uMovImm (f : FI)
  /-- MOVHI (R249). Writes the immediate into kd [63:32] and keeps [31:0]. -/
  | movhi (f : FI)
  /-- FADD (R254). Floating-point add, rounded once. -/
  | fadd (f : FR)
  /-- FSUB (R254). Floating-point subtract. -/
  | fsub (f : FR)
  /-- FMUL (R254). Floating-point multiply. -/
  | fmul (f : FR)
  /-- FMA (R254). Fused multiply-add with one rounding. -/
  | fma (f : FR)
  /-- FMIN (R255). IEEE minimum; NaN if either operand is NaN. -/
  | fmin (f : FR)
  /-- FMAX (R255). IEEE maximum. -/
  | fmax (f : FR)
  /-- MINNUM (R255). IEEE minimumNumber. -/
  | minnum (f : FR)
  /-- MAXNUM (R255). IEEE maximumNumber. -/
  | maxnum (f : FR)
  /-- FABS (R256). Clears the sign bit. -/
  | fabs (f : FR)
  /-- FNEG (R256). Inverts the sign bit. -/
  | fneg (f : FR)
  /-- COPYSIGN (R256). Takes a with the sign bit of b. -/
  | copysign (f : FR)
  /-- FSETP (R257). Floating-point compare into a predicate, with unordered forms. -/
  | fsetp (f : FR)
  /-- CLASS (R258). Classifies a value into a one-hot mask. -/
  | classOp (f : FR)
  /-- SCALE (R259). Rounds a × 2^b. -/
  | scale (f : FR)
  /-- FRINT (R260). Rounds to an integral value of the same format. -/
  | frint (f : FR)
  /-- FADD_IMM (R261). Floating-point add with an immediate. -/
  | faddImm (f : FI)
  /-- FSUB_IMM (R261). Floating-point subtract with an immediate. -/
  | fsubImm (f : FI)
  /-- FMUL_IMM (R261). Floating-point multiply by an immediate. -/
  | fmulImm (f : FI)
  /-- FMIN_IMM (R261). Floating-point minimum with an immediate. -/
  | fminImm (f : FI)
  /-- FMAX_IMM (R261). Floating-point maximum with an immediate. -/
  | fmaxImm (f : FI)
  /-- MINNUM_IMM (R261). minimumNumber with an immediate. -/
  | minnumImm (f : FI)
  /-- MAXNUM_IMM (R261). maximumNumber with an immediate. -/
  | maxnumImm (f : FI)
  /-- CVT (R262). Converts element e between formats. -/
  | cvt (f : FR)
  /-- CVT_SAT (R262). Saturating conversion. -/
  | cvtSat (f : FR)
  /-- CVT_PK (R264). Converts two FP32 values and packs them with c. -/
  | cvtPk (f : FR)
  /-- CVT_PK_SAT (R264). Saturating packed conversion. -/
  | cvtPkSat (f : FR)
  /-- MXCVT (R266). Forms one Microscaling block across the arrival's lanes. -/
  | mxcvt (f : FR)
  /-- MXDEC (R267). Decodes one block element with its scale into FP32. -/
  | mxdec (f : FR)
  /-- RCP (R268). Reciprocal special function. -/
  | rcp (f : FR)
  /-- RSQ (R268). Reciprocal square root. -/
  | rsq (f : FR)
  /-- SQRT (R268). Square root. -/
  | sqrt (f : FR)
  /-- EX2 (R268). Base-2 exponential. -/
  | ex2 (f : FR)
  /-- LG2 (R268). Base-2 logarithm. -/
  | lg2 (f : FR)
  /-- SIN (R268). Sine. -/
  | sin (f : FR)
  /-- COS (R268). Cosine. -/
  | cos (f : FR)
  /-- TANH (R268). Hyperbolic tangent. -/
  | tanh (f : FR)
  /-- TBL (R271). Evaluates a piecewise-cubic activation function of the latched bank. -/
  | tbl (f : FR)
  /-- TBL_LD (R272). Loads a 2080-byte function image into the inactive bank. -/
  | tblLd (f : FR)
  /-- TBL_TAG (R274). Reads the tag of a function of the current bank. -/
  | tblTag (f : FR)
  /-- SHFL_IDX (R276). Shuffle by index within a segment. -/
  | shflIdx (f : FR)
  /-- SHFL_UP (R276). Shuffle up within a segment. -/
  | shflUp (f : FR)
  /-- SHFL_DOWN (R276). Shuffle down within a segment. -/
  | shflDown (f : FR)
  /-- SHFL_XOR (R276). Butterfly shuffle. -/
  | shflXor (f : FR)
  /-- BCAST (R277). Broadcasts one lane's value to the participating lanes. -/
  | bcast (f : FR)
  /-- VOTE_ALL (R278). True when every participating bit is set. -/
  | voteAll (f : FR)
  /-- VOTE_ANY (R278). True when any participating bit is set. -/
  | voteAny (f : FR)
  /-- VOTE_BALLOT (R278). Writes the ballot mask, or its count. -/
  | voteBallot (f : FR)
  /-- VOTE_UNI (R278). True when all participating inputs are equal. -/
  | voteUni (f : FR)
  /-- MATCH_MASK (R279). Mask of the participating lanes with equal keys. -/
  | matchMask (f : FR)
  /-- MATCH_LEAD (R279). Lowest lane with an equal key. -/
  | matchLead (f : FR)
  /-- MATCH_RANK (R279). Count of the lower lanes with an equal key. -/
  | matchRank (f : FR)
  /-- MATCH_UNI (R279). True when all keys match. -/
  | matchUni (f : FR)
  /-- REDUX_ADD (R280). Reduction by addition in ascending lane order. -/
  | reduxAdd (f : FR)
  /-- REDUX_MIN (R280). Minimum reduction. -/
  | reduxMin (f : FR)
  /-- REDUX_MAX (R280). Maximum reduction. -/
  | reduxMax (f : FR)
  /-- REDUX_AND (R280). And reduction. -/
  | reduxAnd (f : FR)
  /-- REDUX_OR (R280). Or reduction. -/
  | reduxOr (f : FR)
  /-- REDUX_XOR (R280). Exclusive-or reduction. -/
  | reduxXor (f : FR)
  /-- SCAN_ADD (R280). Inclusive or exclusive additive scan. -/
  | scanAdd (f : FR)
  /-- SCAN_MIN (R280). Minimum scan. -/
  | scanMin (f : FR)
  /-- SCAN_MAX (R280). Maximum scan. -/
  | scanMax (f : FR)
  /-- SCAN_AND (R280). And scan. -/
  | scanAnd (f : FR)
  /-- SCAN_OR (R280). Or scan. -/
  | scanOr (f : FR)
  /-- SCAN_XOR (R280). Exclusive-or scan. -/
  | scanXor (f : FR)
  /-- COMPRESS (R281). Packs the participating lanes' values into the lowest issuing lanes. -/
  | compress (f : FR)
  /-- RODEP (R282). Each active lane deposits a key and payload in the reorder unit and exits. -/
  | rodep (f : FR)
  /-- ROLD (R283). Snapshot of the reorder unit's entry counts. -/
  | rold (f : FR)
  /-- LD (R288). Per-lane load of one to four elements. -/
  | ld (f : FM)
  /-- ST (R288). Per-lane store into the write-combining buffer. -/
  | st (f : FM)
  /-- LDU (R291). Uniform load into kd, once per arrival. -/
  | ldu (f : FM)
  /-- PF_L1 (R292). Prefetches a line into the L1. -/
  | pfL1 (f : FM)
  /-- PF_L2 (R292). Prefetches a line into the die's L2. -/
  | pfL2 (f : FM)
  /-- CST (R293). Compress-store of the participating lanes' elements to consecutive places. -/
  | cst (f : FM)
  /-- CST_COUNT (R293). Compress-store that also writes the element count to kc. -/
  | cstCount (f : FM)
  /-- XSET (R295). Binds a stream register. -/
  | xset (f : FX)
  /-- XPOS (R295). Sets a stream's position. -/
  | xpos (f : FX)
  /-- XGET (R295). Reads a stream field into kd. -/
  | xget (f : FX)
  /-- XSAVE (R296). Stores a 32-byte stream image. -/
  | xsave (f : FX)
  /-- XREST (R296). Loads a stream image into a stream register. -/
  | xrest (f : FX)
  /-- ATOM_ADD (R297). Atomic fetch-and-add. -/
  | atomAdd (f : FM)
  /-- ATOM_MIN (R297). Atomic minimum. -/
  | atomMin (f : FM)
  /-- ATOM_MAX (R297). Atomic maximum. -/
  | atomMax (f : FM)
  /-- ATOM_AND (R297). Atomic and. -/
  | atomAnd (f : FM)
  /-- ATOM_OR (R297). Atomic or. -/
  | atomOr (f : FM)
  /-- ATOM_XOR (R297). Atomic exclusive or. -/
  | atomXor (f : FM)
  /-- ATOM_EXCH (R297). Atomic exchange. -/
  | atomExch (f : FM)
  /-- ATOM_CAS (R299). Atomic compare-and-swap with a success predicate. -/
  | atomCas (pd : BitVec 3) (f : FM)
  /-- ATOM_LD (R297). Atomic load. -/
  | atomLd (f : FM)
  /-- ATOM_ST (R297). Atomic store. -/
  | atomSt (f : FM)
  /-- RED_ADD (R297). Non-returning atomic add. -/
  | redAdd (f : FM)
  /-- RED_MIN (R297). Non-returning atomic minimum. -/
  | redMin (f : FM)
  /-- RED_MAX (R297). Non-returning atomic maximum. -/
  | redMax (f : FM)
  /-- RED_AND (R297). Non-returning atomic and. -/
  | redAnd (f : FM)
  /-- RED_OR (R297). Non-returning atomic or. -/
  | redOr (f : FM)
  /-- RED_XOR (R297). Non-returning atomic exclusive or. -/
  | redXor (f : FM)
  /-- FENCE (R132). Begins a fence of the given scope over the group's earlier accesses. -/
  | fence (f : FF)
  /-- BAR_SYNC (R302). Arrives at a team barrier and waits for the phase. -/
  | barSync (f : FF)
  /-- BAR_ARRIVE (R302). Arrives at a team barrier without waiting. -/
  | barArrive (f : FF)
  /-- BAR_ROLE (R303). Adds the issuing lanes to a role barrier. -/
  | barRole (f : FF)
  /-- BAR_GANG_SYNC (R302). Arrives at a gang barrier and waits. -/
  | barGangSync (f : FF)
  /-- BAR_GANG_ARRIVE (R302). Arrives at a gang barrier without waiting. -/
  | barGangArrive (f : FF)
  /-- BAR_PKG (R304). Package barrier arrival by an atomic on a barrier word. -/
  | barPkg (f : FF)
  /-- TMAKE (R118). Creates an owner-token entry owned by the team. -/
  | tmake (f : FT)
  /-- TDROP (R114). Drops a region's token after writing it through. -/
  | tdrop (f : FT)
  /-- TLEND (R114). Lends the token to another holder. -/
  | tlend (f : FT)
  /-- TRET (R114). Returns a lent token to its lender. -/
  | tret (f : FT)
  /-- TSPLIT (R116). Splits a region into halves. -/
  | tsplit (f : FT)
  /-- TMERGE (R116). Merges buddy regions. -/
  | tmerge (f : FT)
  /-- TSHARE (R114). Grants a read share or atomic grant. -/
  | tshare (f : FT)
  /-- TUNSHARE (R117). Gives back the team's share at once. -/
  | tunshare (f : FT)
  /-- TQUERY (R119). Reads a token entry into four k registers. -/
  | tquery (f : FT)
  /-- TQUERY_HOLD (R119). Waits until the team owns or shares the region, then reads the entry as an acquire. -/
  | tqueryHold (f : FT)
  /-- AACQ (R174). Takes a tile's accumulator token, waiting while it is held. -/
  | aacq (f : FS)
  /-- AREL (R174). Releases a tile token once pending is 0. -/
  | arel (f : FS)
  /-- ARD (R318). Reads tile words into vector registers. -/
  | ard (f : FS)
  /-- AWR (R318). Writes tile words from vector registers. -/
  | awr (f : FS)
  /-- ACLR (R318). Zeroes every word of a tile. -/
  | aclr (f : FS)
  /-- QPOP (R313). Pops the oldest queue entry into kd, pending while the queue is empty. -/
  | qpop (f : FS)
  /-- QTRY (R313). Pops an entry if one exists and sets pd. -/
  | qtry (f : FS)
  /-- QPUSH (R313). Service-group push of an atomic reply to q7. -/
  | qpush (f : FS)
  /-- MMA (R179). Pushes a parameter block to q0; the engine checks and accepts the matrix command. -/
  | mma (f : FS)
  /-- CPY_LIN (R324). Pushes a linear copy. -/
  | cpyLin (f : FS)
  /-- CPY_SLOT (R324). Pushes a slot fill. -/
  | cpySlot (f : FS)
  /-- CPY_GTH (R324). Pushes a gather copy. -/
  | cpyGth (f : FS)
  /-- CPY_SCT (R324). Pushes a scatter copy. -/
  | cpySct (f : FS)
  /-- CPY_CSR (R324). Pushes a sparse-row walk. -/
  | cpyCsr (f : FS)
  /-- COLL (R328). Pushes a collective command to q4. -/
  | coll (f : FS)
  /-- MODULE_RESET (R415). Module reset: every unit tests itself and writes its own map entry, at map version 1. -/
  | moduleReset
  /-- UNIT_SELF_TEST_PASS (R415). A unit finishes its self-test and its map entry reads live or degraded, so the unit becomes usable. Arguments: x entry, flag degraded. -/
  | unitSelfTestPass
  /-- ISSUE_SELECT (R39). Each slice cycle, the slice selects a resident group with a ready lane and chooses the PCs for slot A and slot B. Arguments: x core, y slice. -/
  | issueSelect
  /-- CLAUSE_ENTRY (R194). A lane set at a header enters the clause once the token, tile, pending-register and frontier conditions hold; the header is checked and the activation-table bank is latched. Arguments: x gid, word hdr. -/
  | clauseEntry
  /-- FRONTIER_RELEASE (R45). A lane's frontier wait counter reaches 64, and the lane is released past lower PCs. Arguments: x gid, y lane. -/
  | frontierRelease
  /-- VARIABLE_LATENCY_WRITEBACK (R196). The result of a load, returning atomic, special function, pop or variable-latency system instruction arrives and is written to its destination. Arguments: x group, y number of the pending write, nums the lanes whose elements are read at this moment (all when empty), data bytes that another module answers with. -/
  | variableLatencyWriteback
  /-- STREAM_READ_AHEAD (R215). The stream unit reads up to four vectors ahead of a stream's position, within the fence and rights limits. Arguments: x gid, y x. -/
  | streamReadAhead
  /-- NOP (R206). No operation; the issuing lanes' PCs advance. -/
  | nop
  /-- LOOP_BUFFER_FREE (R232). The loop buffer becomes free, and a lane set that waited at its loop word transfers. Arguments: x gid. -/
  | loopBufferFree
  /-- YIELD (R233). Ends the slice hold on the group and lowers its selection priority for the next slice cycle. -/
  | yield
  /-- TBL_LD_READ_START (R272). No lane set latches the inactive bank any longer, so the table load's read starts. Arguments: x gid. -/
  | tblLdReadStart
  /-- TBL_LD_IMAGE_WRITTEN (R272). The function image is replaced whole, and the issuing group resumes. Arguments: x gid. -/
  | tblLdImageWritten
  /-- TBL_SWAP (R273). Exchanges the current and inactive banks once no table load is in flight. -/
  | tblSwap
  /-- RODEP_ENTRIES_FREE (R50). Enough deposit entries become free, and a waiting rodep makes its deposits. Arguments: x gid. -/
  | rodepEntriesFree
  /-- ROFLUSH (R284). Forms continuation groups from every key of the team. -/
  | roflush
  /-- CONTINUATION_GROUP_FORM (R50). The reorder unit forms a continuation group when the case conditions hold, and pushes a q8 entry. Arguments: x core. -/
  | continuationGroupForm
  /-- CONTINUATION_GROUP_PLACE (R51). A formed group takes a free group place and a fitting slice once both are free. Arguments: x core. -/
  | continuationGroupPlace
  /-- ATOMIC_APPLY (R299). A place of application takes an atomic or combined request, applies it in lane order and acknowledges or replies. Arguments: x number of the request; for a word of another module y its completion time and nums what each lane found. -/
  | atomicApply
  /-- ATOMIC_WINDOW_END (R144). A 50 µs window of an atomic region ends, and the region may migrate to another service group. Arguments: x part, y base. -/
  | atomicWindowEnd
  /-- FENCE_COMPLETE (R132). The fence's conditions and gtime bound are met, and later accesses may issue. Arguments: x gid, y wait. -/
  | fenceComplete
  /-- PKG_BARRIER_RELEASE (R304). The service group reports a new generation, and the waiting arrival writes kd and goes on. Arguments: x group, y number of the wait, z the generation that a service group of another module reports. -/
  | pkgBarrierRelease
  /-- TQUERY_HOLD_END (R119). A waiting tquery.hold finds ownership or a share, completes and makes an antecedent record. Arguments: x gid. -/
  | tqueryHoldEnd
  /-- TOKEN_MOVE_EFFECT (R114). A moving token operation's share condition holds: it withdraws rights, drains writes, computes t and changes the entry. Arguments: x part, y base. -/
  | tokenMoveEffect
  /-- TOKEN_MOVE_COMPLETE (R114). gtime reaches t: the entry becomes held (or free for tdrop), last move is set, and the issuer completes. Arguments: x part, y base. -/
  | tokenMoveComplete
  /-- SHARE_WAIT_BOUND (R454). A token instruction's share wait reaches 100 µs; it is withdrawn and the group stops with class 0x0A code 0x0C. Arguments: x part, y base. -/
  | shareWaitBound
  /-- AACQ_GRANT (R174). A freed tile token passes to the oldest waiting group. Arguments: x core, y tile. -/
  | aacqGrant
  /-- AREL_COMPLETE (R318). The tile's pending count reaches 0, and a waiting arel completes. Arguments: x gid. -/
  | arelComplete
  /-- QUEUE_POP_ENTRY (R314). An entry reaches a queue on which a pop is pending, and it is taken into kd. Arguments: x gid, y pend. -/
  | queuePopEntry
  /-- PUSH_ROOM_RESUME (R180). Room frees in a command queue or channel, and a stalled push proceeds. Arguments: x gid. -/
  | pushRoomResume
  /-- BUSY_TOKEN_RESUME (R316). A busy completion token goes idle, and a push waiting on it takes it. Arguments: x gid. -/
  | busyTokenResume
  /-- SLCLAIM (R319). Claims an operand slot for the team. -/
  | slclaim
  /-- SLCLAIM_GRANT (R319). A freed slot passes to the oldest waiting claim. Arguments: x core, y slot. -/
  | slclaimGrant
  /-- SLREL (R319). Releases an operand slot. -/
  | slrel
  /-- SLREL_COMPLETE (R173). The slot's readers reach 0 in an empty or ready state, and a waiting slrel completes. Arguments: x gid. -/
  | slrelComplete
  /-- TWAIT (R320). Stalls until a tile-table entry is ready. -/
  | twait
  /-- CWAIT (R320). Stalls until the named completion tokens are idle. -/
  | cwait
  /-- TILE_WAIT_END (R320). The awaited entry becomes ready or the tokens go idle, and the stalled group resumes. Arguments: x gid. -/
  | tileWaitEnd
  /-- STEP_BEGIN (R332). Opens a step and records t0. -/
  | stepBegin
  /-- STEP_END (R333). Closes a step, follows the antecedent chain and writes the critical-path report. -/
  | stepEnd
  /-- TRAP (R337). Software trap to the level-1 handler with code n. -/
  | trap
  /-- ERET (R429). Resolves the handler's trap with TRACT's action after a system fence. -/
  | eret
  /-- SRD (R338). Reads a special register. -/
  | srd
  /-- SWR (R338). Writes a special register. -/
  | swr
  /-- XLINV (R339). Translation maintenance for one 64 KiB page. -/
  | xlinv
  /-- XLINV_ALL (R339). Translation maintenance for the whole context. -/
  | xlinvAll
  /-- XLINV_COMPLETE (R339). Every access translated with an old entry has reached its destination, and the stalled group resumes. Arguments: x gid. -/
  | xlinvComplete
  /-- LINV (R340). Drops cached copies of a range at core or die scope. -/
  | linv
  /-- GTIME (R341). Reads global time. -/
  | gtime
  /-- GTIME_UNTIL (R341). Stalls until a given gtime. -/
  | gtimeUntil
  /-- GTIME_UNTIL_REACHED (R341). The die's gtime reaches the target, and the stalled group resumes. Arguments: x gid. -/
  | gtimeUntilReached
  /-- RMAP (R342). Reads the current and acknowledged map versions. -/
  | rmap
  /-- RMACK (R342). Acknowledges the current map version. -/
  | rmack
  /-- DIEHOP (R343). Returns the hop distance between two virtual dies. -/
  | diehop
  /-- VDIE (R343). Returns the class of a virtual die. -/
  | vdie
  /-- CBCLAIM (R344). Claims a counter bank. -/
  | cbclaim
  /-- CBREL (R344). Releases a counter bank. -/
  | cbrel
  /-- CBREAD (R344). Reads one counter of a held bank. -/
  | cbread
  /-- CLKR (R345). Requests a slice clock ratio and returns the ratio applied. -/
  | clkr
  /-- HALT (R346). Parks the group until a CLWAKE store. -/
  | halt
  /-- WFW (R346). Stalls until a word changes from kb or 1 ms passes. -/
  | wfw
  /-- WFW_WAKE (R346). The home applies a write that makes the watched word differ, and wfw returns the word. Arguments: x gid. -/
  | wfwWake
  /-- WFW_TIMEOUT (R346). 1 ms passes since a wfw issued, and it returns the word. Arguments: x gid. -/
  | wfwTimeout
  /-- WCB_DRAIN_TIMEOUT (R128). A write-combining entry reaches 1 µs after its first write and is written through. Arguments: x core, y line. -/
  | wcbDrainTimeout
  /-- WRITE_THROUGH_APPLY (R130). A home applies a write-through message and fixes W, C and the acknowledgement. Arguments: x number of the message, flag its line's horizon cannot be read, y the completion time that another module answers with. -/
  | writeThroughApply
  /-- LINE_FILL (R125). A home hands out a copy of a line under a lease and raises the line's horizon. Arguments: x core, y partition, word address, flag for the L2 alone, z nonzero for a new copy. -/
  | lineFill
  /-- COPY_LEASE_LAPSE (R126). A cached copy's holder gtime reaches E − 20, and the copy becomes invalid. Arguments: x core, y line, flag inL2. -/
  | copyLeaseLapse
  /-- HOST_SNOOP (R148). The host port answers a host snoop that invalidates a host-memory line once die 0's gtime exceeds H + 20. Arguments: x line. -/
  | hostSnoop
  /-- CXL_MEM_READ (R399). A host CXL.mem read through a bound VF's decoder is served at the home without a copy. Arguments: x virtual function, word address, y length in bytes, flag the host caches the lines. -/
  | cxlMemRead
  /-- CXL_MEM_WRITE (R399). A host CXL.mem write is translated and applied at the home under holder kind host. Arguments: x vf, word addr, data data. -/
  | cxlMemWrite
  /-- REMOTE_REQUEST (R411). A request from another module is checked against the import entries and run in the target context. Arguments: x srcModule, y srcPart, z dstPart, word gpa, flag and data write, nums len. -/
  | remoteRequest
  /-- REQUEST_UNREACHABLE (R448). A remote or host request has no answer within 20 µs, and its issuer faults with class 0x06 code 0x09. Arguments: x req. -/
  | requestUnreachable
  /-- GRAPH_SUBMIT (R402). A GSUB write queues a graph header address, or is dropped and counted. Arguments: x part, word value. -/
  | graphSubmit
  /-- GRAPH_ACCEPT (R55). The walker reads a pending submission, checks the graph in order and accepts or refuses it. Arguments: x part. -/
  | graphAccept
  /-- NODE_DISPATCH (R66). A Ready node whose tokens are held and whose regions do not conflict is dispatched. Arguments: x partition, y graph, z node, nums core and channel of a copy or collective node. -/
  | nodeDispatch
  /-- NODE_COMPLETE (R62). A node's work and token returns finish; the completion record is written and arrivals go to successors. Arguments: x part, y graph, z node. -/
  | nodeComplete
  /-- TEAM_PLACE (R70). The walker places the first pending team that fits an eligible core, taking its private block and lending its tokens. Arguments: x part. -/
  | teamPlace
  /-- TEAM_BLOCKING (R71). A pending team passed over for 100 µs becomes blocking. Arguments: x team. -/
  | teamBlocking
  /-- TEAM_PREEMPT (R72). The walker pre-empts lower-priority teams, stops groups and engines at their points, and saves their state. Arguments: x part. -/
  | teamPreempt
  /-- TEAM_RESUME (R134). A saved team is restored on an eligible core after a system-scope fence. Arguments: x part. -/
  | teamResume
  /-- TEAM_COMPLETE (R29). A team's groups, deposits and engine commands are all done; its tokens, slots and tiles are settled. Arguments: x team. -/
  | teamComplete
  /-- SERVICE_EVALUATION (R74). Each millisecond the service controller compares delivery with targets and moves at most one cluster each way. -/
  | serviceEvaluation
  /-- CLUSTER_CLEAR (R75). A draining cluster's last team completes; the cluster is cleared and joins the recipient. Arguments: x cluster. -/
  | clusterClear
  /-- SLOT_FILL_ACCEPT (R173). A copy into a slot proceeds once the slot's readers reach 0, and the slot becomes filling. Arguments: x core, y chan. -/
  | slotFillAccept
  /-- COPY_COMPLETE (R325). A copy command completes: its token goes idle, the slot becomes ready, and a status entry goes to q3. Arguments: x core, y channel; with flag only the pieces that nums lists move; data bytes that another module sends. -/
  | copyComplete
  /-- MATRIX_SEGMENT_START (R183). The engine, with its reservation granted and its slots ready, starts an attempt of a segment. Arguments: x core. -/
  | matrixSegmentStart
  /-- SEGMENT_JUDGE (R462). The strainer judges an attempt and delivers, recomputes one element, reissues or counts. Arguments: x core, flag the engine fails in this attempt. -/
  | segmentJudge
  /-- MATRIX_COMMAND_COMPLETE (R181). A matrix command completes: the tile state, the token, the q1 entry and metering are updated. Arguments: x core. -/
  | matrixCommandComplete
  /-- ENGINE_FAULT_STOP (R423). An engine meets a fault at a page or slot and stops at its segment end as class 0x0B. Arguments: x core, y unit, z collective command, flag request lost. -/
  | engineFaultStop
  /-- COLLECTIVE_START (R330). All m commands of a collective instance are accepted, and the instance starts. Arguments: x command, nums and data of remote ranks. -/
  | collectiveStart
  /-- COLLECTIVE_COMPLETE (R331). A rank's collective completes: its token goes idle and a result entry goes to q5. Arguments: x command, y rank, flag and nums of early words. -/
  | collectiveComplete
  /-- STEEP_WINDOW_END (R187). A steep-controller window ends after 2^W tile products or 1 ms, and the rail offset moves. Arguments: x core. -/
  | steepWindowEnd
  /-- ARBITER_GRANT (R382). Each cc, the cluster arbiter grants queued current reservations within B and the capacitor floor. Arguments: x cluster. -/
  | arbiterGrant
  /-- CAPACITOR_RESTORE (R384). 20 ns after a grant, its amount is restored to the die's capacitor bank. Arguments: x die. -/
  | capacitorRestore
  /-- POWER_EPOCH (R385). Each 1 ms epoch, the power manager computes allotments, cluster budgets and headroom grants. -/
  | powerEpoch
  /-- THERMAL_SAMPLE (R391). A die samples its sensors every 10 µs and changes thermal state under thresholds and dwell. Arguments: x die. -/
  | thermalSample
  /-- CLOCK_RATIO_CHANGE (R388). A requested or limited slice ratio takes effect at a slice-cycle boundary. Arguments: x core, y slice. -/
  | clockRatioChange
  /-- CLQREQ (R393). A store to CLQREQ requests or cancels a cluster quiesce. Arguments: x cluster, word value. -/
  | clqreq
  /-- CLSAVE (R393). A store of 1 starts the retention save of a quiesced cluster. Arguments: x cluster, word value. -/
  | clsave
  /-- CLGATE (R393). A store of 1 gates the clock and rail of a saved cluster. Arguments: x cluster, word value. -/
  | clgate
  /-- CLWAKE (R393). A store of 1 wakes the cluster or releases its halted groups. Arguments: x cluster, word value. -/
  | clwake
  /-- CLUSTER_QUIESCED (R394). The quiesce conditions hold, and the cluster enters state 2. Arguments: x cluster. -/
  | clusterQuiesced
  /-- CLUSTER_SAVE_END (R395). The retention save ends, and the cluster enters state 4. Arguments: x cluster. -/
  | clusterSaveEnd
  /-- CLUSTER_RAIL_OFF (R395). The gated cluster's rail turns off. Arguments: x cluster. -/
  | clusterRailOff
  /-- CLUSTER_RESTORE_END (R395). A waking cluster finishes its restore and enters state 0. Arguments: x cluster. -/
  | clusterRestoreEnd
  /-- COUNTER_TICK (R369). At each tick, every die latches its partition's counters and writes snapshots of the masked banks. Arguments: x part, y vdie. -/
  | counterTick
  /-- ENERGY_SAMPLE (R373). Every 1 µs, each die measures rail energy and charges it to launches, partitions and the unattributed account. Arguments: x die, nums nj. -/
  | energySample
  /-- METERING_UPDATE (R376). Every 1 ms, the metering unit forms an update block and chains the digest D. Arguments: x part. -/
  | meteringUpdate
  /-- USAGE_INTERVAL_END (R377). A usage interval ends, and a signed usage record is written. Arguments: x part. -/
  | usageIntervalEnd
  /-- CLOCK_KEEPER_CHECK (R458). Every 1 µs, a die compares its counter with the reference and enters, leaves or fails on time alarm. Arguments: x die, nums deviation and 1 or 2 where its counter gains or loses 1 ns. -/
  | clockKeeperCheck
  /-- HISTOGRAM_COPY (R472). Every 1 s, the mismatch histograms are copied to non-volatile storage and weak units are marked. -/
  | histogramCopy
  /-- MAP_ACK_DEADLINE (R475). A context has not acknowledged the map 10 ms after a raise, and it is suspended with a class 0x0E record. Arguments: x part. -/
  | mapAckDeadline
  /-- HOLDER_LOST_SETTLEMENT (R455). Each home settles the entries that name a lost holder, once its write-throughs have applied or been discarded. Arguments: x part, y base. -/
  | holderLostSettlement
  /-- DIE_FATAL_ERROR (R481). A die's fatal error: the map is raised, contexts rebind, holders are lost, barriers and collectives are released with 0x81. Arguments: x die, flag over temperature. -/
  | dieFatalError
  /-- CORE_FAILURE (R474). A core or matrix rail failure, or a repeated register or operand error, fails the core. Arguments: x core, flag a hard fault that the strainer found. -/
  | coreFailure
  /-- LINK_STATE_CHANGE (R474). A mesh link fails or retrains, and the map and routes change. Arguments: x link, y state, z speed. -/
  | linkStateChange
  /-- MEMORY_UNIT_FAILURE (R474). An HBM stack or capacity channel fails, and the map is raised. Arguments: x entry. -/
  | memoryUnitFailure
  /-- PORT_STATE_CHANGE (R474). A UALink or host port fails or retrains, and the map is raised. Arguments: x entry, y state, z speed. -/
  | portStateChange
  /-- CACHE_CAPACITY_WITHDRAWN (R474). Memory-side cache capacity is withdrawn after soft errors, and the base die's speed is lowered. Arguments: x die. -/
  | cacheCapacityWithdrawn
  /-- SOFT_ERROR_POISON (R485). An uncorrectable soft error poisons the stored data it struck. Arguments: y code, x and z the place that it names, nums the lane of a register. -/
  | softErrorPoison
  /-- CAPACITOR_BANK_LOW (R486). A capacitor bank cannot hold 256 cu, and issue is held on its die until it recovers. Arguments: x die. -/
  | capacitorBankLow
  /-- POWER_LOSS (R487). On loss of input power, the module stops issue, copies the histograms and writes usage records within 2 ms. -/
  | powerLoss
  /-- DIE_RESET_DRAIN_END (R483). 50 µs after a die reset starts, the die refuses its held requests and then resets. Arguments: x die. -/
  | dieResetDrainEnd
  /-- CREATE (R406). Mailbox command 0x01 creates a partition from its descriptor. -/
  | create
  /-- DESTROY (R407). Mailbox command 0x02 stops, erases keys for and frees a partition. -/
  | destroy
  /-- BIND (R404). Mailbox command 0x03 binds a VF to a partition with VFWIN. -/
  | bindVf
  /-- UNBIND (R404). Mailbox command 0x04 unbinds a VF. -/
  | unbindVf
  /-- SETSVC (R74). Mailbox command 0x05 sets a partition's service target and floors. -/
  | setsvc
  /-- SETPOWER (R385). Mailbox command 0x06 sets the cap, the tier floors and a partition's tier. -/
  | setpower
  /-- SETTHERM (R390). Mailbox command 0x07 sets the thermal thresholds. -/
  | settherm
  /-- SPLIT (R17). Mailbox command 0x08 sets a base die's cache and vault split. -/
  | splitDie
  /-- IMPORT (R411). Mailbox command 0x09 adds or removes an import entry. -/
  | importEntry
  /-- SETREC (R377). Mailbox command 0x0A sets the host record channel. -/
  | setrec
  /-- SETDOMAIN (R410). Mailbox command 0x0B sets the module number and domain id. -/
  | setdomain
  /-- SETCTX (R404). Mailbox command 0x0C sets a partition's translation context registers. -/
  | setctx
  /-- SETFLT (R430). Mailbox command 0x0D sets the host fault ring. -/
  | setflt
  /-- RESOLVE (R430). Mailbox command 0x0E resolves a level-2 trap with an action. -/
  | resolve
  /-- TELREAD (R489). Mailbox command 0x0F writes a partition's telemetry counters to host memory. -/
  | telread
  /-- HISTREAD (R490). Mailbox command 0x10 writes a core's histograms and weak masks to host memory. -/
  | histread
  /-- DIERESET (R483). Mailbox command 0x11 starts the reset of a failed or degraded die. -/
  | diereset
  /-- LOCK_INTERFACE (R414). TDISP request that locks a VF's binding and its partition descriptor. Arguments: x vf. -/
  | lockInterface
  /-- START_INTERFACE (R414). TDISP request that moves a VF to RUN. Arguments: x vf. -/
  | startInterface
  /-- INTERFACE_REPORT (R414). TDISP request for the interface report of partition, map version and measurement 5. Arguments: x vf. -/
  | interfaceReport
  /-- SPDM_CERT (R412). SPDM request for a certificate chain of slot 0 or 1. Arguments: x fn, y slot. -/
  | spdmCert
  /-- SPDM_CHAL (R412). SPDM challenge, signed with the device identity key. Arguments: x fn, y slot, z nonce. -/
  | spdmChal
  /-- SPDM_MEAS (R413). SPDM signed measurement request over the measurement indices. Arguments: x fn, y index, z nonce. -/
  | spdmMeas
  /-- SPDM_KEY_EX (R412). SPDM key exchange that establishes a secure session. Arguments: x fn, y slot, z share. -/
  | spdmKeyEx
  /-- REGISTER_WRITE (R6). A write to a register with no row of its own sets its RW fields and is ignored in reserved bits. Arguments: x page (0 a partition's register page, 1 PF0's BAR0, 2 a VF's BAR0), y offset, z partition or VF, word value. -/
  | registerWrite
  /-- COPY_SEGMENT_END (R326). A copy channel finishes the last write of a segment that is not the copy's last; it releases its reservation and stops there if a pre-emption is pending. Arguments: x core, y channel; with flag only the pieces that nums lists move; data bytes that another module sends. -/
  | copySegmentEnd
  /-- REMOTE_REFUSAL_RESPONSE (R447). A remote module refuses a request (no import entry, or its own stage two fails), or the host completes a CXL.cache request with an error, and the issuer faults with class 0x06, code 0x08, 0x0B or 0x0C. Arguments: x req, y code. -/
  | remoteRefusalResponse
  /-- BACK_INVALIDATE_ANSWER (R148). The host answers a back-invalidate snoop, and the write held at the home for that host-cached line applies with W no earlier than the answer. Arguments: x line. -/
  | backInvalidateAnswer
  /-- CAPACITOR_BANK_RECOVERY (R486). A capacitor bank that could not hold 256 cu recovers, and issue on its die resumes. Arguments: x die. -/
  | capacitorBankRecovery
  /-- SOFT_ERROR_CORRECTED (R489). A soft error in HBM, the capacity tier, vault SRAM, a cache or core storage is corrected, and the partition's telemetry counter for that place rises. Arguments: x part, y die, z unit. -/
  | softErrorCorrected
  deriving DecidableEq, Repr, Inhabited

end Sys2Proof
end

