-- ==== Sys2Proof/Machine/Shape.lean ====
section
/-!
DEFINITION. The operand rules of every instruction word: which registers its fields read and write, and which codes of
class 0x01 its fields break (R199 to R213, R225, R432). Legality, the pending-register tests and the decoder's
well-formedness all read this one table.
-/
namespace Sys2Proof.Machine

/-- The codes of R432 that a word's fields break, the registers they read and write, whether a binding of the extension word names a
field that cannot be bound (code 0x08, judged at the extension word), and the predicate that governs the word's lanes. -/
structure Sh where
  codes : List Nat := []
  rd : List Reg := []
  wr : List Reg := []
  badBind : Bool := false
  gov : List Reg := []

/-- Both fields' rules together. -/
def Sh.both (x y : Sh) : Sh := ⟨x.codes ++ y.codes, x.rd ++ y.rd, x.wr ++ y.wr, x.badBind || y.badBind, x.gov ++ y.gov⟩



/-- The rules of several fields together. -/
def Sh.all (l : List Sh) : Sh := l.foldr Sh.both {}

/-- Registers of 32 bits that an operand of a 5-bit type code takes in the vector file (R200, R201). -/
def tyRegs (ty : BitVec 5) : Nat := if ty.toNat = 3 || ty.toNat = 7 || ty.toNat = 10 || ty.toNat = 11 then 2 else 1
/-- The 5-bit type code of an immediate type code; 31 for the reserved one (R201). -/
def immTy (t : BitVec 4) : BitVec 5 :=
  BitVec.ofNat 5 (if t.toNat ≤ 12 then t.toNat else if t.toNat = 15 then 31 else t.toNat + 1)
/-- Every integer and raw type (R225). -/
def anyT : List Nat := [0, 1, 2, 3, 4, 5, 6, 7, 8, 9, 10]
/-- Every integer type (R225). -/
def intT : List Nat := [0, 1, 2, 3, 4, 5, 6, 7]
/-- The 32- and 64-bit integer and raw types (R239). -/
def wideT : List Nat := [2, 3, 6, 7, 9, 10]
/-- `.f64`, `.f32`, `.f16`, `.bf16` (R254). -/
def fpT : List Nat := [11, 12, 14, 15]
/-- The types of a memory access (R286). -/
def memT : List Nat := [0, 1, 2, 3, 4, 5, 6, 7, 8, 9, 10, 11, 12, 14, 15]
/-- The seven floating types of a conversion (R262). -/
def floT : List Nat := [11, 12, 14, 15, 16, 17, 18]
/-- The destination types of a conversion (R262). -/
def cvtT : List Nat := [0, 1, 2, 3, 4, 5, 6, 7, 11, 12, 13, 14, 15, 16, 17, 18]
/-- The source type of a conversion (R262). -/
def srcTy (mo : Byte) : BitVec 5 := BitVec.ofNat 5 mo.toNat

/-- A code that holds when a test does. -/
def code (c : Nat) (bad : Bool) : Sh := { codes := if bad then [c] else [] }
/-- A register field that the row marks 0. -/
def z (x : Byte) : Sh := code 3 (x.toNat != 0)
/-- Bits that the row marks 0. [log 19, DEDUCED.] -/
def m0 {w : Nat} (x : BitVec w) (mask : Nat) : Sh := code 3 (x.toNat &&& mask != 0)
/-- Modifier bits of a family format that the row marks 0. -/
def zmo (x : BitVec 4) (mask : Nat) : Sh := code 3 (x.toNat &&& mask != 0)
/-- The type field lies in the row's list. -/
def ty (t : BitVec 5) (l : List Nat) : Sh := code 4 (!l.contains t.toNat)
/-- A stream binding of a field that names no vector register. -/
def bound (b : Option (BitVec 3)) : Sh := { badBind := b.isSome }
/-- No binding is on (R290). -/
def noBind (e : Ext) : Sh := { badBind := e.bindD.isSome || e.bindA.isSome || e.bindB.isSome }
/-- `n` vector registers from number `x`. -/
def vList (x n : Nat) : List Reg := (List.range n).map (fun j => Reg.v (x + j))
/-- Reads `n` vector registers from `x`, a multiple of `al`. -/
def rdV (x n al : Nat) : Sh := { codes := if x % al = 0 then [] else [6], rd := vList x n }
/-- Writes `n` vector registers from `x`, a multiple of `al`. -/
def wrV (x n al : Nat) : Sh := { codes := if x % al = 0 then [] else [6], wr := vList x n }
/-- Reads a uniform register. -/
def rdK (x : Byte) : Sh := { rd := [.k x.toNat] }
/-- Writes a uniform register. -/
def wrK (x : Byte) : Sh := { wr := [.k x.toNat] }
/-- Writes a predicate. -/
def wrP (x : Nat) : Sh := { wr := [.p x] }
/-- A uniform register source. -/
def kreg (x : Byte) : Sh := Sh.both (code 5 (63 < x.toNat)) (rdK x)
/-- A uniform register destination of a system word. -/
def dKs (x : Byte) : Sh := Sh.both (code 5 (63 < x.toNat)) (wrK x)
/-- Four uniform registers from a multiple of 4 (R112). -/
def kquad (x : Byte) : Sh :=
  Sh.both (code 5 (63 < x.toNat)) { codes := if x.toNat % 4 = 0 then [] else [6], wr := (List.range 4).map (fun j => Reg.k (x.toNat + j)) }
/-- A predicate register that is written. -/
def preg (x : Byte) : Sh := Sh.both (code 5 (7 < x.toNat)) (wrP x.toNat)
/-- A predicate register source with its kind field. -/
def pred (x : Byte) (k : BitVec 2) : Sh := { codes := if 7 < x.toNat || k.toNat ≠ 0 then [5] else [], rd := [.p x.toNat] }
/-- A governing predicate. -/
def pgov (x : BitVec 3) : Sh := { rd := [.p x.toNat], gov := [.p x.toNat] }
/-- A stream register field. -/
def xreg (x : Byte) : Sh := code 5 (7 < x.toNat)
/-- The predicates that `p2v` reads (R244). -/
def readPs : Sh := { rd := (List.range 8).map Reg.p }
/-- The predicates that `v2p` writes (R244). -/
def writePs (mask : Byte) : Sh := { wr := ((List.range 8).filter (fun i => mask.getLsbD i)).map Reg.p }

/-- A source field and its kind, with the kinds it may take and the vector registers it reads (R200, R208). -/
def sK (b : Option (BitVec 3)) (x : Byte) (k : BitVec 2) (kinds : List Nat) (n : Nat) : Sh :=
  if b.isSome then { badBind := !kinds.contains 0 || x.toNat != 0 || k.toNat != 0 }
  else if !kinds.contains k.toNat then { codes := [5] }
  else match k.toNat with
    | 0 => rdV x.toNat n n
    | 1 => kreg x
    | 2 => code 4 (7 < x.toNat)
    | _ => {}

/-- Source A of Format R. -/
def sA (e : Ext) (f : FR) (n : Nat) : Sh := sK e.bindA f.a f.ak [0, 1, 2, 3] n
/-- Source B of Format R. -/
def sB (e : Ext) (f : FR) (n : Nat) : Sh := sK e.bindB f.b f.bk [0, 1, 2, 3] n
/-- Source C of Format R; no binding governs it. -/
def sC (_ : Ext) (f : FR) (n : Nat) : Sh := sK none f.c f.ck [0, 1, 2, 3] n
/-- Source A is unused. -/
def zA (e : Ext) (f : FR) : Sh := Sh.both (bound e.bindA) (code 3 (f.a.toNat != 0 || f.ak.toNat != 0))
/-- Source B is unused. -/
def zB (e : Ext) (f : FR) : Sh := Sh.both (bound e.bindB) (code 3 (f.b.toNat != 0 || f.bk.toNat != 0))
/-- Source C is unused. -/
def zC (f : FR) : Sh := code 3 (f.c.toNat != 0 || f.ck.toNat != 0)
/-- Source C of `cvt.pk`: a source of any kind, whose number is 0 where dt is f16 or bf16 (R264). [log 120, DEDUCED.] -/
def pkC (e : Ext) (f : FR) : Sh :=
  Sh.both (sC e f 1) (code 3 ((f.ty.toNat == 14 || f.ty.toNat == 15) && f.c.toNat != 0))
/-- A vector destination of `n` registers (R208). -/
def dV (e : Ext) (x : Byte) (n : Nat) : Sh :=
  if e.bindD.isSome then { badBind := x.toNat != 0 } else wrV x.toNat n n
/-- A uniform destination. -/
def dK (e : Ext) (x : Byte) : Sh := Sh.both (bound e.bindD) (dKs x)
/-- A predicate destination. -/
def dP (e : Ext) (x : Byte) : Sh := Sh.both (bound e.bindD) (preg x)
/-- No destination. -/
def dZ (e : Ext) (x : Byte) : Sh := Sh.both (bound e.bindD) (z x)

/-- The modifier of a compare: `n` conditions and four accumulations (R242, R257). -/
def setpMo (mo : Byte) (n : Nat) : Sh := code 4 (n ≤ mo.toNat % 16 || 4 ≤ mo.toNat / 16 % 8)
/-- Vector registers of a floating-point operand of major 0x40. -/
def fpRegs (t : BitVec 5) (_ : Byte) : Nat := tyRegs t
/-- The modifier of major 0x40: `negs` holds the negate bits the row may set (R254). -/
def fpMo (t : BitVec 5) (mo : Byte) (negs : Nat) : Sh :=
  Sh.both (m0 mo 0xF0) (code 4 (mo.toNat % 8 &&& (7 - negs) != 0 || (mo.getLsbD 3 && t.toNat ≠ 14 && t.toNat ≠ 15)))
/-- Elements that a type packs into 32 bits (R263). -/
def packs (t : Nat) : Nat :=
  if t = 18 then 8 else if t = 0 || t = 4 || t = 16 || t = 17 then 4
  else if t = 1 || t = 5 || t = 14 || t = 15 then 2 else 1
/-- The source type and element index of a conversion (R262, R263). -/
def cvtMo (f : FR) : Sh :=
  let s := f.mo.toNat % 32
  let ok := floT.contains s && floT.contains f.ty.toNat || s == 12 && f.ty.toNat == 13
    || intT.contains s && floT.contains f.ty.toNat || floT.contains s && intT.contains f.ty.toNat
  let e := f.mo.toNat / 32
  code 4 (!ok || (if 2 ≤ f.ak.toNat then e != 0 else packs s ≤ e))
/-- The element type and index of `mxdec` (R267). -/
def mxdecMo (mo : Byte) : Sh :=
  let t := mo.toNat % 32
  code 4 (!(t == 0x13 && mo.toNat / 32 < 4 || t == 0x14))
/-- The modifier of `shfl`: width, the wrap bit where `wrap` marks it reserved, the validity predicate (R276). -/
def shflMo (mo : Byte) (wrap : Nat) : Sh :=
  let en := mo.getLsbD 4
  Sh.both (Sh.both (code 4 (5 < mo.toNat % 8)) (m0 mo wrap))
    (if en then wrP (mo.toNat / 32) else code 3 (mo.toNat / 32 != 0))
/-- The input of a vote: a predicate, or a vector register under `.nz` (R278). -/
def voteA (e : Ext) (f : FR) : Sh :=
  if f.mo.getLsbD 3 then sK e.bindA f.a f.ak [0] 1 else Sh.both (bound e.bindA) (pred f.a f.ak)
/-- Registers of a load's or store's elements (R287). -/
def memRegs (f : FM) : Nat := 2 ^ (f.mo.toNat % 4) * tyRegs f.ty
/-- The base of a memory access (R204, R80). -/
def memBase (f : FM) : Sh :=
  if f.uni then kreg f.base
  else if f.space.toNat = 3 then rdV f.base.toNat 2 2 else rdV f.base.toNat 1 1
/-- A base that must be uniform, in a space other than private (R286). -/
def uniBase (f : FM) : Sh :=
  Sh.both (code 4 (!f.uni || f.space.toNat == 0)) (if f.uni then kreg f.base else {})
/-- A control word's offset that the row marks 0. -/
def zoff (f : FB) : Sh := code 3 (f.off.toNat != 0)
/-- Source A of a fence or barrier that is unused. -/
def ffA (f : FF) : Sh := code 3 (f.a.toNat != 0 || f.ak.toNat != 0)
/-- Source B of a fence or barrier that is unused. -/
def ffB (f : FF) : Sh := code 3 (f.b.toNat != 0 || f.bk.toNat != 0)
/-- The barrier count: a uniform register or an inline 1 to 127 (R300). -/
def barN (f : FF) : Sh :=
  match f.bk.toNat with
  | 1 => kreg f.b
  | 3 => code 4 (f.b.toNat = 0 || 127 < f.b.toNat)
  | _ => { codes := [5] }
/-- Source A of a system word that is unused. -/
def fsA0 (f : FS) : Sh := code 3 (f.a.toNat != 0 || f.ak.toNat != 0)
/-- Source B of a system word that is unused. -/
def fsB0 (f : FS) : Sh := code 3 (f.b.toNat != 0 || f.bk.toNat != 0)
/-- Words of an accumulator access (R318). -/
def cntOf (mo : BitVec 4) : Nat := 2 ^ (mo.toNat % 4)
/-- The special registers that `srd` may name (R338, R426). -/
def srReadable (n : Nat) : Bool := n ≤ 5 || n == 0x10 || n == 0x11 || (0x20 ≤ n && n ≤ 0x2A)
/-- The special registers that `swr` may name (R338, R426). -/
def srWritable (n : Nat) : Bool := n == 0x10 || (0x20 ≤ n && n ≤ 0x2A)

/-- What a word's fields name and break, one row per word of the opcode table; a step of another unit names nothing. [log 19, DEDUCED.] -/
def shape (e : Ext) (i : Instr) : Sh :=
  match i with
  | .moduleReset => {}
  | .unitSelfTestPass => {}
  | .issueSelect => {}
  | .clauseEntry => {}
  | .frontierRelease => {}
  | .variableLatencyWriteback => {}
  | .streamReadAhead => {}
  | .nop => {}
  | .bra f => Sh.all [pgov f.pred, z f.d, z f.a]
  | .brxV f => Sh.all [pgov f.pred, z f.d, rdV f.a.toNat 2 2, zoff f]
  | .brxK f => Sh.all [pgov f.pred, z f.d, kreg f.a, zoff f]
  | .call f => Sh.all [pgov f.pred, wrV f.d.toNat 2 2, z f.a]
  | .callV f => Sh.all [pgov f.pred, wrV f.d.toNat 2 2, rdV f.a.toNat 2 2, zoff f]
  | .callK f => Sh.all [pgov f.pred, wrV f.d.toNat 2 2, kreg f.a, zoff f]
  | .ret f => Sh.all [pgov f.pred, z f.d, rdV f.a.toNat 2 2, zoff f]
  | .exit f => Sh.all [pgov f.pred, z f.d, z f.a, zoff f]
  | .loop f => Sh.all [pgov f.pred, z f.d, kreg f.a, wrK f.a, code 4 (f.off.toNat ≠ 1)]
  | .loopBufferFree => {}
  | .yield => {}
  | .elect f => Sh.all [pgov f.pred, preg f.d, z f.a, zoff f]
  | .electK f => Sh.all [pgov f.pred, preg f.d, code 5 (63 < f.a.toNat), wrK f.a, zoff f]
  | .add f => Sh.all [ty f.ty anyT, dV e f.d (tyRegs f.ty), sA e f (tyRegs f.ty), sB e f (tyRegs f.ty), zC f, m0 f.mo 0xFF]
  | .sub f => Sh.all [ty f.ty anyT, dV e f.d (tyRegs f.ty), sA e f (tyRegs f.ty), sB e f (tyRegs f.ty), zC f, m0 f.mo 0xFF]
  | .mulLo f => Sh.all [ty f.ty intT, dV e f.d (tyRegs f.ty), sA e f (tyRegs f.ty), sB e f (tyRegs f.ty), zC f, m0 f.mo 0xFF]
  | .mulHi f => Sh.all [ty f.ty intT, dV e f.d (tyRegs f.ty), sA e f (tyRegs f.ty), sB e f (tyRegs f.ty), zC f, m0 f.mo 0xFF]
  | .madLo f => Sh.all [ty f.ty intT, dV e f.d (tyRegs f.ty), sA e f (tyRegs f.ty), sB e f (tyRegs f.ty), sC e f (tyRegs f.ty), m0 f.mo 0xFF]
  | .mulWide f => Sh.all [ty f.ty [2, 6], dV e f.d 2, sA e f (1), sB e f (1), zC f, m0 f.mo 0xFF]
  | .abs f => Sh.all [ty f.ty [0, 1, 2, 3], dV e f.d (tyRegs f.ty), sA e f (tyRegs f.ty), zB e f, zC f, m0 f.mo 0xFF]
  | .neg f => Sh.all [ty f.ty intT, dV e f.d (tyRegs f.ty), sA e f (tyRegs f.ty), zB e f, zC f, m0 f.mo 0xFF]
  | .min f => Sh.all [ty f.ty intT, dV e f.d (tyRegs f.ty), sA e f (tyRegs f.ty), sB e f (tyRegs f.ty), zC f, m0 f.mo 0xFF]
  | .max f => Sh.all [ty f.ty intT, dV e f.d (tyRegs f.ty), sA e f (tyRegs f.ty), sB e f (tyRegs f.ty), zC f, m0 f.mo 0xFF]
  | .addSat f => Sh.all [ty f.ty intT, dV e f.d (tyRegs f.ty), sA e f (tyRegs f.ty), sB e f (tyRegs f.ty), zC f, m0 f.mo 0xFF]
  | .subSat f => Sh.all [ty f.ty intT, dV e f.d (tyRegs f.ty), sA e f (tyRegs f.ty), sB e f (tyRegs f.ty), zC f, m0 f.mo 0xFF]
  | .div f => Sh.all [ty f.ty intT, dV e f.d (tyRegs f.ty), sA e f (tyRegs f.ty), sB e f (tyRegs f.ty), zC f, m0 f.mo 0xFF]
  | .rem f => Sh.all [ty f.ty intT, dV e f.d (tyRegs f.ty), sA e f (tyRegs f.ty), sB e f (tyRegs f.ty), zC f, m0 f.mo 0xFF]
  | .and f => Sh.all [ty f.ty anyT, dV e f.d (tyRegs f.ty), sA e f (tyRegs f.ty), sB e f (tyRegs f.ty), zC f, m0 f.mo 0xFF]
  | .or f => Sh.all [ty f.ty anyT, dV e f.d (tyRegs f.ty), sA e f (tyRegs f.ty), sB e f (tyRegs f.ty), zC f, m0 f.mo 0xFF]
  | .xor f => Sh.all [ty f.ty anyT, dV e f.d (tyRegs f.ty), sA e f (tyRegs f.ty), sB e f (tyRegs f.ty), zC f, m0 f.mo 0xFF]
  | .not f => Sh.all [ty f.ty anyT, dV e f.d (tyRegs f.ty), sA e f (tyRegs f.ty), zB e f, zC f, m0 f.mo 0xFF]
  | .bool3 f => Sh.all [ty f.ty anyT, dV e f.d (tyRegs f.ty), sA e f (tyRegs f.ty), sB e f (tyRegs f.ty), sC e f (tyRegs f.ty)]
  | .shl f => Sh.all [ty f.ty anyT, dV e f.d (tyRegs f.ty), sA e f (tyRegs f.ty), sB e f (tyRegs f.ty), zC f, m0 f.mo 0xFF]
  | .shr f => Sh.all [ty f.ty anyT, dV e f.d (tyRegs f.ty), sA e f (tyRegs f.ty), sB e f (tyRegs f.ty), zC f, m0 f.mo 0xFF]
  | .sar f => Sh.all [ty f.ty anyT, dV e f.d (tyRegs f.ty), sA e f (tyRegs f.ty), sB e f (tyRegs f.ty), zC f, m0 f.mo 0xFF]
  | .fsl f => Sh.all [ty f.ty [9, 10], dV e f.d (tyRegs f.ty), sA e f (tyRegs f.ty), sB e f (tyRegs f.ty), sC e f (tyRegs f.ty), m0 f.mo 0xFE]
  | .fsr f => Sh.all [ty f.ty [9, 10], dV e f.d (tyRegs f.ty), sA e f (tyRegs f.ty), sB e f (tyRegs f.ty), sC e f (tyRegs f.ty), m0 f.mo 0xFE]
  | .popc f => Sh.all [ty f.ty wideT, dV e f.d 1, sA e f (tyRegs f.ty), zB e f, zC f, m0 f.mo 0xFF]
  | .clz f => Sh.all [ty f.ty wideT, dV e f.d 1, sA e f (tyRegs f.ty), zB e f, zC f, m0 f.mo 0xFF]
  | .ctz f => Sh.all [ty f.ty wideT, dV e f.d 1, sA e f (tyRegs f.ty), zB e f, zC f, m0 f.mo 0xFF]
  | .brev f => Sh.all [ty f.ty wideT, dV e f.d (tyRegs f.ty), sA e f (tyRegs f.ty), zB e f, zC f, m0 f.mo 0xFF]
  | .bfe f => Sh.all [ty f.ty [2, 3, 6, 7], dV e f.d (tyRegs f.ty), sA e f (tyRegs f.ty), sB e f (tyRegs f.ty), zC f, m0 f.mo 0xFF]
  | .bfi f => Sh.all [ty f.ty [9, 10], dV e f.d (tyRegs f.ty), sA e f (tyRegs f.ty), sB e f (tyRegs f.ty), sC e f (tyRegs f.ty), m0 f.mo 0xFF]
  | .bsel f => Sh.all [ty f.ty [9], dV e f.d (tyRegs f.ty), sA e f (tyRegs f.ty), sB e f (tyRegs f.ty), sC e f (tyRegs f.ty), m0 f.mo 0xFF]
  | .setp f => Sh.all [ty f.ty intT, dP e f.d, sA e f (tyRegs f.ty), sB e f (tyRegs f.ty), zC f, setpMo f.mo 6]
  | .sel f => Sh.all [ty f.ty anyT, dV e f.d (tyRegs f.ty), sA e f (tyRegs f.ty), sB e f (tyRegs f.ty), pred f.c f.ck, m0 f.mo 0xFF]
  | .plop f => Sh.all [m0 f.ty 0x1F, dP e f.d, bound e.bindA, pred f.a f.ak, bound e.bindB, pred f.b f.bk, pred f.c f.ck]
  | .p2v f => Sh.all [m0 f.ty 0x1F, dV e f.d 1, zA e f, zB e f, zC f, m0 f.mo 0xFF, readPs]
  | .v2p f => Sh.all [m0 f.ty 0x1F, dZ e f.d, sK e.bindA f.a f.ak [0] 1, zB e f, zC f, m0 f.mo 1, writePs f.mo]
  | .leaExt f => Sh.all [ty f.ty [6, 7], dV e f.d (tyRegs f.ty), sA e f (tyRegs f.ty), sK e.bindB f.b f.bk [0, 1, 2, 3] (if f.ty.toNat = 7 && f.mo.toNat < 64 then 2 else 1), zC f, (if f.ty.toNat = 7 then code 4 (f.mo.toNat / 64 = 3) else m0 f.mo 0xC0)]
  | .leaSp f => Sh.all [ty f.ty [6], dV e f.d (tyRegs f.ty), sA e f (1), sB e f (1), sC e f (1), m0 f.mo 0xC0]
  | .mov f => Sh.all [ty f.ty anyT, dV e f.d (tyRegs f.ty), sA e f (tyRegs f.ty), zB e f, zC f, m0 f.mo 0xFF]
  | .addImm f => Sh.all [ty (immTy f.ty) anyT, dV e f.d (tyRegs (immTy f.ty)), sK e.bindA f.a 0 [0] (tyRegs (immTy f.ty)), bound e.bindB]
  | .subImm f => Sh.all [ty (immTy f.ty) anyT, dV e f.d (tyRegs (immTy f.ty)), sK e.bindA f.a 0 [0] (tyRegs (immTy f.ty)), bound e.bindB]
  | .mulLoImm f => Sh.all [ty (immTy f.ty) intT, dV e f.d (tyRegs (immTy f.ty)), sK e.bindA f.a 0 [0] (tyRegs (immTy f.ty)), bound e.bindB]
  | .mulHiImm f => Sh.all [ty (immTy f.ty) intT, dV e f.d (tyRegs (immTy f.ty)), sK e.bindA f.a 0 [0] (tyRegs (immTy f.ty)), bound e.bindB]
  | .minImm f => Sh.all [ty (immTy f.ty) intT, dV e f.d (tyRegs (immTy f.ty)), sK e.bindA f.a 0 [0] (tyRegs (immTy f.ty)), bound e.bindB]
  | .maxImm f => Sh.all [ty (immTy f.ty) intT, dV e f.d (tyRegs (immTy f.ty)), sK e.bindA f.a 0 [0] (tyRegs (immTy f.ty)), bound e.bindB]
  | .addSatImm f => Sh.all [ty (immTy f.ty) intT, dV e f.d (tyRegs (immTy f.ty)), sK e.bindA f.a 0 [0] (tyRegs (immTy f.ty)), bound e.bindB]
  | .subSatImm f => Sh.all [ty (immTy f.ty) intT, dV e f.d (tyRegs (immTy f.ty)), sK e.bindA f.a 0 [0] (tyRegs (immTy f.ty)), bound e.bindB]
  | .divImm f => Sh.all [ty (immTy f.ty) intT, dV e f.d (tyRegs (immTy f.ty)), sK e.bindA f.a 0 [0] (tyRegs (immTy f.ty)), bound e.bindB]
  | .remImm f => Sh.all [ty (immTy f.ty) intT, dV e f.d (tyRegs (immTy f.ty)), sK e.bindA f.a 0 [0] (tyRegs (immTy f.ty)), bound e.bindB]
  | .andImm f => Sh.all [ty (immTy f.ty) anyT, dV e f.d (tyRegs (immTy f.ty)), sK e.bindA f.a 0 [0] (tyRegs (immTy f.ty)), bound e.bindB]
  | .orImm f => Sh.all [ty (immTy f.ty) anyT, dV e f.d (tyRegs (immTy f.ty)), sK e.bindA f.a 0 [0] (tyRegs (immTy f.ty)), bound e.bindB]
  | .xorImm f => Sh.all [ty (immTy f.ty) anyT, dV e f.d (tyRegs (immTy f.ty)), sK e.bindA f.a 0 [0] (tyRegs (immTy f.ty)), bound e.bindB]
  | .shlImm f => Sh.all [ty (immTy f.ty) anyT, dV e f.d (tyRegs (immTy f.ty)), sK e.bindA f.a 0 [0] (tyRegs (immTy f.ty)), bound e.bindB]
  | .shrImm f => Sh.all [ty (immTy f.ty) anyT, dV e f.d (tyRegs (immTy f.ty)), sK e.bindA f.a 0 [0] (tyRegs (immTy f.ty)), bound e.bindB]
  | .sarImm f => Sh.all [ty (immTy f.ty) anyT, dV e f.d (tyRegs (immTy f.ty)), sK e.bindA f.a 0 [0] (tyRegs (immTy f.ty)), bound e.bindB]
  | .movImm f => Sh.all [ty (immTy f.ty) anyT, dV e f.d (tyRegs (immTy f.ty)), bound e.bindA, bound e.bindB, z f.a]
  | .uAdd f => Sh.all [ty f.ty anyT, dK e f.d, sK none f.a f.ak [1, 2, 3] 1, sK none f.b f.bk [1, 2, 3] 1, zC f, m0 f.mo 0xFF]
  | .uSub f => Sh.all [ty f.ty anyT, dK e f.d, sK none f.a f.ak [1, 2, 3] 1, sK none f.b f.bk [1, 2, 3] 1, zC f, m0 f.mo 0xFF]
  | .uMulLo f => Sh.all [ty f.ty intT, dK e f.d, sK none f.a f.ak [1, 2, 3] 1, sK none f.b f.bk [1, 2, 3] 1, zC f, m0 f.mo 0xFF]
  | .uMulHi f => Sh.all [ty f.ty intT, dK e f.d, sK none f.a f.ak [1, 2, 3] 1, sK none f.b f.bk [1, 2, 3] 1, zC f, m0 f.mo 0xFF]
  | .uMadLo f => Sh.all [ty f.ty intT, dK e f.d, sK none f.a f.ak [1, 2, 3] 1, sK none f.b f.bk [1, 2, 3] 1, sK none f.c f.ck [1, 2, 3] 1, m0 f.mo 0xFF]
  | .uMulWide f => Sh.all [ty f.ty [2, 6], dK e f.d, sK none f.a f.ak [1, 2, 3] 1, sK none f.b f.bk [1, 2, 3] 1, zC f, m0 f.mo 0xFF]
  | .uAbs f => Sh.all [ty f.ty [0, 1, 2, 3], dK e f.d, sK none f.a f.ak [1, 2, 3] 1, zB e f, zC f, m0 f.mo 0xFF]
  | .uNeg f => Sh.all [ty f.ty intT, dK e f.d, sK none f.a f.ak [1, 2, 3] 1, zB e f, zC f, m0 f.mo 0xFF]
  | .uMin f => Sh.all [ty f.ty intT, dK e f.d, sK none f.a f.ak [1, 2, 3] 1, sK none f.b f.bk [1, 2, 3] 1, zC f, m0 f.mo 0xFF]
  | .uMax f => Sh.all [ty f.ty intT, dK e f.d, sK none f.a f.ak [1, 2, 3] 1, sK none f.b f.bk [1, 2, 3] 1, zC f, m0 f.mo 0xFF]
  | .uAddSat f => Sh.all [ty f.ty intT, dK e f.d, sK none f.a f.ak [1, 2, 3] 1, sK none f.b f.bk [1, 2, 3] 1, zC f, m0 f.mo 0xFF]
  | .uSubSat f => Sh.all [ty f.ty intT, dK e f.d, sK none f.a f.ak [1, 2, 3] 1, sK none f.b f.bk [1, 2, 3] 1, zC f, m0 f.mo 0xFF]
  | .uDiv f => Sh.all [ty f.ty intT, dK e f.d, sK none f.a f.ak [1, 2, 3] 1, sK none f.b f.bk [1, 2, 3] 1, zC f, m0 f.mo 0xFF]
  | .uRem f => Sh.all [ty f.ty intT, dK e f.d, sK none f.a f.ak [1, 2, 3] 1, sK none f.b f.bk [1, 2, 3] 1, zC f, m0 f.mo 0xFF]
  | .uAnd f => Sh.all [ty f.ty anyT, dK e f.d, sK none f.a f.ak [1, 2, 3] 1, sK none f.b f.bk [1, 2, 3] 1, zC f, m0 f.mo 0xFF]
  | .uOr f => Sh.all [ty f.ty anyT, dK e f.d, sK none f.a f.ak [1, 2, 3] 1, sK none f.b f.bk [1, 2, 3] 1, zC f, m0 f.mo 0xFF]
  | .uXor f => Sh.all [ty f.ty anyT, dK e f.d, sK none f.a f.ak [1, 2, 3] 1, sK none f.b f.bk [1, 2, 3] 1, zC f, m0 f.mo 0xFF]
  | .uNot f => Sh.all [ty f.ty anyT, dK e f.d, sK none f.a f.ak [1, 2, 3] 1, zB e f, zC f, m0 f.mo 0xFF]
  | .uBool3 f => Sh.all [ty f.ty anyT, dK e f.d, sK none f.a f.ak [1, 2, 3] 1, sK none f.b f.bk [1, 2, 3] 1, sK none f.c f.ck [1, 2, 3] 1]
  | .uShl f => Sh.all [ty f.ty anyT, dK e f.d, sK none f.a f.ak [1, 2, 3] 1, sK none f.b f.bk [1, 2, 3] 1, zC f, m0 f.mo 0xFF]
  | .uShr f => Sh.all [ty f.ty anyT, dK e f.d, sK none f.a f.ak [1, 2, 3] 1, sK none f.b f.bk [1, 2, 3] 1, zC f, m0 f.mo 0xFF]
  | .uSar f => Sh.all [ty f.ty anyT, dK e f.d, sK none f.a f.ak [1, 2, 3] 1, sK none f.b f.bk [1, 2, 3] 1, zC f, m0 f.mo 0xFF]
  | .uFsl f => Sh.all [ty f.ty [9, 10], dK e f.d, sK none f.a f.ak [1, 2, 3] 1, sK none f.b f.bk [1, 2, 3] 1, sK none f.c f.ck [1, 2, 3] 1, m0 f.mo 0xFE]
  | .uFsr f => Sh.all [ty f.ty [9, 10], dK e f.d, sK none f.a f.ak [1, 2, 3] 1, sK none f.b f.bk [1, 2, 3] 1, sK none f.c f.ck [1, 2, 3] 1, m0 f.mo 0xFE]
  | .uPopc f => Sh.all [ty f.ty wideT, dK e f.d, sK none f.a f.ak [1, 2, 3] 1, zB e f, zC f, m0 f.mo 0xFF]
  | .uClz f => Sh.all [ty f.ty wideT, dK e f.d, sK none f.a f.ak [1, 2, 3] 1, zB e f, zC f, m0 f.mo 0xFF]
  | .uCtz f => Sh.all [ty f.ty wideT, dK e f.d, sK none f.a f.ak [1, 2, 3] 1, zB e f, zC f, m0 f.mo 0xFF]
  | .uBrev f => Sh.all [ty f.ty wideT, dK e f.d, sK none f.a f.ak [1, 2, 3] 1, zB e f, zC f, m0 f.mo 0xFF]
  | .uBfe f => Sh.all [ty f.ty [2, 3, 6, 7], dK e f.d, sK none f.a f.ak [1, 2, 3] 1, sK none f.b f.bk [1, 2, 3] 1, zC f, m0 f.mo 0xFF]
  | .uBfi f => Sh.all [ty f.ty [9, 10], dK e f.d, sK none f.a f.ak [1, 2, 3] 1, sK none f.b f.bk [1, 2, 3] 1, sK none f.c f.ck [1, 2, 3] 1, m0 f.mo 0xFF]
  | .uBsel f => Sh.all [ty f.ty [9], dK e f.d, sK none f.a f.ak [1, 2, 3] 1, sK none f.b f.bk [1, 2, 3] 1, sK none f.c f.ck [1, 2, 3] 1, m0 f.mo 0xFF]
  | .usetp f => Sh.all [ty f.ty intT, dP e f.d, sK none f.a f.ak [1, 2, 3] 1, sK none f.b f.bk [1, 2, 3] 1, zC f, setpMo f.mo 6]
  | .uSel f => Sh.all [ty f.ty anyT, dK e f.d, sK none f.a f.ak [1, 2, 3] 1, sK none f.b f.bk [1, 2, 3] 1, sK none f.c f.ck [1, 2, 3] 1, m0 f.mo 0xFF]
  | .uLeaExt f => Sh.all [ty f.ty [6, 7], dK e f.d, sK none f.a f.ak [1, 2, 3] 1, sK none f.b f.bk [1, 2, 3] 1, zC f, (if f.ty.toNat = 7 then code 4 (f.mo.toNat / 64 = 3) else m0 f.mo 0xC0)]
  | .uLeaSp f => Sh.all [ty f.ty [6], dK e f.d, sK none f.a f.ak [1, 2, 3] 1, sK none f.b f.bk [1, 2, 3] 1, sK none f.c f.ck [1, 2, 3] 1, m0 f.mo 0xC0]
  | .uMov f => Sh.all [ty f.ty anyT, dK e f.d, sK none f.a f.ak [1, 2, 3] 1, zB e f, zC f, m0 f.mo 0xFF]
  | .umov f => Sh.all [ty f.ty anyT, dK e f.d, sK none f.a f.ak [0] (tyRegs f.ty), zB e f, zC f, m0 f.mo 0xFF]
  | .uAddImm f => Sh.all [ty (immTy f.ty) anyT, dK e f.d, sK none f.a 1 [1] 1]
  | .uSubImm f => Sh.all [ty (immTy f.ty) anyT, dK e f.d, sK none f.a 1 [1] 1]
  | .uMulLoImm f => Sh.all [ty (immTy f.ty) intT, dK e f.d, sK none f.a 1 [1] 1]
  | .uMinImm f => Sh.all [ty (immTy f.ty) intT, dK e f.d, sK none f.a 1 [1] 1]
  | .uMaxImm f => Sh.all [ty (immTy f.ty) intT, dK e f.d, sK none f.a 1 [1] 1]
  | .uAndImm f => Sh.all [ty (immTy f.ty) anyT, dK e f.d, sK none f.a 1 [1] 1]
  | .uOrImm f => Sh.all [ty (immTy f.ty) anyT, dK e f.d, sK none f.a 1 [1] 1]
  | .uXorImm f => Sh.all [ty (immTy f.ty) anyT, dK e f.d, sK none f.a 1 [1] 1]
  | .uShlImm f => Sh.all [ty (immTy f.ty) anyT, dK e f.d, sK none f.a 1 [1] 1]
  | .uShrImm f => Sh.all [ty (immTy f.ty) anyT, dK e f.d, sK none f.a 1 [1] 1]
  | .uSarImm f => Sh.all [ty (immTy f.ty) anyT, dK e f.d, sK none f.a 1 [1] 1]
  | .uMovImm f => Sh.all [ty (immTy f.ty) anyT, dK e f.d, z f.a]
  | .movhi f => Sh.all [ty (immTy f.ty) [10], dK e f.d, rdK f.d, z f.a]
  | .fadd f => Sh.all [ty f.ty fpT, dV e f.d (fpRegs f.ty f.mo), sA e f (tyRegs f.ty), sB e f (tyRegs f.ty), zC f, fpMo f.ty f.mo 3]
  | .fsub f => Sh.all [ty f.ty fpT, dV e f.d (fpRegs f.ty f.mo), sA e f (tyRegs f.ty), sB e f (tyRegs f.ty), zC f, fpMo f.ty f.mo 3]
  | .fmul f => Sh.all [ty f.ty fpT, dV e f.d (fpRegs f.ty f.mo), sA e f (tyRegs f.ty), sB e f (tyRegs f.ty), zC f, fpMo f.ty f.mo 3]
  | .fma f => Sh.all [ty f.ty fpT, dV e f.d (fpRegs f.ty f.mo), sA e f (tyRegs f.ty), sB e f (tyRegs f.ty), sC e f (tyRegs f.ty), fpMo f.ty f.mo 7]
  | .fmin f => Sh.all [ty f.ty fpT, dV e f.d (fpRegs f.ty f.mo), sA e f (tyRegs f.ty), sB e f (tyRegs f.ty), zC f, fpMo f.ty f.mo 3]
  | .fmax f => Sh.all [ty f.ty fpT, dV e f.d (fpRegs f.ty f.mo), sA e f (tyRegs f.ty), sB e f (tyRegs f.ty), zC f, fpMo f.ty f.mo 3]
  | .minnum f => Sh.all [ty f.ty fpT, dV e f.d (fpRegs f.ty f.mo), sA e f (tyRegs f.ty), sB e f (tyRegs f.ty), zC f, fpMo f.ty f.mo 3]
  | .maxnum f => Sh.all [ty f.ty fpT, dV e f.d (fpRegs f.ty f.mo), sA e f (tyRegs f.ty), sB e f (tyRegs f.ty), zC f, fpMo f.ty f.mo 3]
  | .fabs f => Sh.all [ty f.ty fpT, dV e f.d (fpRegs f.ty f.mo), sA e f (tyRegs f.ty), zB e f, zC f, fpMo f.ty f.mo 0]
  | .fneg f => Sh.all [ty f.ty fpT, dV e f.d (fpRegs f.ty f.mo), sA e f (tyRegs f.ty), zB e f, zC f, fpMo f.ty f.mo 0]
  | .copysign f => Sh.all [ty f.ty fpT, dV e f.d (fpRegs f.ty f.mo), sA e f (tyRegs f.ty), sB e f (tyRegs f.ty), zC f, fpMo f.ty f.mo 0]
  | .fsetp f => Sh.all [ty f.ty fpT, dP e f.d, sA e f (tyRegs f.ty), sB e f (tyRegs f.ty), zC f, setpMo f.mo 14]
  | .classOp f => Sh.all [ty f.ty fpT, dV e f.d 1, sA e f (tyRegs f.ty), zB e f, zC f, m0 f.mo 0xFF]
  | .scale f => Sh.all [ty f.ty fpT, dV e f.d (tyRegs f.ty), sA e f (tyRegs f.ty), sB e f (1), zC f, m0 f.mo 7, fpMo f.ty f.mo 0]
  | .frint f => Sh.all [ty f.ty fpT, dV e f.d (tyRegs f.ty), sA e f (tyRegs f.ty), zB e f, zC f, m0 f.mo 7, fpMo f.ty f.mo 0]
  | .faddImm f => Sh.all [ty (immTy f.ty) fpT, dV e f.d (tyRegs (immTy f.ty)), sK e.bindA f.a 0 [0] (tyRegs (immTy f.ty)), bound e.bindB]
  | .fsubImm f => Sh.all [ty (immTy f.ty) fpT, dV e f.d (tyRegs (immTy f.ty)), sK e.bindA f.a 0 [0] (tyRegs (immTy f.ty)), bound e.bindB]
  | .fmulImm f => Sh.all [ty (immTy f.ty) fpT, dV e f.d (tyRegs (immTy f.ty)), sK e.bindA f.a 0 [0] (tyRegs (immTy f.ty)), bound e.bindB]
  | .fminImm f => Sh.all [ty (immTy f.ty) fpT, dV e f.d (tyRegs (immTy f.ty)), sK e.bindA f.a 0 [0] (tyRegs (immTy f.ty)), bound e.bindB]
  | .fmaxImm f => Sh.all [ty (immTy f.ty) fpT, dV e f.d (tyRegs (immTy f.ty)), sK e.bindA f.a 0 [0] (tyRegs (immTy f.ty)), bound e.bindB]
  | .minnumImm f => Sh.all [ty (immTy f.ty) fpT, dV e f.d (tyRegs (immTy f.ty)), sK e.bindA f.a 0 [0] (tyRegs (immTy f.ty)), bound e.bindB]
  | .maxnumImm f => Sh.all [ty (immTy f.ty) fpT, dV e f.d (tyRegs (immTy f.ty)), sK e.bindA f.a 0 [0] (tyRegs (immTy f.ty)), bound e.bindB]
  | .cvt f => Sh.all [ty f.ty cvtT, dV e f.d (tyRegs f.ty), sA e f (tyRegs (srcTy f.mo)), zB e f, zC f, cvtMo f]
  | .cvtSat f => Sh.all [ty f.ty cvtT, dV e f.d (tyRegs f.ty), sA e f (tyRegs (srcTy f.mo)), zB e f, zC f, cvtMo f]
  | .cvtPk f => Sh.all [ty f.ty [14, 15, 16, 17, 18], dV e f.d 1, sA e f (1), sB e f (1), pkC e f, code 4 (f.mo.toNat ≠ 0x0C)]
  | .cvtPkSat f => Sh.all [ty f.ty [14, 15, 16, 17, 18], dV e f.d 1, sA e f (1), sB e f (1), pkC e f, code 4 (f.mo.toNat ≠ 0x0C)]
  | .mxcvt f => Sh.all [ty f.ty [0x13, 0x14], dV e f.d 1, sK e.bindA f.a f.ak [0] 1, zB e f, zC f, code 4 (f.mo.toNat % 32 ≠ 0x0C), m0 f.mo 0xE0]
  | .mxdec f => Sh.all [ty f.ty [0x0C], dV e f.d 1, sK e.bindA f.a f.ak [0] 1, sK e.bindB f.b f.bk [0] 1, zC f, mxdecMo f.mo]
  | .rcp f => Sh.all [ty f.ty [12, 14, 15], dV e f.d 1, sA e f (1), zB e f, zC f, m0 f.mo 0xFF]
  | .rsq f => Sh.all [ty f.ty [12, 14, 15], dV e f.d 1, sA e f (1), zB e f, zC f, m0 f.mo 0xFF]
  | .sqrt f => Sh.all [ty f.ty [12, 14, 15], dV e f.d 1, sA e f (1), zB e f, zC f, m0 f.mo 0xFF]
  | .ex2 f => Sh.all [ty f.ty [12, 14, 15], dV e f.d 1, sA e f (1), zB e f, zC f, m0 f.mo 0xFF]
  | .lg2 f => Sh.all [ty f.ty [12, 14, 15], dV e f.d 1, sA e f (1), zB e f, zC f, m0 f.mo 0xFF]
  | .sin f => Sh.all [ty f.ty [12, 14, 15], dV e f.d 1, sA e f (1), zB e f, zC f, m0 f.mo 0xFF]
  | .cos f => Sh.all [ty f.ty [12, 14, 15], dV e f.d 1, sA e f (1), zB e f, zC f, m0 f.mo 0xFF]
  | .tanh f => Sh.all [ty f.ty [12, 14, 15], dV e f.d 1, sA e f (1), zB e f, zC f, m0 f.mo 0xFF]
  | .tbl f => Sh.all [ty f.ty [12], dV e f.d 1, sK e.bindA f.a f.ak [0] 1, zB e f, zC f, m0 f.mo 0xFC]
  | .tblLd f => Sh.all [m0 f.ty 0x1F, dZ e f.d, bound e.bindA, sK none f.a f.ak [1] 1, zB e f, zC f, m0 f.mo 0xFC]
  | .tblLdReadStart => {}
  | .tblLdImageWritten => {}
  | .tblSwap => Sh.all [noBind e]
  | .tblTag f => Sh.all [m0 f.ty 0x1F, dK e f.d, zA e f, zB e f, zC f, m0 f.mo 0xFC]
  | .shflIdx f => Sh.all [ty f.ty [9, 10], dV e f.d (tyRegs f.ty), sK e.bindA f.a f.ak [0] (tyRegs f.ty), sB e f (1), sC e f (tyRegs f.ty), shflMo f.mo 0x08]
  | .shflUp f => Sh.all [ty f.ty [9, 10], dV e f.d (tyRegs f.ty), sK e.bindA f.a f.ak [0] (tyRegs f.ty), sB e f (1), sC e f (tyRegs f.ty), shflMo f.mo 0]
  | .shflDown f => Sh.all [ty f.ty [9, 10], dV e f.d (tyRegs f.ty), sK e.bindA f.a f.ak [0] (tyRegs f.ty), sB e f (1), sC e f (tyRegs f.ty), shflMo f.mo 0]
  | .shflXor f => Sh.all [ty f.ty [9, 10], dV e f.d (tyRegs f.ty), sK e.bindA f.a f.ak [0] (tyRegs f.ty), sB e f (1), sC e f (tyRegs f.ty), shflMo f.mo 0x08]
  | .bcast f => Sh.all [ty f.ty [9, 10], dV e f.d (tyRegs f.ty), sK e.bindA f.a f.ak [0] (tyRegs f.ty), bound e.bindB, sK none f.b f.bk [1, 2, 3] 1, zC f, m0 f.mo 0xFF]
  | .voteAll f => Sh.all [m0 f.ty 0x1F, dP e f.d, voteA e f, zB e f, zC f, m0 f.mo 0xF6]
  | .voteAny f => Sh.all [m0 f.ty 0x1F, dP e f.d, voteA e f, zB e f, zC f, m0 f.mo 0xF6]
  | .voteBallot f => Sh.all [m0 f.ty 0x1F, (if f.mo.getLsbD 1 then dK e f.d else dV e f.d 1), voteA e f, zB e f, zC f, m0 f.mo 0xF0]
  | .voteUni f => Sh.all [m0 f.ty 0x1F, dP e f.d, voteA e f, zB e f, zC f, m0 f.mo 0xF6]
  | .matchMask f => Sh.all [ty f.ty [9, 10], dV e f.d 1, sK e.bindA f.a f.ak [0] (tyRegs f.ty), zB e f, zC f, m0 f.mo 0xFF]
  | .matchLead f => Sh.all [ty f.ty [9, 10], dV e f.d 1, sK e.bindA f.a f.ak [0] (tyRegs f.ty), zB e f, zC f, m0 f.mo 0xFF]
  | .matchRank f => Sh.all [ty f.ty [9, 10], dV e f.d 1, sK e.bindA f.a f.ak [0] (tyRegs f.ty), zB e f, zC f, m0 f.mo 0xFF]
  | .matchUni f => Sh.all [ty f.ty [9, 10], dP e f.d, sK e.bindA f.a f.ak [0] (tyRegs f.ty), zB e f, zC f, m0 f.mo 0xFF]
  | .reduxAdd f => Sh.all [ty f.ty [2, 3, 6, 7, 11, 12], (if f.mo.getLsbD 0 then dK e f.d else dV e f.d (tyRegs f.ty)), sA e f (tyRegs f.ty), zB e f, zC f, m0 f.mo 0xFE]
  | .reduxMin f => Sh.all [ty f.ty [2, 3, 6, 7, 11, 12], (if f.mo.getLsbD 0 then dK e f.d else dV e f.d (tyRegs f.ty)), sA e f (tyRegs f.ty), zB e f, zC f, m0 f.mo 0xFE]
  | .reduxMax f => Sh.all [ty f.ty [2, 3, 6, 7, 11, 12], (if f.mo.getLsbD 0 then dK e f.d else dV e f.d (tyRegs f.ty)), sA e f (tyRegs f.ty), zB e f, zC f, m0 f.mo 0xFE]
  | .reduxAnd f => Sh.all [ty f.ty [2, 3, 6, 7, 9, 10], (if f.mo.getLsbD 0 then dK e f.d else dV e f.d (tyRegs f.ty)), sA e f (tyRegs f.ty), zB e f, zC f, m0 f.mo 0xFE]
  | .reduxOr f => Sh.all [ty f.ty [2, 3, 6, 7, 9, 10], (if f.mo.getLsbD 0 then dK e f.d else dV e f.d (tyRegs f.ty)), sA e f (tyRegs f.ty), zB e f, zC f, m0 f.mo 0xFE]
  | .reduxXor f => Sh.all [ty f.ty [2, 3, 6, 7, 9, 10], (if f.mo.getLsbD 0 then dK e f.d else dV e f.d (tyRegs f.ty)), sA e f (tyRegs f.ty), zB e f, zC f, m0 f.mo 0xFE]
  | .scanAdd f => Sh.all [ty f.ty [2, 3, 6, 7, 11, 12], dV e f.d (tyRegs f.ty), sA e f (tyRegs f.ty), zB e f, zC f, m0 f.mo 0xFD]
  | .scanMin f => Sh.all [ty f.ty [2, 3, 6, 7, 11, 12], dV e f.d (tyRegs f.ty), sA e f (tyRegs f.ty), zB e f, zC f, m0 f.mo 0xFD]
  | .scanMax f => Sh.all [ty f.ty [2, 3, 6, 7, 11, 12], dV e f.d (tyRegs f.ty), sA e f (tyRegs f.ty), zB e f, zC f, m0 f.mo 0xFD]
  | .scanAnd f => Sh.all [ty f.ty [2, 3, 6, 7, 9, 10], dV e f.d (tyRegs f.ty), sA e f (tyRegs f.ty), zB e f, zC f, m0 f.mo 0xFD]
  | .scanOr f => Sh.all [ty f.ty [2, 3, 6, 7, 9, 10], dV e f.d (tyRegs f.ty), sA e f (tyRegs f.ty), zB e f, zC f, m0 f.mo 0xFD]
  | .scanXor f => Sh.all [ty f.ty [2, 3, 6, 7, 9, 10], dV e f.d (tyRegs f.ty), sA e f (tyRegs f.ty), zB e f, zC f, m0 f.mo 0xFD]
  | .compress f => Sh.all [ty f.ty [9, 10], dV e f.d (tyRegs f.ty), sK e.bindA f.a f.ak [0] (tyRegs f.ty), zB e f, zC f, m0 f.mo 0xFF]
  | .rodep f => Sh.all [m0 f.ty 0x1F, dZ e f.d, sA e f (1), sK e.bindB f.b f.bk [0, 1] 2, zC f, m0 f.mo 0xFF]
  | .rodepEntriesFree => {}
  | .rold f => Sh.all [m0 f.ty 0x1F, dK e f.d, sA e f (1), zB e f, zC f, m0 f.mo 0xFF]
  | .roflush => Sh.all [noBind e]
  | .continuationGroupForm => {}
  | .continuationGroupPlace => {}
  | .ld f => Sh.all [ty f.ty memT, noBind e, memBase f, m0 f.mo 0xFC, code 4 (f.mo.toNat % 4 = 3), wrV f.data.toNat (memRegs f) (tyRegs f.ty)]
  | .st f => Sh.all [ty f.ty memT, noBind e, memBase f, m0 f.mo 0xFC, code 4 (f.mo.toNat % 4 = 3), rdV f.data.toNat (memRegs f) (tyRegs f.ty)]
  | .ldu f => Sh.all [ty f.ty memT, noBind e, uniBase f, z f.mo, code 5 (63 < f.data.toNat), wrK f.data]
  | .pfL1 f => Sh.all [noBind e, m0 f.ty 0x1F, memBase f, code 4 (f.space.toNat = 1), z f.mo, z f.data]
  | .pfL2 f => Sh.all [noBind e, m0 f.ty 0x1F, memBase f, code 4 (f.space.toNat = 1), z f.mo, z f.data]
  | .cst f => Sh.all [ty f.ty memT, noBind e, uniBase f, z f.mo, rdV f.data.toNat (tyRegs f.ty) (tyRegs f.ty)]
  | .cstCount f => Sh.all [ty f.ty memT, noBind e, uniBase f, m0 f.mo 0xC0, wrK (f.mo &&& 63), rdV f.data.toNat (tyRegs f.ty) (tyRegs f.ty)]
  | .xset f => Sh.all [noBind e, xreg f.d, kreg f.a, kreg f.b, kreg f.c]
  | .xpos f => Sh.all [noBind e, xreg f.d, kreg f.a, z f.b, z f.c, zmo f.mo 15]
  | .xget f => Sh.all [noBind e, code 5 (63 < f.d.toNat), wrK f.d, xreg f.a, z f.b, z f.c, zmo f.mo 12]
  | .xsave f => Sh.all [noBind e, z f.d, kreg f.a, xreg f.b, z f.c, zmo f.mo 15]
  | .xrest f => Sh.all [noBind e, xreg f.d, kreg f.a, z f.b, z f.c, zmo f.mo 15]
  | .atomAdd f => Sh.all [ty f.ty [2, 3, 6, 7, 12, 11], noBind e, memBase f, code 4 (f.space.toNat = 0), wrV f.data.toNat (tyRegs f.ty) (tyRegs f.ty), rdV f.mo.toNat (tyRegs f.ty) (tyRegs f.ty)]
  | .atomMin f => Sh.all [ty f.ty [2, 3, 6, 7], noBind e, memBase f, code 4 (f.space.toNat = 0), wrV f.data.toNat (tyRegs f.ty) (tyRegs f.ty), rdV f.mo.toNat (tyRegs f.ty) (tyRegs f.ty)]
  | .atomMax f => Sh.all [ty f.ty [2, 3, 6, 7], noBind e, memBase f, code 4 (f.space.toNat = 0), wrV f.data.toNat (tyRegs f.ty) (tyRegs f.ty), rdV f.mo.toNat (tyRegs f.ty) (tyRegs f.ty)]
  | .atomAnd f => Sh.all [ty f.ty [9, 10], noBind e, memBase f, code 4 (f.space.toNat = 0), wrV f.data.toNat (tyRegs f.ty) (tyRegs f.ty), rdV f.mo.toNat (tyRegs f.ty) (tyRegs f.ty)]
  | .atomOr f => Sh.all [ty f.ty [9, 10], noBind e, memBase f, code 4 (f.space.toNat = 0), wrV f.data.toNat (tyRegs f.ty) (tyRegs f.ty), rdV f.mo.toNat (tyRegs f.ty) (tyRegs f.ty)]
  | .atomXor f => Sh.all [ty f.ty [9, 10], noBind e, memBase f, code 4 (f.space.toNat = 0), wrV f.data.toNat (tyRegs f.ty) (tyRegs f.ty), rdV f.mo.toNat (tyRegs f.ty) (tyRegs f.ty)]
  | .atomExch f => Sh.all [ty f.ty [9, 10], noBind e, memBase f, code 4 (f.space.toNat = 0), wrV f.data.toNat (tyRegs f.ty) (tyRegs f.ty), rdV f.mo.toNat (tyRegs f.ty) (tyRegs f.ty)]
  | .atomCas pd f => Sh.all [ty f.ty [9, 10], noBind e, memBase f, code 4 (f.space.toNat = 0), wrV f.data.toNat (tyRegs f.ty) (tyRegs f.ty), rdV f.mo.toNat (2 * tyRegs f.ty) (if tyRegs f.ty = 2 then 4 else 1), wrP pd.toNat]
  | .atomLd f => Sh.all [ty f.ty [9, 10], noBind e, memBase f, code 4 (f.space.toNat = 0), z f.mo, wrV f.data.toNat (tyRegs f.ty) (tyRegs f.ty)]
  | .atomSt f => Sh.all [ty f.ty [9, 10], noBind e, memBase f, code 4 (f.space.toNat = 0), z f.mo, rdV f.data.toNat (tyRegs f.ty) (tyRegs f.ty)]
  | .redAdd f => Sh.all [ty f.ty [2, 3, 6, 7, 12, 11], noBind e, memBase f, code 4 (f.space.toNat = 0), z f.mo, rdV f.data.toNat (tyRegs f.ty) (tyRegs f.ty)]
  | .redMin f => Sh.all [ty f.ty [2, 3, 6, 7], noBind e, memBase f, code 4 (f.space.toNat = 0), z f.mo, rdV f.data.toNat (tyRegs f.ty) (tyRegs f.ty)]
  | .redMax f => Sh.all [ty f.ty [2, 3, 6, 7], noBind e, memBase f, code 4 (f.space.toNat = 0), z f.mo, rdV f.data.toNat (tyRegs f.ty) (tyRegs f.ty)]
  | .redAnd f => Sh.all [ty f.ty [9, 10], noBind e, memBase f, code 4 (f.space.toNat = 0), z f.mo, rdV f.data.toNat (tyRegs f.ty) (tyRegs f.ty)]
  | .redOr f => Sh.all [ty f.ty [9, 10], noBind e, memBase f, code 4 (f.space.toNat = 0), z f.mo, rdV f.data.toNat (tyRegs f.ty) (tyRegs f.ty)]
  | .redXor f => Sh.all [ty f.ty [9, 10], noBind e, memBase f, code 4 (f.space.toNat = 0), z f.mo, rdV f.data.toNat (tyRegs f.ty) (tyRegs f.ty)]
  | .atomicApply => {}
  | .atomicWindowEnd => {}
  | .fence f => Sh.all [z f.d, ffA f, ffB f, code 3 (f.id.toNat ≠ 0)]
  | .fenceComplete => {}
  | .barSync f => Sh.all [z f.d, ffA f, barN f, code 4 (f.scope.toNat ≠ 1 || 15 < f.id.toNat)]
  | .barArrive f => Sh.all [z f.d, ffA f, barN f, code 4 (f.scope.toNat ≠ 1 || 15 < f.id.toNat)]
  | .barRole f => Sh.all [z f.d, ffA f, ffB f, code 4 (f.scope.toNat ≠ 1 || 3 < f.id.toNat)]
  | .barGangSync f => Sh.all [z f.d, ffA f, barN f, code 4 (f.scope.toNat ≠ 3 || 3 < f.id.toNat)]
  | .barGangArrive f => Sh.all [z f.d, ffA f, barN f, code 4 (f.scope.toNat ≠ 3 || 3 < f.id.toNat)]
  | .barPkg f => Sh.all [code 5 (63 < f.d.toNat), wrK f.d, sK none f.a f.ak [1] 1, sK none f.b f.bk [1] 1, code 3 (f.id.toNat ≠ 0), code 4 (f.scope.toNat ≠ 5)]
  | .pkgBarrierRelease => {}
  | .tmake f => Sh.all [z f.d, kreg f.a, z f.b]
  | .tdrop f => Sh.all [z f.d, kreg f.a, z f.b, code 3 (f.lease.toNat ≠ 0 || f.pub)]
  | .tlend f => Sh.all [z f.d, kreg f.a, kreg f.b, code 3 (f.lease.toNat ≠ 0 || f.pub)]
  | .tret f => Sh.all [z f.d, kreg f.a, z f.b, code 3 (f.lease.toNat ≠ 0 || f.pub)]
  | .tsplit f => Sh.all [z f.d, kreg f.a, z f.b, code 3 (f.lease.toNat ≠ 0 || f.pub)]
  | .tmerge f => Sh.all [z f.d, kreg f.a, z f.b, code 3 (f.lease.toNat ≠ 0 || f.pub)]
  | .tshare f => Sh.all [z f.d, kreg f.a, kreg f.b, code 3 (f.lease.toNat ≠ 0 || f.pub)]
  | .tunshare f => Sh.all [z f.d, kreg f.a, z f.b, code 3 (f.lease.toNat ≠ 0 || f.pub)]
  | .tquery f => Sh.all [kquad f.d, kreg f.a, z f.b, code 3 (f.size.toNat ≠ 0), code 3 (f.lease.toNat ≠ 0 || f.pub)]
  | .tqueryHold f => Sh.all [kquad f.d, kreg f.a, z f.b, code 3 (f.size.toNat ≠ 0), code 3 (f.lease.toNat ≠ 0 || f.pub)]
  | .tqueryHoldEnd => {}
  | .tokenMoveEffect => {}
  | .tokenMoveComplete => {}
  | .shareWaitBound => {}
  | .aacq f => Sh.all [pgov e.pred, z f.d, fsA0 f, fsB0 f, z f.c, code 4 (7 < f.num.toNat), zmo f.mo 15]
  | .aacqGrant => {}
  | .arel f => Sh.all [pgov e.pred, z f.d, fsA0 f, fsB0 f, z f.c, code 4 (7 < f.num.toNat), zmo f.mo 15]
  | .arelComplete => {}
  | .ard f => Sh.all [pgov e.pred, wrV f.d.toNat (cntOf f.mo) 1, sK none f.a f.ak [0, 1, 2, 3] 1, fsB0 f, z f.c, code 4 (7 < f.num.toNat), zmo f.mo 12, code 4 (f.mo.toNat % 4 = 3)]
  | .awr f => Sh.all [pgov e.pred, z f.d, sK none f.a f.ak [0, 1, 2, 3] 1, sK none f.b f.bk [0] 1, rdV f.b.toNat (cntOf f.mo) 1, z f.c, code 4 (7 < f.num.toNat), zmo f.mo 12, code 4 (f.mo.toNat % 4 = 3)]
  | .aclr f => Sh.all [pgov e.pred, z f.d, fsA0 f, fsB0 f, z f.c, code 4 (7 < f.num.toNat), zmo f.mo 15]
  | .qpop f => Sh.all [pgov e.pred, dKs f.d, fsA0 f, fsB0 f, z f.c, code 4 (8 < f.num.toNat), zmo f.mo 15]
  | .queuePopEntry => {}
  | .qtry f => Sh.all [pgov e.pred, dKs f.d, fsA0 f, fsB0 f, preg f.c, code 4 (8 < f.num.toNat), zmo f.mo 15]
  | .qpush f => Sh.all [pgov e.pred, z f.d, sK none f.a f.ak [1] 1, fsB0 f, z f.c, code 4 (8 < f.num.toNat), zmo f.mo 15]
  | .mma f => Sh.all [pgov e.pred, z f.d, sK none f.a f.ak [0, 1, 2, 3] 1, fsB0 f, z f.c, z f.num, zmo f.mo 15]
  | .pushRoomResume => {}
  | .busyTokenResume => {}
  | .cpyLin f => Sh.all [pgov e.pred, z f.d, sK none f.a f.ak [0, 1, 2, 3] 1, fsB0 f, z f.c, z f.num, zmo f.mo 14]
  | .cpySlot f => Sh.all [pgov e.pred, z f.d, sK none f.a f.ak [0, 1, 2, 3] 1, fsB0 f, z f.c, z f.num, zmo f.mo 14]
  | .cpyGth f => Sh.all [pgov e.pred, z f.d, sK none f.a f.ak [0, 1, 2, 3] 1, fsB0 f, z f.c, z f.num, zmo f.mo 14]
  | .cpySct f => Sh.all [pgov e.pred, z f.d, sK none f.a f.ak [0, 1, 2, 3] 1, fsB0 f, z f.c, z f.num, zmo f.mo 14]
  | .cpyCsr f => Sh.all [pgov e.pred, z f.d, sK none f.a f.ak [0, 1, 2, 3] 1, fsB0 f, z f.c, z f.num, zmo f.mo 14]
  | .coll f => Sh.all [pgov e.pred, z f.d, sK none f.a f.ak [0, 1, 2, 3] 1, fsB0 f, z f.c, z f.num, zmo f.mo 15]
  | .slclaim => Sh.all [pgov e.pred, z e.sys.d, fsA0 e.sys, fsB0 e.sys, z e.sys.c, code 4 (31 < e.sys.num.toNat), zmo e.sys.mo 15]
  | .slclaimGrant => {}
  | .slrel => Sh.all [pgov e.pred, z e.sys.d, fsA0 e.sys, fsB0 e.sys, z e.sys.c, code 4 (31 < e.sys.num.toNat), zmo e.sys.mo 15]
  | .slrelComplete => {}
  | .twait => Sh.all [pgov e.pred, z e.sys.d, fsA0 e.sys, fsB0 e.sys, z e.sys.c, code 4 (39 < e.sys.num.toNat), zmo e.sys.mo 15]
  | .cwait => Sh.all [pgov e.pred, z e.sys.d, fsA0 e.sys, fsB0 e.sys, z e.sys.c, {}, zmo e.sys.mo 15]
  | .tileWaitEnd => {}
  | .stepBegin => Sh.all [pgov e.pred, z e.sys.d, sK none e.sys.a e.sys.ak [1] 1, fsB0 e.sys, z e.sys.c, z e.sys.num, zmo e.sys.mo 15]
  | .stepEnd => Sh.all [pgov e.pred, dKs e.sys.d, sK none e.sys.a e.sys.ak [1] 1, sK none e.sys.b e.sys.bk [1] 1, kreg e.sys.c, z e.sys.num, zmo e.sys.mo 15]
  | .trap => Sh.all [pgov e.pred, z e.sys.d, fsA0 e.sys, fsB0 e.sys, z e.sys.c, {}, zmo e.sys.mo 15]
  | .eret => Sh.all [pgov e.pred, z e.sys.d, fsA0 e.sys, fsB0 e.sys, z e.sys.c, z e.sys.num, zmo e.sys.mo 15]
  | .srd => Sh.all [pgov e.pred, dKs e.sys.d, fsA0 e.sys, fsB0 e.sys, z e.sys.c, {}, zmo e.sys.mo 15, code 4 (!srReadable e.sys.num.toNat)]
  | .swr => Sh.all [pgov e.pred, z e.sys.d, sK none e.sys.a e.sys.ak [1] 1, fsB0 e.sys, z e.sys.c, {}, zmo e.sys.mo 15, code 4 (!srWritable e.sys.num.toNat)]
  | .xlinv => Sh.all [pgov e.pred, z e.sys.d, sK none e.sys.a e.sys.ak [1] 1, fsB0 e.sys, z e.sys.c, z e.sys.num, zmo e.sys.mo 8]
  | .xlinvAll => Sh.all [pgov e.pred, z e.sys.d, fsA0 e.sys, fsB0 e.sys, z e.sys.c, z e.sys.num, zmo e.sys.mo 8]
  | .xlinvComplete => {}
  | .linv => Sh.all [pgov e.pred, z e.sys.d, sK none e.sys.a e.sys.ak [1] 1, sK none e.sys.b e.sys.bk [1] 1, z e.sys.c, z e.sys.num, zmo e.sys.mo 8, code 4 (e.sys.mo.toNat % 8 ≠ 2 && e.sys.mo.toNat % 8 ≠ 4)]
  | .gtime => Sh.all [pgov e.pred, dKs e.sys.d, fsA0 e.sys, fsB0 e.sys, z e.sys.c, z e.sys.num, zmo e.sys.mo 15]
  | .gtimeUntil => Sh.all [pgov e.pred, z e.sys.d, sK none e.sys.a e.sys.ak [1] 1, fsB0 e.sys, z e.sys.c, z e.sys.num, zmo e.sys.mo 15]
  | .gtimeUntilReached => {}
  | .rmap => Sh.all [pgov e.pred, dKs e.sys.d, fsA0 e.sys, fsB0 e.sys, z e.sys.c, z e.sys.num, zmo e.sys.mo 15]
  | .rmack => Sh.all [pgov e.pred, z e.sys.d, sK none e.sys.a e.sys.ak [1] 1, fsB0 e.sys, z e.sys.c, z e.sys.num, zmo e.sys.mo 15]
  | .diehop => Sh.all [pgov e.pred, dKs e.sys.d, sK none e.sys.a e.sys.ak [0, 1, 2, 3] 1, sK none e.sys.b e.sys.bk [0, 1, 2, 3] 1, z e.sys.c, z e.sys.num, zmo e.sys.mo 15]
  | .vdie => Sh.all [pgov e.pred, dKs e.sys.d, sK none e.sys.a e.sys.ak [0, 1, 2, 3] 1, fsB0 e.sys, z e.sys.c, z e.sys.num, zmo e.sys.mo 15]
  | .cbclaim => Sh.all [pgov e.pred, dKs e.sys.d, sK none e.sys.a e.sys.ak [1] 1, fsB0 e.sys, z e.sys.c, z e.sys.num, zmo e.sys.mo 15]
  | .cbrel => Sh.all [pgov e.pred, z e.sys.d, sK none e.sys.a e.sys.ak [1] 1, fsB0 e.sys, z e.sys.c, z e.sys.num, zmo e.sys.mo 15]
  | .cbread => Sh.all [pgov e.pred, dKs e.sys.d, sK none e.sys.a e.sys.ak [1] 1, sK none e.sys.b e.sys.bk [1] 1, z e.sys.c, z e.sys.num, zmo e.sys.mo 15]
  | .clkr => Sh.all [pgov e.pred, dKs e.sys.d, sK none e.sys.a e.sys.ak [1] 1, fsB0 e.sys, z e.sys.c, z e.sys.num, zmo e.sys.mo 15]
  | .halt => Sh.all [pgov e.pred, z e.sys.d, fsA0 e.sys, fsB0 e.sys, z e.sys.c, z e.sys.num, zmo e.sys.mo 15]
  | .wfw => Sh.all [pgov e.pred, dKs e.sys.d, sK none e.sys.a e.sys.ak [1] 1, sK none e.sys.b e.sys.bk [1] 1, z e.sys.c, z e.sys.num, zmo e.sys.mo 15]
  | .wfwWake => {}
  | .wfwTimeout => {}
  | .wcbDrainTimeout => {}
  | .writeThroughApply => {}
  | .lineFill => {}
  | .copyLeaseLapse => {}
  | .hostSnoop => {}
  | .cxlMemRead => {}
  | .cxlMemWrite => {}
  | .remoteRequest => {}
  | .requestUnreachable => {}
  | .graphSubmit => {}
  | .graphAccept => {}
  | .nodeDispatch => {}
  | .nodeComplete => {}
  | .teamPlace => {}
  | .teamBlocking => {}
  | .teamPreempt => {}
  | .teamResume => {}
  | .teamComplete => {}
  | .serviceEvaluation => {}
  | .clusterClear => {}
  | .slotFillAccept => {}
  | .copyComplete => {}
  | .matrixSegmentStart => {}
  | .segmentJudge => {}
  | .matrixCommandComplete => {}
  | .engineFaultStop => {}
  | .collectiveStart => {}
  | .collectiveComplete => {}
  | .steepWindowEnd => {}
  | .arbiterGrant => {}
  | .capacitorRestore => {}
  | .powerEpoch => {}
  | .thermalSample => {}
  | .clockRatioChange => {}
  | .clqreq => {}
  | .clsave => {}
  | .clgate => {}
  | .clwake => {}
  | .clusterQuiesced => {}
  | .clusterSaveEnd => {}
  | .clusterRailOff => {}
  | .clusterRestoreEnd => {}
  | .counterTick => {}
  | .energySample => {}
  | .meteringUpdate => {}
  | .usageIntervalEnd => {}
  | .clockKeeperCheck => {}
  | .histogramCopy => {}
  | .mapAckDeadline => {}
  | .holderLostSettlement => {}
  | .dieFatalError => {}
  | .coreFailure => {}
  | .linkStateChange => {}
  | .memoryUnitFailure => {}
  | .portStateChange => {}
  | .cacheCapacityWithdrawn => {}
  | .softErrorPoison => {}
  | .capacitorBankLow => {}
  | .powerLoss => {}
  | .dieResetDrainEnd => {}
  | .create => {}
  | .destroy => {}
  | .bindVf => {}
  | .unbindVf => {}
  | .setsvc => {}
  | .setpower => {}
  | .settherm => {}
  | .splitDie => {}
  | .importEntry => {}
  | .setrec => {}
  | .setdomain => {}
  | .setctx => {}
  | .setflt => {}
  | .resolve => {}
  | .telread => {}
  | .histread => {}
  | .diereset => {}
  | .lockInterface => {}
  | .startInterface => {}
  | .interfaceReport => {}
  | .spdmCert => {}
  | .spdmChal => {}
  | .spdmMeas => {}
  | .spdmKeyEx => {}
  | .registerWrite => {}
  | .copySegmentEnd => {}
  | .remoteRefusalResponse => {}
  | .backInvalidateAnswer => {}
  | .capacitorBankRecovery => {}
  | .softErrorCorrected => {}

end Sys2Proof.Machine
end

