-- ==== Sys2Proof/WellFormed.lean ====
section
/-!
DEFINITION. Well-formed instructions: every field of the word obeys the operand rules of its row, for a group of the
largest register budget (R32, R225, R432 codes 0x03 to 0x06).
-/
namespace Sys2Proof

/-- Is a register inside its file, for a vector budget `b` (R32, R210)? -/
def Reg.inFile (b : Nat) : Reg → Bool
  | .v n => n < b
  | .k n => n < 64
  | .p n => n < 8
  | .x n => n < 8

/-- The codes 0x03 to 0x06 of R432 that a word breaks in a group of budget `b`, under the extension word `e`. -/
def encodingCodes (b : Nat) (e : Ext) (i : Instr) : List Nat :=
  let s := Machine.shape e i
  s.codes ++ (if (s.rd ++ s.wr).all (Reg.inFile b) then [] else
    if (s.rd ++ s.wr).all (fun r => match r with | .v _ => true | r => r.inFile b) then [6] else [5])

/-- An instruction that, under what governs it, breaks no encoding rule. -/
def WellFormed (e : Ext) (i : Instr) : Bool := (encodingCodes 256 e i).isEmpty

end Sys2Proof
end

