-- ==== Sys2Proof/Decode.lean ====
section
/-!
DEFINITION. The decoder of the 64-bit instruction word (R199 to R208, R112, R294, R300, R309), total on every word and
rejecting by name, and the encoder written from the same encoding tables.
-/
namespace Sys2Proof

/-- Why a word is no instruction. -/
inductive Reject where
  /-- An unassigned major opcode or sub-operation: class 0x01 code 0x01 (R432). -/
  | unassigned
  /-- Major 0xFF: code 0x02. -/
  | permanent
  /-- A nonzero bit that the format itself reserves: code 0x03. -/
  | reserved
  /-- Major 0xFE: an extension word, which governs the word after it (R207). -/
  | extension
  /-- Fewer bytes than one word. -/
  | short
  deriving DecidableEq, Repr

/-- The fields of a Format R word (R202). -/
def FR.ofWord (w : DWord) : FR :=
  ⟨.ofNat 8 (bits w 51 44), .ofNat 8 (bits w 43 36), .ofNat 8 (bits w 35 28), .ofNat 8 (bits w 27 20), .ofNat 2 (bits w 19 18),
   .ofNat 2 (bits w 17 16), .ofNat 2 (bits w 15 14), .ofNat 5 (bits w 12 8), .ofNat 8 (bits w 7 0)⟩
/-- The fields of a Format I word (R203). -/
def FI.ofWord (w : DWord) : FI :=
  ⟨.ofNat 8 (bits w 51 44), .ofNat 8 (bits w 43 36), .ofNat 32 (bits w 35 4), .ofNat 4 (bits w 3 0)⟩
/-- The fields of a Format M word (R204). -/
def FM.ofWord (w : DWord) : FM :=
  ⟨.ofNat 8 (bits w 51 44), .ofNat 8 (bits w 43 36), .ofNat 8 (bits w 35 28), bits w 27 27 == 1, .ofNat 2 (bits w 26 25),
   .ofNat 5 (bits w 24 20), .ofNat 20 (bits w 19 0)⟩
/-- The fields of a Format B word (R205). -/
def FB.ofWord (w : DWord) : FB :=
  ⟨.ofNat 8 (bits w 51 44), .ofNat 8 (bits w 43 36), .ofNat 3 (bits w 35 33), bits w 32 32 == 1, .ofNat 28 (bits w 27 0)⟩
/-- The fields of a token word (R112). -/
def FT.ofWord (w : DWord) : FT :=
  ⟨.ofNat 8 (bits w 51 44), .ofNat 8 (bits w 43 36), .ofNat 8 (bits w 35 28), .ofNat 6 (bits w 27 22), .ofNat 4 (bits w 21 18),
   bits w 17 17 == 1⟩
/-- The fields of a stream word (R294). -/
def FX.ofWord (w : DWord) : FX :=
  ⟨.ofNat 8 (bits w 51 44), .ofNat 8 (bits w 43 36), .ofNat 8 (bits w 35 28), .ofNat 8 (bits w 27 20), .ofNat 4 (bits w 3 0)⟩
/-- The fields of a fence or barrier word (R300). -/
def FF.ofWord (w : DWord) : FF :=
  ⟨.ofNat 8 (bits w 51 44), .ofNat 8 (bits w 43 36), .ofNat 8 (bits w 35 28), .ofNat 2 (bits w 19 18), .ofNat 2 (bits w 17 16),
   .ofNat 4 (bits w 7 4), .ofNat 3 (bits w 2 0)⟩
/-- The fields of an engine or system word, its predicate apart (R309). -/
def FS.ofWord (w : DWord) : FS :=
  ⟨.ofNat 8 (bits w 51 44), .ofNat 8 (bits w 43 36), .ofNat 8 (bits w 35 28), .ofNat 8 (bits w 27 20), .ofNat 2 (bits w 19 18),
   .ofNat 2 (bits w 17 16), .ofNat 8 (bits w 11 4), .ofNat 4 (bits w 3 0)⟩

/-- A flag as a bit. -/
def bit (b : Bool) : Nat := if b then 1 else 0
/-- A word from its opcode key (major and sub-operation, 12 bits) and the 52 bits below it. -/
def wordOf (key low : Nat) : DWord := .ofNat 64 (key * 2 ^ 52 + low)

/-- The low 52 bits of a Format R word. -/
def FR.low (f : FR) : Nat :=
  f.d.toNat * 2 ^ 44 + f.a.toNat * 2 ^ 36 + f.b.toNat * 2 ^ 28 + f.c.toNat * 2 ^ 20 + f.ak.toNat * 2 ^ 18 + f.bk.toNat * 2 ^ 16
    + f.ck.toNat * 2 ^ 14 + f.ty.toNat * 2 ^ 8 + f.mo.toNat
/-- The low 52 bits of a Format I word. -/
def FI.low (f : FI) : Nat := f.d.toNat * 2 ^ 44 + f.a.toNat * 2 ^ 36 + f.imm.toNat * 2 ^ 4 + f.ty.toNat
/-- The low 52 bits of a Format M word. -/
def FM.low (f : FM) : Nat :=
  f.data.toNat * 2 ^ 44 + f.base.toNat * 2 ^ 36 + f.mo.toNat * 2 ^ 28 + bit f.uni * 2 ^ 27 + f.space.toNat * 2 ^ 25
    + f.ty.toNat * 2 ^ 20 + f.off.toNat
/-- The low 52 bits of a Format B word. -/
def FB.low (f : FB) : Nat :=
  f.d.toNat * 2 ^ 44 + f.a.toNat * 2 ^ 36 + f.pred.toNat * 2 ^ 33 + bit f.neg * 2 ^ 32 + f.off.toNat
/-- The low 52 bits of a token word. -/
def FT.low (f : FT) : Nat :=
  f.d.toNat * 2 ^ 44 + f.a.toNat * 2 ^ 36 + f.b.toNat * 2 ^ 28 + f.size.toNat * 2 ^ 22 + f.lease.toNat * 2 ^ 18 + bit f.pub * 2 ^ 17
/-- The low 52 bits of a stream word. -/
def FX.low (f : FX) : Nat :=
  f.d.toNat * 2 ^ 44 + f.a.toNat * 2 ^ 36 + f.b.toNat * 2 ^ 28 + f.c.toNat * 2 ^ 20 + f.mo.toNat
/-- The low 52 bits of a fence or barrier word. -/
def FF.low (f : FF) : Nat :=
  f.d.toNat * 2 ^ 44 + f.a.toNat * 2 ^ 36 + f.b.toNat * 2 ^ 28 + f.ak.toNat * 2 ^ 18 + f.bk.toNat * 2 ^ 16 + f.id.toNat * 2 ^ 4
    + f.scope.toNat
/-- The low 52 bits of an engine or system word. -/
def FS.low (f : FS) : Nat :=
  f.d.toNat * 2 ^ 44 + f.a.toNat * 2 ^ 36 + f.b.toNat * 2 ^ 28 + f.c.toNat * 2 ^ 20 + f.ak.toNat * 2 ^ 18 + f.bk.toNat * 2 ^ 16
    + f.num.toNat * 2 ^ 4 + f.mo.toNat

/-- The assigned opcodes of the R format: major times 16 plus sub-operation. -/
def keysR : List (Nat × (FR → Instr)) :=
  [(0x200, .add), (0x201, .sub), (0x202, .mulLo), (0x203, .mulHi), (0x204, .madLo), (0x205, .mulWide), (0x206, .abs), (0x207, .neg), (0x208, .min), (0x209, .max), (0x20A, .addSat), (0x20B, .subSat), (0x210, .div), (0x211, .rem), (0x220, .and), (0x221, .or), (0x222, .xor), (0x223, .not), (0x224, .bool3), (0x230, .shl), (0x231, .shr), (0x232, .sar), (0x233, .fsl), (0x234, .fsr)]
  ++ [(0x240, .popc), (0x241, .clz), (0x242, .ctz), (0x243, .brev), (0x244, .bfe), (0x245, .bfi), (0x246, .bsel), (0x250, .setp), (0x251, .sel), (0x260, .plop), (0x261, .p2v), (0x262, .v2p), (0x270, .leaExt), (0x271, .leaSp), (0x272, .mov), (0x380, .uAdd), (0x381, .uSub), (0x382, .uMulLo), (0x383, .uMulHi), (0x384, .uMadLo), (0x385, .uMulWide), (0x386, .uAbs), (0x387, .uNeg), (0x388, .uMin)]
  ++ [(0x389, .uMax), (0x38A, .uAddSat), (0x38B, .uSubSat), (0x390, .uDiv), (0x391, .uRem), (0x3A0, .uAnd), (0x3A1, .uOr), (0x3A2, .uXor), (0x3A3, .uNot), (0x3A4, .uBool3), (0x3B0, .uShl), (0x3B1, .uShr), (0x3B2, .uSar), (0x3B3, .uFsl), (0x3B4, .uFsr), (0x3C0, .uPopc), (0x3C1, .uClz), (0x3C2, .uCtz), (0x3C3, .uBrev), (0x3C4, .uBfe), (0x3C5, .uBfi), (0x3C6, .uBsel), (0x3D0, .usetp), (0x3D1, .uSel)]
  ++ [(0x3D2, .uLeaExt), (0x3D3, .uLeaSp), (0x3D4, .uMov), (0x3D5, .umov), (0x400, .fadd), (0x401, .fsub), (0x402, .fmul), (0x403, .fma), (0x404, .fmin), (0x405, .fmax), (0x406, .minnum), (0x407, .maxnum), (0x408, .fabs), (0x409, .fneg), (0x40A, .copysign), (0x410, .fsetp), (0x411, .classOp), (0x412, .scale), (0x413, .frint), (0x800, .cvt), (0x801, .cvtSat), (0x802, .cvtPk), (0x803, .cvtPkSat), (0x810, .mxcvt)]
  ++ [(0x811, .mxdec), (0x880, .rcp), (0x881, .rsq), (0x882, .sqrt), (0x883, .ex2), (0x884, .lg2), (0x885, .sin), (0x886, .cos), (0x887, .tanh), (0x890, .tbl), (0x891, .tblLd), (0x893, .tblTag), (0x900, .shflIdx), (0x901, .shflUp), (0x902, .shflDown), (0x903, .shflXor), (0x910, .bcast), (0x920, .voteAll), (0x921, .voteAny), (0x922, .voteBallot), (0x923, .voteUni), (0x930, .matchMask), (0x931, .matchLead), (0x932, .matchRank)]
  ++ [(0x933, .matchUni), (0x940, .reduxAdd), (0x941, .reduxMin), (0x942, .reduxMax), (0x943, .reduxAnd), (0x944, .reduxOr), (0x945, .reduxXor), (0x950, .scanAdd), (0x951, .scanMin), (0x952, .scanMax), (0x953, .scanAnd), (0x954, .scanOr), (0x955, .scanXor), (0x960, .compress), (0x9C0, .rodep), (0x9D0, .rold)]

/-- The assigned opcodes of the I format: major times 16 plus sub-operation. -/
def keysI : List (Nat × (FI → Instr)) :=
  [(0x300, .addImm), (0x301, .subImm), (0x302, .mulLoImm), (0x303, .mulHiImm), (0x308, .minImm), (0x309, .maxImm), (0x30A, .addSatImm), (0x30B, .subSatImm), (0x310, .divImm), (0x311, .remImm), (0x320, .andImm), (0x321, .orImm), (0x322, .xorImm), (0x330, .shlImm), (0x331, .shrImm), (0x332, .sarImm), (0x372, .movImm), (0x3E0, .uAddImm), (0x3E1, .uSubImm), (0x3E2, .uMulLoImm), (0x3E3, .uMinImm), (0x3E4, .uMaxImm), (0x3E5, .uAndImm), (0x3E6, .uOrImm)]
  ++ [(0x3E7, .uXorImm), (0x3E8, .uShlImm), (0x3E9, .uShrImm), (0x3EA, .uSarImm), (0x3EB, .uMovImm), (0x3F0, .movhi), (0x700, .faddImm), (0x701, .fsubImm), (0x702, .fmulImm), (0x704, .fminImm), (0x705, .fmaxImm), (0x706, .minnumImm), (0x707, .maxnumImm)]

/-- The assigned opcodes of the M format: major times 16 plus sub-operation. -/
def keysM : List (Nat × (FM → Instr)) :=
  [(0xA00, .ld), (0xA10, .st), (0xA20, .ldu), (0xA30, .pfL1), (0xA31, .pfL2), (0xA40, .cst), (0xA41, .cstCount), (0xC00, .atomAdd), (0xC10, .atomMin), (0xC20, .atomMax), (0xC30, .atomAnd), (0xC40, .atomOr), (0xC50, .atomXor), (0xC60, .atomExch), (0xC80, .atomLd), (0xC90, .atomSt), (0xCA0, .redAdd), (0xCA1, .redMin), (0xCA2, .redMax), (0xCA3, .redAnd), (0xCA4, .redOr), (0xCA5, .redXor)]

/-- The assigned opcodes of the B format: major times 16 plus sub-operation. -/
def keysB : List (Nat × (FB → Instr)) :=
  [(0x010, .bra), (0x020, .brxV), (0x021, .brxK), (0x030, .call), (0x031, .callV), (0x032, .callK), (0x040, .ret), (0x050, .exit), (0x060, .loop), (0x080, .elect), (0x081, .electK)]

/-- The assigned opcodes of the token format: major times 16 plus sub-operation. -/
def keysT : List (Nat × (FT → Instr)) :=
  [(0xD00, .tmake), (0xD10, .tdrop), (0xD20, .tlend), (0xD30, .tret), (0xD40, .tsplit), (0xD50, .tmerge), (0xD60, .tshare), (0xD70, .tunshare), (0xD80, .tquery), (0xD81, .tqueryHold)]

/-- The assigned opcodes of the stream format: major times 16 plus sub-operation. -/
def keysX : List (Nat × (FX → Instr)) :=
  [(0xB80, .xset), (0xB81, .xpos), (0xB90, .xget), (0xBA0, .xsave), (0xBA1, .xrest)]

/-- The assigned opcodes of the fence format: major times 16 plus sub-operation. -/
def keysF : List (Nat × (FF → Instr)) :=
  [(0xCB0, .fence), (0xCC0, .barSync), (0xCC1, .barArrive), (0xCC2, .barRole), (0xCD0, .barGangSync), (0xCD1, .barGangArrive), (0xCE0, .barPkg)]

/-- The assigned opcodes of the system format: major times 16 plus sub-operation. -/
def keysS : List (Nat × (FS → Instr)) :=
  [(0xD90, .aacq), (0xDA0, .arel), (0xDB0, .ard), (0xDC0, .awr), (0xDD0, .aclr), (0xE00, .qpop), (0xE01, .qtry), (0xE02, .qpush), (0xE10, .mma), (0xE20, .cpyLin), (0xE21, .cpySlot), (0xE22, .cpyGth), (0xE23, .cpySct), (0xE24, .cpyCsr), (0xE30, .coll)]

/-- The words whose every field is 0 (R206, R233, R273, R284). -/
def keysN : List (Nat × Instr) := [(0x000, .nop), (0x070, .yield), (0x892, .tblSwap), (0x9E0, .roflush)]
/-- The system words, whose operands stand in `Ext.sys` (R319 to R346). -/
def keysY : List (Nat × Instr) :=
  [(0xE40, .slclaim), (0xE41, .slrel), (0xE50, .twait), (0xE51, .cwait), (0xE60, .stepBegin), (0xE61, .stepEnd), (0xF00, .trap), (0xF01, .eret),
   (0xF10, .srd), (0xF11, .swr), (0xF20, .xlinv), (0xF21, .xlinvAll), (0xF22, .linv), (0xF30, .gtime), (0xF31, .gtimeUntil), (0xF40, .rmap),
   (0xF41, .rmack), (0xF50, .diehop), (0xF51, .vdie), (0xF60, .cbclaim), (0xF61, .cbrel), (0xF62, .cbread), (0xF70, .clkr), (0xF80, .halt),
   (0xF81, .wfw)]

/-- The value that a key stands for in a list. -/
def lookup {α : Type} : List (Nat × α) → Nat → Option α
  | [], _ => none
  | (k, v) :: t, i => if i = k then some v else lookup t i

/-- A decoded word, or a rejection where a bit that the format reserves is set. -/
def checked (reserved : Bool) (i : Instr) : Except Reject Instr := if reserved then .error .reserved else .ok i

/-- The instruction of a 64-bit word, or why it is none (R199, R212, R250, R285, R308, R347). [log 19, DEDUCED; log 25, DESIGN CHOICE.] -/
def decode (w : DWord) : Except Reject Instr :=
  let key := bits w 63 52
  if key / 16 = 0xFF then .error .permanent
  else if key / 16 = 0xFE then .error .extension
  else if key / 16 = 0xC7 then
    if key % 2 = 0 then .ok (.atomCas (.ofNat 3 (key % 16 / 2)) (FM.ofWord w)) else .error .unassigned
  else match lookup keysN key with
  | some c => checked (bits w 51 0 != 0) c
  | none => match lookup keysY key with
  | some c => .ok c
  | none => match lookup keysR key with
  | some c => checked (bits w 13 13 != 0) (c (FR.ofWord w))
  | none => match lookup keysI key with
    | some c => .ok (c (FI.ofWord w))
    | none => match lookup keysM key with
      | some c => .ok (c (FM.ofWord w))
      | none => match lookup keysB key with
        | some c => checked (bits w 31 28 != 0) (c (FB.ofWord w))
        | none => match lookup keysT key with
          | some c => checked (bits w 16 0 != 0) (c (FT.ofWord w))
          | none => match lookup keysX key with
            | some c => checked (bits w 19 4 != 0) (c (FX.ofWord w))
            | none => match lookup keysF key with
              | some c => checked (bits w 27 20 != 0 || bits w 15 8 != 0 || bits w 3 3 != 0) (c (FF.ofWord w))
              | none => match lookup keysS key with
                | some c => .ok (c (FS.ofWord w))
                | none => .error .unassigned

/-- A binding field of the extension word: enable and stream number (R207). -/
def bindOf (n : Nat) : Option (BitVec 3) := if 8 ≤ n then some (.ofNat 3 n) else none
/-- The extension word's fields (R207), or the code that its own bits break: 0x03 for a reserved bit, 0x08 for a
reserved rounding mode or fourth kind 0b11 (R155, R432, R438). A binding that is off is off whatever stream it names. [log 121, DEDUCED.] -/
def decodeExt (w : DWord) : Except Nat Ext :=
  if bits w 55 52 != 0 || bits w 21 0 != 0 then .error 3
  else
    if 5 ≤ bits w 47 45 || bits w 35 34 = 3 then .error 8
    else .ok ⟨.ofNat 3 (bits w 51 49), bits w 48 48 == 1, .ofNat 3 (bits w 47 45), bits w 44 44 == 1, .ofNat 8 (bits w 43 36),
      .ofNat 2 (bits w 35 34), bindOf (bits w 33 30), bindOf (bits w 29 26), bindOf (bits w 25 22), Ext.plain.sys⟩

/-- What governs a word that no extension word precedes: the predicate field of the engine and system format (R309) with
the operands of a system word, and the defaults elsewhere (R207). -/
def guardOf (w : DWord) : Ext :=
  if 0xD9 ≤ bits w 63 56 && bits w 63 56 ≤ 0xFD then
    { Ext.plain with pred := .ofNat 3 (bits w 14 12), neg := bits w 15 15 == 1, sys := if 0xE4 ≤ bits w 63 56 then FS.ofWord w else Ext.plain.sys }
  else Ext.plain

/-- A little-endian number from bytes (R5). -/
def leNat : List Byte → Nat
  | [] => 0
  | b :: t => b.toNat + 256 * leNat t

/-- The instruction that the first eight bytes of a list hold, total on any bytes. -/
def decodeBytes (l : List Byte) : Except Reject Instr :=
  if l.length < 8 then .error .short else decode (.ofNat 64 (leNat (l.take 8)))

/-- The opcode key and the low 52 bits of an instruction word; none for a step that no word encodes. [log 25, DESIGN CHOICE.] -/
def fields (i : Instr) : Option (Nat × Nat) :=
  match i with
  | .moduleReset => none
  | .unitSelfTestPass => none
  | .issueSelect => none
  | .clauseEntry => none
  | .frontierRelease => none
  | .variableLatencyWriteback => none
  | .streamReadAhead => none
  | .nop => some (0x000, 0)
  | .bra f => some (0x010, f.low)
  | .brxV f => some (0x020, f.low)
  | .brxK f => some (0x021, f.low)
  | .call f => some (0x030, f.low)
  | .callV f => some (0x031, f.low)
  | .callK f => some (0x032, f.low)
  | .ret f => some (0x040, f.low)
  | .exit f => some (0x050, f.low)
  | .loop f => some (0x060, f.low)
  | .loopBufferFree => none
  | .yield => some (0x070, 0)
  | .elect f => some (0x080, f.low)
  | .electK f => some (0x081, f.low)
  | .add f => some (0x200, f.low)
  | .sub f => some (0x201, f.low)
  | .mulLo f => some (0x202, f.low)
  | .mulHi f => some (0x203, f.low)
  | .madLo f => some (0x204, f.low)
  | .mulWide f => some (0x205, f.low)
  | .abs f => some (0x206, f.low)
  | .neg f => some (0x207, f.low)
  | .min f => some (0x208, f.low)
  | .max f => some (0x209, f.low)
  | .addSat f => some (0x20A, f.low)
  | .subSat f => some (0x20B, f.low)
  | .div f => some (0x210, f.low)
  | .rem f => some (0x211, f.low)
  | .and f => some (0x220, f.low)
  | .or f => some (0x221, f.low)
  | .xor f => some (0x222, f.low)
  | .not f => some (0x223, f.low)
  | .bool3 f => some (0x224, f.low)
  | .shl f => some (0x230, f.low)
  | .shr f => some (0x231, f.low)
  | .sar f => some (0x232, f.low)
  | .fsl f => some (0x233, f.low)
  | .fsr f => some (0x234, f.low)
  | .popc f => some (0x240, f.low)
  | .clz f => some (0x241, f.low)
  | .ctz f => some (0x242, f.low)
  | .brev f => some (0x243, f.low)
  | .bfe f => some (0x244, f.low)
  | .bfi f => some (0x245, f.low)
  | .bsel f => some (0x246, f.low)
  | .setp f => some (0x250, f.low)
  | .sel f => some (0x251, f.low)
  | .plop f => some (0x260, f.low)
  | .p2v f => some (0x261, f.low)
  | .v2p f => some (0x262, f.low)
  | .leaExt f => some (0x270, f.low)
  | .leaSp f => some (0x271, f.low)
  | .mov f => some (0x272, f.low)
  | .addImm f => some (0x300, f.low)
  | .subImm f => some (0x301, f.low)
  | .mulLoImm f => some (0x302, f.low)
  | .mulHiImm f => some (0x303, f.low)
  | .minImm f => some (0x308, f.low)
  | .maxImm f => some (0x309, f.low)
  | .addSatImm f => some (0x30A, f.low)
  | .subSatImm f => some (0x30B, f.low)
  | .divImm f => some (0x310, f.low)
  | .remImm f => some (0x311, f.low)
  | .andImm f => some (0x320, f.low)
  | .orImm f => some (0x321, f.low)
  | .xorImm f => some (0x322, f.low)
  | .shlImm f => some (0x330, f.low)
  | .shrImm f => some (0x331, f.low)
  | .sarImm f => some (0x332, f.low)
  | .movImm f => some (0x372, f.low)
  | .uAdd f => some (0x380, f.low)
  | .uSub f => some (0x381, f.low)
  | .uMulLo f => some (0x382, f.low)
  | .uMulHi f => some (0x383, f.low)
  | .uMadLo f => some (0x384, f.low)
  | .uMulWide f => some (0x385, f.low)
  | .uAbs f => some (0x386, f.low)
  | .uNeg f => some (0x387, f.low)
  | .uMin f => some (0x388, f.low)
  | .uMax f => some (0x389, f.low)
  | .uAddSat f => some (0x38A, f.low)
  | .uSubSat f => some (0x38B, f.low)
  | .uDiv f => some (0x390, f.low)
  | .uRem f => some (0x391, f.low)
  | .uAnd f => some (0x3A0, f.low)
  | .uOr f => some (0x3A1, f.low)
  | .uXor f => some (0x3A2, f.low)
  | .uNot f => some (0x3A3, f.low)
  | .uBool3 f => some (0x3A4, f.low)
  | .uShl f => some (0x3B0, f.low)
  | .uShr f => some (0x3B1, f.low)
  | .uSar f => some (0x3B2, f.low)
  | .uFsl f => some (0x3B3, f.low)
  | .uFsr f => some (0x3B4, f.low)
  | .uPopc f => some (0x3C0, f.low)
  | .uClz f => some (0x3C1, f.low)
  | .uCtz f => some (0x3C2, f.low)
  | .uBrev f => some (0x3C3, f.low)
  | .uBfe f => some (0x3C4, f.low)
  | .uBfi f => some (0x3C5, f.low)
  | .uBsel f => some (0x3C6, f.low)
  | .usetp f => some (0x3D0, f.low)
  | .uSel f => some (0x3D1, f.low)
  | .uLeaExt f => some (0x3D2, f.low)
  | .uLeaSp f => some (0x3D3, f.low)
  | .uMov f => some (0x3D4, f.low)
  | .umov f => some (0x3D5, f.low)
  | .uAddImm f => some (0x3E0, f.low)
  | .uSubImm f => some (0x3E1, f.low)
  | .uMulLoImm f => some (0x3E2, f.low)
  | .uMinImm f => some (0x3E3, f.low)
  | .uMaxImm f => some (0x3E4, f.low)
  | .uAndImm f => some (0x3E5, f.low)
  | .uOrImm f => some (0x3E6, f.low)
  | .uXorImm f => some (0x3E7, f.low)
  | .uShlImm f => some (0x3E8, f.low)
  | .uShrImm f => some (0x3E9, f.low)
  | .uSarImm f => some (0x3EA, f.low)
  | .uMovImm f => some (0x3EB, f.low)
  | .movhi f => some (0x3F0, f.low)
  | .fadd f => some (0x400, f.low)
  | .fsub f => some (0x401, f.low)
  | .fmul f => some (0x402, f.low)
  | .fma f => some (0x403, f.low)
  | .fmin f => some (0x404, f.low)
  | .fmax f => some (0x405, f.low)
  | .minnum f => some (0x406, f.low)
  | .maxnum f => some (0x407, f.low)
  | .fabs f => some (0x408, f.low)
  | .fneg f => some (0x409, f.low)
  | .copysign f => some (0x40A, f.low)
  | .fsetp f => some (0x410, f.low)
  | .classOp f => some (0x411, f.low)
  | .scale f => some (0x412, f.low)
  | .frint f => some (0x413, f.low)
  | .faddImm f => some (0x700, f.low)
  | .fsubImm f => some (0x701, f.low)
  | .fmulImm f => some (0x702, f.low)
  | .fminImm f => some (0x704, f.low)
  | .fmaxImm f => some (0x705, f.low)
  | .minnumImm f => some (0x706, f.low)
  | .maxnumImm f => some (0x707, f.low)
  | .cvt f => some (0x800, f.low)
  | .cvtSat f => some (0x801, f.low)
  | .cvtPk f => some (0x802, f.low)
  | .cvtPkSat f => some (0x803, f.low)
  | .mxcvt f => some (0x810, f.low)
  | .mxdec f => some (0x811, f.low)
  | .rcp f => some (0x880, f.low)
  | .rsq f => some (0x881, f.low)
  | .sqrt f => some (0x882, f.low)
  | .ex2 f => some (0x883, f.low)
  | .lg2 f => some (0x884, f.low)
  | .sin f => some (0x885, f.low)
  | .cos f => some (0x886, f.low)
  | .tanh f => some (0x887, f.low)
  | .tbl f => some (0x890, f.low)
  | .tblLd f => some (0x891, f.low)
  | .tblLdReadStart => none
  | .tblLdImageWritten => none
  | .tblSwap => some (0x892, 0)
  | .tblTag f => some (0x893, f.low)
  | .shflIdx f => some (0x900, f.low)
  | .shflUp f => some (0x901, f.low)
  | .shflDown f => some (0x902, f.low)
  | .shflXor f => some (0x903, f.low)
  | .bcast f => some (0x910, f.low)
  | .voteAll f => some (0x920, f.low)
  | .voteAny f => some (0x921, f.low)
  | .voteBallot f => some (0x922, f.low)
  | .voteUni f => some (0x923, f.low)
  | .matchMask f => some (0x930, f.low)
  | .matchLead f => some (0x931, f.low)
  | .matchRank f => some (0x932, f.low)
  | .matchUni f => some (0x933, f.low)
  | .reduxAdd f => some (0x940, f.low)
  | .reduxMin f => some (0x941, f.low)
  | .reduxMax f => some (0x942, f.low)
  | .reduxAnd f => some (0x943, f.low)
  | .reduxOr f => some (0x944, f.low)
  | .reduxXor f => some (0x945, f.low)
  | .scanAdd f => some (0x950, f.low)
  | .scanMin f => some (0x951, f.low)
  | .scanMax f => some (0x952, f.low)
  | .scanAnd f => some (0x953, f.low)
  | .scanOr f => some (0x954, f.low)
  | .scanXor f => some (0x955, f.low)
  | .compress f => some (0x960, f.low)
  | .rodep f => some (0x9C0, f.low)
  | .rodepEntriesFree => none
  | .rold f => some (0x9D0, f.low)
  | .roflush => some (0x9E0, 0)
  | .continuationGroupForm => none
  | .continuationGroupPlace => none
  | .ld f => some (0xA00, f.low)
  | .st f => some (0xA10, f.low)
  | .ldu f => some (0xA20, f.low)
  | .pfL1 f => some (0xA30, f.low)
  | .pfL2 f => some (0xA31, f.low)
  | .cst f => some (0xA40, f.low)
  | .cstCount f => some (0xA41, f.low)
  | .xset f => some (0xB80, f.low)
  | .xpos f => some (0xB81, f.low)
  | .xget f => some (0xB90, f.low)
  | .xsave f => some (0xBA0, f.low)
  | .xrest f => some (0xBA1, f.low)
  | .atomAdd f => some (0xC00, f.low)
  | .atomMin f => some (0xC10, f.low)
  | .atomMax f => some (0xC20, f.low)
  | .atomAnd f => some (0xC30, f.low)
  | .atomOr f => some (0xC40, f.low)
  | .atomXor f => some (0xC50, f.low)
  | .atomExch f => some (0xC60, f.low)
  | .atomCas pd f => some (0xC70 + 2 * pd.toNat, f.low)
  | .atomLd f => some (0xC80, f.low)
  | .atomSt f => some (0xC90, f.low)
  | .redAdd f => some (0xCA0, f.low)
  | .redMin f => some (0xCA1, f.low)
  | .redMax f => some (0xCA2, f.low)
  | .redAnd f => some (0xCA3, f.low)
  | .redOr f => some (0xCA4, f.low)
  | .redXor f => some (0xCA5, f.low)
  | .atomicApply => none
  | .atomicWindowEnd => none
  | .fence f => some (0xCB0, f.low)
  | .fenceComplete => none
  | .barSync f => some (0xCC0, f.low)
  | .barArrive f => some (0xCC1, f.low)
  | .barRole f => some (0xCC2, f.low)
  | .barGangSync f => some (0xCD0, f.low)
  | .barGangArrive f => some (0xCD1, f.low)
  | .barPkg f => some (0xCE0, f.low)
  | .pkgBarrierRelease => none
  | .tmake f => some (0xD00, f.low)
  | .tdrop f => some (0xD10, f.low)
  | .tlend f => some (0xD20, f.low)
  | .tret f => some (0xD30, f.low)
  | .tsplit f => some (0xD40, f.low)
  | .tmerge f => some (0xD50, f.low)
  | .tshare f => some (0xD60, f.low)
  | .tunshare f => some (0xD70, f.low)
  | .tquery f => some (0xD80, f.low)
  | .tqueryHold f => some (0xD81, f.low)
  | .tqueryHoldEnd => none
  | .tokenMoveEffect => none
  | .tokenMoveComplete => none
  | .shareWaitBound => none
  | .aacq f => some (0xD90, f.low)
  | .aacqGrant => none
  | .arel f => some (0xDA0, f.low)
  | .arelComplete => none
  | .ard f => some (0xDB0, f.low)
  | .awr f => some (0xDC0, f.low)
  | .aclr f => some (0xDD0, f.low)
  | .qpop f => some (0xE00, f.low)
  | .queuePopEntry => none
  | .qtry f => some (0xE01, f.low)
  | .qpush f => some (0xE02, f.low)
  | .mma f => some (0xE10, f.low)
  | .pushRoomResume => none
  | .busyTokenResume => none
  | .cpyLin f => some (0xE20, f.low)
  | .cpySlot f => some (0xE21, f.low)
  | .cpyGth f => some (0xE22, f.low)
  | .cpySct f => some (0xE23, f.low)
  | .cpyCsr f => some (0xE24, f.low)
  | .coll f => some (0xE30, f.low)
  | .slclaim => some (0xE40, 0)
  | .slclaimGrant => none
  | .slrel => some (0xE41, 0)
  | .slrelComplete => none
  | .twait => some (0xE50, 0)
  | .cwait => some (0xE51, 0)
  | .tileWaitEnd => none
  | .stepBegin => some (0xE60, 0)
  | .stepEnd => some (0xE61, 0)
  | .trap => some (0xF00, 0)
  | .eret => some (0xF01, 0)
  | .srd => some (0xF10, 0)
  | .swr => some (0xF11, 0)
  | .xlinv => some (0xF20, 0)
  | .xlinvAll => some (0xF21, 0)
  | .xlinvComplete => none
  | .linv => some (0xF22, 0)
  | .gtime => some (0xF30, 0)
  | .gtimeUntil => some (0xF31, 0)
  | .gtimeUntilReached => none
  | .rmap => some (0xF40, 0)
  | .rmack => some (0xF41, 0)
  | .diehop => some (0xF50, 0)
  | .vdie => some (0xF51, 0)
  | .cbclaim => some (0xF60, 0)
  | .cbrel => some (0xF61, 0)
  | .cbread => some (0xF62, 0)
  | .clkr => some (0xF70, 0)
  | .halt => some (0xF80, 0)
  | .wfw => some (0xF81, 0)
  | .wfwWake => none
  | .wfwTimeout => none
  | .wcbDrainTimeout => none
  | .writeThroughApply => none
  | .lineFill => none
  | .copyLeaseLapse => none
  | .hostSnoop => none
  | .cxlMemRead => none
  | .cxlMemWrite => none
  | .remoteRequest => none
  | .requestUnreachable => none
  | .graphSubmit => none
  | .graphAccept => none
  | .nodeDispatch => none
  | .nodeComplete => none
  | .teamPlace => none
  | .teamBlocking => none
  | .teamPreempt => none
  | .teamResume => none
  | .teamComplete => none
  | .serviceEvaluation => none
  | .clusterClear => none
  | .slotFillAccept => none
  | .copyComplete => none
  | .matrixSegmentStart => none
  | .segmentJudge => none
  | .matrixCommandComplete => none
  | .engineFaultStop => none
  | .collectiveStart => none
  | .collectiveComplete => none
  | .steepWindowEnd => none
  | .arbiterGrant => none
  | .capacitorRestore => none
  | .powerEpoch => none
  | .thermalSample => none
  | .clockRatioChange => none
  | .clqreq => none
  | .clsave => none
  | .clgate => none
  | .clwake => none
  | .clusterQuiesced => none
  | .clusterSaveEnd => none
  | .clusterRailOff => none
  | .clusterRestoreEnd => none
  | .counterTick => none
  | .energySample => none
  | .meteringUpdate => none
  | .usageIntervalEnd => none
  | .clockKeeperCheck => none
  | .histogramCopy => none
  | .mapAckDeadline => none
  | .holderLostSettlement => none
  | .dieFatalError => none
  | .coreFailure => none
  | .linkStateChange => none
  | .memoryUnitFailure => none
  | .portStateChange => none
  | .cacheCapacityWithdrawn => none
  | .softErrorPoison => none
  | .capacitorBankLow => none
  | .powerLoss => none
  | .dieResetDrainEnd => none
  | .create => none
  | .destroy => none
  | .bindVf => none
  | .unbindVf => none
  | .setsvc => none
  | .setpower => none
  | .settherm => none
  | .splitDie => none
  | .importEntry => none
  | .setrec => none
  | .setdomain => none
  | .setctx => none
  | .setflt => none
  | .resolve => none
  | .telread => none
  | .histread => none
  | .diereset => none
  | .lockInterface => none
  | .startInterface => none
  | .interfaceReport => none
  | .spdmCert => none
  | .spdmChal => none
  | .spdmMeas => none
  | .spdmKeyEx => none
  | .registerWrite => none
  | .copySegmentEnd => none
  | .remoteRefusalResponse => none
  | .backInvalidateAnswer => none
  | .capacitorBankRecovery => none
  | .softErrorCorrected => none

/-- The word of an instruction (R199 to R206). [log 25, DESIGN CHOICE.] -/
def encode (i : Instr) : Option DWord := (fields i).map (fun p => wordOf p.1 p.2)
/-- The opcode key of an instruction: major times 16 plus sub-operation. -/
def opKey (i : Instr) : Option Nat := (fields i).map Prod.fst
/-- The word of an engine or system instruction under its governing predicate, a system word with its operands (R309). -/
def encodeGuard (e : Ext) (i : Instr) : Option DWord :=
  (fields i).map (fun p => wordOf p.1 (p.2 + (if 0xE40 ≤ p.1 then e.sys.low else 0) + bit e.neg * 2 ^ 15 + e.pred.toNat * 2 ^ 12))
/-- The major opcode of an instruction; 256 for a step that no word encodes. -/
def major (i : Instr) : Nat := match opKey i with | some k => k / 16 | none => 256
/-- The extension word of a set of fields (R207). -/
def encodeExt (e : Ext) : DWord :=
  let b := fun (x : Option (BitVec 3)) => match x with | some n => 8 + n.toNat | none => 0
  .ofNat 64 (0xFE * 2 ^ 56 + e.pred.toNat * 2 ^ 49 + bit e.neg * 2 ^ 48 + e.rnd.toNat * 2 ^ 45 + bit e.zero * 2 ^ 44
    + e.src4.toNat * 2 ^ 36 + e.kind4.toNat * 2 ^ 34 + b e.bindD * 2 ^ 30 + b e.bindA * 2 ^ 26 + b e.bindB * 2 ^ 22)

/-- The first word of a table number; where it is an extension word, the word after it. -/
def tableWord (w : Nat) : DWord :=
  let lo : DWord := .ofNat 64 w
  if bits lo 63 56 = 0xFE then .ofNat 64 (w / 2 ^ 64) else lo

/-- The instruction of a word numbered as the opcode table numbers its bits: the word's own bits, bit 0 lowest. -/
def decodeTableWord (_nbits w : Nat) : Option Instr :=
  match decode (tableWord w) with
  | .ok i => some i
  | .error _ => none

end Sys2Proof
end

