-- ==== Sys2Proof/Config.lean ====
section
/-!
DEFINITION. What an implementation fixes and the spec does not say: constants with no body, so that no proof can see a
value, and the counts and sizes the spec fixes for every module.
-/
namespace Sys2Proof.Config

/-- How many steps that nothing fixes may pass between two that bring the module's own work on (R53, log 2). -/
opaque fairGap : Nat
/-- The step that happens next where the agenda lists none (log 1). -/
opaque nextOp : Nat → Instr
/-- The arguments of that step (log 1). -/
opaque nextEv : Nat → Ev
/-- The time that passes before that step, in ns (log 2). -/
opaque nextDelay : Nat → Nat
/-- A free value, one for each draw (log 2). -/
opaque freeNat : Nat → Nat
/-- How long parts of a map update take: by the instant of the raise, its version, and the entry, 508 for the begin and 509 for the end of
the update (R418, log 23). -/
opaque mapDelay : Nat → Nat → Nat → Nat
/-- What another module's memory answers a read with that names a byte, in each step (log 17). -/
opaque farByte : Nat → Nat → Byte
/-- The bytes of another module's memory that a launch's code held as the launch began (R38, log 17). -/
opaque farCode : Nat → Nat → Byte
/-- The address of a partition's own space by which the module judges the rights of a request from another module: one that the partition
maps to the guest-physical address (R101, R109, R411, log 18). -/
opaque vaOf : Nat → Nat → DWord
/-- What the record store of another module's die answers for an event id, in each step: none, an overwritten record, or the eight words of
one (R366, log 58). -/
opaque farRecord : Nat → BitVec 64 → Option (Option (List (BitVec 64)))
/-- The bytes of a saved team's encrypted image, for each save and byte (R78, log 72). -/
opaque savedByte : Nat → Nat → Byte
/-- Which of the results inside R268's bound a special function gives for an operand: the same on every core (log 8). -/
opaque specialPick : Nat → Word → Nat
/-- The word an overscaled attempt forms at an element, for each draw and element (R185, log 9). -/
opaque lateWord : Nat → Nat → Word
/-- Whether an element of an overscaled attempt has late bits (log 9). -/
opaque lateHere : Nat → Nat → Bool
/-- Which HBM stack or capacity channel of its die holds a line (R16, R474): the spec gives no map. [log 84, DESIGN CHOICE.] -/
opaque unitOf : Nat → Nat
/-- The fused safe point of a core, at a matrix clock in units of 0.1 GHz, in mV (R188, R389, R473, log 6). -/
opaque fusedSafePoint : Nat → Nat → Nat
/-- Whether a map entry's unit is fused off (R415, log 6). -/
opaque fusedOff : Nat → Bool
/-- The module identity of a usage record (R377, log 7). -/
opaque moduleIdentity : DWord
/-- The 4096-bit modulus of a private key of the module: key 0 device identity, 1 metering (R378, R412, log 7). -/
opaque rsaModulus : Nat → Nat
/-- The private exponent of that key (R378, R412, log 7). -/
opaque rsaExponent : Nat → Nat
/-- The configuration space of function 0, PF0, and 1 + v, VF v: the spec gives no byte of it (R398, log 89). -/
opaque cfgSpace : Nat → Nat → Byte
/-- The certificate chain of an SPDM slot (R412, log 7). -/
opaque certificate : Nat → List Byte
/-- The public share that a key exchange answers (R412, log 7). -/
opaque keyShare : Nat → List Byte
/-- A response of an SPDM session under the session's keys, by AES-256-GCM, for each draw (R412, log 7). -/
opaque sessionSeal : Nat → List Byte → List Byte
/-- The measured firmware and fuse images of measurement indices 1 to 3 (R413, log 7). -/
opaque measured : Nat → List Byte
/-- The 256-bit keys that the module's random-bit generator draws for partitions (R408, log 7). -/
opaque partitionKey : Nat → Nat

/-- Physical dies (R11). -/
def dies : Nat := 8
/-- Is a physical die a W-die (R13)? -/
def isWDie (d : Nat) : Bool := d == 1 || d == 3 || d == 4 || d == 6
/-- Clusters of a physical die (R11). -/
def clustersOf (d : Nat) : Nat := if isWDie d then 6 else 16
/-- HBM stacks of a physical die (R11). -/
def stacksOf (d : Nat) : Nat := if isWDie d then 3 else 1
/-- Bytes of HBM on a die (R16). -/
def hbmBytes (d : Nat) : Nat := stacksOf d * 48 * 2 ^ 30
/-- Bytes of capacity tier on a die (R16): none on an M-die (R447). -/
def capBytes (d : Nat) : Nat := if isWDie d then 2 * 128 * 2 ^ 30 else 0
/-- The skew bound in ns (R122). -/
def skew : Nat := 20
/-- Entries of a die's token table (R102). -/
def tokenEntries : Nat := 16384
/-- Entries of the write-combining buffer (R128). -/
def wcbEntries : Nat := 64
/-- Lines of a core's L1: 256 KiB (R23). -/
def l1Lines : Nat := 2048
/-- Lines of a die's L2: 64 MiB (R16). -/
def l2Lines : Nat := 524288
/-- Token entries that a core caches (R103). -/
def coreEntries : Nat := 64
/-- Deposit entries of a reorder unit (R49). -/
def depositEntries : Nat := 4096
/-- Records a die's record store keeps (R364). -/
def recordStore : Nat := 262144

end Sys2Proof.Config
end

