-- ==== Sys2Proof/Machine/State.lean ====
section
/-!
DEFINITION. The state of the module as plain data: the lanes, groups, teams, cores, clusters, dies and partitions with
every register, memory, queue and table that the spec gives them, the reasons a step can stop, and the state after reset.
-/
namespace Sys2Proof.Machine

/-- Why a step stops the machine (log 10). -/
inductive Fault where
  /-- Raised by the step function when input power has been lost (R487): nothing survives, and the spec gives no step
  after it. Safe: the hardware does nothing more either. -/
  | powerLost
  deriving DecidableEq, Repr

/-- Why a step has no meaning. -/
inductive Refusal where
  /-- Raised by exec for a row that has no meaning yet. Safe: nothing is claimed of it. -/
  | notModelled (mnemonic : String)
  deriving DecidableEq, Repr

/-- A logical thread name (R361). -/
structure Name where
  launch : Nat := 0
  team : Nat := 0xFFFFFFFF
  thread : Nat := 0xFFFFFFFF
  deriving DecidableEq, Repr, Inhabited

/-- What a message that ends a wait carries of its antecedent (R363). -/
structure Ante where
  event : DWord := 0
  time : Nat := 0
  kind : Nat := 1
  name : Name := {}
  deriving DecidableEq, Repr, Inhabited

/-- An antecedent record (R363). -/
structure ARec where
  event : DWord
  ante : DWord
  ended : Nat
  anteTime : Nat
  waiter : Name
  waitKind : Nat
  anteKind : Nat
  anteName : Name
  duration : Nat
  deriving DecidableEq, Repr, Inhabited

/-- Where an access lands after translation (R82 to R93, R401). -/
inductive Loc where
  /-- A byte of HBM, capacity tier, vault SRAM or host memory: the cell's number. -/
  | cell (key : Nat)
  /-- A byte of a team's scratchpad allocation. -/
  | pad (team off : Nat)
  /-- A register of a partition's register page (0) or power page (1), at its home die. -/
  | reg (part die page off : Nat)
  /-- A byte of another module: its number and the guest-physical address. -/
  | remote (module : Nat) (gpa : Nat)
  deriving DecidableEq, Repr, Inhabited

/-- One element that a load brings to a register (R288, R289): `part` numbers the 8-byte access of its lane that it belongs to (R137). -/
structure Piece where
  lane : Nat
  reg : Reg
  width : Nat
  signed : Bool
  va : Nat
  loc : Loc
  got : List (Option Byte)
  part : Nat := 0
  deriving DecidableEq, Repr, Inhabited

/-- A store that a bound destination makes when its result arrives (R215). -/
structure BoundStore where
  lane : Nat
  va : Nat
  loc : Loc
  bytes : List Byte
  deriving DecidableEq, Repr, Inhabited

/-- What a pending variable-latency write waits for (R196). -/
inductive PendKind where
  | load (pieces : List Piece)
  | values (vals : List (Nat × Nat × Word)) (stores : List BoundStore)
  | uniform (k : Nat) (val : Option DWord) (preds : List (Nat × Bool)) (pd : Nat)
  | pop (q k : Nat) (since : Nat) (part : Mask)
  | atomic (vals : List (Nat × Nat × Word)) (preds : List (Nat × Bool)) (pd : Nat) (left : Nat)
  deriving DecidableEq, Repr, Inhabited

/-- A pending variable-latency write (R196, R424): the registers it holds pending for its lanes. -/
structure Pend where
  id : Nat
  lanes : Mask
  regs : List Reg
  kind : PendKind
  deadline : Option Nat := none
  pc : DWord := 0
  deriving DecidableEq, Repr, Inhabited

/-- The clause a lane is inside: its header's address and word, the bank it latched (R273), the loop pass it runs. -/
structure Clause where
  hdr : DWord
  word : DWord := 0
  bank : Nat := 0
  loop : Bool := false
  pass : Nat := 0
  deriving DecidableEq, Repr, Inhabited

/-- A lane (R37, R45). With `clause = none` its PC is at a header, which it reached at `since`, by a `loop`, by falling
through, or by a transfer; `relHere` says that it was released at this header, `held` that condition 1 or 2 of R194 held it there for a
slice cycle. -/
structure Lane where
  pc : DWord := 0
  exited : Bool := true
  waitCtr : Nat := 0
  released : Bool := false
  clause : Option Clause := none
  viaLoop : Bool := false
  viaFall : Bool := false
  relHere : Bool := false
  held : Bool := false
  since : Nat := 0
  deriving DecidableEq, Repr, Inhabited

/-- A stream register (R213) with its read-ahead (R215). -/
structure Stream where
  base : DWord := 0
  space : Nat := 0
  width : Nat := 0
  stride : Word := 0
  count : Nat := 0
  pos : Nat := 0
  modulo : Nat := 0
  ahead : List (Nat × Nat × DWord) := []
  deriving DecidableEq, Repr, Inhabited

/-- A completion token (R316). -/
structure CTok where
  busy : Bool := false
  last : Ante := {}
  deriving DecidableEq, Repr, Inhabited

/-- An arrival: the lanes that issue one word in one slice cycle (R43). -/
structure Arrival where
  live : Bool := false
  gid : Nat := 0
  lanes : Mask := 0
  pc : DWord := 0
  slotB : Bool := false
  kBefore : Option (Tab DWord) := none
  ext : Ext := Ext.plain
  hasExt : Bool := false
  word : DWord := 0
  orig : Option Mask := none
  deriving DecidableEq, Repr, Inhabited

/-- What an arrival does once its fence has completed (R133, R302 to R304). -/
inductive AfterFence where
  | nothing
  | bar (gang : Bool) (id n : Nat) (sync : Bool)
  | role (id : Nat)
  | pkg (k : Nat) (loc : Loc) (va : Nat) (n : Nat)
  deriving DecidableEq, Repr, Inhabited

/-- Why some lanes of a group are not ready (R40, R50, R132, R273, R302 to R304, R450); `pend` holds an access off an older one of its lane (R136,
R215); `passed` is a barrier wait whose phase has completed, with the arrival that completed it, until the waiter learns of it. -/
inductive WaitKind where
  | fence (scope : Nat) (begun : Option Nat) (bound : Nat) (next : AfterFence)
  | bar (gang : Bool) (id phase : Nat)
  | role (id phase : Nat)
  | pkg (k : Nat) (loc : Loc) (gen : Nat) (ended : Option Ante)
  | right (until_ : Nat)
  | pend (id : Nat)
  | loopBuf (takers : Mask)
  | tile (n : Nat)
  | rodep
  | tblSwap (ext : Bool)
  | passed (kind : Nat) (ended : Ante)
  deriving DecidableEq, Repr, Inhabited

/-- Lanes of a group that wait, with the word they wait at. -/
structure LWait where
  id : Nat
  lanes : Mask
  pc : DWord
  since : Nat
  kind : WaitKind
  deriving DecidableEq, Repr, Inhabited

/-- Why a whole group is stalled by an instruction (R311). A `tbl.ld` bears the number of its loads; a `wfw` on a register the value that it last
showed, and whether a write has left it other than kb (R346). -/
inductive StallKind where
  | aacq (tile : Nat)
  | arel (tile : Nat)
  | slclaim (slot : Nat)
  | slrel (slot : Nat)
  | twait (n : Nat)
  | cwait (mask : Nat)
  | push (busy : Option Nat) (left : Mask) (blocks : List (Nat × Nat × List Byte)) (mark : Nat)
  | token
  | hold (k va : Nat)
  | tblLd (fn : Nat) (pieces : List Piece) (id : Nat) (started : Bool)
  | xlinv (scope : Nat) (page : Option Nat) (begun : Bool) (mark : Nat)
  | eret (id : Nat) (begun : Option Nat) (bound : Nat)
  | clkr (k : Nat)
  | gtimeUntil (t : Nat)
  | halt
  | wfw (k va : Nat) (loc : Loc) (kb seen : DWord) (hit : Bool)
  deriving DecidableEq, Repr, Inhabited

/-- A stalled instruction: its word, lanes and start. -/
structure Stall where
  kind : StallKind
  arr : Arrival
  since : Nat
  deriving DecidableEq, Repr, Inhabited

/-- A fault record (R425). -/
structure FRec where
  tid : DWord := 0
  cls : Nat := 0
  code : Nat := 0
  flags : Nat := 1
  level : Nat := 1
  ver : Nat := 0
  pc : DWord := 0
  detail : DWord := 0
  name : Name := {}
  faulted : Mask := 0
  part : Mask := 0
  done : Mask := 0
  time : Nat := 0
  deriving DecidableEq, Repr, Inhabited

/-- A fault that a group is stopped on (R421); `recorded` is false while 64 traps are unresolved (R427). -/
structure Stop where
  fr : FRec
  arr : Arrival
  recorded : Bool
  act : Option Nat := none
  atHdr : Bool := false
  late : Option Pend := none
  lateOf : Option Nat := none
  lateAtoms : List Nat := []
  hvec : DWord := 0
  deriving DecidableEq, Repr, Inhabited

/-- The loop buffer of a group (R216, R217). -/
structure LoopBuf where
  hdr : DWord := 0
  word : DWord := 0
  k : Nat := 0
  lanes : Mask := 0
  running : Bool := false
  deriving DecidableEq, Repr, Inhabited

/-- A group (R27 to R37). -/
structure Group where
  part : Nat := 0
  team : Nat := 0
  core : Nat := 0
  slice : Nat := 0
  place : Nat := 0
  budget : Nat := 8
  consumer : Bool := false
  cont : Bool := false
  level : Nat := 0
  resident : Bool := false
  exited : Bool := true
  lanes : Tab Lane := []
  v : Tab Word := []
  k : Tab DWord := []
  p : Tab Mask := []
  x : Tab Stream := []
  c : Tab CTok := []
  q1 : List (DWord × Ante) := []
  q3 : List (DWord × Ante) := []
  q5 : List (DWord × Ante) := []
  held1 : Nat := 0
  held3 : Nat := 0
  held5 : Nat := 0
  pend : List Pend := []
  waits : List LWait := []
  stall : Option Stall := none
  withdrawn : List Arrival := []
  parked : List Nat := []
  loop : Option LoopBuf := none
  stops : List Stop := []
  largestW : Nat := 0
  largestWd : Nat := 0
  largestC : Nat := 0
  floorL1 : Nat := 0
  floorL2 : Nat := 0
  clkReq : Nat := 8
  lastIssue : Nat := 0
  yielded : Bool := false
  deposits : Tab Name := []
  lastRec : Option (DWord × Nat) := none
  resvWait : Bool := false
  lost : List (Nat × Nat × DWord) := []
  badRegs : List (Nat × Reg) := []
  debugStop : Bool := false
  debugMark : Nat := 0
  dbgMode : Nat := 0
  passBp : Mask := 0
  deriving DecidableEq, Repr, Inhabited

/-- A barrier of a team, gang or role (R302, R303). -/
structure Barrier where
  phase : Nat := 0
  count : Nat := 0
  expected : Nat := 0
  last : Ante := {}
  deriving DecidableEq, Repr, Inhabited

/-- A slot or tile state of the tile table (R172). -/
inductive TileState where
  | empty
  | filling
  | ready
  | draining
  deriving DecidableEq, Repr, Inhabited

/-- A slot's entry (R172, R173); the holder is a team. -/
structure SlotEntry where
  state : TileState := .empty
  holder : Option Nat := none
  readers : Nat := 0
  last : Ante := {}
  freed : Ante := {}
  lastRead : Ante := {}
  deriving DecidableEq, Repr, Inhabited

/-- A tile's entry (R172, R174); the holder is a group. -/
structure TileEntry where
  state : TileState := .empty
  holder : Option Nat := none
  pending : Nat := 0
  last : Ante := {}
  freed : Ante := {}
  deriving DecidableEq, Repr, Inhabited

/-- A launch record (R59). -/
structure LaunchRec where
  entry : DWord := 0
  cont : DWord := 0
  args : DWord := 0
  t : Nat := 1
  p : Nat := 1
  c : Nat := 0
  pBudget : Nat := 8
  cBudget : Nat := 8
  pad : Nat := 4096
  gang : Nat := 1
  coRes : Bool := false
  priv : Bool := false
  deriving DecidableEq, Repr, Inhabited

/-- A launch: a dispatched grid-launch node or a handler launch (R59, R427). -/
structure Launch where
  part : Nat := 0
  record : LaunchRec := {}
  graph : Nat := 0
  node : Nat := 0
  handler : Option DWord := none
  id : Nat := 0
  prio : Nat := 0
  readyAt : Nat := 0
  aff : Nat := 0
  code : List Host.Cell := []
  steps : List (Nat × Nat) := []
  coreNs : Nat := 0
  dynNj : Nat := 0
  leakNj : Nat := 0
  chunks : Nat := 0
  dirty : List Nat := []
  deriving DecidableEq, Repr, Inhabited

/-- A region declaration of a node (R66): its base and the log of its size, the access declared, and the team that a region written whole is
lent to. -/
structure OpDecl where
  base : Nat := 0
  size : Nat := 16
  access : Nat := 0
  team : Nat := 0
  deriving DecidableEq, Repr, Inhabited

/-- A node's state (R60). -/
inductive NodeState where
  | waiting
  | ready
  | dispatched
  | running
  | complete
  | skipped
  deriving DecidableEq, Repr, Inhabited

/-- A node of a resident graph (R57 to R64): `raw` is its engine descriptor, `holder` the copy channel that runs it, `tear` says that it
is to be torn down. -/
structure Node where
  kind : Nat := 0
  prio : Nat := 0
  aff : Nat := 0
  succ : List Nat := []
  preds : Nat := 0
  object : DWord := 0
  value : DWord := 0
  decls : List OpDecl := []
  state : NodeState := .waiting
  arrivals : Nat := 0
  doneArrivals : Nat := 0
  count : Nat := 0
  readyAt : Nat := 0
  dispatchAt : Nat := 0
  launch : Nat := 0
  record : LaunchRec := {}
  kills : Nat := 0
  unreplayable : Bool := false
  failed : Bool := false
  raw : List Byte := []
  holder : Nat := 0
  tear : Bool := false
  dynNj : Nat := 0
  deriving DecidableEq, Repr, Inhabited

/-- A resident graph (R55, R56, R65). -/
structure Graph where
  live : Bool := false
  tag : Nat := 0
  nodes : List Node := []
  saveArea : DWord := 0
  saveSize : Nat := 0
  doneWord : DWord := 0
  firstFailed : Option (Nat × Nat) := none
  deriving DecidableEq, Repr, Inhabited

/-- An observability ring's registers and header (R370, R371). -/
structure Ring where
  reg : DWord := 0
  wr : Nat := 0
  lost : Nat := 0
  deriving DecidableEq, Repr, Inhabited

/-- The registers that a CREATE descriptor and SETCTX set (R94, R95, R405). -/
structure Context where
  txroot : DWord := 0
  vwin : DWord := 0
  pvwin : DWord := 0
  pvcfg : DWord := 0xA0000
  vdt : DWord := 0
  vxt : DWord := 0
  vaultBase : Tab Nat := []
  quota : Tab Nat := []
  dieMask : Nat := 0
  hostBase : DWord := 0
  hostSize : DWord := 0
  tdisp : Bool := false
  descriptor : List Byte := []
  deriving DecidableEq, Repr, Inhabited

/-- The observability registers of a partition (R371); `ticks` is the gtime of the last tick that each virtual die has latched (R369). -/
structure Observe where
  tsRing : Ring := {}
  crRing : Ring := {}
  hsRing : Ring := {}
  mrRing : Ring := {}
  tscfg : DWord := 0x100000
  interval : Nat := 0x3E8
  dbgTgt : DWord := 0
  dbgCtl : DWord := 0
  dbgBp : Tab DWord := []
  ticks : Tab Nat := []
  deriving DecidableEq, Repr, Inhabited

/-- The metering of a partition (R376, R377). -/
structure Metering where
  ctr : Tab Nat := []
  carry : Tab Nat := []
  last : Tab Nat := []
  seq : Nat := 0
  digest : List Byte := []
  recSeq : Nat := 0
  prevHash : List Byte := []
  intStart : Nat := 0
  chained : Nat := 0
  lastBlockAt : Nat := 0
  snap : Tab Nat := []
  saturated : Bool := false
  deriving DecidableEq, Repr, Inhabited

/-- A partition's state in the mailbox's sense (R404 to R407). -/
inductive PartState where
  | free
  | ready
  deriving DecidableEq, Repr, Inhabited

/-- A partition, with its one context (log 11). -/
structure Partition where
  state : PartState := .free
  ctx : Context := {}
  steep : DWord := 0x0000_0010_1E10_0000
  hvec : DWord := 0
  gsub : List DWord := []
  accepted : Nat := 0
  dropped : Nat := 0
  acked : Nat := 0
  ackDue : Option Nat := none
  suspended : Bool := false
  obs : Observe := {}
  met : Metering := {}
  banks : Tab Nat := []
  ctr : Tab Nat := []
  graphs : Tab Graph := []
  imports : List (Nat × Nat) := []
  service : Nat := 0
  floorM : Nat := 0
  floorW : Nat := 0
  tier : Nat := 0
  alloc : Nat := 0
  measured : Nat := 0
  delivered : List Nat := []
  handlerLaunches : Nat := 0
  handles : Nat := 0
  idleNj : Nat := 0
  energyNj : Nat := 0
  epochNj : Nat := 0
  telemetry : Tab Nat := []
  erased : Bool := false
  staleVdies : List Nat := []
  collSeq : List (DWord × Nat × Nat) := []
  deriving DecidableEq, Repr, Inhabited

/-- A cached copy of a line under a lease (R125, R126). -/
structure Copy where
  line : Nat
  bytes : List Byte
  expiry : Nat
  c : Nat
  made : Nat
  deriving DecidableEq, Repr, Inhabited

/-- A write-combining entry (R128): bytes by offset, the groups that wrote. -/
structure WEntry where
  line : Nat
  part : Nat
  team : Nat
  bytes : Tab Byte
  gids : List Nat
  first : Nat
  va : Nat := 0
  deriving DecidableEq, Repr, Inhabited

/-- A cached stage-one result (R97). -/
structure TlbEntry where
  part : Nat
  page : Nat
  leaf : DWord
  big : Bool
  deriving DecidableEq, Repr, Inhabited

/-- A parameter block that the matrix engine accepted (R176). -/
structure Block where
  aFmt : Nat
  bFmt : Nat
  mode : Nat
  z : Bool
  tok : Option Nat
  gran : Nat
  tile : Nat
  m : Nat
  n : Nat
  k : Nat
  aSlot : Nat
  aCount : Nat
  bSlot : Nat
  bCount : Nat
  rowLo : Nat
  rowHi : Nat
  colLo : Nat
  colHi : Nat
  depLo : Nat
  depHi : Nat
  aScale : Nat
  bScale : Nat
  tag : Nat
  deriving DecidableEq, Repr, Inhabited

/-- Who issued an engine command: a group's lane, or a graph node. -/
structure Issuer where
  gid : Option Nat := none
  team : Nat := 0
  part : Nat := 0
  graph : Nat := 0
  node : Nat := 0
  lane : Nat := 0
  pc : DWord := 0
  at_ : Nat := 0
  pushEvent : Ante := {}
  deriving DecidableEq, Repr, Inhabited

/-- An accepted matrix command (R179, R183, R464). -/
structure MCmd where
  id : Nat
  who : Issuer
  block : Block
  seg : Nat := 0
  events : Nat := 0
  status : Nat := 0
  stopped : Bool := false
  stopTrap : Option DWord := none
  hard : Bool := false
  addr : Nat := 0
  left : List Nat := []
  image : Tab Byte := []
  deriving DecidableEq, Repr, Inhabited

/-- The segment under way: attempt, offsets, kept incoming words, start, and how many of its chunks have had their slots ready (R173, R184,
R464). -/
structure MRun where
  attempt : Nat := 0
  offset0 : Nat := 0
  offset : Nat := 0
  kept : List (Nat × Word) := []
  start : Nat := 0
  seen : Nat := 0
  deriving DecidableEq, Repr, Inhabited

/-- The steep controller of a core (R187, R188). -/
structure Steep where
  offset : Nat := 0
  products : Nat := 0
  events : Nat := 0
  start : Nat := 0
  lastEvents : Nat := 0
  cfg : DWord := 0x0000_0010_1E10_0000
  resetReq : Bool := false
  deriving DecidableEq, Repr, Inhabited

/-- A copy descriptor that a channel accepted (R322). -/
structure CopyDesc where
  kind : Nat
  srcSpace : Nat
  dstSpace : Nat
  idxSpace : Nat
  width : Nat
  tok : Option Nat
  gran : Nat
  slot : Nat
  zero : Bool
  status : Bool
  l : Nat
  rows : Nat
  tag : Nat
  src : DWord
  dst : DWord
  srcPitch : Nat
  dstPitch : Nat
  colIdx : DWord
  idx : DWord
  dst2 : DWord
  firstRow : Nat
  deriving DecidableEq, Repr, Inhabited

/-- An accepted copy command (R325, R326): the units done, where a walk starts and how many elements it moves, the pieces of the
current segment that have moved. -/
structure CopyCmd where
  id : Nat
  who : Issuer
  desc : CopyDesc
  next : Nat := 0
  walk : Option (Nat × Nat) := none
  moved : List Nat := []
  stopped : Bool := false
  stopTrap : Option DWord := none
  largestW : Nat := 0
  ended : Bool := false
  addr : Nat := 0
  filling : Bool := false
  status : Nat := 0
  start : Nat := 0
  index : List (Nat × Nat) := []
  deriving DecidableEq, Repr, Inhabited

/-- A copy channel (R325). -/
structure Chan where
  queue : List CopyCmd := []
  deriving DecidableEq, Repr, Inhabited

/-- A collective command (R328 to R331): its descriptor and issuer, what it will write, the words it has written, its largest W, and the
push of the rank of its instance that this module accepted last. -/
structure CollCmd where
  id : Nat
  who : Issuer
  die : Nat
  op : Nat
  combine : Nat
  ty : Nat
  tok : Option Nat
  status : Bool
  n : Nat
  key : DWord
  rank : Nat
  m : Nat
  root : Nat
  tag : Nat
  src : DWord
  dst : DWord
  inst : Nat
  core : Nat := 0
  started : Bool := false
  written : Bool := false
  largestW : Nat := 0
  moved : List Nat := []
  result : Nat := 0
  stopTrap : Option DWord := none
  addr : Nat := 0
  out : List Byte := []
  last : Ante := {}
  deriving DecidableEq, Repr, Inhabited

/-- A deposit in the reorder unit (R49). -/
structure Deposit where
  team : Nat
  key : Nat
  payload : DWord
  name : Name
  deriving DecidableEq, Repr, Inhabited

/-- A formed continuation group that waits for a place (R51). -/
structure Formed where
  team : Nat
  key : Nat
  taken : List Deposit
  deriving DecidableEq, Repr, Inhabited

/-- What a saved team holds in the save area (R78). [log 72, DESIGN CHOICE.] -/
structure Saved where
  tiles : List (Nat × TileEntry × Tab Word) := []
  slots : List (Nat × SlotEntry × Tab Byte) := []
  mq : List MCmd := []
  copies : List (Nat × CopyCmd) := []
  deposits : List Deposit := []
  formed : List Formed := []
  deriving DecidableEq, Repr, Inhabited

/-- Where a team stands (R70 to R72, R29). -/
inductive TeamState where
  | waiting
  | resident
  | saved
  | complete
  deriving DecidableEq, Repr, Inhabited

/-- A team (R27 to R37); `passedAt` is when the walker first placed a later one past it (R71). -/
structure Team where
  part : Nat := 0
  launch : Nat := 0
  index : Nat := 0
  state : TeamState := .waiting
  core : Nat := 0
  slot : Nat := 0
  handle : Nat := 0
  block : Option Nat := none
  everResident : Bool := false
  pendingAt : Nat := 0
  passedAt : Option Nat := none
  blocking : Bool := false
  placedAt : Nat := 0
  residentFrom : Nat := 0
  pad : List Host.Cell := []
  padKept : Bool := false
  bars : Tab Barrier := []
  gangBars : Tab Barrier := []
  roleBars : Tab Barrier := []
  q8 : List (DWord × Ante) := []
  saved : Saved := {}
  goal : Nat := 0
  level2 : Bool := false
  handles : Option DWord := none
  action : Nat := 0
  deriving DecidableEq, Repr, Inhabited

/-- An issue slice (R39, R345, R388); `lagAt` is since when it has not run at the ratio that it is to run at, `fresh` says that an entry of
vector work has come since its last cycle (R381). -/
structure Slice where
  ratio : Nat := 8
  hold : Option Nat := none
  holdLanes : Mask := 0
  resv : Nat := 0
  idle : Nat := 0
  fresh : Bool := false
  cycles : Nat := 0
  lagAt : Option Nat := none
  deriving DecidableEq, Repr, Inhabited

/-- A core (R23); `entries` names the token entries that it caches, by partition and base (R103). -/
structure Core where
  l1 : List Copy := []
  wcb : List WEntry := []
  tlb : List TlbEntry := []
  bank : Nat := 0
  images : Tab Byte := []
  slotE : Tab SlotEntry := []
  tileE : Tab TileEntry := []
  slotB : Tab Byte := []
  tileW : Tab Word := []
  aacqQ : List (Nat × Nat) := []
  claimQ : List (Nat × Nat) := []
  mq : List MCmd := []
  mrun : Option MRun := none
  steep : Steep := {}
  chans : Tab Chan := []
  deposits : List Deposit := []
  formed : List Formed := []
  slices : Tab Slice := []
  errTimes : List Nat := []
  hist : Tab Nat := []
  poison : List (Nat × Nat) := []
  issueBy : Tab Nat := []
  chunkBy : Tab Nat := []
  slotBy : Tab Nat := []
  heldBy : Tab Nat := []
  heldAt : Nat := 0
  entries : List (Nat × Nat) := []
  deriving DecidableEq, Repr, Inhabited

/-- A reservation request or grant of a cluster's arbiter (R381, R382). -/
structure Resv where
  unit_ : Nat
  core : Nat
  amount : Nat
  prio : Nat := 0
  at_ : Nat := 0
  deriving DecidableEq, Repr, Inhabited

/-- A retention image of one core (R395). -/
structure Image where
  core : Nat
  bank : Nat
  images : Tab Byte
  steep : Steep
  deriving DecidableEq, Repr, Inhabited

/-- A cluster (R380 to R396); `lastLeft` is when a team last left it (R75), `quietAt` since when R394's conditions hold. -/
structure Cluster where
  holder : Option Nat := none
  draining : Option Nat := none
  state : Nat := 0
  req : Bool := false
  wakeHeld : Bool := false
  railOff : Bool := false
  since : Nat := 0
  budget : Nat := 0
  epochBudget : Nat := 0
  headroom : Bool := false
  ratioLimit : Nat := 8
  matClock : Nat := 0
  lastLeft : Nat := 0
  quietAt : Option Nat := none
  waited : Bool := false
  maxHeld : Nat := 0
  requests : List Resv := []
  grants : List Resv := []
  retained : List Image := []
  deriving DecidableEq, Repr, Inhabited

/-- A die (R24, R122, R384, R390, R458); `msc` lists the lines that its memory-side cache holds, the last used first
(R18), `walkFloor` is the time no older than which its walks find copies (R97), `nextAt` the first ns in which each unit may make its next event (R362), `keys` the two keys of each partition that it is granted to (R408), `trim` a change of 1 ns of its counter that comes with
the next passing of time, `trimAt` the time of the last one (R122). -/
structure Die where
  off : Nat := 0
  trim : Option Bool := none
  trimAt : Nat := 0
  alarm : Bool := false
  quietFrom : Nat := 0
  deviation : Nat := 0
  timeFailed : Bool := false
  cap : Nat := 1024
  restores : List (Nat × Nat) := []
  bankLow : Bool := false
  temp : Nat := 0
  therm : Nat := 0
  thermAt : Nat := 0
  sampled : Nat := 0
  split : Nat := 6
  l2 : List Copy := []
  hd : Tab Nat := []
  records : List ARec := []
  binds : List (DWord × DWord) := []
  seqs : Tab Nat := []
  nextAt : Tab Nat := []
  failed : Bool := false
  thermalFail : Bool := false
  resetAt : Option Nat := none
  telemetry : Tab Nat := []
  frames : List (Nat × Nat × Nat) := []
  bytesBy : Tab Nat := []
  energyAt : Nat := 0
  keptAt : Nat := 0
  msc : List Nat := []
  walkFloor : Nat := 0
  keys : List (Nat × Nat × Nat) := []
  deriving DecidableEq, Repr, Inhabited

/-- A word that a group waits on in `wfw`: its value kb there, and whether a write has applied since that left it otherwise (R346). -/
structure Watch where
  gid : Nat
  key : Nat
  kb : DWord
  hit : Bool
  deriving DecidableEq, Repr, Inhabited

/-- A line at its home (R125, R130). -/
structure LineState where
  h : Nat := 0
  c : Nat := 0
  watch : List Watch := []
  deriving DecidableEq, Repr, Inhabited

/-- A granule whose first declared write was shadowed (R477): its cells from before. -/
structure Shadow where
  part : Nat
  launch : Nat
  granule : Nat
  decl : Nat := 0
  va : Nat := 0
  orig : List Host.Cell
  deriving DecidableEq, Repr, Inhabited

/-- A write held at its home until the host answers a back-invalidate snoop (R148). -/
structure HeldWrite where
  line : Nat
  msg : Nat
  deriving DecidableEq, Repr, Inhabited

/-- Marks on stored bytes (R477, R485, R148): lost data, shadows, lines that the host caches, writes held for its answer, lines that a
back-invalidate has asked back. -/
structure Marks where
  poison : List (Nat × Nat) := []
  shadows : List Shadow := []
  hostLines : List Nat := []
  held : List HeldWrite := []
  asked : List Nat := []
  deriving DecidableEq, Repr, Inhabited

/-- Stage-two tables (R93): top-level and second-level entries. -/
structure Stage2 where
  top : Tab DWord := []
  sec : Tab DWord := []
  deriving DecidableEq, Repr, Inhabited

/-- Token operations that move or wait (R111 to R116). -/
inductive TokKind where
  | lend
  | ret
  | share
  | tdrop
  | split
  | merge
  deriving DecidableEq, Repr, Inhabited

/-- A token operation at its home (R111, R114): `eff` is when it took effect, `wct` the latest W of the writes that it covers. -/
structure TokOp where
  kind : TokKind
  holder : Nat
  target : Nat := 0
  gid : Option Nat := none
  at_ : Nat := 0
  settle : Bool := false
  size : Nat := 16
  mark : Nat := 0
  eff : Nat := 0
  wct : Nat := 0
  ev : Ante := {}
  ante : Option Ante := none
  deriving DecidableEq, Repr, Inhabited

/-- A token entry (R106), its waiting and moving operations, the start of its service group's open window (R144). -/
structure Token where
  part : Nat
  base : Nat
  size : Nat
  home : Nat
  owner : Nat
  outer : Nat := 0
  inner : Nat := 0
  sharers : List Nat := []
  lease : Nat := 0
  pub : Bool := false
  last : DWord := 0
  lastAnte : Ante := {}
  waiting : List TokOp := []
  moving : Option (TokOp × Nat) := none
  winAt : Option Nat := none
  winCount : Tab Nat := []
  notBefore : Nat := 0
  lastW : Nat := 0
  deriving DecidableEq, Repr, Inhabited

/-- A write-through message on its way to a home (R128, R130); `silent` says that its destination does not answer (R448), `dest` is the number
that it carries out of the module (R400, R411). -/
structure Msg where
  id : Nat
  core : Nat
  part : Nat
  team : Nat
  line : Nat
  bytes : Tab Byte
  gids : List Nat
  first : Nat
  sent : Nat
  refused : Bool := false
  silent : Bool := false
  va : Nat := 0
  dest : Nat := 0
  deriving DecidableEq, Repr, Inhabited

/-- One lane's operation in a combined atomic request (R299). -/
structure AtomLane where
  lane : Nat
  operand : DWord
  swap : DWord
  deriving DecidableEq, Repr, Inhabited

/-- A combined atomic request on its way to its place of application (R298, R299, R304), with the number that it carries out of the module
(R411). -/
structure Atom where
  id : Nat
  gid : Nat
  core : Nat
  part : Nat
  team : Nat
  loc : Loc
  va : Nat
  width : Nat
  ty : Nat
  op : Nat
  lanes : List AtomLane
  pend : Option Nat
  wait_ : Option Nat := none
  seq : Nat := 0
  sent : Nat
  refused : Bool := false
  pc : DWord := 0
  dest : Nat := 0
  deriving DecidableEq, Repr, Inhabited

/-- A request to another module or to host memory (R92, R448); `dest` is the partition there that it names, or the VF that it is made as
(R400, R411), `cmd` the core and number of an engine command that made it. -/
structure Far where
  id : Nat
  gid : Nat
  part : Nat
  module : Option Nat
  gpa : Nat
  va : Nat := 0
  write : Option (Tab Byte)
  pend : Option Nat := none
  refused : Bool := false
  sent : Nat
  cmd : Option (Nat × Nat) := none
  lau : Option Nat := none
  dest : Nat := 0
  deriving DecidableEq, Repr, Inhabited

/-- What is on its way between units; `crossed` names the requests that a die whose reset drains still holds, each with that die (R448, R483). -/
structure Net where
  msgs : List Msg := []
  atoms : List Atom := []
  far : List Far := []
  colls : List CollCmd := []
  crossed : List (Nat × Nat) := []
  deriving DecidableEq, Repr, Inhabited

/-- An entry of the resource map that differs from its bring-up value (R416, R417). -/
structure MapEntry where
  state : Nat := 1
  speed : Option Nat := none
  deriving DecidableEq, Repr, Inhabited

/-- How a raise reaches the map pages: its version is version B from `begins` and version A from `ends`, the entries follow between, and
`old` holds them as they were (R418); `at_` is when the raise was. -/
structure MapUpdate where
  version : Nat
  at_ : Nat
  begins : Nat
  ends : Nat
  old : Tab MapEntry
  deriving DecidableEq, Repr, Inhabited

/-- The resource map (R415 to R419). -/
structure ResMap where
  version : Nat := 1
  entries : Tab MapEntry := []
  updates : List MapUpdate := []
  deriving DecidableEq, Repr, Inhabited

/-- A virtual function's TDISP state (R398, R414). -/
inductive VfState where
  | unlocked
  | locked
  | run
  | error
  deriving DecidableEq, Repr, Inhabited

/-- A virtual function (R399, R404). -/
structure Vf where
  state : VfState := .unlocked
  part : Option Nat := none
  win : DWord := 0
  decBase : DWord := 0
  decSize : Nat := 2 ^ 30
  deriving DecidableEq, Repr, Inhabited

/-- What the module gives the outside: interrupts, answers of SPDM and TDISP, CXL.mem read data, answers to another module with each line's
expiry and C, or the W (R125, R130, R398, R403, R411 to R414). -/
inductive Output where
  | msix (fn vector : Nat)
  | signal (part : Nat)
  | readData (data : List Byte) (poisoned : Bool)
  | snoopDone (line : Nat)
  | backInvalidate (line : Nat)
  | spdm (code : Nat) (data : List Byte)
  | remoteReply (ok : Bool) (data : List Byte) (times : List (Nat × Nat))
  deriving DecidableEq, Repr, Inhabited

/-- The host's side of the module: mailbox, rings, functions, domain (R398 to R410, R430); `goAt` is when the last command began (R403). -/
structure HostSide where
  block : List Byte := []
  cmd : List Byte := []
  sessions : List Nat := []
  busy : Bool := false
  goAt : Nat := 0
  status : Nat := 0
  unattrNj : Nat := 0
  vfs : Tab Vf := []
  recAddr : DWord := 0
  recSize : DWord := 0
  recWr : Nat := 0
  recLost : Nat := 0
  fltAddr : DWord := 0
  fltSize : DWord := 0
  fltWr : Nat := 0
  fltLost : Nat := 0
  module : Nat := 0
  domain : DWord := 0
  out : List Output := []
  deriving DecidableEq, Repr, Inhabited

/-- The power manager, the thermal thresholds and the service controller's inputs (R385, R390). -/
structure Power where
  cap : Nat := 0
  floors : Tab Nat := []
  t1 : Nat := 95
  t2 : Nat := 105
  t3 : Nat := 120
  unattrEpoch : Nat := 0
  lost : Bool := false
  svc : Nat := 0
  epoch : Nat := 0
  deriving DecidableEq, Repr, Inhabited

/-- An unresolved trap (R427, R430, R475). -/
structure Trap where
  fr : FRec
  part : Nat
  gid : Option Nat := none
  core : Option Nat := none
  unit_ : Nat := 0
  cmd : Nat := 0
  susp : Bool := false
  team : Option Nat := none
  deriving DecidableEq, Repr, Inhabited

/-- A holder declared lost at a time, until its entries are settled (R455). -/
structure LostHolder where
  part : Nat
  holder : Nat
  since : Nat := 0
  deriving DecidableEq, Repr, Inhabited

/-- Numbers that name teams, groups and messages apart: the model's own. -/
structure Ids where
  team : Nat := 0
  group : Nat := 0
  launch : Nat := 0
  msg : Nat := 0
  deriving DecidableEq, Repr, Inhabited

/-- Mismatch histograms and weak marks in non-volatile storage (R472, R473). -/
structure NonVol where
  hist : Tab Nat := []
  weak : Tab Nat := []
  copied : Nat := 0
  deriving DecidableEq, Repr, Inhabited

/-- A step that the agenda lists: the time that passes before it, the step, its arguments (log 1). -/
structure Item where
  dt : Nat
  op : Instr
  ev : Ev
  deriving DecidableEq, Repr, Inhabited

/-- The state of the module. -/
structure State where
  time : Nat
  free : Nat
  turn : Nat
  agenda : List Item
  ev : Ev
  issuing : List Arrival
  cur : Arrival
  mem : List Host.Cell
  lines : Tab LineState
  marks : Marks
  s2 : Stage2
  tokens : List Token
  net : Net
  map : ResMap
  host : HostSide
  power : Power
  dies : Tab Die
  clusters : Tab Cluster
  cores : Tab Core
  parts : Tab Partition
  launches : Tab Launch
  teams : Tab Team
  groups : Tab Group
  traps : List Trap
  trapQ : List (Trap × DWord)
  losts : List LostHolder
  nonvol : NonVol
  ids : Ids
  deriving DecidableEq, Repr

/-- The module right after reset (R415, R418, R174, R270, R384, R388, R390): no partition exists, every unit tests itself,
the map is at version 1 and memory lists nothing. -/
def State.reset : State where
  time := 0
  free := 0
  turn := 0
  agenda := []
  ev := {}
  issuing := []
  cur := {}
  mem := []
  lines := []
  marks := {}
  s2 := {}
  tokens := []
  net := {}
  map := {}
  host := {}
  power := {}
  dies := []
  clusters := []
  cores := []
  parts := []
  launches := []
  teams := []
  groups := []
  traps := []
  trapQ := []
  losts := []
  nonvol := {}
  ids := {}

end Sys2Proof.Machine
end

