-- ==== Sys2Proof/Machine/Ops.lean ====
section
/-!
DEFINITION. The named operations over the state: access to the units, time, event ids and antecedent records, memory
and its lines, the write-combining buffers, translation and rights.
-/
namespace Sys2Proof.Machine

/-- What a step answers. -/
abbrev Out := Host.Outcome State Fault Refusal

/-! ### Units -/

def grp (s : State) (g : Nat) : Group := s.groups.get {} g
def modGrp (g : Nat) (f : Group → Group) (s : State) : State := { s with groups := s.groups.put g (f (grp s g)) }
def team (s : State) (t : Nat) : Team := s.teams.get {} t
def modTeam (t : Nat) (f : Team → Team) (s : State) : State := { s with teams := s.teams.put t (f (team s t)) }
def launch (s : State) (l : Nat) : Launch := s.launches.get {} l
def modLaunch (l : Nat) (f : Launch → Launch) (s : State) : State := { s with launches := s.launches.put l (f (launch s l)) }
def core (s : State) (c : Nat) : Core := s.cores.get {} c
def modCore (c : Nat) (f : Core → Core) (s : State) : State := { s with cores := s.cores.put c (f (core s c)) }
def clus (s : State) (c : Nat) : Cluster := s.clusters.get {} c
def modClus (c : Nat) (f : Cluster → Cluster) (s : State) : State := { s with clusters := s.clusters.put c (f (clus s c)) }
def die (s : State) (d : Nat) : Die := s.dies.get {} d
def modDie (d : Nat) (f : Die → Die) (s : State) : State := { s with dies := s.dies.put d (f (die s d)) }
def part (s : State) (p : Nat) : Partition := s.parts.get {} p
def modPart (p : Nat) (f : Partition → Partition) (s : State) : State := { s with parts := s.parts.put p (f (part s p)) }

/-- Change a node of a graph of a partition. -/
def modNode (p g n : Nat) (f : Node → Node) (s : State) : State :=
  modPart p (fun x => { x with graphs := x.graphs.put g { x.graphs.get {} g with nodes := (x.graphs.get {} g).nodes.modify n f } }) s

/-- The physical die of a core number (R11). -/
def coreDie (c : Nat) : Nat := c / 64
/-- The cluster of a core number: physical die times 16 plus cluster within the die. -/
def coreClus (c : Nat) : Nat := c / 64 * 16 + c % 64 / 4
/-- The physical die of a cluster number. -/
def clusDie (c : Nat) : Nat := c / 16
/-- The cores of a cluster. -/
def clusCores (c : Nat) : List Nat := (List.range 4).map (fun i => c / 16 * 64 + c % 16 * 4 + i)
/-- The die of a group's core. -/
def grpDie (s : State) (g : Nat) : Nat := coreDie (grp s g).core
/-- Every core of a die. -/
def dieCores (d : Nat) : List Nat := (List.range (Config.clustersOf d * 4)).map (fun i => d * 64 + i)

/-- Entries of a table that meet a test, as numbers. -/
def keysOf {α : Type} (t : Tab α) (f : Nat → α → Bool) : List Nat := (t.filter (fun c => f c.1 c.2)).map Prod.fst

/-- The resident groups of a team in ascending place. -/
def teamGroups (s : State) (t : Nat) : List Nat := keysOf s.groups (fun _ g => g.team == t)
/-- The groups of a team that have not exited. -/
def liveGroups (s : State) (t : Nat) : List Nat := keysOf s.groups (fun _ g => g.team == t && !g.exited)

/-! ### Time, free values and event ids -/

/-- The gtime of a die (R122, R123). -/
def gtime (s : State) (d : Nat) : Nat := s.time + (die s d).off
/-- A free value of this step, told apart by `salt` (log 2). -/
def draw (s : State) (salt : Nat) : Nat := Config.freeNat (s.free * 2 ^ 16 + salt % 2 ^ 16)
/-- The step has drawn: the next one draws afresh. -/
def drew (s : State) : State := { s with free := s.free + 1 }

/-- Entry `i` of a partition's virtual die table: the physical die when it is valid (R95). -/
def vdt (s : State) (p i : Nat) : Option Nat :=
  let e := nbits (part s p).ctx.vdt.toNat (8 * i + 7) (8 * i)
  if i < 8 && 128 ≤ e then some (e % 8) else none
/-- The virtual die number of a physical die in a partition (R95). -/
def vdieOf (s : State) (p d : Nat) : Nat := ((List.range 8).find? (fun i => vdt s p i == some d)).getD 0

/-- Add to a counter of a partition's bank: index 0 to 63 core-side, 64 to 127 memory-side, of a die (R368). -/
def countAt (p d idx n : Nat) (s : State) : State :=
  let key := (vdieOf s p d + idx / 64 * 8) * 64 + idx % 64
  modPart p (fun x => { x with ctr := x.ctr.put key (min (x.ctr.get 0 key + n) (2 ^ 64 - 1)) }) s
/-- Add to a core-side counter for a group (R368). -/
def count (g idx n : Nat) (s : State) : State := countAt (grp s g).part (grpDie s g) idx n s

/-- A telemetry counter of a partition on a die (R489); of unpartitioned hardware when no partition is named. -/
def telemetry (p : Option Nat) (d i : Nat) (s : State) : State :=
  match p with
  | some p => modPart p (fun x => { x with telemetry := x.telemetry.put (d * 32 + i) (min (x.telemetry.get 0 (d * 32 + i) + 1) (2 ^ 64 - 1)) }) s
  | none => modDie d (fun x => { x with telemetry := x.telemetry.put i (min (x.telemetry.get 0 i + 1) (2 ^ 64 - 1)) }) s

/-- The next event id of a unit on a die, in the numbering of a partition; the unit makes one event in a ns (R362). -/
def newEvent (s : State) (p d unit_ : Nat) : DWord × State :=
  let n := (die s d).seqs.get 0 unit_
  (.ofNat 64 (s.host.module * 2 ^ 56 + vdieOf s p d * 2 ^ 53 + unit_ * 2 ^ 45 + n % 2 ^ 45),
   modDie d (fun x => { x with seqs := x.seqs.put unit_ (n + 1), nextAt := x.nextAt.put unit_ (max (gtime s d) (x.nextAt.get 0 unit_) + 1) }) s)
/-- The gtime at which a unit of a die makes the event that it made last (R362). -/
def eventAt (s : State) (d unit_ : Nat) : Nat := (die s d).nextAt.get 0 unit_ - 1

/-- The logical thread name of a lane of a group (R361, R52). -/
def laneName (s : State) (g lane : Nat) : Name :=
  let gr := grp s g
  let t := team s gr.team
  let l := launch s t.launch
  if gr.cont then gr.deposits.get ⟨l.id, t.index, 32 * gr.place + lane⟩ lane
  else ⟨l.id, t.index, 32 * gr.place + lane⟩
/-- The name of a party that is no lane (R361). -/
def partyName (launchId : Nat) : Name := ⟨launchId, 0xFFFFFFFF, 0xFFFFFFFF⟩
/-- The name that a message of another module carries, in its last 12 bytes (R363). -/
def farName (e : Ev) : Name :=
  let b := e.data.drop (e.data.length - 12)
  ⟨leNat (b.take 4), leNat ((b.drop 4).take 4), leNat ((b.drop 8).take 4)⟩
/-- The launch id of a group's launch (R361). -/
def launchId (s : State) (g : Nat) : Nat := (launch s (team s (grp s g).team).launch).id

/-- The unit number of a group's events: its core within the die (R362). -/
def grpUnit (s : State) (g : Nat) : Nat := (grp s g).core % 64

/-- An event of a group, as the antecedent of whoever waits for it (R362, R363). The event is bound to the record that the
group's last wait made (R358, R364). -/
def grpEvent (s : State) (g lane : Nat) : Ante × State :=
  let d := grpDie s g
  let (e, s) := newEvent s (grp s g).part d (grpUnit s g)
  let s := match (grp s g).lastRec with
    | some r => modDie d (fun x => { x with binds := x.binds ++ [(e, r.1)] }) s
    | none => s
  (⟨e, eventAt s d (grpUnit s g), 1, laneName s g lane⟩, s)

/-- An event of an engine or other unit of a die (R362, R363). -/
def unitEvent (s : State) (p d unit_ kind : Nat) (nm : Name) : Ante × State :=
  let (e, s) := newEvent s p d unit_
  (⟨e, eventAt s d unit_, kind, nm⟩, s)

/-- Has one slice cycle of a group's slice passed since a time: 4/k ns (R4, R22)? -/
def slicePassed (s : State) (g since : Nat) : Bool :=
  decide (4 ≤ (s.time - since) * ((core s (grp s g).core).slices.get {} (grp s g).slice).ratio)
/-- The antecedent record of a wait (R363, R364). -/
def recordLong (s : State) (g lane waitKind since : Nat) (a : Ante) : State :=
  let d := grpDie s g
  let now := gtime s d
  let (e, s) := newEvent s (grp s g).part d (grpUnit s g)
  let r : ARec := ⟨e, a.event, max now a.time, a.time, laneName s g lane, waitKind, a.kind, a.name, min (s.time - since) 0xFFFFFFFF⟩
  let keep := fun (l : List ARec) => l.drop (l.length - Config.recordStore)
  count g 36 1 <| modGrp g (fun x => { x with lastRec := some (e, now) }) (modDie d (fun x => { x with records := keep (x.records ++ [r]) }) s)
/-- The antecedent record of a wait that lasted at least one slice cycle (R307, R363, R364). -/
def recordWait (s : State) (g lane waitKind since : Nat) (a : Ante) : State :=
  if slicePassed s g since then recordLong s g lane waitKind since a else s

/-! ### Memory: one canonical list of cells -/

/-- Bytes that an address with no cell reads as (log 4). [log 70, DESIGN CHOICE.] -/
def unwritten : Byte := 0

/-- The byte of a cell list at a key. -/
def cellGet : List Host.Cell → Nat → Byte
  | [], _ => unwritten
  | (k, b) :: t, i => if i = k then b else cellGet t i

/-- The cell list with a byte at a key, in canonical form. -/
def cellPut : List Host.Cell → Nat → Byte → List Host.Cell
  | [], i, b => if b = unwritten then [] else [(i, b)]
  | (k, c) :: t, i, b =>
    if i < k then (if b = unwritten then (k, c) :: t else (i, b) :: (k, c) :: t)
    else if i = k then (if b = unwritten then t else (i, b) :: t)
    else (k, c) :: cellPut t i b

/-- Keys strictly rising from a bound and no cell that holds what an unlisted address reads as. -/
def cellsFrom : Nat → List Host.Cell → Bool
  | _, [] => true
  | lo, (k, b) :: t => decide (lo ≤ k) && !(b == unwritten) && cellsFrom (k + 1) t

/-- A cell list in canonical form. -/
def Memory.wf (m : List Host.Cell) : Bool := cellsFrom 0 m

/-- The bytes of a cell list from a key. -/
def cellBytes (m : List Host.Cell) (k n : Nat) : List Byte := (List.range n).map (fun i => cellGet m (k + i))
/-- The cell list with bytes written from a key. -/
def cellWrite (m : List Host.Cell) (k : Nat) (l : List Byte) : List Host.Cell :=
  ((List.range l.length).zip l).foldl (fun m p => cellPut m (k + p.1) p.2) m

/-- The bytes of a number, little-endian (R5). -/
def leBytes (n x : Nat) : List Byte := (List.range n).map (fun i => BitVec.ofNat 8 (x / 256 ^ i))

/-- The cell number of a byte: tier (0 HBM, 1 capacity tier, 2 vault, 3 host memory), physical die, address there. -/
def cellKey (tier d addr : Nat) : Nat := tier * 2 ^ 72 + d * 2 ^ 64 + addr
/-- The line number of a cell (R124). -/
def lineOf (key : Nat) : Nat := key / 128
/-- The home die of a line; the host port for host memory (R124). -/
def lineHome (line : Nat) : Nat := line * 128 / 2 ^ 64 % 256
/-- The tier of a line. -/
def lineTier (line : Nat) : Nat := line * 128 / 2 ^ 72

/-- The map entry of the HBM stack or capacity channel that holds a line (R16, R417, R474). -/
def heldEntry (line : Nat) : Option Nat :=
  let d := lineHome line
  let below := fun (f : Nat → Nat) => ((List.range d).map f).sum
  match lineTier line with
  | 0 => some (466 + below Config.stacksOf + Config.unitOf line % Config.stacksOf d)
  | 1 => if Config.isWDie d then some (482 + below (fun x => if Config.isWDie x then 2 else 0) + Config.unitOf line % 2) else none
  | _ => none
/-- Has the stack or channel that holds a line failed (R474)? [log 84, DESIGN CHOICE.] -/
def unitFailed (s : State) (line : Nat) : Bool := (heldEntry line).any (fun n => (s.map.entries.get {} n).state == 4)
/-- Cells whose stored data is lost: a soft error has left them uncorrectable, or their stack or channel has failed (R474, R485). -/
def isPoison (s : State) (key : Nat) : Bool := s.marks.poison.any (fun r => r.1 == lineOf key) || unitFailed s (lineOf key)
/-- The code of R485 for such a cell. -/
def poisonCode (s : State) (key : Nat) : Nat :=
  if unitFailed s (lineOf key) then 1 + lineTier (lineOf key) else ((s.marks.poison.find? (fun r => r.1 == lineOf key)).map Prod.snd).getD 1

/-! ### Guest-physical addresses and translation -/

/-- What an access does (R90, R108). -/
inductive Acc where
  | load
  | store
  | atomic
  | fetch
  | engineRead
  | engineWrite
  deriving DecidableEq, Repr

/-- Does the access write (R90)? -/
def Acc.writes : Acc → Bool
  | .store => true
  | .atomic => true
  | .engineWrite => true
  | _ => false

/-- A fault of translation or rights: class, code, detail. -/
structure Fail where
  cls : Nat
  code : Nat
  detail : Nat
  deriving DecidableEq, Repr

/-- An access after translation: where it lands, its guest-physical address, whether its page may be written. -/
structure Hit where
  loc : Loc
  gpa : Nat := 0
  w : Bool := true
  home : Nat := 0
  deriving DecidableEq, Repr

/-- The key of a stage-two table: partition, physical die, tier (R93). -/
def s2Key (p d tier : Nat) : Nat := (p * 8 + d) * 2 + tier

/-- The place of an entry of a second-level table: the die, the table's die-local page, the index (R93). -/
def secKey (d page i : Nat) : Nat := (d * 2 ^ 28 + page) * 512 + i
/-- Stage two of HBM or capacity tier at the home die: the frame byte, a device entry's page offset, or a code of R447. [log 27, DEDUCED.] -/
def stage2 (s : State) (p d tier off : Nat) (write : Bool) : Except Nat (Nat ⊕ Nat) :=
  let size := if tier = 0 then Config.hbmBytes d else Config.capBytes d
  let t1 := s.s2.top.get 0 (s2Key p d tier * 4096 + nbits off 41 30)
  let e := s.s2.sec.get 0 (secKey d (bits t1 39 12) (nbits off 29 21))
  let dev := bits t1 0 0 = 1 && bits e 3 3 = 1 && bits e 0 0 = 1
  if !dev && size ≤ off then .error 1
  else if bits t1 0 0 = 0 then .error 2
  else if bits e 0 0 = 0 then .error 3
  else if bits t1 1 1 ≠ 0 || bits t1 11 2 ≠ 0 || bits t1 63 40 ≠ 0 || bits e 1 1 ≠ 1 || bits e 63 40 ≠ 0 || bits e 11 4 ≠ 0
      || bits e (if dev then 39 else 20) 12 ≠ 0 then .error 4
  else if write && bits e 2 2 = 0 then .error 5
  else if dev then .ok (.inr (off % 2 ^ 21))
  else .ok (.inl (cellKey tier d (bits e 39 12 * 4096 + off % 2 ^ 21)))

/-- A guest-physical address to its place (R91, R92, R400, R401), or a code of R447. With Remote 0 its Module bits are not looked at.
[log 27, DEDUCED; log 105, DESIGN CHOICE.] -/
def gpaLoc (s : State) (p gpa : Nat) (write : Bool) : Except Nat Hit :=
  let off : Nat := gpa % 2 ^ 42
  let tier := nbits gpa 43 42
  let vd := nbits gpa 46 44
  let c := (part s p).ctx
  if nbits gpa 55 55 = 1 then .ok { loc := .remote (nbits gpa 54 47) gpa, gpa := gpa, home := 256 + nbits gpa 54 47 * 8 + vd }
  else if tier = 3 then
    if decide (c.hostSize.toNat ≤ off) || !(s.host.vfs.any (fun v => v.2.part == some p)) then .error 7
    else .ok { loc := .cell (cellKey 3 0 (c.hostBase.toNat + off)), gpa := gpa, home := (vdt s p 0).getD 0 }
  else if tier = 2 then .error 1
  else if (part s p).staleVdies.contains vd then .error 6
  else match vdt s p vd with
    | none => .error 6
    | some d =>
      match stage2 s p d tier off write with
      | .error e => .error e
      | .ok (.inl key) => .ok { loc := .cell key, gpa := gpa, home := d }
      | .ok (.inr o) =>
        if 0x1F0000 ≤ o && o < 0x200000 then .ok { loc := .reg p d 1 (o - 0x1F0000), gpa := gpa, home := d }
        else if 0x1E0000 ≤ o && o < 0x1F0000 then .ok { loc := .reg p d 0 (o - 0x1E0000), gpa := gpa, home := d }
        else .error 1

/-! ### Copies and bytes on their way -/

/-- The key of a byte of another module that a partition imports: the byte has a line here too (R124). -/
def farKey (p m gpa : Nat) : Nat := 4 * 2 ^ 72 + (p * 256 + m) * 2 ^ 48 + gpa % 2 ^ 47
/-- The key of a byte of a partition's register page (0) or power page (1): its writes too pass the write-combining buffer (R128, R379). -/
def regKey (p d page off : Nat) : Nat := cellKey 5 d ((p * 2 + page) * 2 ^ 16 + off)
/-- Is a line one of a register page? -/
def isReg (line : Nat) : Bool := lineTier line == 5
/-- The key of a place that lies in a line (R124). -/
def memKey (p : Nat) (loc : Loc) : Option Nat :=
  match loc with
  | .cell k => some k
  | .reg q d page off => some (regKey q d page off)
  | .remote m a => some (farKey p m a)
  | _ => none
/-- Does a line lie in another module (R124)? -/
def isFar (line : Nat) : Bool := lineTier line == 4
/-- Does a request for a line leave the module, for another or for the host (R91, R400)? -/
def leaves (line : Nat) : Bool := lineTier line == 3 || isFar line
/-- The state of an entry: absent when fused off, else testing until its unit passes (R415, log 6). -/
def entryState (s : State) (n : Nat) : Nat := if Config.fusedOff n then 0 else (s.map.entries.get {} n).state
/-- Live or degraded: usable (R415). -/
def entryUsable (s : State) (n : Nat) : Bool := entryState s n == 2 || entryState s n == 3
/-- May a request pass a UALink port: is one usable (R92, R415)? -/
def linkOpen (s : State) : Bool := (List.range 16).any (fun i => entryUsable s (490 + i))
/-- Is the host port usable (R415)? -/
def hostOpen (s : State) : Bool := entryUsable s 506
/-- Does no port take a request for a line out of the module (R415)? -/
def portShut (s : State) (line : Nat) : Bool := (isFar line && !linkOpen s) || (lineTier line == 3 && !hostOpen s)
/-- The module and the guest-physical address of a byte of another module. -/
def farPlace (key : Nat) : Nat × Nat := (key / 2 ^ 48 % 256, key % 2 ^ 48)

/-- Is a copy held on a die usable (R126)? [log 26, DEDUCED.] -/
def usable (s : State) (d : Nat) (c : Copy) : Bool := decide (gtime s d + 20 < c.expiry)
/-- A usable copy of a line made at or after a fill floor (R126, R132). -/
def copyOf (s : State) (d line floor : Nat) (l : List Copy) : Option Copy :=
  l.find? (fun c => c.line == line && usable s d c && decide (floor ≤ c.made))
/-- The byte of a copy. -/
def copyByte (c : Copy) (key : Nat) : Byte := c.bytes.getD (key % 128) 0
/-- A copy with bytes written over it. -/
def copyMerge (c : Copy) (b : Tab Byte) : Copy := { c with bytes := b.foldl (fun l p => l.set p.1 p.2) c.bytes }
/-- The byte at a key in the bytes of a line. -/
def inLine (b : Tab Byte) (key : Nat) : Option Byte := (b.find? (fun p => p.1 == key % 128)).map Prod.snd

/-- Does a write or a copy of a line pass the L2 of a die on its way (R124, R129)? [log 26, DEDUCED.] -/
def passesL2 (d line : Nat) : Bool := leaves line || (lineTier line != 2 && lineHome line != d)
/-- A byte that the L2 of a die keeps as pending: a write of the die's cores that has passed it and that its home has not acknowledged (R129). -/
def l2Pending (s : State) (d key : Nat) : Option Byte :=
  if !passesL2 d (lineOf key) then none
  else (s.net.msgs.reverse.filter (fun m => coreDie m.core == d && m.line == lineOf key)).findSome? (fun m => inLine m.bytes key)
/-- A byte that a load on a die finds in its L2, no older than a floor: a usable copy's, else a pending one (R127, R129), with the completion
time that comes with it. -/
def l2Byte (s : State) (d floor key : Nat) : Option (Byte × Nat) :=
  match copyOf s d (lineOf key) floor (die s d).l2 with
  | some c => some (copyByte c key, c.c)
  | none => (l2Pending s d key).map (fun b => (b, 0))
/-- A byte as its home answers now: another module's answer is free (log 17). -/
def homeByte (s : State) (key : Nat) : Byte := if isFar (lineOf key) then Config.farByte s.free key else cellGet s.mem key

/-- One stage-one table entry, read through stage two by a load of a die at die scope (R89, R97): the entry, or a fault. -/
def walkRead (s : State) (p d gpa : Nat) : Except Fail DWord :=
  match gpaLoc s p gpa false with
  | .ok { loc := .cell key, .. } =>
    .ok (.ofNat 64 (leNat ((List.range 8).map (fun i => ((l2Byte s d (die s d).walkFloor (key + i)).map Prod.fst).getD (cellGet s.mem (key + i))))))
  | _ => .error ⟨6, 0xA, gpa⟩

/-- The leaf rules of R90 and R446 at a level: the reason that the entry breaks, or none. -/
def leafBad (e : DWord) (lvl : Nat) (acc : Acc) : Option Nat :=
  let g := bits e 55 8 * 256
  if 1 < lvl then some 2
  else if bits e 61 56 ≠ 0 || bits e 7 2 ≠ 0 || (lvl = 0 && bits e 15 8 ≠ 0) || (lvl = 1 && bits e 20 8 ≠ 0) then some 3
  else if acc.writes && bits e 62 62 = 0 then some 4
  else if acc = .fetch && bits e 63 63 = 0 then some 5
  else if nbits g 43 42 = 2 || (nbits g 43 42 = 3 && (nbits g 55 55 = 1 || nbits g 46 44 ≠ 0)) then some 6
  else none

/-- Index and alignment bits of the next table at each level (R88). -/
def lvlIndex (va lvl : Nat) : Nat :=
  match lvl with
  | 4 => nbits va 55 48
  | 3 => nbits va 47 39
  | 2 => nbits va 38 30
  | 1 => nbits va 29 21
  | _ => nbits va 20 16

/-- One level of the stage-one walk (R88 to R90, R446): the leaf, or the next table. -/
def walkLevel (s : State) (p d va : Nat) (acc : Acc) (table lvl : Nat) : Except Fail (DWord ⊕ Nat) :=
  match walkRead s p d (table + lvlIndex va lvl * 8) with
  | .error f => .error f
  | .ok e =>
    let g := bits e 55 8 * 256
    if bits e 0 0 = 0 then .error ⟨5, 16 * lvl + 1, va⟩
    else if bits e 1 1 = 1 then
      match leafBad e lvl acc with
      | some r => .error ⟨5, 16 * lvl + r, va⟩
      | none => .ok (.inl e)
    else if lvl = 0 then .error ⟨5, 2, va⟩
    else if bits e 63 56 ≠ 0 || bits e 7 2 ≠ 0 || g % (if lvl = 1 then 256 else 4096) ≠ 0 then .error ⟨5, 16 * lvl + 3, va⟩
    else if nbits g 55 55 = 1 || 2 ≤ nbits g 43 42 then .error ⟨5, 16 * lvl + 6, va⟩
    else .ok (.inr g)

/-- The stage-one walk from a table, `n` levels remaining (R88 to R90): the leaf and whether it maps 2 MiB. [log 27, DEDUCED.] -/
def walk (s : State) (p d va : Nat) (acc : Acc) : Nat → Nat → Except Fail (DWord × Bool)
  | _, 0 => .error ⟨5, 1, va⟩
  | table, n + 1 =>
    match walkLevel s p d va acc table n with
    | .error f => .error f
    | .ok (.inl e) => .ok (e, n = 1)
    | .ok (.inr g) => walk s p d va acc g n

/-- Does a cached leaf of the core serve the address, in a step that uses it (R97, log 14)? A fetch uses it always (R98). -/
def cachedLeaf (s : State) (p c va : Nat) (acc : Acc) : Option TlbEntry :=
  if acc ≠ .fetch && draw s (va / 65536) % 2 = 0 then none
  else (core s c).tlb.find? (fun e => e.part == p && e.page == (if e.big then va / 2 ^ 21 else va / 2 ^ 16))

/-- The leaf of a global address: a cached one, or a walk (R88 to R90, R97). -/
def leafOf (s : State) (p c va : Nat) (acc : Acc) : Except Fail (DWord × Bool) :=
  if 2 ^ 56 ≤ va then .error ⟨5, 0x50, va⟩
  else match cachedLeaf s p c va acc with
    | some e => match leafBad e.leaf (if e.big then 1 else 0) acc with
      | some r => .error ⟨5, (if e.big then 16 else 0) + r, va⟩
      | none => .ok (e.leaf, e.big)
    | none => walk s p (coreDie c) va acc ((part s p).ctx.txroot.toNat) 5

/-- The guest-physical address of a leaf and a virtual address (R90). -/
def leafGpa (leaf : DWord) (big : Bool) (va : Nat) : Nat :=
  let g := bits leaf 55 8 * 256
  if big then g / 2 ^ 21 * 2 ^ 21 + va % 2 ^ 21 else g / 2 ^ 16 * 2 ^ 16 + va % 2 ^ 16

/-- The vault allocation of a partition on a virtual die, in bytes (R95). -/
def vaultExtent (s : State) (p vd : Nat) : Nat := nbits (part s p).ctx.vxt.toNat (8 * vd + 7) (8 * vd) * 4 * 2 ^ 20

/-- A vault address of `n` bytes (R86, R87, R451). -/
def vaultHit (s : State) (p a n ea : Nat) : Except Fail Hit :=
  let vd := nbits a 31 29
  if (part s p).staleVdies.contains vd then .error ⟨6, 6, 2 * 2 ^ 42 + vd * 2 ^ 44 + a % 2 ^ 29⟩
  else match vdt s p vd with
  | none => .error ⟨8, 4, ea⟩
  | some d =>
    if vaultExtent s p vd < a % 2 ^ 29 + n then .error ⟨8, 5, ea⟩
    else .ok { loc := .cell (cellKey 2 d ((part s p).ctx.vaultBase.get 0 d + a % 2 ^ 29)), home := d,
               gpa := 2 * 2 ^ 42 + vd * 2 ^ 44 + a % 2 ^ 29 }

/-- The partition that a request to the module's own number names, when both sides hold the import entry (R92, R411). [log 47, DEDUCED.] -/
def ownImport (s : State) (p m : Nat) : Option Nat :=
  if m ≠ s.host.module then none
  else ((part s p).imports.find? (fun e => e.1 == m)).bind (fun e =>
    if (part s e.2).state = .ready && (part s e.2).imports.contains (m, p) then some e.2 else none)
/-- The place that a partition's request from another module names: the guest-physical address without its module, any tier but the host's
(R92, R411); a failure is code 0x0B (R447). -/
def importLoc (s : State) (q gpa : Nat) (write : Bool) : Except Nat Hit :=
  if nbits gpa 43 42 = 3 then .error 0xB
  else if nbits gpa 43 42 = 2 then
    (if 2 ^ 29 ≤ gpa % 2 ^ 42 then .error 0xB
     else match vaultHit s q (nbits gpa 46 44 * 2 ^ 29 + gpa % 2 ^ 29) 1 gpa with
      | .ok h => .ok h
      | .error _ => .error 0xB)
  else match gpaLoc s q (gpa % 2 ^ 47) write with
    | .ok h => .ok h
    | .error _ => .error 0xB
/-- Is a global address in the partition's vault window (R86)? -/
def inVaultWin (s : State) (p va : Nat) : Bool := va / 2 ^ 32 == (part s p).ctx.vwin.toNat / 2 ^ 32 && va < 2 ^ 56

/-- Does an access of `n` bytes of host memory reach past the window (R400)? -/
def pastHost (s : State) (p gpa n : Nat) : Bool :=
  nbits gpa 55 55 = 0 && nbits gpa 43 42 = 3 && decide ((part s p).ctx.hostSize.toNat < gpa % 2 ^ 42 + n)
/-- A global access of `n` bytes from a core, translated whole (R86, R88 to R93). An address in the vault window takes no walk, a fetch's too,
so that no X bit is asked of it (R87, R98). [log 106, DEDUCED.] -/
def translate (s : State) (p c va n : Nat) (acc : Acc) : Except Fail Hit :=
  if inVaultWin s p va then vaultHit s p (va % 2 ^ 32) n va
  else match leafOf s p c va acc with
    | .error f => .error f
    | .ok (leaf, big) =>
      match gpaLoc s p (leafGpa leaf big va) acc.writes with
      | .error e => .error ⟨6, e, leafGpa leaf big va⟩
      | .ok h => if pastHost s p h.gpa n then .error ⟨6, 7, h.gpa⟩ else .ok { h with w := bits leaf 62 62 = 1 }

/-- The core caches the leaf that it has walked to (R97). -/
def fillTlb (s : State) (p c va : Nat) : State :=
  match walk s p (coreDie c) va .load ((part s p).ctx.txroot.toNat) 5 with
  | .ok (leaf, big) =>
    let pg := if big then va / 2 ^ 21 else va / 2 ^ 16
    modCore c (fun x => { x with tlb := ⟨p, pg, leaf, big⟩ :: x.tlb.filter (fun e => !(e.part == p && e.page == pg && e.big == big)) }) s
  | .error _ => s

/-! ### Tokens and rights -/

/-- The holder identity of a team (R104). -/
def teamHolder (s : State) (t : Nat) : Nat := 2 ^ 21 + (team s t).handle
/-- The kind of a holder (R104). -/
def holderKind (h : Nat) : Nat := h / 2 ^ 21 % 8
/-- The entry that covers an address at a home (R101, R103). -/
def tokenAt (s : State) (p va home : Nat) : Option Token :=
  s.tokens.find? (fun t => t.part == p && t.home == home && t.base ≤ va && va < t.base + 2 ^ t.size)
/-- The entry that covers an address at any home. -/
def tokenCover (s : State) (p va : Nat) : Option Token :=
  s.tokens.find? (fun t => t.part == p && t.base ≤ va && va < t.base + 2 ^ t.size)
/-- Is a region an atomic region (R110)? -/
def Token.atomic (t : Token) : Bool := holderKind t.owner == 3
/-- What the home keeps beside the entry of a region changes: counts and times that no core's copy of the entry shows. -/
def noteTok (p base : Nat) (f : Token → Token) (s : State) : State :=
  { s with tokens := s.tokens.map (fun t => if t.part == p && t.base == base then f t else t) }
/-- The home removes an entry from every core that caches it (R103). -/
def dropEntry (p base : Nat) (s : State) : State :=
  { s with cores := s.cores.map (fun c => (c.1, { c.2 with entries := c.2.entries.filter (fun e => e != (p, base)) })) }
/-- Change the entries of a region, which leave every core's cache first (R103). -/
def modTok (p base : Nat) (f : Token → Token) (s : State) : State := noteTok p base f (dropEntry p base s)
/-- May a core cache an entry: does a team that is resident on it own the region, lend it or share it, or is the region public-read
(R103)? -/
def mayCache (s : State) (c : Nat) (t : Token) : Bool :=
  t.pub || s.teams.any (fun q => q.2.state == .resident && q.2.core == c && q.2.part == t.part
    && (let h := 2 ^ 21 + q.2.handle; t.owner == h || t.outer == h || t.inner == h || t.sharers.contains h))
/-- A core that checks an access fetches the entry that covers it, where it may cache it (R103). [log 36, DESIGN CHOICE.] -/
def cacheEntry (c p va : Nat) (s : State) : State :=
  match tokenCover s p va with
  | none => s
  | some t => if !mayCache s c t then s else modCore c (fun x => { x with entries := ((p, t.base) :: x.entries.filter (fun e => e != (p, t.base))).take Config.coreEntries }) s
/-- The entries that a core may no longer cache leave it (R103). -/
def keepEntries (c : Nat) (s : State) : State :=
  modCore c (fun x => { x with entries := x.entries.filter (fun e => (s.tokens.find? (fun t => t.part == e.1 && t.base == e.2)).any (mayCache s c)) }) s

/-- The walker's holder identity (R104). -/
def walkerHolder : Nat := 4 * 2 ^ 21
/-- What R108, R449 and R450 say of an access by a holder: none when it is permitted, a code when it is not, or code 0 with
the wait of R450 while a move creates the right. -/
def rightCode (s : State) (p h va home : Nat) (acc : Acc) : Option Nat :=
  match tokenAt s p va home with
  | none => some 6
  | some t =>
    let coming := t.moving.isSome && (t.owner == h || t.sharers.contains h)
    let ok := match acc with
      | .atomic => t.atomic && t.sharers.contains h
      | .store => !t.atomic && t.owner == h
      | .engineWrite => !t.atomic && t.owner == h
      | _ => !t.atomic && (t.owner == h || t.sharers.contains h || t.pub)
    let newly := match t.moving with
      | some (op, _) => (op.kind == .share && op.target == h) || (op.kind == .lend && t.atomic && op.holder == h)
          || (op.kind != .share && t.owner == h && (acc.writes || acc = .atomic || !t.pub))
      | none => false
    let dropped : Bool := match t.moving with
      | some (op, _) => op.kind == .tdrop && t.owner == h
      | none => false
    if dropped then some 6
    else if ok then (if coming && newly then some 0 else none)
    -- the walker lends before the first issue of the team it lends to (R67)
    else if t.waiting.any (fun o => o.holder == walkerHolder && o.target == h && (o.kind == .lend || !acc.writes && acc != .atomic)) then some 0
    else match acc with
      | .atomic => some (if t.atomic then 5 else 4)
      | .store => some (if t.atomic then 3 else 2)
      | .engineWrite => some (if t.atomic then 3 else 2)
      | _ => some (if t.atomic then 3 else 1)

/-- Does an access need a right at its place (R85, R108, R401)? [log 94, DEDUCED.] -/
def needsRight (h : Hit) (acc : Acc) : Bool :=
  match h.loc with
  | .pad _ _ => false
  | .reg _ _ page _ => page == 1
  | _ => !(acc = .fetch) && (h.w || acc.writes || acc = .atomic)

/-- The place that a request of another module of the domain names in a partition that imports it, its address there, or a code of R447: a
request runs under holder kind remote module, and one without the right is refused like one that stage two fails; code 0 is the wait of R450
(R92, R109, R411). [log 18, DEDUCED.] -/
def importPlace (s : State) (q m gpa : Nat) (acc : Acc) : Except Nat (Nat × Hit) :=
  match importLoc s q gpa acc.writes with
  | .error e => .error e
  | .ok h =>
    if acc = .fetch then .ok (2 ^ 64, h)
    else
      let va := (Config.vaOf q (gpa % 2 ^ 47)).toNat
      match translate s q (2 ^ 40) va 1 acc with
      | .error _ => .error 0xB
      | .ok v =>
        if v.loc != h.loc then .error 0xB
        else match (if needsRight v acc then rightCode s q (6 * 2 ^ 21 + m) va v.home acc else none) with
          | none => .ok (va, h)
          | some 0 => .error 0
          | some _ => .error 0xB
/-- What a request to a module's number finds here. Of one to the module's own: the partition, the address and the place there, or a code of
`importPlace` or R447. Of one to another: nothing, or code 8 where the partition holds no import entry of it, for then the request can name no
partition there (R411). [log 47, DEDUCED.] -/
def ownPlace (s : State) (p m gpa : Nat) (acc : Acc) : Option (Except Nat (Nat × Nat × Hit)) :=
  if m ≠ s.host.module then (if (part s p).imports.any (fun e => e.1 == m) then none else some (.error 8))
  else match ownImport s p m with
    | none => some (.error 8)
    | some q => match importPlace s q m gpa acc with
      | .ok h => some (.ok (q, h))
      | .error e => some (.error e)
/-- A byte of a place that lies in a line, as its home answers now; a request to the module's own number is answered here (R92, R411). -/
def lineByte (s : State) (p : Nat) (loc : Loc) : Byte :=
  match loc with
  | .cell k => cellGet s.mem k
  | .remote m a => match ownPlace s p m a .load with
    | some (.ok (_, _, { loc := .cell k, .. })) => cellGet s.mem k
    | _ => Config.farByte s.free (farKey p m a)
  | _ => 0

/-! ### Scratchpad and private memory -/

/-- The team of a gang rank (R35, R36). -/
def gangTeam (s : State) (t rank : Nat) : Option Nat :=
  let tm := team s t
  let g := (launch s tm.launch).record.gang
  if rank < g then
    (keysOf s.teams (fun _ x => x.launch == tm.launch && x.part == tm.part && x.index == tm.index / g * g + rank)).head?
  else none

/-- A scratchpad address of `n` bytes from a team (R82, R451). -/
def padHit (s : State) (t a n : Nat) : Except Fail Hit :=
  let tm := team s t
  if nbits a 31 30 ≠ 0 || nbits a 27 19 ≠ 0 then .error ⟨8, 1, a⟩
  else match gangTeam s t (nbits a 29 28) with
    | none => .error ⟨8, 2, a⟩
    | some o =>
      if (launch s tm.launch).record.pad < a % 2 ^ 19 + n then .error ⟨8, 3, a⟩
      else .ok { loc := .pad o (a % 2 ^ 19) }

/-- log2 of the private size of a lane (R84). -/
def pls (s : State) (p : Nat) : Nat := bits (part s p).ctx.pvcfg 19 16
/-- Private blocks of a context (R84). -/
def npb (s : State) (p : Nat) : Nat := bits (part s p).ctx.pvcfg 11 0
/-- The global address of a lane's private offset (R85). -/
def privateVa (s : State) (g lane off : Nat) : Nat :=
  let gr := grp s g
  let ls := pls s gr.part
  (part s gr.part).ctx.pvwin.toNat + (team s gr.team).block.getD 0 * 2 ^ (ls + 10) + gr.place * 2 ^ (ls + 5) + off / 4 * 128 + lane * 4 + off % 4
/-- The place of a private byte of a lane (R85); in the vault window it is a vault byte (R87). -/
def privateByte (s : State) (g lane off : Nat) (acc : Acc) : Except Fail Hit :=
  let gr := grp s g
  if inVaultWin s gr.part (privateVa s g lane off) then vaultHit s gr.part (privateVa s g lane off % 2 ^ 32) 1 off
  else match leafOf s gr.part gr.core (privateVa s g lane off) acc with
  | .error f => .error f
  | .ok (leaf, big) =>
    let gpa := leafGpa leaf big (privateVa s g lane off)
    match gpaLoc s gr.part gpa acc.writes with
    | .error e => .error ⟨6, e, gpa⟩
    | .ok h => .ok { h with w := false }
/-- A private access of `n` bytes by a lane: the place of its first byte, once each of its words translates (R85, R451). -/
def privateHit (s : State) (g lane off n : Nat) (acc : Acc) : Except Fail Hit :=
  let gr := grp s g
  if npb s gr.part = 0 || !(launch s (team s gr.team).launch).record.priv then .error ⟨8, 7, off⟩
  else if 2 ^ pls s gr.part < off + n then .error ⟨8, 6, off⟩
  else (List.range ((n + 3) / 4)).reverse.foldl (fun r i => match privateByte s g lane (off + 4 * i) acc with
    | .error e => .error e
    | .ok h => match r with
      | .error e => .error e
      | .ok _ => .ok h) (.ok { loc := .cell 0 })

/-! ### Registers of a group -/

/-- A vector register of a lane (R210). -/
def vGet (s : State) (g lane n : Nat) : Word := (grp s g).v.get 0 (lane * 256 + n)
def vPut (g lane n : Nat) (x : Word) (s : State) : State := modGrp g (fun r => { r with v := r.v.put (lane * 256 + n) x }) s
/-- A vector pair as one value (R200). -/
def vPair (s : State) (g lane n : Nat) : Nat := (vGet s g lane n).toNat + 2 ^ 32 * (vGet s g lane (n + 1)).toNat
def vPutPair (g lane n : Nat) (x : Nat) (s : State) : State :=
  vPut g lane (n + 1) (.ofNat 32 (x / 2 ^ 32)) (vPut g lane n (.ofNat 32 x) s)
/-- A uniform register (R210). -/
def kGet (s : State) (g n : Nat) : DWord := (grp s g).k.get 0 n
def kPut (g n : Nat) (x : DWord) (s : State) : State := modGrp g (fun r => { r with k := r.k.put n x }) s
/-- A predicate of a lane; p0 reads true (R210). -/
def pGet (s : State) (g lane n : Nat) : Bool := n = 0 || ((grp s g).p.get 0 n).getLsbD lane
/-- Write a predicate of a lane; a write to p0 is discarded (R210). -/
def pPut (g lane n : Nat) (b : Bool) (s : State) : State :=
  if n = 0 then s
  else modGrp g (fun r =>
    let m := r.p.get 0 n
    { r with p := r.p.put n (if b then m ||| Mask.one lane else m &&& ~~~(Mask.one lane)) }) s

def lane (s : State) (g l : Nat) : Lane := (grp s g).lanes.get {} l
def modLane (g l : Nat) (f : Lane → Lane) (s : State) : State :=
  modGrp g (fun r => { r with lanes := r.lanes.put l (f (r.lanes.get {} l)) }) s
/-- Change every lane of a mask. -/
def modLanes (g : Nat) (m : Mask) (f : Lane → Lane) (s : State) : State :=
  (Mask.toList m).foldl (fun s l => modLane g l f s) s
/-- The lanes of a group that have not exited. -/
def liveLanes (s : State) (g : Nat) : Mask := Mask.ofPred (fun l => !(lane s g l).exited)

/-- A place some bytes on. -/
def Loc.plus (l : Loc) (n : Nat) : Loc :=
  match l with
  | .cell k => .cell (k + n)
  | .pad t o => .pad t (o + n)
  | .reg p d g o => .reg p d g (o + n)
  | .remote m a => .remote m (a + n)

/-! ### Lines, copies and the write-combining buffer -/

/-- A byte that the core's buffer holds, or that a write-through of the core carries (R127, R129). [log 22, DEDUCED.] -/
def bufByte (s : State) (c key : Nat) : Option Byte :=
  match ((core s c).wcb.find? (fun e => e.line == lineOf key)).bind (fun e => inLine e.bytes key) with
  | some b => some b
  | none => ((s.net.msgs.reverse.filter (fun m => m.core == c && m.line == lineOf key)).findSome? (fun m => inLine m.bytes key))

/-- A byte that a load of a group finds on its die at issue, and the completion time that comes with it (R127, R130). [log 22, DEDUCED.] -/
def nearByte (s : State) (g key : Nat) : Option (Byte × Nat) :=
  let gr := grp s g
  let d := coreDie gr.core
  match bufByte s gr.core key with
  | some b => some (b, 0)
  | none => match copyOf s d (lineOf key) gr.floorL1 (core s gr.core).l1 with
    | some c => some (copyByte c key, c.c)
    | none => l2Byte s d gr.floorL2 key

/-- The group has been returned a line's completion time (R130). -/
def sawC (g c : Nat) (s : State) : State := modGrp g (fun r => { r with largestC := max r.largestC c }) s

/-- What a request that leaves the module carries: to another module the partition that the import entry names, to host memory the
lowest-numbered VF bound to the partition (R400, R411). -/
def carries (s : State) (p : Nat) (module : Option Nat) : Nat :=
  match module with
  | some m => (((part s p).imports.find? (fun e => e.1 == m)).map Prod.snd).getD 0
  | none => ((keysOf s.host.vfs (fun _ v => v.part == some p)).min?).getD 0
/-- What a request for a line carries. -/
def carriesTo (s : State) (p line : Nat) : Nat :=
  if isFar line then carries s p (some (farPlace (line * 128)).1) else if lineTier line = 3 then carries s p none else 0
/-- One buffer entry leaves for its line's home as a message; a write that passes the die's own L2 fixes its Wd there and
writes the L2's usable copy (R128 to R130). -/
def drainEntry (c : Nat) (e : WEntry) (s : State) : State :=
  let d := coreDie c
  let id := s.ids.msg
  let m : Msg := { id := id, core := c, part := e.part, team := e.team, line := e.line, bytes := e.bytes, gids := e.gids,
                   first := e.first, sent := s.time, va := e.va, dest := carriesTo s e.part e.line }
  let s := { s with net := { s.net with msgs := s.net.msgs ++ [m] }, ids := { s.ids with msg := id + 1 } }
  let s := modCore c (fun x => { x with wcb := x.wcb.filter (fun y => y.line != e.line) }) s
  if !passesL2 d e.line then s
  else
    let wd := max (gtime s d) ((die s d).hd.get 0 e.line)
    let s := modDie d (fun x => { x with l2 := x.l2.map (fun y => if y.line == e.line && usable s d y then copyMerge y e.bytes else y) }) s
    e.gids.foldl (fun s g => modGrp g (fun r => { r with largestWd := max r.largestWd wd }) s) s

/-- Every buffer entry of a core that meets a test drains, oldest first (R128). -/
def drainWhere (c : Nat) (f : WEntry → Bool) (s : State) : State :=
  ((core s c).wcb.filter f).foldl (fun s e => drainEntry c e s) s
/-- The entries that a group wrote to drain (R128). -/
def drainGroup (g : Nat) (s : State) : State := drainWhere (grp s g).core (fun e => e.gids.contains g) s

/-- Bytes of a store that issued at a time enter the buffer, and a usable L1 copy of the core (R128, R129); an entry is as old as its oldest
store. -/
def bufStore (t g va key : Nat) (l : List Byte) (s : State) : State :=
  let gr := grp s g
  let c := gr.core
  let line := lineOf key
  let new : Tab Byte := (List.range l.length).zip l |>.map (fun p => (key % 128 + p.1, p.2))
  let s := if !((core s c).wcb.any (fun e => e.line == line)) && Config.wcbEntries ≤ (core s c).wcb.length then
      match (core s c).wcb.head? with
      | some e => drainEntry c e s
      | none => s
    else s
  let put := fun (b : Tab Byte) => new.foldl (fun b p => Tab.put b p.1 p.2) b
  let s := modCore c (fun x => { x with
    wcb := if x.wcb.any (fun e => e.line == line) then
        x.wcb.map (fun e => if e.line == line then { e with bytes := put e.bytes, first := min e.first t, gids := if e.gids.contains g then e.gids else e.gids ++ [g] } else e)
      else x.wcb ++ [{ line := line, part := gr.part, team := gr.team, bytes := put [], gids := [g], first := t, va := va / 128 * 128 }] }) s
  modCore c (fun x => { x with l1 := x.l1.map (fun y => if y.line == line && usable s (coreDie c) y then copyMerge y new else y) }) s

/-- A line at its home. -/
def lineSt (s : State) (line : Nat) : LineState := s.lines.get {} line
def modLine (line : Nat) (f : LineState → LineState) (s : State) : State := { s with lines := s.lines.put line (f (lineSt s line)) }

/-- A watched word after a write of `n` bytes at `key` has left memory as it is (R346). -/
def seeWrite (m : List Host.Cell) (key n : Nat) (w : Watch) : Watch :=
  if key < w.key + 8 && w.key < key + n && leNat (cellBytes m w.key 8) != w.kb.toNat then { w with hit := true } else w
/-- A write applies at its home: the bytes, the write-completion time W, which becomes the line's C (R130); it ends the wait of a `wfw` whose
word it leaves other than kb (R346). -/
def applyAt (key : Nat) (l : List Byte) (s : State) : Nat × State :=
  let line := lineOf key
  let w := max (gtime s (lineHome line)) (lineSt s line).h
  let s := { s with mem := cellWrite s.mem key l }
  (w, modLine line (fun x => { x with c := w, watch := x.watch.map (seeWrite s.mem key l.length) }) s)

/-- Scratchpad bytes of a team (R124). -/
def padBytes (s : State) (t off n : Nat) : List Byte := cellBytes (team s t).pad off n
def padWrite (t off : Nat) (l : List Byte) (s : State) : State := modTeam t (fun x => { x with pad := cellWrite x.pad off l }) s

/-! ### Moving past a word -/

/-- Words of a clause after its header (R190). -/
def clauseCount (w : DWord) : Nat := bits w 59 56 + 1
/-- Is a header a loop clause (R190)? -/
def isLoop (w : DWord) : Bool := bits w 63 60 == 1
/-- The header that follows a clause (R189). -/
def nextHeader (c : Clause) : DWord := c.hdr + .ofNat 64 (8 * (clauseCount c.word + 1))

/-- A lane moves on by `n` words; past the last word of its clause it stands at the next header, or at its own loop
header, where the next pass starts (R192, R217). -/
def laneOn (n : Nat) (l : Lane) : Lane :=
  let pc := l.pc + .ofNat 64 (8 * n)
  match l.clause with
  | none => l
  | some c =>
    if pc.toNat < (nextHeader c).toNat then { l with pc := pc }
    else if c.loop then { l with pc := c.hdr, clause := none, viaLoop := true, viaFall := false, relHere := false }
    else { l with pc := nextHeader c, clause := none, viaLoop := false, viaFall := true, relHere := false }

/-- The lanes of a loop's set that have not left the group (R217, R233). -/
def loopLanes (g : Nat) (b : LoopBuf) (s : State) : List Nat := (Mask.toList b.lanes).filter (fun l => !(lane s g l).exited)
/-- A loop's counter after one more pass: the pass count one less, the index one more (R217). -/
def passedCount (kv : DWord) : DWord := .ofNat 64 ((bits kv 63 32 + 1) % 2 ^ 32 * 2 ^ 32 + (bits kv 31 0 + 2 ^ 32 - 1) % 2 ^ 32)
/-- One pass of the loop has ended (R217). -/
def countPass (g : Nat) (b : LoopBuf) (s : State) : State :=
  count g 14 1 (modGrp g (fun r => { r with loop := some { b with running := false } }) (kPut g b.k (passedCount (kGet s g b.k)) s))
/-- A lane of the set stands at the header after the loop clause (R217). -/
def leaveLoop (b : LoopBuf) (x : Lane) : Lane :=
  { x with pc := b.hdr + .ofNat 64 (8 * (clauseCount b.word + 1)), viaLoop := false, viaFall := true }
/-- The end of a pass: once every lane of the set stands at the loop header, the pass count falls and the index rises;
with no pass left the lanes stand at the header after the loop clause and the buffer is free (R217). -/
def endPass (g : Nat) (s : State) : State :=
  match (grp s g).loop with
  | none => s
  | some b =>
    if (loopLanes g b s).isEmpty then modGrp g (fun r => { r with loop := none }) s
    else if !b.running || (loopLanes g b s).any (fun l => (lane s g l).clause.isSome || (lane s g l).pc != b.hdr || !(lane s g l).viaLoop) then s
    else if bits (passedCount (kGet s g b.k)) 31 0 ≠ 0 then countPass g b s
    else modGrp g (fun r => { r with loop := none }) ((loopLanes g b s).foldl (fun s l => modLane g l (leaveLoop b) s) (countPass g b s))

/-- The stop-mask bit of an arrival's word in its clause header; an extended word's is its second word's (R197). -/
def stopBit (a : Arrival) (c : Clause) : Bool :=
  let idx := (a.pc.toNat - c.hdr.toNat) / 8 - 1 + (if a.hasExt then 1 else 0)
  c.word.toNat.testBit (16 + idx) && idx < 16
/-- Is it the rest of a wide scratchpad store, which has fixed latency, and no write of variable latency (R137, R197, R289)? -/
def Pend.isPart (p : Pend) : Bool :=
  match p.kind with
  | .values _ _ => p.deadline.isNone
  | _ => false
/-- A group parks when a word whose stop-mask bit is 1 issues: until every write pending for it has been written (R197). -/
def parkIf (a : Arrival) (s : State) : State :=
  match ((Mask.toList a.lanes).head?).bind (fun l => (lane s a.gid l).clause) with
  | none => s
  | some c => if stopBit a c then modGrp a.gid (fun r => { r with parked := (r.pend.filter (fun p => !p.isPart)).map Pend.id }) s else s
/-- Is a group parked on the stop mask (R197)? -/
def isParked (g : Group) : Bool := g.parked.any (fun i => g.pend.any (fun p => p.id == i))

/-- A lane that moves past the word of an arrival at a time, past its extension word too (R192, R208). -/
def movedOn (a : Arrival) (time : Nat) (l : Lane) : Lane := { laneOn (if a.hasExt then 2 else 1) l with since := time }
/-- Lanes of an arrival move past its word; a pass of a loop may end with it (R192, R217). -/
def passLanes (a : Arrival) (m : Mask) (s : State) : State :=
  let t := modLanes a.gid m (movedOn a s.time) s
  if (Mask.toList m).any (fun l => (lane t a.gid l).viaLoop) then endPass a.gid t else t
/-- Lanes of an arrival that issues move past its word, and the group parks where the stop mask says so (R197). -/
def finishLanes (a : Arrival) (m : Mask) (s : State) : State := passLanes a m (parkIf a s)
/-- Every lane of an arrival moves past its word. -/
def finish (a : Arrival) (s : State) : State := finishLanes a a.lanes s

/-- Lanes take a transfer to a header (R229). -/
def transfer (g : Nat) (m : Mask) (target : Nat → DWord) (viaLoop : Bool) (s : State) : State :=
  (Mask.toList m).foldl (fun s l => modLane g l (fun x =>
    { x with pc := target l, clause := none, viaLoop := viaLoop, viaFall := false, relHere := false, since := s.time }) s) s

/-- The bound streams of an arrival advance by one position each (R214). -/
def advanceStreams (a : Arrival) (s : State) : State :=
  ([a.ext.bindA, a.ext.bindB, a.ext.bindD].filterMap id).foldl (fun s x =>
    modGrp a.gid (fun r =>
      let st := r.x.get {} x.toNat
      { r with x := r.x.put x.toNat { st with pos := (st.pos + 1) % 2 ^ 32, ahead := st.ahead.filter (fun q => decide (st.pos < q.1)) } }) s) s

/-! ### The walker's own reads and writes (R109) -/

/-- Bytes of global memory that the walker or another engine reads at their homes; none when the read faults. Another module's are free
(log 17). -/
def walkerRead (s : State) (p va n : Nat) : Option (List Byte) :=
  (List.range n).mapM (fun i =>
    match translate s p (2 ^ 40) (va + i) 1 .engineRead with
    | .ok { loc := .cell key, .. } => if isPoison s key || portShut s (lineOf key) then none else some (cellGet s.mem key)
    | .ok { loc := .remote m a, .. } => if !linkOpen s then none else match ownPlace s p m a .engineRead with
      | none => some (Config.farByte s.free (farKey p m a))
      | some (.ok (_, _, { loc := .cell key, .. })) => if isPoison s key then none else some (cellGet s.mem key)
      | some _ => none
    | _ => none)

/-- A number of host memory bytes, little-endian. -/
def hostNat (s : State) (addr n : Nat) : Nat := leNat (cellBytes s.mem (cellKey 3 0 addr) n)
/-- Bytes written to host memory at a host address. -/
def hostWrite (addr : Nat) (l : List Byte) (s : State) : State := (applyAt (cellKey 3 0 addr) l s).2

/-- A record for a ring in host memory with R370's header: the new write index and lost count. -/
def hostRing (addr size wr lost : Nat) (r : List Byte) (s : State) : Nat × Nat × State :=
  let slots := (size - 64) / r.length
  if wr < hostNat s (addr + 8) 8 + slots then
    (wr + 1, lost, hostWrite addr (leBytes 8 (wr + 1)) (hostWrite (addr + 64 + wr % slots * r.length) r s))
  else (wr, lost + 1, hostWrite (addr + 16) (leBytes 8 (lost + 1)) s)

/-- The 12 bytes of a logical thread name (R361). -/
def nameBytes (n : Name) : List Byte := leBytes 4 n.launch ++ leBytes 4 n.team ++ leBytes 4 n.thread
/-- The 64 bytes of a fault record (R425). -/
def frecBytes (r : FRec) : List Byte :=
  leBytes 8 r.tid.toNat ++ [.ofNat 8 r.cls, .ofNat 8 r.code, .ofNat 8 r.flags, .ofNat 8 r.level] ++ leBytes 4 r.ver ++ leBytes 8 r.pc.toNat
    ++ leBytes 8 r.detail.toNat ++ nameBytes r.name ++ leBytes 4 r.faulted.toNat ++ leBytes 4 r.part.toNat ++ leBytes 4 r.done.toNat
    ++ leBytes 8 r.time
/-- The summary that the host reads of a level-1 record (R431). -/
def summaryBytes (r : FRec) (p : Nat) : List Byte :=
  leBytes 8 r.tid.toNat ++ [.ofNat 8 r.cls, 0, .ofNat 8 r.flags, .ofNat 8 r.level] ++ leBytes 4 r.ver ++ leBytes 16 0
    ++ leBytes 8 p ++ leBytes 16 0 ++ leBytes 8 r.time
/-- A record for the host fault ring (R430, R431). -/
def faultRing (l : List Byte) (s : State) : State :=
  if s.host.fltSize = 0 then s
  else
    let (wr, lost, s) := hostRing s.host.fltAddr.toNat s.host.fltSize.toNat s.host.fltWr s.host.fltLost l s
    { s with host := { s.host with fltWr := wr, fltLost := lost } }

/-! ### Launch records and pending teams -/

/-- A launch record from its 64 bytes, none when it breaks R59. [log 64, DEDUCED.] -/
def parseLaunch (b : List Byte) : Option LaunchRec :=
  let n := fun (o k : Nat) => leNat ((b.drop o).take k)
  let fl := n 0x22 1
  let gang := 2 ^ (fl % 4)
  let r : LaunchRec :=
    { entry := .ofNat 64 (n 0 8), cont := .ofNat 64 (n 8 8), args := .ofNat 64 (n 0x10 8), t := n 0x18 4, p := n 0x1C 1,
      c := n 0x1D 1, pBudget := 8 * n 0x1E 1, cBudget := 8 * n 0x1F 1, pad := 4096 * n 0x20 2, gang := gang, coRes := fl / 4 % 2 = 1,
      priv := fl / 8 % 2 = 1 }
  let ok := b.length = 64 && fl % 4 ≠ 3 && fl / 16 = 0 && (b.drop 0x23).all (fun x => x == 0) && r.t ≠ 0 && r.t % gang = 0
    && 1 ≤ r.p && r.p ≤ 32 && r.c ≤ 31 && r.p + r.c ≤ 32 && 8 ≤ r.pBudget && r.pBudget ≤ 256
    && 8 ≤ r.cBudget && r.cBudget ≤ 256 && 4096 ≤ r.pad && r.pad ≤ 524288
  if ok then some r else none

/-- A team that waits for a place (R70). -/
def addTeam (l index : Nat) (s : State) : State :=
  let id := s.ids.team
  let t : Team := { part := (launch s l).part, launch := l, index := index, pendingAt := s.time }
  { s with teams := s.teams.put id t, ids := { s.ids with team := id + 1 } }
/-- A launch begins: its code is kept as it stands (R38). -/
def addLaunch (l : Launch) (s : State) : Nat × State :=
  let id := s.ids.launch
  (id, { s with launches := s.launches.put id { l with code := s.mem }, ids := { s.ids with launch := id + 1 } })

/-- The teams that stop with a team: its gang, or its whole grid under the co-residency flag (R72, R428, R478). -/
def together (s : State) (t : Nat) : List Nat :=
  let tm := team s t
  let r := (launch s tm.launch).record
  keysOf s.teams (fun _ x => x.launch == tm.launch && x.part == tm.part && x.state != .complete
    && (r.coRes || x.index / r.gang == tm.index / r.gang))
/-- A team and those that stop with it are to stop: 1 saved, 2 killed, 3 torn down with the launch (R428, R478, R479). A
later and harder goal replaces an earlier one. -/
def stopTeam (t goal : Nat) (s : State) : State :=
  let tm := team s t
  let r := (launch s tm.launch).record
  let goal := if goal = 2 && r.coRes then 3 else goal
  let l := if goal = 3 then keysOf s.teams (fun _ x => x.launch == tm.launch && x.part == tm.part && x.state != .complete) else together s t
  l.foldl (fun s i => modTeam i (fun x => { x with goal := max x.goal goal }) s) s

/-! ### Taking an exception -/

/-- Traps of a partition that are not yet resolved (R426). [log 56, DEDUCED.] -/
def pendingTraps (s : State) (p : Nat) : Nat := (s.traps.filter (fun t => t.part == p)).length

/-- Does a pending write have to arrive before a record is made (R421, R76)? A pop that has taken no entry does not. -/
def mustArrive (p : Pend) : Bool :=
  match p.kind with
  | .pop _ _ _ _ => false
  | _ => true

/-- The launch record at an address that HVEC held; none when it is 0 or the record cannot be read or breaks R59. [log 64, DEDUCED.] -/
def handlerAt (s : State) (p h : Nat) : Option LaunchRec := if h = 0 then none else ((walkerRead s p h 64).bind parseLaunch)
/-- What a handler team runs for a trap that stops now: the launch record at HVEC (R426, R427). -/
def handlerRecord (s : State) (p : Nat) : Option LaunchRec := handlerAt s p (part s p).hvec.toNat

/-- A level-1 trap is delivered: one handler team becomes pending for it, of the launch that HVEC named at the stop, and the host gets its
summary. With no handler the trap is resolved at once with action kill team (R426, R427, R431). Answers whether a handler was found. -/
def deliver1 (p : Nat) (fr : FRec) (hvec : DWord) (s : State) : Bool × State :=
  let s := faultRing (summaryBytes fr p) s
  match handlerAt s p hvec.toNat with
  | none => (false, s)
  | some r =>
    let n := (part s p).handlerLaunches
    let (l, s) := addLaunch { part := p, record := { r with t := 1, gang := 1 }, handler := some fr.tid, id := 0xFFFF0000 + n % 65536, readyAt := gtime s ((vdt s p 0).getD 0) } s
    let s := modPart p (fun x => { x with handlerLaunches := n + 1 }) s
    (true, addTeam l 0 s)

/-- A level-2 trap is delivered: the record goes whole to the host fault ring with vector 1 of PF0 (R430). -/
def deliver2 (fr : FRec) (s : State) : State :=
  let s := faultRing (frecBytes fr) s
  { s with host := { s.host with out := s.host.out ++ [.msix 0 1] } }

/-- A trap of a group is recorded: level 1 goes to the handler, level 2 to the host with the team saved (R427, R428, R430). [log 95, DEDUCED.] -/
def recordStop (g : Nat) (st : Stop) (s : State) : State :=
  let gr := grp s g
  let t : Trap := { fr := st.fr, part := gr.part, gid := some g, team := some gr.team }
  if st.fr.level = 1 then
    let (ok, s) := deliver1 gr.part st.fr st.hvec s
    if ok then { s with traps := s.traps ++ [t] } else stopTeam gr.team 2 s
  else
    let s := deliver2 st.fr { s with traps := s.traps ++ [t] }
    stopTeam gr.team 1 (modTeam gr.team (fun x => { x with level2 := true }) s)

/-- The first unrecorded stop of a group makes its record once the group's pending writes have arrived and the partition
has fewer than 64 unresolved traps (R421, R427). [log 56, DEDUCED; log 95, DEDUCED.] -/
def tryRecord (g : Nat) (s : State) : State :=
  let gr := grp s g
  if gr.pend.any mustArrive then s
  else
    (gr.stops.filter (fun st => !st.recorded)).foldl (fun s st =>
      if 64 ≤ pendingTraps s gr.part then s
      else
        let s := modGrp g (fun x => { x with stops := x.stops.map (fun y => if y.fr.tid == st.fr.tid then { y with recorded := true } else y) }) s
        recordStop g st s) s

/-- TAKING AN EXCEPTION: a group stops on a precise fault at an arrival (R421, R425, R495). The record holds the trap id, the
class and code, the map version, the PC of the word, the detail, the name, the lane masks and the time; it is made as
`tryRecord` says, and nothing of the group issues until the trap is resolved. `sMask` is S. [log 59, DEDUCED.] -/
def raise (a : Arrival) (cls code detail : Nat) (faulted sMask done : Mask) (atHdr : Bool) (s : State) : State :=
  let g := a.gid
  let d := grpDie s g
  let (e, s) := newEvent s (grp s g).part d (grpUnit s g)
  let low := ((Mask.toList sMask).head?.orElse (fun _ => (Mask.toList a.lanes).head?)).getD 0
  let second := (grp s g).stops.any (fun st => st.fr.time == gtime s d)
  let fr : FRec :=
    { tid := e, cls := cls, code := code, flags := if second then 5 else 1, level := if cls = 6 || cls = 0xE then 2 else 1,
      ver := s.map.version, pc := a.pc, detail := .ofNat 64 detail, name := laneName s g low, faulted := faulted, part := sMask, done := done,
      time := gtime s d }
  let s := if cls = 0xF then telemetry (some (grp s g).part) d 5 s else s
  tryRecord g (modGrp g (fun x => { x with stops := x.stops ++ [{ fr := fr, arr := a, recorded := false, atHdr := atHdr, hvec := (part s (grp s g).part).hvec }] }) s)

/-- Arrivals that are to issue before anything else of their group: at once while its team is resident and not stopping,
else at its resumption (R76, R429). -/
def reissue (a : Arrival) (s : State) : State :=
  let a := { a with kBefore := none }
  let t := team s (grp s a.gid).team
  if a.lanes = 0 then s
  else if t.state = .resident && t.goal = 0 then { s with issuing := s.issuing ++ [a] }
  else modGrp a.gid (fun x => { x with withdrawn := x.withdrawn ++ [a] }) s

/-- The requests of a pending load that leave the module or reach host memory, one for each line (R92, R448). -/
def sendPend (g : Nat) (p : Pend) (s : State) : State :=
  match p.kind with
  | .load ps =>
    (ps.filter (fun q => q.got.any Option.isNone)).foldl (fun s q =>
      let far := fun (m : Option Nat) (gpa : Nat) =>
        if s.net.far.any (fun f => f.pend == some p.id && f.module == m && f.gpa / 128 == gpa / 128) then s
        else
          let f : Far := { id := s.ids.msg, gid := g, part := (grp s g).part, module := m, gpa := gpa, va := q.va, write := none, pend := some p.id, sent := s.time,
                           dest := carries s (grp s g).part m }
          { s with net := { s.net with far := s.net.far ++ [f] }, ids := { s.ids with msg := s.ids.msg + 1 } }
      match q.loc with
      | .remote m gpa => far (some m) gpa
      | .cell k => if lineTier (lineOf k) = 3 then far none (k % 2 ^ 64) else s
      | _ => s) s
  | _ => { s with net := { s.net with atoms := s.net.atoms.map (fun m => if m.pend == some p.id then { m with refused := false, sent := s.time } else m) } }

/-- Writes of a group that were declared unreachable are sent once more, or discarded (R448). -/
def resendLost (g : Nat) (again : Bool) (s : State) : State :=
  let ids := (grp s g).lost.map Prod.fst
  let s := { s with net := { s.net with
    msgs := if again then s.net.msgs.map (fun m => if ids.contains m.id then { m with refused := false, silent := false, first := s.time, sent := s.time } else m)
      else s.net.msgs.filter (fun m => !ids.contains m.id)
    far := if again then s.net.far.map (fun m => if ids.contains m.id then { m with refused := false, sent := s.time } else m)
      else s.net.far.filter (fun m => !ids.contains m.id)
    atoms := if again then s.net.atoms.map (fun m => if ids.contains m.id then { m with refused := false, sent := s.time } else m)
      else s.net.atoms.filter (fun m => !ids.contains m.id) } }
  modGrp g (fun x => { x with lost := [] }) s

/-- One resolved stop takes effect on its group (R429, R436, R337): reissue or skip. A software trap's word is complete at its stop, and so is
a step of the debugger's; a breakpoint stands at a header. -/
def applyAction (g : Nat) (st : Stop) (s : State) : State :=
  let skip := st.act = some 1
  let s := if st.fr.cls = 6 && !(grp s g).lost.isEmpty && st.late.isNone && st.lateAtoms.isEmpty then resendLost g (!skip) s else s
  if st.fr.cls = 0xC || (st.fr.cls = 0xD && !st.atHdr) then s
  else if st.atHdr then
    if !skip then s
    else
      let w := st.arr.word
      modLanes g st.arr.lanes (fun l => { l with pc := st.fr.pc + .ofNat 64 (8 * (clauseCount w + 1)), clause := none, viaLoop := false, viaFall := true, held := false })
        (modGrp g (fun x => { x with passBp := x.passBp &&& ~~~st.arr.lanes }) s)
  else if st.late.isSome || !st.lateAtoms.isEmpty then
    let mine := fun (m : Atom) => st.lateAtoms.contains m.id
    let again := s.net.atoms.map (fun m => if mine m then { m with refused := false, sent := s.time } else m)
    let s := { s with net := { s.net with atoms := if skip then s.net.atoms.filter (fun m => !mine m) else again } }
    match st.late with
    | some p => if skip then s else modGrp g (fun x => { x with pend := x.pend ++ [p] }) (sendPend g p s)
    | none => s
  else if skip then finish st.arr (advanceStreams st.arr s)
  else
    let s := passLanes st.arr (st.arr.lanes &&& st.fr.done) s
    reissue { st.arr with lanes := st.arr.lanes &&& ~~~st.fr.done, orig := some ((st.arr.orig.getD 0) ||| st.fr.part) } s

/-- A group goes on once every trap that it holds is resolved, in trap-id order, and none of them by a kill (R429). -/
def resumeStops (g : Nat) (s : State) : State :=
  let gr := grp s g
  if gr.stops.any (fun st => st.act.all (fun a => decide (2 ≤ a))) then s
  else gr.stops.foldl (fun s st => applyAction g st s) (modGrp g (fun x => { x with stops := [] }) s)

/-- A trap of an engine command kills its team or launch; a command that a node issued has its node torn down (R423, R429, R479). -/
def killTrap (t : Trap) (action : Nat) (s : State) : State :=
  let who : Option Issuer := match t.core with
    | some c => ((core s c).chans.flatMap (fun (q : Nat × Chan) => q.2.queue)).findSome? (fun (k : CopyCmd) => if k.id = t.cmd then some k.who else none)
    | none => s.net.colls.findSome? (fun (k : CollCmd) => if k.id = t.cmd then some k.who else none)
  match t.team with
  | some i => stopTeam i action s
  | none => match who with
    | some w => modNode w.part w.graph w.node (fun x => { x with tear := true }) s
    | none => s
/-- A trap of an engine command is delivered (R423, R427); with no handler its team is killed, and where a node issued the command the node is
torn down. -/
def recordTrap (t : Trap) (hvec : DWord) (s : State) : State :=
  let (ok, s) := deliver1 t.part t.fr hvec s
  if ok then { s with traps := s.traps ++ [t] } else killTrap t 2 s
/-- Every group of a partition with an unrecorded stop tries again, and so do the engine traps that wait (R427). [log 95, DEDUCED.] -/
def retryRecords (p : Nat) (s : State) : State :=
  let s := (keysOf s.groups (fun _ x => x.part == p && x.stops.any (fun st => !st.recorded))).foldl (fun s g => tryRecord g s) s
  (s.trapQ.filter (fun q => q.1.part == p)).foldl (fun s q =>
    if 64 ≤ pendingTraps s p then s else recordTrap q.1 q.2 { s with trapQ := s.trapQ.filter (fun x => x.1.fr.tid != q.1.fr.tid) }) s

/-- RETURN FROM AN EXCEPTION: the trap is resolved with an action, 0 reissue, 1 skip, 2 kill team, 3 kill launch (R429, R430,
R423, R475, R485). -/
def resolve (tid : DWord) (action : Nat) (s : State) : State :=
  match s.traps.find? (fun t => t.fr.tid == tid) with
  | none => s
  | some t =>
    let s := { s with traps := s.traps.filter (fun x => x.fr.tid != tid) }
    let lostData := t.fr.cls = 0xF && (t.fr.code = 6 || t.fr.code = 7)
    let action := if lostData && action < 2 then 2 else action
    let s := if t.susp then
        let s := if action = 1 then modPart t.part (fun x => { x with acked := s.map.version, staleVdies := [] }) s else s
        let s := if 2 ≤ action then
            let s := (keysOf s.teams (fun _ x => x.part == t.part && x.state != .complete)).foldl (fun s i => stopTeam i 3 s) s
            modPart t.part (fun x => { x with acked := s.map.version, staleVdies := [] }) s
          else s
        modPart t.part (fun x => { x with suspended := false, ackDue := if action = 0 then some (s.time + 10000000) else none }) s
      else match t.gid with
        | some g =>
          if 2 ≤ action then
            let s := modGrp g (fun x => { x with stops := x.stops.map (fun st => if st.fr.tid == tid then { st with act := some action } else st) }) s
            stopTeam (grp s g).team action s
          else
            let s := modGrp g (fun x => { x with stops := x.stops.map (fun st => if st.fr.tid == tid then { st with act := some action } else st) }) s
            let s := if t.fr.level = 2 then modTeam (grp s g).team (fun x => { x with level2 := false }) s else s
            resumeStops g s
        | none =>
          let onCmd := fun (c : MCmd) => if c.stopTrap == some tid then
              { c with stopped := false, stopTrap := none, status := if action = 0 then c.status else if t.fr.code = 0x40 then 0x40 else 0x80 }
            else c
          let onCopy := fun (c : CopyCmd) => if c.stopTrap == some tid then
              { c with stopped := false, stopTrap := none, ended := action != 0, status := if action = 0 then c.status else 0x80 } else c
          let onColl := fun (c : CollCmd) => if c.stopTrap == some tid then { c with stopTrap := none, result := if action = 0 then c.result else 0x80 } else c
          let s := { s with
            cores := s.cores.map (fun q => (q.1, { q.2 with mq := q.2.mq.map onCmd, chans := q.2.chans.map (fun y => (y.1, { y.2 with queue := y.2.queue.map onCopy })) }))
            teams := s.teams.map (fun q => (q.1, { q.2 with saved := { q.2.saved with mq := q.2.saved.mq.map onCmd, copies := q.2.saved.copies.map (fun y => (y.1, onCopy y.2)) } }))
            net := { s.net with colls := s.net.colls.map onColl } }
          if 2 ≤ action then killTrap t action s else s
    retryRecords t.part s

end Sys2Proof.Machine
end

