-- ==== Sys2Proof/Machine/Home.lean ====
section
/-!
DEFINITION. What a home does with bytes besides storing them: the counters and the metering of bytes moved (R368, R376), and
the shadows of declared write regions (R477).
-/
namespace Sys2Proof.Machine

/-! ### Counting -/

/-- Add `n` to a metering counter that counts in units of `unit_` (R376). -/
def meterAdd (p i unit_ n : Nat) (s : State) : State :=
  modPart p (fun x =>
    let c := x.met.carry.get 0 i + n
    { x with met := { x.met with ctr := x.met.ctr.put i (min (x.met.ctr.get 0 i + c / unit_) (2 ^ 64 - 1)), carry := x.met.carry.put i (c % unit_),
                                 saturated := x.met.saturated || decide (2 ^ 64 - 1 ≤ x.met.ctr.get 0 i + c / unit_) } }) s
/-- Bytes that a partition, and a launch of it where one did, moved through the shared parts of a die (R373). -/
def movedBy (p d : Nat) (l : Option Nat) (n : Nat) (s : State) : State :=
  let k := p * 2 ^ 40 + (l.map (fun x => x + 1)).getD 0
  modDie d (fun x => { x with bytesBy := x.bytesBy.put k (x.bytesBy.get 0 k + n) }) s
/-- A line of HBM passes the memory-side cache of its die, unless the home's L2 serves it: a hit or a miss, and the cache holds it then, as
far as the die's split gives it room (R16 to R18, R368). [log 36, DESIGN CHOICE.] -/
def touchMsc (p line : Nat) (s : State) : State :=
  let d := lineHome line
  let x := die s d
  if lineTier line ≠ 0 || Config.freeNat (2 ^ 200 + line * 2 ^ 70 + (x.bytesBy.map Prod.snd).sum) % 2 = 0 then s
  else countAt p d (64 + (if x.msc.contains line then 4 else 5)) 1
    (modDie d (fun y => { y with msc := (line :: y.msc.filter (fun z => z != line)).take ((s.map.entries.get {} (8 + d)).speed.getD (64 * y.split) * 8192) }) s)
/-- `n` bytes of a partition moved at the home of a line: tier's pair of counters, read first (R368, R373, R376). -/
def moved (p : Nat) (l : Option Nat) (line n : Nat) (write : Bool) (s : State) : State :=
  let i := 2 * lineTier line + bit write
  movedBy p (lineHome line) l n (meterAdd p (31 + i) 4096 n (countAt p (lineHome line) (64 + 8 + i) n (touchMsc p line s)))
/-- `n` bytes of a partition moved to or from another module (R368, R373, R376). -/
def movedFar (p : Nat) (l : Option Nat) (d n : Nat) (write : Bool) (s : State) : State :=
  movedBy p d l n (meterAdd p (39 + bit write) 4096 n (countAt p d (64 + 16 + bit write) n s))
/-- The launch of a team, and of a group, where there is one. -/
def teamLaunch (s : State) (t : Nat) : Option Nat := if s.teams.any (fun q => q.1 == t) then some (team s t).launch else none
def groupLaunch (s : State) (g : Nat) : Option Nat := if s.groups.any (fun q => q.1 == g) then teamLaunch s (grp s g).team else none

/-! ### Shadows -/

/-- The granule of a cell (R477). -/
def granuleOf (key : Nat) : Nat := key / 65536
/-- The declaration of a dispatched or running grid-launch node that an address writes into: graph, node, launch, index (R477). -/
def writeDecl (s : State) (p va : Nat) : Option (Nat × Nat × Nat × Nat) :=
  (part s p).graphs.findSome? (fun g =>
    if !g.2.live then none
    else ((List.range g.2.nodes.length).zip g.2.nodes).findSome? (fun n =>
      if n.2.kind ≠ 0 || (n.2.state ≠ .dispatched && n.2.state ≠ .running) then none
      else ((List.range n.2.decls.length).zip n.2.decls).findSome? (fun d =>
        if 2 ≤ d.2.access && d.2.base ≤ va && va < d.2.base + 2 ^ d.2.size then some (g.1, n.1, n.2.launch, d.1) else none)))
/-- Frames of 2 MiB of a die's tier beside those that hold its stage-two tables, the last of its HBM (R93, R406). [log 87, DESIGN CHOICE.] -/
def tierFrames (d tier : Nat) : Nat := if tier = 0 then Config.hbmBytes d / 2 ^ 21 - 32 else Config.capBytes d / 2 ^ 21
/-- Frames of a die's tier that no partition is granted and no shadow uses (R406, R477). -/
def freeFrames (s : State) (d tier : Nat) : Nat :=
  tierFrames d tier - ((die s d).frames.filter (fun f => f.1 == tier)).length
    - (s.marks.shadows.filter (fun h => lineHome (h.granule * 512) == d && lineTier (h.granule * 512) == tier)).length
/-- The first write to a declared granule is shadowed: its bytes from before are kept. A granule that cannot be shadowed makes
its node unreplayable (R477). [log 34, DEDUCED.] -/
def shadowWrite (p va key : Nat) (s : State) : State :=
  match writeDecl s p va with
  | none => s
  | some (g, n, l, i) =>
    let gran := granuleOf key
    let tier := lineTier (lineOf key)
    if s.marks.shadows.any (fun h => h.launch == l && h.granule == gran) then s
    else if 2 ≤ tier || freeFrames s (lineHome (lineOf key)) tier = 0 then modNode p g n (fun x => { x with unreplayable := true }) s
    else
      let h : Shadow := ⟨p, l, gran, i, va / 65536 * 65536, s.mem.filter (fun c => granuleOf c.1 == gran)⟩
      { s with marks := { s.marks with shadows := s.marks.shadows ++ [h] } }
/-- A shadow is discarded: the granule holds its bytes from before (R477). [log 34, DEDUCED.] -/
def restoreShadow (h : Shadow) (s : State) : State :=
  let rest := s.mem.filter (fun c => granuleOf c.1 != h.granule)
  { s with mem := h.orig.foldl (fun m c => cellPut m c.1 c.2) rest }
/-- The lines of a launch's shadowed granules that the host caches (R148, R477). -/
def shadowLines (s : State) (launch_ : Nat) : List Nat :=
  s.marks.hostLines.filter (fun n => s.marks.shadows.any (fun h => h.launch == launch_ && h.granule == n / 512))
/-- The shadows of a launch that meet a test are discarded, or become their granules (R477, R478). -/
def endShadows (launch_ : Nat) (f : Shadow → Bool) (discard : Bool) (s : State) : State :=
  let mine := fun (h : Shadow) => h.launch == launch_ && f h
  let l := s.marks.shadows.filter mine
  let s := { s with marks := { s.marks with shadows := s.marks.shadows.filter (fun h => !mine h) } }
  if discard then l.foldl (fun s h => restoreShadow h s) s else s

/-! ### Writes -/

/-- The latest write-completion time of a region's writes learns of one (R114). -/
def noteW (p va w : Nat) (s : State) : State :=
  { s with tokens := s.tokens.map (fun t => if t.part == p && t.base ≤ va && va < t.base + 2 ^ t.size then { t with lastW := max t.lastW w } else t) }
/-- A move that covers a write learns of its W (R114): one that a core or an engine passed before the move took effect, by its number or by
the time of its first byte. -/
def noteMove (p va w id first : Nat) (s : State) : State :=
  { s with tokens := s.tokens.map (fun t => if t.part == p && t.base ≤ va && va < t.base + 2 ^ t.size then
      { t with moving := t.moving.map (fun m => if decide (id < m.1.mark) || decide (first ≤ m.1.eff) && m.1.kind != .share then
          ({ m.1 with wct := max m.1.wct w }, m.2) else m) } else t) }
/-- A write of a partition at its home, of bytes inside one line: shadowed, counted and applied; its W (R114, R130, R477). -/
def homeWrite (p : Nat) (lau : Option Nat) (va key : Nat) (l : List Byte) (s : State) : Nat × State :=
  let line := lineOf key
  let r := applyAt key l (moved p lau line l.length true (shadowWrite p va key s))
  (r.1, noteW p va r.1 r.2)
/-- The module asks the host for a line back, once (R148). -/
def askBack (line : Nat) (s : State) : State :=
  if s.marks.asked.contains line then s
  else { s with marks := { s.marks with asked := s.marks.asked ++ [line] }, host := { s.host with out := s.host.out ++ [.backInvalidate line] } }
/-- A step that writes lines runs once the host caches none of them; until then it asks for them back, so that its W is no earlier than
the answers (R148). [log 38, DESIGN CHOICE.] -/
def hostFree (lines : List Nat) (run : State → State) (s : State) : State :=
  let l := lines.filter (fun x => s.marks.hostLines.contains x)
  if l.isEmpty then run s else l.foldl (fun s x => askBack x s) s

/-- The number of the core that the walker's own writes name: no core's. -/
def walkerCore : Nat := 2 ^ 20
/-- The walker's messages of a partition that have not applied. -/
def walkerMsgs (s : State) (p : Nat) : List Msg := s.net.msgs.filter (fun m => m.core == walkerCore && m.part == p)
/-- A byte of the walker's on its way: it joins the message of its line, or starts one (R56, R58, R370). -/
def walkerSend (p va key : Nat) (b : Byte) (s : State) : State :=
  match s.net.msgs.getLast? with
  | some m => if m.core = walkerCore && m.part = p && m.line = lineOf key && m.sent = s.time then
      { s with net := { s.net with msgs := s.net.msgs.dropLast ++ [{ m with bytes := m.bytes.put (key % 128) b }] } }
    else new s
  | none => new s
where
  new (s : State) : State :=
    let m : Msg := { id := s.ids.msg, core := walkerCore, part := p, team := walkerCore, line := lineOf key, bytes := [(key % 128, b)], gids := [],
                     first := s.time, sent := s.time, va := va / 128 * 128, dest := carriesTo s p (lineOf key) }
    { s with net := { s.net with msgs := s.net.msgs ++ [m] }, ids := { s.ids with msg := s.ids.msg + 1 } }
/-- Where the walker's write of bytes lands: the key of each, or the first fault. -/
def walkerKeys (s : State) (p va n : Nat) : Except Fail (List Nat) :=
  (List.range n).foldr (fun i r => match translate s p (2 ^ 40) (va + i) 1 .engineWrite with
    | .error f => .error f
    | .ok { loc := .reg _ _ _ _, gpa := gpa, .. } => .error ⟨6, 1, gpa⟩
    | .ok h => match memKey p h.loc with
      | none => .error ⟨6, 1, h.gpa⟩
      | some k => r.map (fun l => k :: l)) (.ok [])
/-- Bytes by virtual address and key as runs inside one line. -/
def keyRuns : List (Nat × Nat × Byte) → List (Nat × Nat × List Byte)
  | [] => []
  | (va, k, b) :: t => match keyRuns t with
    | (va', k', l) :: r => if k' = k + 1 && lineOf k' = lineOf k then (va, k, b :: l) :: r else (va, k, [b]) :: (va', k', l) :: r
    | [] => [(va, k, [b])]
/-- Bytes that the walker or another engine writes at their homes, or the fault of the write (R452). They apply now; behind an older write of
the walker that has not applied, to a line that the host caches and to another module they go as messages, in order (R56, R148, R370). -/
def walkerWrite (p va : Nat) (l : List Byte) (s : State) : Except Fail State :=
  match walkerKeys s p va l.length with
  | .error f => .error f
  | .ok ks =>
    if (walkerMsgs s p).isEmpty && ks.all (fun k => !isFar (lineOf k) && !portShut s (lineOf k) && !s.marks.hostLines.contains (lineOf k)) then
      .ok ((keyRuns ((List.range l.length).map (fun i => va + i) |>.zip (ks.zip l))).foldl (fun s q => (homeWrite p none q.1 q.2.1 q.2.2 s).2) s)
    else .ok ((((List.range l.length).zip (ks.zip l))).foldl (fun s q => walkerSend p (va + q.1) q.2.1 q.2.2 s) s)

/-- A store of the walker's that faults: it moves no byte and stops nothing; the host fault ring gets a record of it (R452). -/
def storeFault (p : Nat) (f : Fail) (va : Nat) (s : State) : State :=
  let d := (vdt s p 0).getD 0
  let (e, s) := newEvent s p d 0xF0
  deliver2 { tid := e, cls := f.cls, code := f.code, flags := 0, level := 2, ver := s.map.version, pc := 0, detail := .ofNat 64 va,
             name := partyName 0, time := gtime s d } s
/-- A write of the walker's that is as good as made when it faults (R452). -/
def walkerStore (p va : Nat) (l : List Byte) (s : State) : State :=
  match walkerWrite p va l s with
  | .ok t => t
  | .error f => storeFault p f va s

/-! ### Copies -/

/-- The lease of a line that a home hands out; none for an atomic region, a map or register page, or under time alarm (R124, R125,
R106, R458). -/
def leaseOf (s : State) (p va home : Nat) : Option Nat :=
  if (die s home).alarm then none
  else match tokenAt s p va home with
    | some t => if t.atomic then none else some (64 * 2 ^ t.lease)
    | none => some 1024
/-- The bytes of a line as a fetch of a die brings them: those at the home, under those that the die's L2 keeps as pending (R129). -/
def lineBytes (s : State) (d line : Nat) (home : Nat → Byte) : List Byte :=
  (List.range 128).map (fun i => (l2Pending s d (line * 128 + i)).getD (home i))
/-- The home makes a copy of a line for a core: expiry, horizon and C (R125, R127); the die's pending bytes merge into it (R129). [log 36, DESIGN CHOICE; log 81, DEDUCED.] -/
def makeCopy (s : State) (c p : Nat) (lau : Option Nat) (line lease : Nat) : Copy × State :=
  let h := lineHome line
  let e := gtime s h + lease
  let cp : Copy := ⟨line, lineBytes s (coreDie c) line (fun i => cellGet s.mem (line * 128 + i)), e, (lineSt s line).c, s.time⟩
  (cp, countAt p h (64 + 6) 1 (moved p lau line 128 false (modLine line (fun x => { x with h := max x.h e }) s)))
/-- The largest expiry or completion time that another home can name now: the longest lease from now, and the skew (R106, R122, R125). -/
def farBound (s : State) (d : Nat) : Nat := gtime s d + 131072 + 20
/-- A copy of a line of another module: its bytes, its expiry and its C come from there (R124, R125); the module's own memory is read here,
under the lease of its region and with its own C (R92, R125, R130). [log 47, DEDUCED.] -/
def farCopy (s : State) (c p : Nat) (lau : Option Nat) (line : Nat) (data : List Byte) (e cc : Nat) : Option (Copy × State) :=
  let d := coreDie c
  let a := farPlace (line * 128)
  let t := movedFar p lau d 128 false s
  match ownPlace s p a.1 a.2 .load with
  | none => some (⟨line, lineBytes s d line (fun i => data.getD i (Config.farByte s.free (line * 128 + i))), min e (farBound s d), min cc (farBound s d), s.time⟩, t)
  | some (.ok (q, va, { loc := .cell k, home := home, .. })) =>
    if (List.range 128).any (fun i => isPoison s (k + i)) then none
    else (leaseOf s q va home).map (fun lease =>
      let e := gtime s (lineHome (lineOf k)) + lease
      (⟨line, lineBytes s d line (fun i => cellGet s.mem (k + i)), e, (lineSt s (lineOf k)).c, s.time⟩,
        moved q none (lineOf k) 128 false (modLine (lineOf k) (fun x => { x with h := max x.h e }) t)))
  | some _ => none
/-- A copy takes the place of one of the same line; the oldest goes where the cache has no room. [log 36, DESIGN CHOICE.] -/
def putCopy (room : Nat) (x : Copy) (l : List Copy) : List Copy := (x :: l.filter (fun y => y.line != x.line)).take room
/-- The L2 of a die holds a copy (R124). -/
def giveL2 (d : Nat) (x : Copy) (s : State) : State := modDie d (fun y => { y with l2 := putCopy Config.l2Lines x y.l2 }) s
/-- The bytes of a line that a core has written and that have not applied (R129, R136). -/
def ownBytes (s : State) (c line : Nat) : Tab Byte := (List.range 128).filterMap (fun i => (bufByte s c (line * 128 + i)).map (fun b => (i, b)))
/-- The L1 of a core holds a copy, with the core's own bytes that have not applied in it (R129, R136); a copy that comes through the L2
raises what the L2 has granted (R130). [log 22, DEDUCED.] -/
def giveL1 (c : Nat) (x : Copy) (s : State) : State :=
  let d := coreDie c
  let own := ownBytes s c x.line
  let s := if passesL2 d x.line then modDie d (fun y => { y with hd := y.hd.put x.line (max (y.hd.get 0 x.line) x.expiry) }) s else s
  modCore c (fun y => { y with l1 := putCopy Config.l1Lines (copyMerge x own) y.l1 }) s
/-- A core fetches a copy of a line into its L1, through its die's L2 where the line's home lies elsewhere (R124, R126). -/
def install (c : Nat) (x : Copy) (s : State) : State := giveL1 c x (if passesL2 (coreDie c) x.line then giveL2 (coreDie c) x s else s)
/-- A read at the home that brings no copy leaves no older one behind (R136). -/
def dropCopies (c line : Nat) (s : State) : State :=
  let keep := fun (x : Copy) => x.line != line
  modDie (coreDie c) (fun y => { y with l2 := y.l2.filter keep }) (modCore c (fun y => { y with l1 := y.l1.filter keep }) s)
/-- A line that a core's load reads at its home: a copy of it comes, where the home hands one out (R125, R126). `far` is what another
module answers: the line's bytes, expiry and C. -/
def readLine (c p : Nat) (lau : Option Nat) (va home line : Nat) (far : List Byte × Nat × Nat) (s : State) : State :=
  if isReg line then s
  else if isFar line then match farCopy s c p lau line far.1 far.2.1 far.2.2 with
    | some r => install c r.1 r.2
    | none => dropCopies c line (movedFar p lau (coreDie c) 128 false s)
  else if (List.range 128).any (fun i => isPoison s (line * 128 + i)) then dropCopies c line (moved p lau line 128 false s)
  else match leaseOf s p va home with
    | some lease => let r := makeCopy s c p lau line lease; install c r.1 r.2
    | none => dropCopies c line (moved p lau line 128 false s)

end Sys2Proof.Machine
end

