-- ==== Sys2Proof/Machine/Flags.lean ====
section
/-!
DEFINITION. Predicates: the comparisons and accumulations that write them (R242, R257), and the order of class in which a
word's faults are judged (R439).
-/
namespace Sys2Proof.Machine

/-- An integer comparison by its condition code (R242). -/
def intCond (code : Nat) (a b : Int) : Bool :=
  match code with
  | 0 => a == b
  | 1 => a != b
  | 2 => decide (a < b)
  | 3 => decide (a ≤ b)
  | 4 => decide (b < a)
  | _ => decide (b ≤ a)

/-- The accumulation of a comparison into the predicate's old value (R242). -/
def accum (mo : Byte) (old r : Bool) : Bool :=
  let r := r != mo.getLsbD 7
  match mo.toNat / 16 % 8 with
  | 1 => old && r
  | 2 => old || r
  | 3 => old != r
  | _ => r

/-- A bit of an 8-bit truth table, operand a lowest (R237, R244). -/
def truth (fn : Byte) (a b c : Bool) : Bool := fn.getLsbD (bit a + 2 * bit b + 4 * bit c)

/-- The order in which step 7 takes the classes (R439). -/
def classOrder : List Nat := [4, 8, 5, 6, 7, 0xF]

end Sys2Proof.Machine
end

