-- ==== Sys2Proof/Machine/RegPage.lean ====
section
/-!
DEFINITION. The resource map and the register pages: what a load of the register page or the power page reads, and which
step a store to one of them is (R379, R380, R387, R392, R401, R402, R415 to R419, R371).
-/
namespace Sys2Proof.Machine

/-! ### The resource map -/

/-- Units of a kind on a physical die (R11, R21, R417). -/
def perDie (kind d : Nat) : Nat :=
  match kind with
  | 3 => Config.clustersOf d
  | 4 => 4 * Config.clustersOf d
  | 6 => Config.stacksOf d
  | 7 => if Config.isWDie d then 2 else 0
  | 8 => 2
  | _ => 1
/-- The die and the place on it of unit `i` of a kind: `n` dies remain from die `d`. -/
def placeOf (kind : Nat) : Nat → Nat → Nat → Nat × Nat
  | 0, d, i => (d, i)
  | n + 1, d, i => if i < perDie kind d then (d, i) else placeOf kind n (d + 1) (i - perDie kind d)
/-- The two ends of a mesh link: rows first, then columns (R13, R14, log 13). -/
def linkEnds (i : Nat) : Nat × Nat :=
  if i < 3 then (i, i + 1) else if i < 6 then (i + 1, i + 2) else (i - 6, i - 2)
/-- Kind and index of a map entry (R417). -/
def entryKind (n : Nat) : Nat × Nat :=
  if n < 8 then (1, n) else if n < 16 then (2, n - 8) else if n < 104 then (3, n - 16) else if n < 456 then (4, n - 104)
  else if n < 466 then (5, n - 456) else if n < 482 then (6, n - 466) else if n < 490 then (7, n - 482)
  else if n < 506 then (8, n - 490) else if n = 506 then (9, 0) else (10, 0)
/-- The entry of a kind's first unit (R417). -/
def kindBase (kind : Nat) : Nat :=
  match kind with
  | 1 => 0 | 2 => 8 | 3 => 16 | 4 => 104 | 5 => 456 | 6 => 466 | 7 => 482 | 8 => 490 | 9 => 506 | _ => 507
/-- Units of a kind on the dies below a die. -/
def unitsBelow (kind d : Nat) : Nat := ((List.range d).map (perDie kind)).sum
/-- The entry of a cluster number. -/
def clusEntry (c : Nat) : Nat := kindBase 3 + unitsBelow 3 (c / 16) + c % 16
/-- The entry of a core number. -/
def coreEntry (c : Nat) : Nat := kindBase 4 + unitsBelow 4 (c / 64) + c % 64
/-- A core that can run teams: its own, its cluster's and its die's entries are usable. -/
def coreUsable (s : State) (c : Nat) : Bool := entryUsable s (coreEntry c) && entryUsable s (clusEntry (coreClus c)) && entryUsable s (coreDie c)
/-- The speed that an entry names: what an event set, else the unit's nominal speed (R14, R16, R17, R20 to R22, R416). -/
def speedOf (n : Nat) (e : MapEntry) : Nat :=
  match e.speed with
  | some v => v
  | none => match (entryKind n).1 with
    | 2 => 384
    | 4 => 2400
    | 5 => 3200
    | 6 => 2800
    | 7 => 200
    | 8 => 800
    | 9 => 256
    | _ => 0
/-- The speed of an entry. -/
def entrySpeed (s : State) (n : Nat) : Nat := speedOf n (s.map.entries.get {} n)
/-- Version A, or B, as the map pages show it (R416, R418). -/
def shownVersion (s : State) (a : Bool) : Nat :=
  ((s.map.updates.find? (fun u => decide (s.time < (if a then u.ends else u.begins)))).map (fun u => u.version - 1)).getD s.map.version
/-- An entry as the map pages show it: an update writes each between its begin and its end (R418). [log 23, DEDUCED.] -/
def shownEntry (s : State) (n : Nat) : MapEntry :=
  match s.map.updates.find? (fun u => decide (s.time < u.begins + Config.mapDelay u.at_ u.version n % (u.ends + 1 - u.begins))) with
  | some u => u.old.get {} n
  | none => s.map.entries.get {} n
/-- The die that holds an entry's unit, and the other end of a link (R416). -/
def entryDie (n : Nat) : Nat × Nat :=
  let k := entryKind n
  match k.1 with
  | 1 => (k.2, 0xFFFF)
  | 2 => (k.2, 0xFFFF)
  | 5 => linkEnds k.2
  | 9 => (0xFFFF, 0xFFFF)
  | 10 => (0xFFFF, 0xFFFF)
  | m => ((placeOf m 8 0 k.2).1, 0xFFFF)
/-- The 16 bytes of a map entry (R416). -/
def entryBytes (s : State) (n idx d other : Nat) : List Byte :=
  let e := shownEntry s n
  [.ofNat 8 (entryKind n).1, .ofNat 8 (if Config.fusedOff n then 0 else e.state)] ++ leBytes 2 idx ++ leBytes 4 (speedOf n e) ++ leBytes 2 d ++ leBytes 2 other ++ leBytes 4 0
/-- The header of the map or of a view (R416). -/
def mapHeader (s : State) (count : Nat) : List Byte :=
  leBytes 4 (shownVersion s true) ++ leBytes 4 count ++ leBytes 4 (shownVersion s false) ++ [.ofNat 8 s.host.module] ++ leBytes 51 0
/-- The module resource map (R416, R417). -/
def moduleMap (s : State) : List Byte :=
  mapHeader s 508 ++ (List.range 508).flatMap (fun n => entryBytes s n (entryKind n).2 (entryDie n).1 (entryDie n).2)

/-- Clusters of a partition (R74). -/
def clustersHeld (s : State) (p : Nat) : List Nat := keysOf s.clusters (fun _ c => c.holder == some p)
/-- Entries of a partition's view (R417). -/
def inView (s : State) (p n : Nat) : Bool :=
  let k := entryKind n
  let holds := fun (d : Nat) => (List.range 8).any (fun i => vdt s p i == some d)
  match k.1 with
  | 5 => holds (linkEnds k.2).1 && holds (linkEnds k.2).2
  | 9 => true
  | 10 => true
  | _ => holds (entryDie n).1
/-- The partition's view of the map: dies virtual, indices dense (R417). -/
def viewMap (s : State) (p : Nat) : List Byte :=
  let l := (List.range 508).filter (inView s p)
  let vd := fun (d : Nat) => if d = 0xFFFF then d else vdieOf s p d
  mapHeader s l.length ++ l.flatMap (fun n =>
    let idx := (l.filter (fun m => (entryKind m).1 == (entryKind n).1 && decide (m < n))).length
    entryBytes s n idx (vd (entryDie n).1) (vd (entryDie n).2))

/-! ### Register reads -/

/-- The cluster number of a cluster block of a partition, when the partition holds it (R380). -/
def blockClus (s : State) (p c : Nat) : Option Nat :=
  match vdt s p (c / 16) with
  | some d => if (clus s (d * 16 + c % 16)).holder = some p then some (d * 16 + c % 16) else none
  | none => none
/-- Teams resident on a cluster (R392). -/
def clusTeams (s : State) (c : Nat) : List Nat := keysOf s.teams (fun _ t => t.state == .resident && coreClus t.core == c)
/-- A register of a cluster block (R392). -/
def clusReg (s : State) (c off : Nat) : Nat :=
  let k := clus s c
  match off with
  | 0x00 => bit k.req
  | 0x08 => (clusTeams s c).length * 2 ^ 32 + bit (2 ≤ k.state && k.state ≤ 5)
  | 0x18 => 0x48 * 2 ^ 16 + bit (k.state = 4 || k.state = 5)
  | 0x30 => k.budget * 2 ^ 32 + bit k.headroom * 2 ^ 16 + k.ratioLimit * 2 ^ 8 + k.matClock
  | 0x38 => k.state
  | _ => 0
/-- The partition's floor share in 0.1 W (R385, R387). -/
def floorShare (s : State) (p : Nat) : Nat :=
  let t := (part s p).tier
  let all := (keysOf s.parts (fun _ x => x.tier == t && x.state == .ready)).map (fun q => (clustersHeld s q).length) |>.sum
  10 * s.power.floors.get 0 t * (clustersHeld s p).length / all
/-- A register of the power page (R380, R387). -/
def powerReg (s : State) (p off : Nat) : Nat :=
  if off < 0x2000 then
    match blockClus s p (off / 64) with
    | some c => clusReg s c (off % 64)
    | none => 0
  else if off = 0x2000 then
    let x := part s p
    x.tier * 2 ^ 60 + x.alloc % 2 ^ 20 * 2 ^ 40 + x.measured % 2 ^ 20 * 2 ^ 20 + floorShare s p % 2 ^ 20
  else if 0x2008 ≤ off && off < 0x2048 then
    match vdt s p ((off - 0x2008) / 8) with
    | some d => min ((die s d).temp / 10) 255 * 2 ^ 8 + (die s d).therm
    | none => 0
  else 0
/-- Registers of the partition's register page before the map view (R371, R402). -/
def pageReg (s : State) (p off : Nat) : Nat :=
  let x := part s p
  match off with
  | 0x08 => x.accepted * 2 ^ 32 + min x.dropped 0xFFFF * 2 ^ 16 + x.gsub.length
  | 0x10 => s.map.version * 2 ^ 32 + x.acked
  | 0x100 => x.obs.tsRing.reg.toNat
  | 0x108 => x.obs.crRing.reg.toNat
  | 0x110 => x.obs.hsRing.reg.toNat
  | 0x118 => x.obs.mrRing.reg.toNat
  | 0x120 => x.obs.tscfg.toNat
  | 0x128 => x.obs.interval
  | 0x130 => x.obs.dbgTgt.toNat
  | 0x138 => x.obs.dbgCtl.toNat
  | 0x140 => (x.obs.dbgBp.get 0 0).toNat
  | 0x148 => (x.obs.dbgBp.get 0 1).toNat
  | 0x150 => (x.obs.dbgBp.get 0 2).toNat
  | 0x158 => (x.obs.dbgBp.get 0 3).toNat
  | _ => 0
/-- A byte of a register page (0) or power page (1) of a partition, read at its home (R401). [log 24, DESIGN CHOICE.] -/
def regByte (s : State) (p page off : Nat) : Byte :=
  if page = 0 && (part s p).erased then 0
  else if page = 0 && 0x4000 ≤ off && off < 0x6000 then (viewMap s p).getD (off - 0x4000) 0
  else .ofNat 8 ((if page = 0 then pageReg s p (off / 8 * 8) else powerReg s p (off / 8 * 8)) / 256 ^ (off % 8))

/-- A register of PF0's BAR0: MBDOOR reads 0; MBSTAT holds the last status and Busy; UNATTR counts in µJ; no other offset holds one
(R6, R7, R401, R402). -/
def pf0Reg (s : State) (off : Nat) : Nat :=
  match off with
  | 0x08 => s.host.status % 256 * 2 ^ 8 + bit s.host.busy
  | 0x10 => s.host.unattrNj / 1000 % 2 ^ 64
  | _ => 0
/-- A byte of PF0's BAR0 as the hypervisor reads it: its registers, the command block as last written, the module resource map (R6, R7,
R401). -/
def pf0Byte (s : State) (off : Nat) : Byte :=
  if 0x1000 ≤ off && off < 0x1100 then s.host.block.getD (off - 0x1000) 0
  else if 0x2000 ≤ off && off < 0x4000 then (moduleMap s).getD (off - 0x2000) 0
  else .ofNat 8 (pf0Reg s (off / 8 * 8) / 256 ^ (off % 8))
/-- The partition that a VF serves with CXL.mem and BAR0 accesses now: one with T = 1 only while the VF is in RUN, one with T = 0 in
CONFIG_UNLOCKED too, and through a usable host port (R401, R414, R415). -/
def vfServes (s : State) (vf : Nat) : Option Nat :=
  let v := s.host.vfs.get {} vf
  v.part.bind (fun p => if hostOpen s && (v.state = .run || (v.state = .unlocked && !(part s p).ctx.tdisp)) then some p else none)
/-- A byte of a VF's BAR0: the register page of its partition, or 0 where the VF is unbound or serves none (R401, R414). -/
def vfByte (s : State) (v off : Nat) : Byte :=
  match vfServes s v with
  | some p => regByte s p 0 off
  | none => 0

/-- The step that a store of a value to a register is, when it is one (R380, R393, R401). [log 23, DEDUCED; log 24, DESIGN CHOICE.] -/
def regStore (s : State) (p page off : Nat) (value : DWord) : Option Item :=
  if page = 0 then if (part s p).erased then none else some ⟨0, .registerWrite, { x := 0, y := off, z := p, word := value }⟩
  else
    match blockClus s p (off / 64) with
    | none => none
    | some c =>
      let ev : Ev := { x := c, word := value }
      if 0x2000 ≤ off then none
      else match off % 64 with
        | 0x00 => some ⟨0, .clqreq, ev⟩
        | 0x10 => some ⟨0, .clsave, ev⟩
        | 0x20 => some ⟨0, .clgate, ev⟩
        | 0x28 => some ⟨0, .clwake, ev⟩
        | _ => none

/-- A byte of a function's configuration space, which PF0 answers once the link has trained (R398, R415). [log 89, PRESUMED.] -/
def cfgByte (s : State) (fn off : Nat) : Option Byte := if hostOpen s then some (Config.cfgSpace fn off) else none

/-- A byte of a register page as a group reads it at its home: to a level-0 group the register page reads 0 (R401). -/
def regRead (s : State) (g p page off : Nat) : Byte := if page = 0 && (grp s g).level = 0 then 0 else regByte s p page off
/-- Stores of bytes of a line of a register page apply at their home, register by register, a narrow one over the bytes that it covers (R379,
R393, R401). [log 24, DESIGN CHOICE.] -/
def regLine (line : Nat) (b : Tab Byte) (s : State) : State :=
  let a := line * 128 % 2 ^ 64
  let p := a / 2 ^ 17
  let page := a / 2 ^ 16 % 2
  (List.range 16).foldl (fun s i =>
    let off := a % 2 ^ 16 + 8 * i
    if !b.any (fun q => q.1 / 8 == i) then s
    else match regStore s p page off (.ofNat 64 (leNat ((List.range 8).map (fun j => (inLine b (8 * i + j)).getD (regByte s p page (off + j)))))) with
      | some it => { s with agenda := s.agenda ++ [it] }
      | none => s) s

/-! ### Watched words -/

/-- The word that a watched place holds at its home; a level-0 group's register page reads 0 (R346, R401). -/
def watched (s : State) (g : Nat) (loc : Loc) : Nat :=
  match loc with
  | .cell k => leNat (cellBytes s.mem k 8)
  | .reg p _ page o => leNat ((List.range 8).map (fun i => regRead s g p page (o + i)))
  | .pad t o => leNat (padBytes s t o 8)
  | .remote _ _ => s.ev.word.toNat
/-- A stall in `wfw` on a register after a write that meets a test, or after any change of the register (R346, R379). -/
def sawReg (s : State) (g : Nat) (f : Nat → Nat → Nat → Bool) (x : Stall) : Stall :=
  match x.kind with
  | .wfw k va (.reg p d page o) kb seen hit =>
    let v : DWord := .ofNat 64 (watched s g (.reg p d page o))
    if f p page o || v != seen then { x with kind := .wfw k va (.reg p d page o) kb v (hit || v != kb) } else x
  | _ => x
/-- A write of registers that meet a test has applied: groups that watch them learn of it (R346). -/
def seeRegs (f : Nat → Nat → Nat → Bool) (s : State) : State :=
  { s with groups := s.groups.map (fun q => (q.1, { q.2 with stall := q.2.stall.map (sawReg s q.1 f) })) }
/-- A store to a register of a cluster's block has applied (R346, R393). -/
def seeBlock (c k : Nat) (s : State) : State :=
  seeRegs (fun p page off => page == 1 && off < 0x2000 && off % 64 == k && blockClus s p (off / 64) == some c) s

/-! ### Fetch -/

/-- Does a fetch meet a poisoned byte where its page is not to be executed (R439)? -/
def poisonedData (s : State) (g addr : Nat) : Bool :=
  match translate s (grp s g).part (grp s g).core addr 8 .load with
  | .ok { loc := .cell key, .. } => (List.range 8).any (fun i => isPoison s (key + i))
  | _ => false
/-- The word that a fetch reads in a register page, which the register decoder serves; to a level-0 group the register page reads 0 (R93,
R401). -/
def fetchReg (s : State) (g p page off : Nat) : DWord := .ofNat 64 (leNat ((List.range 8).map (fun i => regRead s g p page (off + i))))
/-- The word at an address of a group's code: of memory as it stood when the launch began, of a register page as it stands now; in another
module it is free (log 17). Poison comes before the X check (R38, R90, R92, R93, R98, R439). -/
def fetchWord (s : State) (g addr : Nat) : Except Fail DWord :=
  let gr := grp s g
  match translate s gr.part gr.core addr 8 .fetch with
  | .error f => if f.cls = 5 && f.code % 16 = 5 && poisonedData s g addr then .error ⟨0xF, 8, addr⟩ else .error f
  | .ok { loc := .cell key, .. } =>
    if (List.range 8).any (fun i => isPoison s (key + i)) then .error ⟨0xF, 8, addr⟩
    else .ok (.ofNat 64 (leNat (cellBytes (launch s (team s gr.team).launch).code key 8)))
  | .ok { loc := .remote m a, gpa := gpa, .. } =>
    let l := (team s gr.team).launch
    match ownPlace s gr.part m a .fetch with
    | some (.ok (_, _, { loc := .cell key, .. })) =>
      if (List.range 8).any (fun i => isPoison s (key + i)) then .error ⟨0xF, 8, addr⟩
      else .ok (.ofNat 64 (leNat (cellBytes (launch s l).code key 8)))
    | some (.ok (_, _, { loc := .reg p _ page o, .. })) => .ok (fetchReg s g p page o)
    | some (.error e) => .error ⟨6, e, gpa⟩
    | some _ => .error ⟨6, 0xB, gpa⟩
    | none => .ok (.ofNat 64 (leNat ((List.range 8).map (fun i => Config.farCode l (farKey gr.part m (a + i))))))
  | .ok { loc := .reg p _ page o, .. } => .ok (fetchReg s g p page o)
  | .ok h => .error ⟨6, 1, h.gpa⟩

end Sys2Proof.Machine
end

