-- ==== Sys2Proof/Machine/Operands.lean ====
section
/-!
DEFINITION. Operands and the judgement of a word: the values of source fields (R200, R211, R224), the lanes that are active
(R208, R310), effective addresses and the access they judge (R80 to R93, R108, R439), bound streams (R214, R215), and the
order in which one word's faults are judged (R439).
-/
namespace Sys2Proof.Machine

/-! ### Types -/

/-- The width in bits of an operand type (R201). -/
def tyBits (t : BitVec 5) : Nat :=
  match t.toNat with
  | 0 | 4 | 16 | 17 => 8
  | 1 | 5 | 8 | 14 | 15 => 16
  | 3 | 7 | 10 | 11 => 64
  | 18 => 4
  | _ => 32
/-- Is a type a signed integer type (R224)? -/
def tySigned (t : BitVec 5) : Bool := t.toNat < 4
/-- A number of `w` bits as the type reads it (R224). -/
def readAs (t : BitVec 5) (n : Nat) : Int := if tySigned t then sgn (tyBits t) n else ((n % 2 ^ tyBits t : Nat) : Int)
/-- A result written to 32 bits (or to 64 for a uniform register): reduced to the type, then extended by its sign (R224). -/
def extTo (w : Nat) (t : BitVec 5) (x : Int) : Nat :=
  let n := wrapTo (tyBits t) x
  if tySigned t then wrapTo w (sgn (tyBits t) n) else n

/-! ### Lanes -/

/-- Does a lane pass the governing predicate (R208, R310)? -/
def passes (s : State) (a : Arrival) (l : Nat) : Bool := pGet s a.gid l a.ext.pred.toNat != a.ext.neg
/-- The lanes of the arrival that are active (R208). -/
def active (s : State) : Mask := Mask.ofPred (fun l => s.cur.lanes.getLsbD l && passes s s.cur l)
/-- The lanes of the arrival that pass a Format B predicate (R205). -/
def takers (s : State) (f : FB) : Mask :=
  Mask.ofPred (fun l => s.cur.lanes.getLsbD l && (pGet s s.cur.gid l f.pred.toNat != f.neg))
/-- The participating lanes of an arrival that waits: no register of its group changes meanwhile (R310, R361). -/
def activeOf (s : State) (a : Arrival) : Mask := active { s with cur := a }
/-- The lowest lane of a mask. -/
def lowest (m : Mask) : Nat := ((Mask.toList m).head?).getD 0

/-- The lane whose operand a word takes that acts once for its arrival: free where the lanes' operands differ (log 12). -/
def someLane (s : State) (m : Mask) : Nat := (Mask.toList m).getD (draw s 0x101 % max 1 (Mask.count m)) 0

/-! ### Source values -/

/-- A uniform register as the arrival reads it: slot B reads it from before slot A's write (R227). -/
def kRead (s : State) (n : Nat) : DWord :=
  match s.cur.kBefore with
  | some t => t.get 0 n
  | none => kGet s s.cur.gid n

/-- A special value of a lane (R211). -/
def special (s : State) (l n : Nat) : Nat :=
  let g := s.cur.gid
  let gr := grp s g
  let t := team s gr.team
  let r := (launch s t.launch).record
  match n with
  | 0 => l
  | 1 => gr.place
  | 2 => t.index
  | 3 => r.t
  | 4 => t.index % r.gang
  | 5 => vdieOf s gr.part (coreDie gr.core)
  | 6 => gtime s (coreDie gr.core)
  | _ => teamHolder s gr.team

/-- A source field of `w` bits by its kind (R200): vector register or pair, uniform register, special value, inline integer. -/
def srcBits (s : State) (l : Nat) (x : Byte) (kind : BitVec 2) (w : Nat) : Nat :=
  (match kind.toNat with
   | 0 => if w = 64 then vPair s s.cur.gid l x.toNat else (vGet s s.cur.gid l x.toNat).toNat
   | 1 => (kRead s x.toNat).toNat
   | 2 => special s l x.toNat
   | _ => wrapTo w (sgn 8 x.toNat)) % 2 ^ w

/-- Does a source field read another value in each lane (R200, R211)? -/
def laneVarying (x : Byte) (kind : BitVec 2) : Bool := kind.toNat = 0 || (kind.toNat = 2 && x.toNat = 0)
/-- A source of a uniform instruction. `%lane` is that of a lane of the arrival that nothing fixes: its only one where it holds one (R211, log 12). -/
def uniBits (s : State) (x : Byte) (kind : BitVec 2) (w : Nat) : Nat :=
  if kind.toNat = 2 && x.toNat = 0 then (Mask.toList s.cur.lanes).getD (draw s 0x100 % max 1 (Mask.count s.cur.lanes)) 0 % 2 ^ w
  else srcBits s (lowest s.cur.lanes) x kind w

/-! ### Addresses and accesses -/

/-- The effective address of a memory word for a lane (R80). -/
def effAddr (s : State) (f : FM) (l : Nat) : Nat :=
  let w := if f.space.toNat = 3 then 64 else 32
  let b := if f.uni then (kRead s f.base.toNat).toNat
    else if f.space.toNat = 3 then vPair s s.cur.gid l f.base.toNat else (vGet s s.cur.gid l f.base.toNat).toNat
  wrapTo w ((b : Int) + sgn 20 f.off.toNat)

/-- One run of bytes that an access touches: its virtual address, the place of its first byte, how many (R85). -/
structure Reach where
  va : Nat
  loc : Loc
  n : Nat

/-- The runs of bytes of an access of `n` bytes that translates to `h`: a private access falls apart into words (R85); a vault address
stands in the vault window (R86). -/
def reach (s : State) (g l space ea n : Nat) (acc : Acc) (h : Hit) : List Reach :=
  match space with
  | 0 => (List.range ((n + 3) / 4)).map (fun i => match privateByte s g l (ea + 4 * i) acc with
      | .ok q => ⟨privateVa s g l (ea + 4 * i), q.loc, min 4 (n - 4 * i)⟩
      | .error _ => ⟨privateVa s g l (ea + 4 * i), h.loc.plus (4 * i), min 4 (n - 4 * i)⟩)
  | 2 => [⟨(part s (grp s g).part).ctx.vwin.toNat + ea, h.loc, n⟩]
  | _ => [⟨ea, h.loc, n⟩]

/-- Do two runs of bytes of a lane of a partition share a byte? -/
def meet (p : Nat) (a : Loc) (n : Nat) (b : Loc) (m : Nat) : Bool :=
  match a, b with
  | .pad t i, .pad u j => t == u && decide (i < j + m) && decide (j < i + n)
  | .reg q _ x i, .reg r _ y j => q == r && x == y && decide (i < j + m) && decide (j < i + n)
  | _, _ => match memKey p a, memKey p b with
    | some i, some j => decide (i < j + m) && decide (j < i + n)
    | _, _ => false
/-- Does a place lie in a scratchpad? -/
def Loc.isPad (l : Loc) : Bool := match l with | .pad _ _ => true | _ => false
/-- The older access of a lane that an access has to wait for: a bound store that has not entered the buffer, to a byte of it; in the
scratchpad, any that has not reached it whole (R138, R215); for a load, an older load that has not got a byte of it (R136). [log 22, DEDUCED.] -/
def behind (s : State) (g l : Nat) (acc : Acc) (rs : List Reach) : Option Nat :=
  let gr := grp s g
  (gr.pend.find? (fun p => match p.kind with
    | .values _ st => st.any (fun b => b.lane == l && rs.any (fun r => (b.loc.isPad && r.loc.isPad) || meet gr.part b.loc b.bytes.length r.loc r.n))
    | .load ps => ps.any (fun q => q.lane == l && q.got.any Option.isNone
        && rs.any (fun r => (q.loc.isPad && r.loc.isPad) || (acc == .load && meet gr.part q.loc q.width r.loc r.n)))
    | _ => false)).map Pend.id

/-- An access of `n` bytes by a lane of a group, judged in the order of step 7 (R81, R82, R85 to R93, R108, R439, R449,
R451): where it lands, or the fault; a load from the module's own number is refused here (R92, R447). Class 0 stands for a wait: code 0 for that of R450, with the time it ends as detail, code 1 for that
behind an older access of the lane, with the number of its pending write (R136, R215). -/
def access (s : State) (g l space ea n : Nat) (acc : Acc) : Except Fail Hit :=
  let gr := grp s g
  let r : Except Fail Hit :=
    if ea % n ≠ 0 then .error ⟨4, 1, ea⟩
    else match space with
      | 0 => privateHit s g l ea n acc
      | 1 => padHit s gr.team ea n
      | 2 => vaultHit s gr.part ea n ea
      | _ => translate s gr.part gr.core ea n acc
  match r with
  | .error f => .error f
  | .ok h =>
    let rs := reach s g l space ea n acc h
    let va := (rs.head?.map Reach.va).getD ea
    let free := space = 1 || (space = 0 && !inVaultWin s gr.part va)
    let right := if free || !needsRight h acc then none else rightCode s gr.part (teamHolder s gr.team) va h.home acc
    match right with
    | some 0 => .error ⟨0, 0, ((tokenAt s gr.part va h.home).bind (fun t => t.moving.map Prod.snd)).getD 0⟩
    | some c => .error ⟨7, c, ea⟩
    | none =>
      match behind s g l acc rs with
      | some i => .error ⟨0, 1, i⟩
      | none =>
      match h.loc with
      | .cell key =>
        if acc != .store && (List.range n).any (fun i => isPoison s (key + i)) then .error ⟨0xF, poisonCode s key, ea⟩ else .ok h
      | .pad t off =>
        if acc != .store && (core s (team s t).core).poison.any (fun q => q.1 == t * 2 ^ 19 + off / 128) then .error ⟨0xF, 5, ea⟩ else .ok h
      | .remote m a => match ownPlace s gr.part m a .load with
        | some (.error e) => if acc = .load && e ≠ 0 then .error ⟨6, e, h.gpa⟩ else .ok h
        | some (.ok (_, _, { loc := .cell key, .. })) =>
          if acc = .load && (List.range n).any (fun i => isPoison s (key + i)) then .error ⟨0xF, poisonCode s key, ea⟩ else .ok h
        | _ => .ok h
      | _ => .ok h

/-- The first class of step 7 that any lane meets, with its lanes, code and detail (R440). -/
def firstClass (rs : List (Nat × Except Fail Hit)) : Option (Fail × Mask) :=
  classOrder.findSome? (fun c =>
    let bad := rs.filterMap (fun r => match r.2 with
      | .error f => if f.cls = c then some (r.1, f) else none
      | .ok _ => none)
    match bad with
    | [] => none
    | (_, f) :: _ => some (f, Mask.ofPred (fun l => bad.any (fun q => q.1 == l))))

/-! ### Pending registers -/

/-- Is a register uniform? -/
def Reg.isK (r : Reg) : Bool :=
  match r with
  | .k _ => true
  | _ => false
/-- The registers that a group holds pending for a lane of a mask (R196, R424); a write to p0 is discarded, and p0 is never pending (R210). -/
def pendingRegs (s : State) (g : Nat) (m : Mask) : List Reg :=
  if m = 0 then [] else
  ((grp s g).pend.flatMap (fun p => p.regs.filter (fun r => Reg.isK r || (p.lanes &&& m) != 0))).filter (fun r => r != .p 0)

/-! ### The extension word's legality -/

/-- Roundings of an instruction: 0 none, 1 every mode but stochastic, 2 stochastic too (R155, R252, R265). -/
def roundings (i : Instr) : Nat :=
  let sto := fun (f : FR) => if [15, 16, 17, 18].contains f.ty.toNat then 2 else 1
  let fl := fun (f : FR) => if f.ty.toNat = 11 || f.ty.toNat = 12 then 1 else 0
  match i with
  | .fadd _ | .fsub _ | .fmul _ | .fma _ | .scale _ | .frint _ | .faddImm _ | .fsubImm _ | .fmulImm _ | .mxdec _ => 1
  | .mxcvt _ => 2
  | .cvt f | .cvtSat f => if f.ty = srcTy f.mo then 0 else sto f
  | .cvtPk f | .cvtPkSat f => sto f
  | .reduxAdd f | .scanAdd f => fl f
  | _ => 0
/-- The majors that an extension word may precede (R209). -/
def extMajor (m : Nat) : Bool := (0x20 ≤ m && m ≤ 0x37) || (0x40 ≤ m && m ≤ 0xCA)
/-- May an extension word precede the instruction (R209)? -/
def takesExt (i : Instr) : Bool := extMajor (major i)
/-- May the inactive policy be zero (R252, R290)? -/
def takesZero (i : Instr) : Bool :=
  let m := major i
  !(0x90 ≤ m && m ≤ 0x9F) && (m < 0xA0 || m = 0xA0 || (0xC0 ≤ m && m ≤ 0xC8))
/-- The codes that an extension word breaks for the instruction it precedes (R209, R252, R290, R432). [log 121, DEDUCED.] -/
def extCodes (b : Nat) (e : Ext) (i : Instr) : List Nat :=
  let r := roundings i
  let sto := e.rnd.toNat = 4
  (if takesExt i then [] else [7])
  ++ (if 5 ≤ e.rnd.toNat || (sto && r ≠ 2) || (e.rnd.toNat ≠ 0 && r = 0) || (e.zero && !takesZero i) || (shape e i).badBind
        || (sto && e.kind4.toNat ≠ 1) || (!sto && (e.kind4.toNat ≠ 0 || e.src4.toNat ≠ 0)) then [8] else [])
  ++ (if sto && r = 2 && e.kind4.toNat = 1 && b ≤ e.src4.toNat then [6] else [])

/-! ### Bound streams -/

/-- The address that a lane uses at a position of a stream (R214). -/
def streamAddr (st : Stream) (pos l : Nat) : Nat :=
  let idx := if st.modulo ≠ 0 then pos % st.modulo else pos
  wrapTo (if st.space = 3 then 64 else 32) ((st.base.toNat : Int) + idx * sgn 32 st.stride.toNat + l * 2 ^ st.width)
/-- The bound uses of an arrival in their order: stream, position taken, bytes of the operand, writes (R214). -/
def boundUses (s : State) (wa wb wd : Nat) : List (Nat × Nat × Nat × Bool) :=
  let e := s.cur.ext
  let l := (e.bindA.toList.map (fun x => (x.toNat, wa, false))) ++ (e.bindB.toList.map (fun x => (x.toNat, wb, false)))
    ++ (e.bindD.toList.map (fun x => (x.toNat, wd, true)))
  (List.range l.length).zip l |>.map (fun q =>
    let x := q.2.1
    let before := ((l.take q.1).filter (fun y => y.1 == x)).length
    (x, ((grp s s.cur.gid).x.get {} x).pos + before, q.2.2.1, q.2.2.2))
/-- Does a bound use break R214 (code 0x10)? -/
def streamBad (s : State) (u : Nat × Nat × Nat × Bool) : Bool :=
  let st := (grp s s.cur.gid).x.get {} u.1
  st.count = 0 || decide (st.count ≤ u.2.1) || 2 ^ st.width ≠ u.2.2.1
/-- A byte of a place in a line that a load of the group finds near its core, and the completion time that comes with it (R127); of a register page
that reads 0 to the group there is none (R401). -/
def nearAt (s : State) (g : Nat) (loc : Loc) : Option (Byte × Nat) :=
  match loc with
  | .reg _ _ 0 _ => if (grp s g).level = 0 then none else (memKey (grp s g).part loc).bind (nearByte s g)
  | _ => (memKey (grp s g).part loc).bind (nearByte s g)
/-- The completion time of the line of a place, as its home answers now: another module's is free (R127, R130, log 17). -/
def lineC (s : State) (g : Nat) (loc : Loc) : Nat :=
  match loc with
  | .cell k => (lineSt s (lineOf k)).c
  | .reg p d page o => (lineSt s (lineOf (regKey p d page o))).c
  | .remote m a => match ownPlace s (grp s g).part m a .load with
    | some (.ok (_, _, { loc := .cell k, .. })) => (lineSt s (lineOf k)).c
    | _ => draw s 0x300 % (farBound s (grpDie s g) + 1)
  | _ => 0
/-- A byte that a load of the group reads at a place now, from its nearest holder, and the completion time that comes with it (R127,
R130, R401). -/
def nowByte (s : State) (g : Nat) (loc : Loc) : Byte × Nat :=
  match loc with
  | .pad t o => (cellGet (team s t).pad o, 0)
  | _ => match nearAt s g loc with
    | some b => b
    | none => (match loc with
      | .reg p _ page o => regRead s g p page o
      | _ => lineByte s (grp s g).part loc, lineC s g loc)
/-- The bytes that a load of the group reads now, run by run. -/
def readNow (s : State) (g : Nat) (rs : List Reach) : Nat :=
  leNat (rs.flatMap (fun r => (List.range r.n).map (fun i => (nowByte s g (r.loc.plus i)).1)))
/-- The largest completion time that such a load returns (R130). -/
def readC (s : State) (g : Nat) (rs : List Reach) : Nat :=
  (rs.flatMap (fun r => (List.range r.n).map (fun i => (nowByte s g (r.loc.plus i)).2))).foldl max 0

/-- Hits and misses of an access in the caches of the core's die (R368). -/
def countHits (g : Nat) (loc : Loc) (s : State) : State :=
  let gr := grp s g
  match memKey gr.part loc with
  | some k =>
    let d := coreDie gr.core
    let at_ := fun (i : Nat) (s : State) => countAt gr.part d (64 + i) 1 s
    if (bufByte s gr.core k).isSome then s
    else if (copyOf s d (lineOf k) gr.floorL1 (core s gr.core).l1).isSome then at_ 0 s
    else if !passesL2 d (lineOf k) then at_ 1 s
    else at_ 1 (at_ (if (copyOf s d (lineOf k) gr.floorL2 (die s d).l2).isSome then 2 else 3) s)
  | none => s
/-- The home die of a line, by which its region's entry is found (R101, R124). -/
def entryHome (s : State) (p line : Nat) : Nat := if lineTier line = 3 then (vdt s p 0).getD 0 else lineHome line
/-- The lines of runs of bytes, each once, with a virtual address in it. -/
def runLines (p : Nat) (rs : List Reach) : List (Nat × Nat) :=
  rs.foldr (fun r l => match memKey p r.loc with
    | some k => (lineOf k, r.va) :: l.filter (fun q => q.1 != lineOf k)
    | none => l) []
/-- Lines that a group's reads have found nowhere near come to its core (R125, R126); `far` is what another module answers for a line. -/
def fetchLines (g : Nat) (far : Nat → List Byte × Nat × Nat) (l : List (Nat × Nat)) (s : State) : State :=
  let gr := grp s g
  l.foldl (fun s q => readLine gr.core gr.part (teamLaunch s gr.team) q.2 (entryHome s gr.part q.1) q.1 (far q.1) s) s
/-- The runs of bytes of which a load of the group finds some byte nowhere near (R127). -/
def missed (s : State) (g : Nat) (rs : List Reach) : List Reach :=
  rs.filter (fun r => (memKey (grp s g).part r.loc).isSome && !((List.range r.n).all (fun i => (nearAt s g (r.loc.plus i)).isSome)))
/-- What another module answers to a read at issue: bytes, an expiry and a C that are free (log 17). -/
def farFree (s : State) (g : Nat) (line : Nat) : List Byte × Nat × Nat :=
  ([], gtime s (grpDie s g) + draw s (0x301 + line) % 131093, draw s 0x300 % (farBound s (grpDie s g) + 1))
/-- Reads at issue: they are counted, and their lines fetched (R125, R126, R368). -/
def fetchNow (g : Nat) (rs : List Reach) (s : State) : State :=
  fetchLines g (farFree s g) (runLines (grp s g).part (missed s g rs))
    (rs.foldl (fun s r => cacheEntry (grp s g).core (grp s g).part r.va (countHits g r.loc s)) s)
/-- The judged accesses of one bound use, lane by lane (R439 step 7, R441); an element that was read ahead was judged as it was read (R215).
[log 35, DEDUCED.] -/
def useAccess (s : State) (u : Nat × Nat × Nat × Bool) : List (Nat × Except Fail Hit) :=
  let st := (grp s s.cur.gid).x.get {} u.1
  (Mask.toList (active s)).map (fun l =>
    (l, if !u.2.2.2 && st.ahead.any (fun z => z.1 == u.2.1 && z.2.1 == l) then .ok { loc := .cell 0 } else access s s.cur.gid l st.space (streamAddr st u.2.1 l) u.2.2.1 (if u.2.2.2 then .store else .load)))
/-- The runs of bytes that a lane's bound use touches (R85, R214). -/
def useReach (s : State) (u : Nat × Nat × Nat × Bool) (l : Nat) (h : Hit) : List Reach :=
  let st := (grp s s.cur.gid).x.get {} u.1
  reach s s.cur.gid l st.space (streamAddr st u.2.1 l) u.2.2.1 (if u.2.2.2 then .store else .load) h

/-! ### The judgement of a word -/

/-- Stop on a fault of steps 2 to 6: it covers all of S (R439). [log 59, DEDUCED.] -/
def stopAll (cls code detail : Nat) (sMask : Mask) (s : State) : State := raise s.cur cls code detail sMask sMask 0 false s

/-- The level that `srd` or `swr` of a special register demands (R338, R426). -/
def regLevel (n : Nat) : Nat := if n = 4 || n = 5 then 2 else 1
/-- The level an instruction demands, and the code of class 0x03 that it raises below it (R336, R338, R434). -/
def levelOf (i : Instr) (num : Nat) : Nat × Nat :=
  match i with
  | .eret | .xlinv | .xlinvAll | .halt => (1, 1)
  | .srd => (regLevel num, 2)
  | .swr => (regLevel num, 2)
  | _ => (0, 0)

/-- The registers that are pending for a word (R424): for the lanes of S; uniform registers and the predicate that decides S for every
lane of the arrival, so that no hazard is silent (R495). [log 97, DEDUCED.] -/
def pendingFor (s : State) (g : Nat) (lanes sMask : Mask) (gov : List Reg) : List Reg :=
  pendingRegs s g sMask ++ (pendingRegs s g lanes).filter (fun r => Reg.isK r || gov.contains r)

/-- Steps 2 to 4 of R439 for the arrival's word: encoding, with the codes `extra` that only its place decides, level, and
pending registers; registers that a soft error struck (R485); then the word itself. A word that no arrival issues does nothing (log 1). [log 93, DEDUCED.] -/
def judge (i : Instr) (extra : List Nat) (sMask : Mask) (run : State → State) (s : State) : State :=
  let a := s.cur
  let g := a.gid
  if !a.live then s
  else
    let b := (grp s g).budget
    let ec := if a.hasExt then extCodes b a.ext i else []
    let codes := if ec.isEmpty then extra ++ encodingCodes b a.ext i else ec
    match codes.min? with
    | some c => stopAll 1 c 0 sMask s
    | none =>
      let need := levelOf i a.ext.sys.num.toNat
      if (grp s g).level < need.1 then stopAll 3 need.2 0 sMask s
      else
        let sh := shape a.ext i
        let preds := if a.hasExt then [Reg.p a.ext.pred.toNat] else []
        let src4 := if a.ext.kind4.toNat = 1 then [Reg.v a.ext.src4.toNat] else []
        let waits := fun (l : List Reg) => l.any (fun r => (pendingFor s g a.lanes sMask (sh.gov ++ preds)).contains r)
        if waits (sh.rd ++ preds ++ src4) then stopAll 2 1 0 sMask s
        else if waits (sh.wr ++ src4) then stopAll 2 2 0 sMask s
        else
          let on := fun (q : Nat × Reg) => q.1 = 32 || sMask.getLsbD q.1
          let bad := (grp s g).badRegs
          if bad.any (fun q => on q && (sh.rd ++ preds ++ src4).contains q.2) then stopAll 0xF 6 0 sMask s
          else run (if bad.isEmpty then s else modGrp g (fun x => { x with badRegs := bad.filter (fun q => !(on q && sh.wr.contains q.2)) }) s)

/-- The state after a word that has run: its lanes move on, and the next step draws afresh. -/
def done (s : State) : State := drew (finish s.cur s)

/-! ### Stores and results -/

/-- A granule that a launch wrote is dirty (R375). -/
def markDirty (l va : Nat) (s : State) : State :=
  if (launch s l).dirty.contains (va / 65536) then s else modLaunch l (fun x => { x with dirty := x.dirty ++ [va / 65536] }) s

/-- Bytes of a store to memory enter the buffer, line by line (R128). -/
def bufLines (at_ g va key : Nat) (l : List Byte) (s : State) : State :=
  let n := 128 - key % 128
  let t := bufStore at_ g va key (l.take n) s
  if l.length ≤ n then t else bufStore at_ g (va + n) (key + n) (l.drop n) t

/-- Read-ahead of a group's streams ends (R215). -/
def endAhead (g : Nat) (s : State) : State := modGrp g (fun x => { x with x := x.x.map (fun q => (q.1, { q.2 with ahead := [] })) }) s
/-- A store of one access that issued at a time leaves a group: into the buffer or the scratchpad (only a handler's store to the register page
acts, R401). Read-ahead of the group's streams ends (R128, R215). [log 33, DEDUCED.] -/
def storeFrom (at_ g va : Nat) (h : Hit) (l : List Byte) (s : State) : State :=
  let s := cacheEntry (grp s g).core (grp s g).part va (endAhead g s)
  let lau := (team s (grp s g).team).launch
  match h.loc with
  | .cell key => bufLines at_ g va key l (markDirty lau va s)
  | .pad t off => padWrite t off l s
  | .reg p d page off => if page = 0 && (grp s g).level = 0 then s else bufLines at_ g va (regKey p d page off) l s
  | .remote m gpa => bufLines at_ g va (farKey (grp s g).part m gpa) l (markDirty lau va s)
/-- A store leaves a group as it issues. -/
def storeAt (g va : Nat) (h : Hit) (l : List Byte) (s : State) : State := storeFrom s.time g va h l s

/-- Stores leave a group in their order: each with its virtual address, its place and its bytes. -/
def storeAll (g : Nat) (l : List (Nat × Hit × List Byte)) (s : State) : State := l.foldl (fun s q => storeAt g q.1 q.2.1 q.2.2 s) s

/-- A pending variable-latency write begins (R196). -/
def addPend (g : Nat) (lanes : Mask) (regs : List Reg) (k : PendKind) (deadline : Option Nat) (s : State) : State :=
  let id := s.ids.msg
  modGrp g (fun x => { x with pend := x.pend ++ [⟨id, lanes, regs, k, deadline, s.cur.pc⟩] }) { s with ids := { s.ids with msg := id + 1 } }

/-- Some lanes of a group wait at a word (R132, R302, R450). -/
def addWait (g : Nat) (lanes : Mask) (pc : DWord) (k : WaitKind) (s : State) : State :=
  let id := s.ids.msg
  modGrp g (fun x => { x with waits := x.waits ++ [⟨id, lanes, pc, s.time, k⟩] }) { s with ids := { s.ids with msg := id + 1 } }

/-- What an access that waits waits for: a right that a move creates (R450), or an older access of its lane (R136, R215). -/
def waitOf (e : Fail) : WaitKind := if e.code = 1 then .pend e.detail else .right e.detail
/-- The accesses that wait. -/
def waiting (rs : List (Nat × Except Fail Hit)) : List (Nat × Fail) :=
  rs.filterMap (fun r => match r.2 with
    | .error f => if f.cls = 0 then some (r.1, f) else none
    | .ok _ => none)
/-- The lanes whose access waits, and what the word waits for: the youngest older access, else the last move's end (R136, R215, R450).
[log 35, DEDUCED; log 94, DEDUCED.] -/
def rightWaits (rs : List (Nat × Except Fail Hit)) : Mask × WaitKind :=
  let w := waiting rs
  let most := fun (l : List (Nat × Fail)) => (l.map (fun q => q.2.detail)).foldl max 0
  let old := w.filter (fun q => q.2.code == 1)
  (Mask.ofPred (fun l => w.any (fun q => q.1 == l)), if old.isEmpty then .right (most w) else .pend (most old))

/-! ### Vector words -/

/-- What a lane computes: vector registers and predicates to write. -/
structure LaneOut where
  v : List (Nat × Word) := []
  p : List (Nat × Bool) := []

/-- The values of the bound sources by lane (R214). -/
structure Src where
  s : State
  a : List (Nat × Nat) := []
  b : List (Nat × Nat) := []

/-- Source A of a lane, `w` bits, from its stream or its field (R200, R208). -/
def srcA (c : Src) (l : Nat) (x : Byte) (k : BitVec 2) (w : Nat) : Nat :=
  if c.s.cur.ext.bindA.isSome then Tab.get 0 c.a l else srcBits c.s l x k w
/-- Source B of a lane. -/
def srcB (c : Src) (l : Nat) (x : Byte) (k : BitVec 2) (w : Nat) : Nat :=
  if c.s.cur.ext.bindB.isSome then Tab.get 0 c.b l else srcBits c.s l x k w

/-- A result of a width in bits as registers from `d` (R224, R251). -/
def regsOf (d w n : Nat) : List (Nat × Word) :=
  if w = 64 then [(d, .ofNat 32 n), (d + 1, .ofNat 32 (n / 2 ^ 32))] else [(d, .ofNat 32 n)]

/-- Write a lane's results. -/
def putOut (g l : Nat) (o : LaneOut) (s : State) : State :=
  let s := o.v.foldl (fun s q => vPut g l q.1 q.2 s) s
  o.p.foldl (fun s q => pPut g l q.1 q.2 s) s

/-- The judged accesses of every bound use of an arrival whose operands have these widths in bits (R214, R439 step 7). -/
def streamAccs (s : State) (wa wb wd : Nat) : List ((Nat × Nat × Nat × Bool) × List (Nat × Except Fail Hit)) :=
  (boundUses s (wa / 8) (wb / 8) (wd / 8)).map (fun u => (u, useAccess s u))
/-- The values that a bound source supplies by lane: read ahead, or read now (R214, R215). -/
def streamVals (s : State) (u : Nat × Nat × Nat × Bool) (r : List (Nat × Except Fail Hit)) : List (Nat × Nat) :=
  r.filterMap (fun q => match q.2 with
    | .ok h =>
      match ((grp s s.cur.gid).x.get {} u.1).ahead.find? (fun z => z.1 == u.2.1 && z.2.1 == q.1) with
      | some z => some (q.1, z.2.2.toNat)
      | none => some (q.1, readNow s s.cur.gid (useReach s u q.1 h))
    | .error _ => none)
/-- The bound sources of an arrival (R214). -/
def streamSrc (s : State) (wa wb wd : Nat) : Src :=
  let reads := (streamAccs s wa wb wd).filter (fun q => !q.1.2.2.2)
  { s := s
    a := if s.cur.ext.bindA.isSome then (reads.head?.map (fun q => streamVals s q.1 q.2)).getD [] else []
    b := if s.cur.ext.bindB.isSome then (reads.getLast?.map (fun q => streamVals s q.1 q.2)).getD [] else [] }
/-- A store place of a bound destination: the lane, the first byte of the result that goes there, the run of bytes (R85, R214). -/
structure Dst where
  lane : Nat
  off : Nat
  run : Reach
/-- The places of the bound destination, in ascending order of lane (R214). -/
def streamDst (s : State) (wa wb wd : Nat) : List Dst :=
  ((streamAccs s wa wb wd).filter (fun q => q.1.2.2.2)).flatMap (fun q => q.2.flatMap (fun r => match r.2 with
    | .ok h => (useReach s q.1 r.1 h).mapIdx (fun i x => ⟨r.1, 4 * i, x⟩)
    | .error _ => []))
/-- The runs of bytes that the bound sources read at issue: an element that was read ahead is not read again (R214, R215). -/
def streamReads (s : State) (wa wb wd : Nat) : List Reach :=
  ((streamAccs s wa wb wd).filter (fun q => !q.1.2.2.2)).flatMap (fun q => q.2.flatMap (fun r => match r.2 with
    | .ok h => if ((grp s s.cur.gid).x.get {} q.1.1).ahead.any (fun z => z.1 == q.1.2.1 && z.2.1 == r.1) then [] else useReach s q.1 r.1 h
    | .error _ => []))
/-- The bound sources' lines have come to the core, and their completion times to the group (R125, R126, R130, R215). -/
def fetchStreams (wa wb wd : Nat) (s : State) : State :=
  let rs := streamReads s wa wb wd
  if rs.isEmpty then s else sawC s.cur.gid (readC s s.cur.gid rs) (fetchNow s.cur.gid rs s)

/-- Run `f` when the bound uses pass steps 5 and 7 of R439, with the values of the bound sources and the places of the bound
destination (R214, R441). -/
def withStreams (wa wb wd : Nat) (f : Src → List Dst → State → State) (s : State) : State :=
  if (boundUses s (wa / 8) (wb / 8) (wd / 8)).any (streamBad s) then stopAll 1 0x10 0 (active s) s
  else
    let all := (streamAccs s wa wb wd).flatMap (fun q => q.2)
    match firstClass all with
    | some (e, _) => stopAll e.cls e.code e.detail (active s) s
    | none =>
      if (rightWaits all).1 ≠ 0 then drew (addWait s.cur.gid s.cur.lanes s.cur.pc (rightWaits all).2 s)
      else f (streamSrc s wa wb wd) (streamDst s wa wb wd) (advanceStreams s.cur (fetchStreams wa wb wd s))

/-- The inactive lanes of the arrival that the zero policy clears (R208). -/
def zeroLanes (s : State) : List Nat :=
  if s.cur.ext.zero then (Mask.toList s.cur.lanes).filter (fun l => !(active s).getLsbD l) else []
/-- Zeros in every destination of a word (R208). -/
def zeroOut (e : Ext) (i : Instr) : LaneOut :=
  { v := (shape e i).wr.filterMap (fun r => match r with | .v n => some (n, 0) | _ => none),
    p := (shape e i).wr.filterMap (fun r => match r with | .p n => some (n, false) | _ => none) }
/-- What of a lane's results goes to registers: under a bound destination the fourth source alone (R207, R214). -/
def regOut (e : Ext) (o : LaneOut) : LaneOut :=
  if e.bindD.isSome then { o with v := o.v.filter (fun r => r.1 == e.src4.toNat && e.kind4.toNat == 1) } else o
/-- A lane's result as the bytes that a bound destination stores (R214). -/
def outBytes (wd : Nat) (o : LaneOut) : List Byte := leBytes (wd / 8) ((o.v.map Prod.snd).foldr (fun (w : Word) n => w.toNat + 2 ^ 32 * n) 0)
/-- The bytes of a lane's result that go to a place of the bound destination. -/
def Dst.bytes (d : Dst) (l : List Byte) : List Byte := (l.drop d.off).take d.run.n
/-- The results of the lanes of a mask. -/
def laneOuts (m : Mask) (f : Nat → LaneOut) : List (Nat × LaneOut) := (Mask.toList m).map (fun l => (l, f l))
/-- Write the results of lanes, in ascending order. -/
def putOuts (g : Nat) (l : List (Nat × LaneOut)) (s : State) : State := l.foldl (fun s q => putOut g q.1 q.2 s) s
/-- Store the results of lanes at the places of the bound destination (R214). -/
def storeOuts (g wd : Nat) (outs : List (Nat × LaneOut)) (dst : List Dst) (s : State) : State :=
  dst.foldl (fun s d => match outs.find? (fun q => q.1 == d.lane) with
    | some q => storeAt g d.run.va { loc := d.run.loc } (d.bytes (outBytes wd q.2)) s
    | none => s) s

/-- A vector word: every active lane computes from the state before the word; an inactive lane keeps its destinations, or
under the zero policy receives zeros (R208). A result of variable latency stays pending, and arrives within 1 µs (R196,
R496). -/
def vecRun (i : Instr) (wa wb wd : Nat) (late : Bool) (f : Src → Nat → LaneOut) : State → State :=
  fun s0 => judge i [] (active s0) (fun s =>
    withStreams wa wb wd (fun src dst t =>
      let a := t.cur
      let act := active src.s
      let zl := zeroLanes src.s
      let zero := zeroOut a.ext i
      let outs := laneOuts act (f src)
      let regs := outs.map (fun q => (q.1, regOut a.ext q.2))
      if late then
        let vals := regs.flatMap (fun q => q.2.v.map (fun r => (q.1, r.1, r.2))) ++ zl.flatMap (fun l => zero.v.map (fun r => (l, r.1, r.2)))
        let stores := dst.filterMap (fun d => (outs.find? (fun q => q.1 == d.lane)).map (fun q =>
          (⟨d.lane, d.run.va, d.run.loc, d.bytes (outBytes wd q.2)⟩ : BoundStore)))
        done (addPend a.gid (act ||| Mask.ofPred (fun l => zl.contains l)) (shape a.ext i).wr (.values vals stores) (some (t.time + 1000)) t)
      else done (storeOuts a.gid wd outs dst (putOuts a.gid (zl.map (fun l => (l, zero))) (putOuts a.gid regs t)))) s) s0

/-- A uniform word: one value for the arrival, written to a uniform register (R226). -/
def uniRun (i : Instr) (d : Byte) (f : State → Nat) : State → State :=
  fun s0 => judge i [] s0.cur.lanes (fun s => done (kPut s.cur.gid d.toNat (.ofNat 64 (f s)) s)) s0

end Sys2Proof.Machine
end

