-- ==== Sys2Proof/Machine/Fp.lean ====
section
/-!
DEFINITION. Floating-point formats, exact values, `round` and `sat` (R149, R150, R156, R157, R158), and the exact operations of
IEEE 754-2019 on them (R153).
-/
namespace Sys2Proof.Machine

/-- A floating format (R149): exponent and mantissa widths, bias, and whether its encodings reserve infinities as IEEE's do. -/
structure Fmt where
  eb : Nat
  mb : Nat
  bias : Nat
  ieee : Bool := true
  nan : Option Nat := none
  maxFin : Nat := (2 ^ eb - 1) * 2 ^ mb - 1
  deriving DecidableEq, Repr

def fmtF64 : Fmt := { eb := 11, mb := 52, bias := 1023 }
def fmtF32 : Fmt := { eb := 8, mb := 23, bias := 127 }
def fmtTf32 : Fmt := { eb := 8, mb := 10, bias := 127 }
def fmtF16 : Fmt := { eb := 5, mb := 10, bias := 15 }
def fmtBf16 : Fmt := { eb := 8, mb := 7, bias := 127 }
def fmtE4m3 : Fmt := { eb := 4, mb := 3, bias := 7, ieee := false, nan := some 0x7F, maxFin := 0x7E }
def fmtE5m2 : Fmt := { eb := 5, mb := 2, bias := 15 }
def fmtE2m1 : Fmt := { eb := 2, mb := 1, bias := 1, ieee := false, maxFin := 7 }

/-- The format of a floating type code (R201). -/
def fmtOf (t : BitVec 5) : Fmt :=
  match t.toNat with
  | 11 => fmtF64
  | 13 => fmtTf32
  | 14 => fmtF16
  | 15 => fmtBf16
  | 16 => fmtE4m3
  | 17 => fmtE5m2
  | 18 => fmtE2m1
  | _ => fmtF32

/-- A value: NaN, an infinity, or (−1)^neg × m × 2^e exactly. -/
inductive FV where
  | nan
  | inf (neg : Bool)
  | fin (neg : Bool) (m : Nat) (e : Int)
  deriving DecidableEq, Repr, Inhabited

/-- Bits of a format's encoding but its sign. -/
def Fmt.magBits (f : Fmt) : Nat := f.eb + f.mb
/-- The sign bit of an encoding. -/
def Fmt.isNeg (f : Fmt) (n : Nat) : Bool := n.testBit f.magBits
/-- The bits of an encoding below its sign. -/
def Fmt.mag (f : Fmt) (n : Nat) : Nat := n % 2 ^ f.magBits
/-- The default NaN (R150); E2M1 has none and gives +0 (R158). -/
def Fmt.nanBits (f : Fmt) : Nat := if f.ieee then (2 ^ f.eb - 1) * 2 ^ f.mb + 2 ^ (f.mb - 1) else f.nan.getD 0
/-- An encoding with a sign. -/
def Fmt.signed (f : Fmt) (neg : Bool) (mag : Nat) : Nat := if neg then 2 ^ f.magBits + mag else mag

/-- The value of an encoding (R149). -/
def unpack (f : Fmt) (n : Nat) : FV :=
  let g := f.mag n
  let e := g / 2 ^ f.mb
  let m := g % 2 ^ f.mb
  if f.ieee && e = 2 ^ f.eb - 1 then (if m = 0 then .inf (f.isNeg n) else .nan)
  else if f.nan = some g then .nan
  else if e = 0 then .fin (f.isNeg n) m (1 - (f.bias : Int) - f.mb)
  else .fin (f.isNeg n) (2 ^ f.mb + m) ((e : Int) - f.bias - f.mb)

/-- How a discarded part rounds: `rem` of `den` above a truncated value that is odd or even (R155 to R157). -/
def roundsUp (mode draw : Nat) (neg odd : Bool) (rem den : Nat) : Bool :=
  match mode with
  | 0 => decide (den < 2 * rem) || (decide (2 * rem = den) && odd)
  | 1 => false
  | 2 => !neg && decide (rem ≠ 0)
  | 3 => neg && decide (rem ≠ 0)
  | _ => decide (2 ^ 32 ≤ rem * 2 ^ 32 / den + draw)

/-- Steps 1 to 3 of R156 for a nonzero magnitude: the bits below the sign, as if no exponent were too large. -/
def roundMag (f : Fmt) (mode draw : Nat) (neg : Bool) (m : Nat) (e : Int) : Nat :=
  let qmin : Int := 1 - (f.bias : Int) - f.mb
  let q := max qmin ((Nat.log2 m : Int) + e - f.mb)
  let k := if q ≤ e then m * 2 ^ (e - q).toNat
    else
      let d := 2 ^ (q - e).toNat
      m / d + bit (roundsUp mode draw neg ((m / d) % 2 = 1) (m % d) d)
  (q - qmin).toNat * 2 ^ f.mb + k

/-- What an overflow gives (R156 step 4); stochastic mode overflows as nearest even. -/
def overflowBits (f : Fmt) (mode : Nat) (neg : Bool) : Nat :=
  if f.nan.isSome then f.nan.getD 0
  else if !f.ieee then f.signed neg f.maxFin
  else if mode = 1 || (mode = 2 && neg) || (mode = 3 && !neg) then f.signed neg f.maxFin
  else f.signed neg (f.maxFin + 1)

/-- `round` (R156), with `sat` over it where asked (R156, R158). -/
def pack (f : Fmt) (mode draw : Nat) (sat : Bool) (x : FV) : Nat :=
  match x with
  | .nan => f.nanBits
  | .inf neg => if sat then f.signed neg f.maxFin else if f.ieee then f.signed neg (f.maxFin + 1) else overflowBits f mode neg
  | .fin neg m e =>
    if m = 0 then f.signed neg 0
    else
      let g := roundMag f mode draw neg m e
      if g ≤ f.maxFin then f.signed neg g else if sat then f.signed neg f.maxFin else overflowBits f mode neg

/-- The next generator state (R157). -/
def nextDraw (s : Nat) : Nat :=
  let s := s ^^^ (s * 2 ^ 13 % 2 ^ 32)
  let s := s ^^^ (s / 2 ^ 17)
  s ^^^ (s * 2 ^ 5 % 2 ^ 32)

/-- An exact integer as a value. -/
def ofInt (x : Int) : FV := .fin (x < 0) x.natAbs 0
/-- A finite value as a signed integer times 2^e. -/
def fvInt (neg : Bool) (m : Nat) : Int := if neg then -(m : Int) else m
/-- The negation of a value. -/
def FV.negate : FV → FV
  | .nan => .nan
  | .inf n => .inf (!n)
  | .fin n m e => .fin (!n) m e

/-- The exact sum, with the zero sign of IEEE 754-2019 (R254). -/
def fvAdd (mode : Nat) (x y : FV) : FV :=
  match x, y with
  | .nan, _ => .nan
  | _, .nan => .nan
  | .inf a, .inf b => if a = b then .inf a else .nan
  | .inf a, _ => .inf a
  | _, .inf b => .inf b
  | .fin a m e, .fin b n g =>
    if m = 0 && n = 0 then .fin (if a = b then a else mode = 3) 0 0
    else
      let lo := min e g
      let s := fvInt a m * 2 ^ (e - lo).toNat + fvInt b n * 2 ^ (g - lo).toNat
      if s = 0 then .fin (mode = 3) 0 0 else .fin (s < 0) s.natAbs lo

/-- The exact product (R153). -/
def fvMul (x y : FV) : FV :=
  match x, y with
  | .nan, _ => .nan
  | _, .nan => .nan
  | .inf a, .inf b => .inf (a != b)
  | .inf a, .fin b n _ => if n = 0 then .nan else .inf (a != b)
  | .fin a m _, .inf b => if m = 0 then .nan else .inf (a != b)
  | .fin a m e, .fin b n g => .fin (a != b) (m * n) (e + g)

/-- Is an encoding a NaN? -/
def isNan (f : Fmt) (n : Nat) : Bool := unpack f n == .nan
/-- The order of encodings that are no NaN, −0 below +0 where `zeros` says so (R255, R257). -/
def ordKey (f : Fmt) (zeros : Bool) (n : Nat) : Int :=
  if f.isNeg n then -(f.mag n : Int) - bit zeros else (f.mag n : Int)

/-- `min`, `max`, `minnum`, `maxnum` on bits (R255). -/
def fpPick (f : Fmt) (isMax num : Bool) (a b : Nat) : Nat :=
  if isNan f a then (if num && !isNan f b then b else f.nanBits)
  else if isNan f b then (if num then a else f.nanBits)
  else if isMax then (if ordKey f true a < ordKey f true b then b else a)
  else (if ordKey f true b < ordKey f true a then b else a)

/-- A floating comparison by its code (R257). -/
def fpCond (f : Fmt) (code a b : Nat) : Bool :=
  let un := isNan f a || isNan f b
  let x := ordKey f false a
  let y := ordKey f false b
  let r := fun (c : Nat) => match c with
    | 0 => x == y
    | 1 => x != y
    | 2 => decide (x < y)
    | 3 => decide (x ≤ y)
    | 4 => decide (y < x)
    | _ => decide (y ≤ x)
  if code < 6 then !un && r code else if code < 12 then un || r (code - 6) else if code = 12 then !un else un

/-- A value rounded to an integer in a mode (R159, R260). -/
def toIntegral (mode : Nat) (neg : Bool) (m : Nat) (e : Int) : Nat :=
  if 0 ≤ e then m * 2 ^ e.toNat
  else
    let d := 2 ^ (-e).toNat
    m / d + bit (roundsUp mode 0 neg ((m / d) % 2 = 1) (m % d) d)

/-- Conversion to an integer type: round, then clamp (R159). -/
def toIntTy (t : BitVec 5) (mode : Nat) (x : FV) : Int :=
  let w := tyBits t
  let lo : Int := if tySigned t then -((2 ^ (w - 1) : Nat) : Int) else 0
  let hi : Int := if tySigned t then ((2 ^ (w - 1) : Nat) : Int) - 1 else ((2 ^ w : Nat) : Int) - 1
  match x with
  | .nan => 0
  | .inf n => if n then lo else hi
  | .fin n m e =>
    if 0 ≤ e && 64 < (Nat.log2 m : Int) + e then (if m = 0 then 0 else if n then lo else hi)
    else max lo (min hi (fvInt n (toIntegral mode n m e)))

/-- `class` of an encoding (R258). -/
def fpClass (f : Fmt) (n : Nat) : Nat :=
  match unpack f n with
  | .nan => 1
  | .inf neg => if neg then 2 else 256
  | .fin neg m _ =>
    if m = 0 then (if neg then 16 else 32)
    else if f.mag n < 2 ^ f.mb then (if neg then 8 else 64)
    else (if neg then 4 else 128)

/-- `round(a + b)` on encodings (R254). -/
def fpAdd (f : Fmt) (mode a b : Nat) : Nat := pack f mode 0 false (fvAdd mode (unpack f a) (unpack f b))
def fpSub (f : Fmt) (mode a b : Nat) : Nat := pack f mode 0 false (fvAdd mode (unpack f a) (unpack f b).negate)
def fpMul (f : Fmt) (mode a b : Nat) : Nat := pack f mode 0 false (fvMul (unpack f a) (unpack f b))
def fpFma (f : Fmt) (mode a b c : Nat) : Nat := pack f mode 0 false (fvAdd mode (fvMul (unpack f a) (unpack f b)) (unpack f c))
/-- `scale`: a × 2^b (R259); b beyond ±5000 gives what ±5000 gives. -/
def fpScale (f : Fmt) (mode a : Nat) (b : Int) : Nat :=
  match unpack f a with
  | .fin n m e => pack f mode 0 false (.fin n m (e + max (-5000) (min 5000 b)))
  | x => pack f mode 0 false x
/-- `frint` (R260). -/
def fpRint (f : Fmt) (mode a : Nat) : Nat :=
  match unpack f a with
  | .fin n m e => if 0 ≤ e then pack f mode 0 false (.fin n m e) else pack f mode 0 false (.fin n (toIntegral mode n m e) 0)
  | x => pack f mode 0 false x

/-! ### Operands of floating type (R251) -/

/-- An operation on each half of a packed pair, or on the whole (R253). -/
def halves (x2 : Bool) (op : Nat → Nat → Nat → Nat) (a b c : Nat) : Nat :=
  if x2 then op (a % 65536) (b % 65536) (c % 65536) + 65536 * op (a / 65536) (b / 65536) (c / 65536) else op a b c

/-- Bits of an operand of a floating type, a packed pair having both halves (R251). -/
def fpWidth (t : BitVec 5) (x2 : Bool) : Nat := if x2 then 32 else tyBits t

/-- A special value or inline integer as an operand of a floating type (R251). -/
def fpConst (s : State) (l : Nat) (x : Byte) (k : BitVec 2) (t : BitVec 5) (x2 : Bool) : Nat :=
  let v := pack (fmtOf t) 0 0 false (ofInt (if k.toNat = 2 then (special s l x.toNat : Int) else sgn 8 x.toNat))
  if x2 then v * 65537 else v

/-- Source A of a floating word. -/
def fpA (c : Src) (l : Nat) (f : FR) (x2 : Bool) : Nat :=
  if c.s.cur.ext.bindA.isNone && 2 ≤ f.ak.toNat then fpConst c.s l f.a f.ak f.ty x2 else srcA c l f.a f.ak (fpWidth f.ty x2)
/-- Source B of a floating word. -/
def fpB (c : Src) (l : Nat) (f : FR) (x2 : Bool) : Nat :=
  if c.s.cur.ext.bindB.isNone && 2 ≤ f.bk.toNat then fpConst c.s l f.b f.bk f.ty x2 else srcB c l f.b f.bk (fpWidth f.ty x2)
/-- Source C of a floating word. -/
def fpC (c : Src) (l : Nat) (f : FR) (x2 : Bool) : Nat :=
  if 2 ≤ f.ck.toNat then fpConst c.s l f.c f.ck f.ty x2 else srcBits c.s l f.c f.ck (fpWidth f.ty x2)

/-- The sign bits of an operand inverted where a negate bit says so (R254). -/
def negIf (b : Bool) (t : BitVec 5) (x2 : Bool) (n : Nat) : Nat :=
  if !b then n else n ^^^ (if x2 then 0x80008000 else 2 ^ (tyBits t - 1))

end Sys2Proof.Machine
end

