-- ==== Sys2Proof/Machine/Float.lean ====
section
/-!
DEFINITION. Vector floating-point words: arithmetic, comparison, classification, scaling, rounding to integral, the immediate
forms (R254 to R261), conversions and block scaling (R262 to R267).
-/
namespace Sys2Proof.Machine

/-! ### Major 0x40 -/

/-- The rounding mode of the word (R155). -/
def modeOf (s : State) : Nat := s.cur.ext.rnd.toNat

/-- A word of major 0x40: operands with their negations, one operation for each half (R253, R254). -/
def fpVec (i : Instr) (f : FR) (op : Fmt → Nat → Nat → Nat → Nat → Nat) : State → State :=
  let x2 := f.mo.getLsbD 3
  let w := fpWidth f.ty x2
  vecRun i w w w false (fun c l =>
    { v := regsOf f.d.toNat w (halves x2 (op (fmtOf f.ty) (modeOf c.s)) (negIf (f.mo.getLsbD 0) f.ty x2 (fpA c l f x2))
        (negIf (f.mo.getLsbD 1) f.ty x2 (fpB c l f x2)) (negIf (f.mo.getLsbD 2) f.ty x2 (fpC c l f x2))) })

/-- FADD (R254). -/
def execFadd (f : FR) (s : State) : Out := .next (fpVec (.fadd f) f (fun t m a b _ => fpAdd t m a b) s)
/-- FSUB (R254). -/
def execFsub (f : FR) (s : State) : Out := .next (fpVec (.fsub f) f (fun t m a b _ => fpSub t m a b) s)
/-- FMUL (R254). -/
def execFmul (f : FR) (s : State) : Out := .next (fpVec (.fmul f) f (fun t m a b _ => fpMul t m a b) s)
/-- FMA (R254). One rounding. -/
def execFma (f : FR) (s : State) : Out := .next (fpVec (.fma f) f fpFma s)
/-- FMIN (R255). -/
def execFmin (f : FR) (s : State) : Out := .next (fpVec (.fmin f) f (fun t _ a b _ => fpPick t false false a b) s)
/-- FMAX (R255). -/
def execFmax (f : FR) (s : State) : Out := .next (fpVec (.fmax f) f (fun t _ a b _ => fpPick t true false a b) s)
/-- MINNUM (R255). -/
def execMinnum (f : FR) (s : State) : Out := .next (fpVec (.minnum f) f (fun t _ a b _ => fpPick t false true a b) s)
/-- MAXNUM (R255). -/
def execMaxnum (f : FR) (s : State) : Out := .next (fpVec (.maxnum f) f (fun t _ a b _ => fpPick t true true a b) s)
/-- FABS (R256). -/
def execFabs (f : FR) (s : State) : Out := .next (fpVec (.fabs f) f (fun t _ a _ _ => t.mag a) s)
/-- FNEG (R256). -/
def execFneg (f : FR) (s : State) : Out := .next (fpVec (.fneg f) f (fun t _ a _ _ => t.signed (!t.isNeg a) (t.mag a)) s)
/-- COPYSIGN (R256). -/
def execCopysign (f : FR) (s : State) : Out := .next (fpVec (.copysign f) f (fun t _ a b _ => t.signed (t.isNeg b) (t.mag a)) s)

/-! ### Major 0x41 -/

/-- FSETP (R257). Compare into a predicate, with accumulation. -/
def execFsetp (f : FR) (s : State) : Out :=
  let w := tyBits f.ty
  .next (vecRun (.fsetp f) w w 0 false (fun c l =>
    { p := [(f.d.toNat, accum f.mo (pGet c.s c.s.cur.gid l f.d.toNat) (fpCond (fmtOf f.ty) (f.mo.toNat % 16) (fpA c l f false) (fpB c l f false)))] }) s)
/-- CLASS (R258). One bit of nine. -/
def execClassOp (f : FR) (s : State) : Out :=
  .next (vecRun (.classOp f) (tyBits f.ty) 0 32 false (fun c l => { v := [(f.d.toNat, .ofNat 32 (fpClass (fmtOf f.ty) (fpA c l f false)))] }) s)
/-- SCALE (R259). a × 2^b, b a signed 32-bit integer. -/
def execScale (f : FR) (s : State) : Out :=
  let x2 := f.mo.getLsbD 3
  let w := fpWidth f.ty x2
  .next (vecRun (.scale f) w 32 w false (fun c l =>
    let b := sgn 32 (srcB c l f.b f.bk 32)
    { v := regsOf f.d.toNat w (halves x2 (fun a _ _ => fpScale (fmtOf f.ty) (modeOf c.s) a b) (fpA c l f x2) 0 0) }) s)
/-- FRINT (R260). Round to an integral value of the same format. -/
def execFrint (f : FR) (s : State) : Out :=
  let x2 := f.mo.getLsbD 3
  let w := fpWidth f.ty x2
  .next (vecRun (.frint f) w 0 w false (fun c l =>
    { v := regsOf f.d.toNat w (halves x2 (fun a _ _ => fpRint (fmtOf f.ty) (modeOf c.s) a) (fpA c l f x2) 0 0) }) s)

/-! ### Major 0x70 -/

/-- The immediate as an operand of a floating type: FP32 widened exactly for `.f64` (R203, R261). -/
def fpImm (t : BitVec 5) (imm : Word) : Nat :=
  if t.toNat = 11 then
    (match unpack fmtF32 imm.toNat with
     | .nan => fmtF64.nanBits
     | x => pack fmtF64 0 0 false x)
  else imm.toNat % 2 ^ tyBits t
/-- An immediate form of R261. -/
def fpVecImm (i : Instr) (f : FI) (op : Fmt → Nat → Nat → Nat → Nat) : State → State :=
  let t := immTy f.ty
  vecRun i (tyBits t) 0 (tyBits t) false (fun c l =>
    { v := regsOf f.d.toNat (tyBits t) (op (fmtOf t) (modeOf c.s) (srcA c l f.a 0 (tyBits t)) (fpImm t f.imm)) })
/-- FADD_IMM (R261). -/
def execFaddImm (f : FI) (s : State) : Out := .next (fpVecImm (.faddImm f) f fpAdd s)
/-- FSUB_IMM (R261). -/
def execFsubImm (f : FI) (s : State) : Out := .next (fpVecImm (.fsubImm f) f fpSub s)
/-- FMUL_IMM (R261). -/
def execFmulImm (f : FI) (s : State) : Out := .next (fpVecImm (.fmulImm f) f fpMul s)
/-- FMIN_IMM (R261). -/
def execFminImm (f : FI) (s : State) : Out := .next (fpVecImm (.fminImm f) f (fun t _ a b => fpPick t false false a b) s)
/-- FMAX_IMM (R261). -/
def execFmaxImm (f : FI) (s : State) : Out := .next (fpVecImm (.fmaxImm f) f (fun t _ a b => fpPick t true false a b) s)
/-- MINNUM_IMM (R261). -/
def execMinnumImm (f : FI) (s : State) : Out := .next (fpVecImm (.minnumImm f) f (fun t _ a b => fpPick t false true a b) s)
/-- MAXNUM_IMM (R261). -/
def execMaxnumImm (f : FI) (s : State) : Out := .next (fpVecImm (.maxnumImm f) f (fun t _ a b => fpPick t true true a b) s)

/-! ### Conversions -/

/-- Is a type code an integer type (R201)? -/
def isIntTy (t : BitVec 5) : Bool := t.toNat < 8

/-- The source of a conversion as a value: element `e` of a register, a special value or an inline integer (R251, R263). -/
def cvtSrc (c : Src) (l : Nat) (f : FR) : FV :=
  let st : BitVec 5 := .ofNat 5 f.mo.toNat
  let e := f.mo.toNat / 32
  let w := tyBits st
  let ofBits := fun (n : Nat) => if isIntTy st then ofInt (readAs st n) else unpack (fmtOf st) (n % 2 ^ w)
  if c.s.cur.ext.bindA.isSome then ofBits (srcA c l f.a f.ak w)
  else if 2 ≤ f.ak.toNat then
    (if isIntTy st then ofBits (srcBits c.s l f.a f.ak w) else ofBits (fpConst c.s l f.a f.ak st false))
  else ofBits (srcBits c.s l f.a f.ak (max w 32) / 2 ^ (w * e))

/-- One conversion to a type, with the generator's draw (R158, R159, R262). -/
def cvtTo (t : BitVec 5) (mode draw : Nat) (sat : Bool) (x : FV) : Nat :=
  if isIntTy t then extTo (max 32 (tyBits t)) t (toIntTy t mode x)
  else pack (fmtOf t) mode draw sat x * (if t.toNat = 13 then 2 ^ 13 else 1)
/-- The result of `cvt` by its two types: one format to itself keeps the operand and rounds nothing, a NaN becoming the default NaN; every
other pair rounds (R262); saturation does not change an infinity of that one format. [log 116, DEDUCED.] -/
def cvtOf (src dst : BitVec 5) (mode draw : Nat) (sat : Bool) (x : FV) : Nat :=
  if src = dst then cvtTo dst 0 draw false x else cvtTo dst mode draw sat x

/-- The generator of a lane (R157, R265). -/
def genOf (s : State) (l : Nat) : Nat := (vGet s s.cur.gid l s.cur.ext.src4.toNat).toNat
/-- The fourth source takes the generator's final state, in stochastic mode alone (R157). -/
def genOut (s : State) (g : Nat) : List (Nat × Word) := if modeOf s = 4 then [(s.cur.ext.src4.toNat, .ofNat 32 g)] else []

/-- Bytes that a conversion's source has on a stream (R214). -/
def cvtA (f : FR) : Nat := tyBits (.ofNat 5 f.mo.toNat)

/-- `cvt` (R262, R263, R265). Where the destination is also the fourth source, the generator state is written last (R157).
[log 117, DESIGN CHOICE.] -/
def cvtVec (i : Instr) (f : FR) (sat : Bool) : State → State :=
  vecRun i (cvtA f) 0 (tyBits f.ty) false (fun c l =>
    let g := nextDraw (genOf c.s l)
    let w := max 32 (tyBits f.ty)
    { v := regsOf f.d.toNat w (cvtOf (srcTy f.mo) f.ty (modeOf c.s) g sat (cvtSrc c l f)) ++ genOut c.s g })
/-- CVT (R262). -/
def execCvt (f : FR) (s : State) : Out := .next (cvtVec (.cvt f) f false s)
/-- CVT_SAT (R262). -/
def execCvtSat (f : FR) (s : State) : Out := .next (cvtVec (.cvtSat f) f true s)

/-- `cvt.pk`: a, then b, packed under c (R264, R265). -/
def cvtPkVec (i : Instr) (f : FR) (sat : Bool) : State → State :=
  let f32 : FR := { f with ty := 12 }
  vecRun i 32 32 32 false (fun c l =>
    let g1 := nextDraw (genOf c.s l)
    let g2 := nextDraw g1
    let x := pack (fmtOf f.ty) (modeOf c.s) g1 sat (unpack fmtF32 (fpA c l f32 false))
    let y := pack (fmtOf f.ty) (modeOf c.s) g2 sat (unpack fmtF32 (fpB c l f32 false))
    let z := srcBits c.s l f.c f.ck 32
    let n := match f.ty.toNat with
      | 16 => z % 65536 * 65536 + y * 256 + x
      | 17 => z % 65536 * 65536 + y * 256 + x
      | 18 => z % 2 ^ 24 * 256 + y * 16 + x
      | _ => y * 65536 + x
    { v := (f.d.toNat, .ofNat 32 n) :: genOut c.s g2 })
/-- CVT_PK (R264). -/
def execCvtPk (f : FR) (s : State) : Out := .next (cvtPkVec (.cvtPk f) f false s)
/-- CVT_PK_SAT (R264). -/
def execCvtPkSat (f : FR) (s : State) : Out := .next (cvtPkVec (.cvtPkSat f) f true s)

/-! ### Block scaling -/

/-- The scale byte of a block of values (R160). -/
def blockScale (emax : Nat) (vs : List FV) : Nat :=
  if vs.any (fun v => match v with | .fin _ _ _ => false | _ => true) then 0xFF
  else
    let logs := vs.filterMap (fun v => match v with
      | .fin _ m e => if m = 0 then none else some ((Nat.log2 m : Int) + e)
      | _ => none)
    let xp : Int := match logs with
      | [] => -127
      | h :: t => t.foldl max h - emax
    (max (-127) (min 127 xp) + 127).toNat

/-- MXCVT (R266, R160). One block for the arrival: each participating lane gets its element and the scale. -/
def execMxcvt (f : FR) (s : State) : Out :=
  let elem := if f.ty.toNat = 0x13 then fmtE4m3 else fmtE2m1
  .next (vecRun (.mxcvt f) 32 0 32 false (fun c l =>
    let val := fun (j : Nat) => unpack fmtF32 (srcA c j f.a f.ak 32)
    let sc := blockScale (if f.ty.toNat = 0x13 then 8 else 2) ((Mask.toList (active c.s)).map val)
    let g := nextDraw (genOf c.s l)
    let e := if sc = 0xFF then 0 else match val l with
      | .fin n m x => pack elem (modeOf c.s) g true (.fin n m (x - ((sc : Int) - 127)))
      | _ => 0
    { v := (f.d.toNat, .ofNat 32 (sc * 256 + e)) :: genOut c.s g }) s)

/-- MXDEC (R267). An element times its block's scale, in FP32. -/
def execMxdec (f : FR) (s : State) : Out :=
  let st : BitVec 5 := if f.mo.toNat % 32 = 0x13 then 16 else 18
  .next (vecRun (.mxdec f) (tyBits st) 8 32 false (fun c l =>
    let g : FR := { f with mo := .ofNat 8 (f.mo.toNat / 32 * 32 + st.toNat) }
    let sc := srcB c l f.b f.bk 8
    let x := if sc = 0xFF then FV.nan else fvMul (cvtSrc c l g) (.fin false 1 ((sc : Int) - 127))
    { v := [(f.d.toNat, .ofNat 32 (pack fmtF32 (modeOf c.s) 0 false x))] }) s)

end Sys2Proof.Machine
end

