-- ==== Sys2Proof/Machine/CrossLane.lean ====
section
/-!
DEFINITION. Cross-lane words: shuffles, broadcast, votes, matches, reductions, scans and compress (R275 to R281).
-/
namespace Sys2Proof.Machine

/-- Does a lane participate (R275)? -/
def partIn (c : Src) (j : Nat) : Bool := (active c.s).getLsbD j
/-- The participating lanes in ascending order. -/
def parts (c : Src) : List Nat := Mask.toList (active c.s)

/-- A cross-lane word that writes a uniform register once, when some lane participates (R278, R280, R283). -/
def crossUni (i : Instr) (wa : Nat) (d : Byte) (f : Src → Nat) (s0 : State) : State :=
  judge i [] (active s0) (withStreams wa 0 0 (fun c _ s =>
    done (if active c.s = 0 then s else kPut s.cur.gid d.toNat (.ofNat 64 (f c)) s))) s0

/-! ### Shuffles and broadcast -/

/-- The source lane of a shuffle, and whether it lies inside the segment: sub-op, segment width, wrap, lane, b (R276). -/
def shflFrom (op w : Nat) (wrap : Bool) (l b : Nat) : Nat × Bool :=
  let base := l - l % w
  let s := b % w
  match op with
  | 0 => (base + s, true)
  | 1 => if wrap then (base + (l % w + w - s) % w, true) else (l - b, b < 32 && base + b ≤ l)
  | 2 => if wrap then (base + (l % w + s) % w, true) else (l + b, b < 32 && l + b < base + w)
  | _ => (l ^^^ s, true)

/-- A shuffle (R276). -/
def shfl (i : Instr) (f : FR) (op : Nat) : State → State :=
  let w := tyBits f.ty
  vecRun i w 32 w false (fun c l =>
    let q := shflFrom op (32 / 2 ^ (f.mo.toNat % 8)) (f.mo.getLsbD 3) l (srcB c l f.b f.bk 32)
    let ok := q.2 && partIn c q.1
    { v := regsOf f.d.toNat w (if ok then srcA c q.1 f.a f.ak w else srcBits c.s l f.c f.ck w),
      p := if f.mo.getLsbD 4 then [(f.mo.toNat / 32, ok)] else [] })
/-- SHFL_IDX (R276). -/
def execShflIdx (f : FR) (s : State) : Out := .next (shfl (.shflIdx f) f 0 s)
/-- SHFL_UP (R276). -/
def execShflUp (f : FR) (s : State) : Out := .next (shfl (.shflUp f) f 1 s)
/-- SHFL_DOWN (R276). -/
def execShflDown (f : FR) (s : State) : Out := .next (shfl (.shflDown f) f 2 s)
/-- SHFL_XOR (R276). -/
def execShflXor (f : FR) (s : State) : Out := .next (shfl (.shflXor f) f 3 s)

/-- BCAST (R277). a of lane b mod 32 where that lane participates, else the lane's own. -/
def execBcast (f : FR) (s : State) : Out :=
  let w := tyBits f.ty
  .next (vecRun (.bcast f) w 0 w false (fun c l =>
    let j := srcBits c.s l f.b f.bk 32 % 32
    { v := regsOf f.d.toNat w (srcA c (if partIn c j then j else l) f.a f.ak w) }) s)

/-! ### Votes -/

/-- A lane's input to a vote (R278). -/
def voteBit (f : FR) (c : Src) (j : Nat) : Bool :=
  (if f.mo.getLsbD 3 then srcA c j f.a f.ak 32 != 0 else pGet c.s c.s.cur.gid j f.a.toNat) != f.mo.getLsbD 0
/-- A vote that writes one predicate value to every participating lane. -/
def voteP (i : Instr) (f : FR) (r : List Bool → Bool) : State → State :=
  vecRun i 32 0 0 false (fun c _ => { p := [(f.d.toNat, r ((parts c).map (voteBit f c)))] })
/-- VOTE_ALL (R278). -/
def execVoteAll (f : FR) (s : State) : Out := .next (voteP (.voteAll f) f (fun l => l.all id) s)
/-- VOTE_ANY (R278). -/
def execVoteAny (f : FR) (s : State) : Out := .next (voteP (.voteAny f) f (fun l => l.any id) s)
/-- VOTE_UNI (R278). -/
def execVoteUni (f : FR) (s : State) : Out := .next (voteP (.voteUni f) f (fun l => l.all id || !l.any id) s)
/-- The ballot mask, or the number of its bits under `.cnt` (R278). -/
def ballot (f : FR) (c : Src) : Nat :=
  let l := (parts c).filter (voteBit f c)
  if f.mo.getLsbD 2 then l.length else l.foldl (fun n j => n + 2 ^ j) 0
/-- VOTE_BALLOT (R278). -/
def execVoteBallot (f : FR) (s : State) : Out :=
  .next (if f.mo.getLsbD 1 then crossUni (.voteBallot f) 32 f.d (ballot f) s
    else vecRun (.voteBallot f) 32 0 32 false (fun c _ => { v := [(f.d.toNat, .ofNat 32 (ballot f c))] }) s)

/-! ### Matches -/

/-- The participating lanes whose key equals a lane's (R279). -/
def peers (f : FR) (c : Src) (l : Nat) : List Nat :=
  (parts c).filter (fun j => srcA c j f.a f.ak (tyBits f.ty) == srcA c l f.a f.ak (tyBits f.ty))
/-- A match that writes a number to each participating lane (R279). -/
def matchV (i : Instr) (f : FR) (r : Nat → List Nat → Nat) : State → State :=
  vecRun i (tyBits f.ty) 0 32 false (fun c l => { v := [(f.d.toNat, .ofNat 32 (r l (peers f c l)))] })
/-- MATCH_MASK (R279). -/
def execMatchMask (f : FR) (s : State) : Out := .next (matchV (.matchMask f) f (fun _ ps => ps.foldl (fun n j => n + 2 ^ j) 0) s)
/-- MATCH_LEAD (R279). -/
def execMatchLead (f : FR) (s : State) : Out := .next (matchV (.matchLead f) f (fun l ps => ps.headD l) s)
/-- MATCH_RANK (R279). -/
def execMatchRank (f : FR) (s : State) : Out := .next (matchV (.matchRank f) f (fun l ps => (ps.filter (fun j => decide (j < l))).length) s)
/-- MATCH_UNI (R279). -/
def execMatchUni (f : FR) (s : State) : Out :=
  .next (vecRun (.matchUni f) (tyBits f.ty) 0 0 false (fun c l => { p := [(f.d.toNat, (peers f c l).length == (parts c).length)] }) s)

/-! ### Reductions and scans -/

/-- A combining step on operand bits (R280). -/
abbrev Comb := Nat → Nat → Nat → Nat
/-- Is the type a floating one? -/
def isFp (f : FR) : Bool := f.ty.toNat = 11 || f.ty.toNat = 12
def combAdd (f : FR) : Comb := fun mode a b => if isFp f then fpAdd (fmtOf f.ty) mode a b else (a + b) % 2 ^ tyBits f.ty
def combMin (f : FR) : Comb := fun _ a b => if isFp f then fpPick (fmtOf f.ty) false false a b else if readAs f.ty b < readAs f.ty a then b else a
def combMax (f : FR) : Comb := fun _ a b => if isFp f then fpPick (fmtOf f.ty) true false a b else if readAs f.ty a < readAs f.ty b then b else a
def combAnd : Comb := fun _ a b => a &&& b
def combOr : Comb := fun _ a b => a ||| b
def combXor : Comb := fun _ a b => a ^^^ b

/-- A lane's operand of a reduction. -/
def redIn (f : FR) (c : Src) (j : Nat) : Nat := if isFp f then fpA c j f false else srcA c j f.a f.ak (tyBits f.ty)
/-- The running values over participating lanes in ascending order, with their lanes (R280). -/
def running (f : FR) (op : Comb) (c : Src) : List (Nat × Nat) :=
  ((parts c).foldl (fun (p : Option Nat × List (Nat × Nat)) j =>
    let x := match p.1 with
      | none => redIn f c j
      | some a => op (modeOf c.s) a (redIn f c j)
    (some x, p.2 ++ [(j, x)])) (none, [])).2

/-- A reduction (R280): the final value to every participating lane, or to kd. -/
def redux (i : Instr) (f : FR) (op : Comb) (s : State) : State :=
  let w := tyBits f.ty
  let last := fun (c : Src) => ((running f op c).getLast?.map Prod.snd).getD 0
  if f.mo.getLsbD 0 then crossUni i w f.d (fun c => if isFp f then last c else extTo 64 f.ty (last c)) s
  else vecRun i w 0 w false (fun c _ => { v := regsOf f.d.toNat w (last c) }) s
/-- REDUX_ADD (R280). -/
def execReduxAdd (f : FR) (s : State) : Out := .next (redux (.reduxAdd f) f (combAdd f) s)
/-- REDUX_MIN (R280). -/
def execReduxMin (f : FR) (s : State) : Out := .next (redux (.reduxMin f) f (combMin f) s)
/-- REDUX_MAX (R280). -/
def execReduxMax (f : FR) (s : State) : Out := .next (redux (.reduxMax f) f (combMax f) s)
/-- REDUX_AND (R280). -/
def execReduxAnd (f : FR) (s : State) : Out := .next (redux (.reduxAnd f) f combAnd s)
/-- REDUX_OR (R280). -/
def execReduxOr (f : FR) (s : State) : Out := .next (redux (.reduxOr f) f combOr s)
/-- REDUX_XOR (R280). -/
def execReduxXor (f : FR) (s : State) : Out := .next (redux (.reduxXor f) f combXor s)

/-- A scan (R280): the running value, or under `.excl` the previous participating lane's, the first receiving `unit_`. -/
def scan (i : Instr) (f : FR) (op : Comb) (unit_ : Nat) : State → State :=
  let w := tyBits f.ty
  vecRun i w 0 w false (fun c l =>
    let r := running f op c
    let x := if f.mo.getLsbD 1 then ((r.filter (fun q => decide (q.1 < l))).getLast?.map Prod.snd).getD unit_ else Tab.get 0 r l
    { v := regsOf f.d.toNat w x })
/-- The type's largest value, +∞ for a floating type (R280). -/
def largest (f : FR) : Nat :=
  if isFp f then pack (fmtOf f.ty) 0 0 false (.inf false) else if tySigned f.ty then 2 ^ (tyBits f.ty - 1) - 1 else 2 ^ tyBits f.ty - 1
/-- The type's smallest value, −∞ for a floating type (R280). -/
def smallest (f : FR) : Nat :=
  if isFp f then pack (fmtOf f.ty) 0 0 false (.inf true) else if tySigned f.ty then 2 ^ (tyBits f.ty - 1) else 0
/-- SCAN_ADD (R280). -/
def execScanAdd (f : FR) (s : State) : Out := .next (scan (.scanAdd f) f (combAdd f) 0 s)
/-- SCAN_MIN (R280). -/
def execScanMin (f : FR) (s : State) : Out := .next (scan (.scanMin f) f (combMin f) (largest f) s)
/-- SCAN_MAX (R280). -/
def execScanMax (f : FR) (s : State) : Out := .next (scan (.scanMax f) f (combMax f) (smallest f) s)
/-- SCAN_AND (R280). -/
def execScanAnd (f : FR) (s : State) : Out := .next (scan (.scanAnd f) f combAnd (2 ^ tyBits f.ty - 1) s)
/-- SCAN_OR (R280). -/
def execScanOr (f : FR) (s : State) : Out := .next (scan (.scanOr f) f combOr 0 s)
/-- SCAN_XOR (R280). -/
def execScanXor (f : FR) (s : State) : Out := .next (scan (.scanXor f) f combXor 0 s)

/-- COMPRESS (R281). The i-th issuing lane, active or not, receives a of the i-th participating lane. -/
def execCompress (f : FR) (s0 : State) : Out :=
  let w := tyBits f.ty
  .next (judge (.compress f) [] (active s0) (withStreams w 0 w (fun c dst s =>
    let pairs := (Mask.toList c.s.cur.lanes).zip ((parts c).map (fun j => srcA c j f.a f.ak w))
    let s := if c.s.cur.ext.bindD.isSome then
        dst.foldl (fun s d => match pairs.find? (fun q => q.1 == d.lane) with
          | some q => storeAt s.cur.gid d.run.va { loc := d.run.loc } (d.bytes (leBytes (w / 8) q.2)) s
          | none => s) s
      else pairs.foldl (fun s q => putOut s.cur.gid q.1 { v := regsOf f.d.toNat w q.2 } s) s
    done s)) s0)

end Sys2Proof.Machine
end

