-- ==== Sys2Proof/Machine/Loads.lean ====
section
/-!
DEFINITION. Loads in two halves: what a load takes near its core at issue and what it still lacks (R127, R135, R196), the bytes that arrive
from the homes, with the copies that come with them (R125, R126, R130), and the end of a pending write.
-/
namespace Sys2Proof.Machine

/-! ### At issue -/

/-- What a load finds on its die at issue (R127, R135): scratchpad bytes are read now, a register page at its home. [log 17, DEDUCED; log 32,
DEDUCED.] -/
def gotNow (s : State) (g : Nat) (loc : Loc) (n : Nat) : List (Option Byte) :=
  match loc with
  | .pad t o => (padBytes s t o n).map some
  | _ => (List.range n).map (fun i => (nearAt s g (loc.plus i)).map Prod.fst)
/-- What a load of `n` bytes finds at issue at a place of an 8-byte part of it: the parts of a wide scratchpad access are read one by one, at
instants of their own (R137, R289). -/
def gotPart (s : State) (g n : Nat) (loc : Loc) (w : Nat) : List (Option Byte) :=
  if loc.isPad && decide (8 < n) then List.replicate w none else gotNow s g loc w
/-- The largest completion time that comes with them (R130). -/
def gotC (s : State) (g : Nat) (loc : Loc) (n : Nat) : Nat :=
  if loc.isPad then 0 else ((List.range n).map (fun i => ((nearAt s g (loc.plus i)).map Prod.snd).getD 0)).foldl max 0

/-- A load begins: its pieces take what lies near, the rest comes later (R127, R196, R289). [log 32, DEDUCED.] -/
def beginLoad (g : Nat) (m : Mask) (regs : List Reg) (ps : List Piece) (s : State) : State :=
  let c := ps.foldl (fun n p => max n (gotC s g p.loc p.width)) 0
  let id := s.ids.msg
  let s := ps.foldl (fun s p => cacheEntry (grp s g).core (grp s g).part p.va s) s
  let s := addPend g m regs (.load ps) none (ps.foldl (fun s p => countHits g p.loc s) (sawC g c s))
  sendPend g ⟨id, m, regs, .load ps, none, s.cur.pc⟩ s
/-- The aligned 8-byte words of a range that translates to places from `h` on, each a piece with no register of its own (R137). -/
def wordPieces (s : State) (g l : Nat) (reg : Reg) (va : Nat) (h : Hit) (n : Nat) : List Piece :=
  (List.range (n / 8)).map (fun i => ⟨l, reg, 8, false, va + 8 * i, h.loc.plus (8 * i), gotNow s g (h.loc.plus (8 * i)) 8, i⟩)

/-! ### On arrival -/

/-- A missing byte of a load at its home: register pages are read there, scratchpad there, bytes of another module come with the event
(R127, R135, R379, R401, R411). -/
def arriving (s : State) (g : Nat) (far : Nat → List Byte × Nat × Nat) (loc : Loc) : Byte :=
  match loc with
  | .cell k => cellGet s.mem k
  | .remote m a => match ownPlace s (grp s g).part m a .load with
    | none =>
      let k := farKey (grp s g).part m a
      (far (lineOf k)).1.getD (k % 128) (Config.farByte s.free k)
    | some (.ok (_, _, { loc := .cell k, .. })) => cellGet s.mem k
    | some (.ok (_, _, { loc := .reg q _ page o, .. })) => regByte s q page o
    | some _ => 0
  | .reg p _ page o => regRead s g p page o
  | .pad t o => cellGet (team s t).pad o
/-- A piece with its missing bytes read at their home. -/
def fillPiece (s : State) (g : Nat) (far : Nat → List Byte × Nat × Nat) (p : Piece) : Piece :=
  { p with got := (List.range p.width).map (fun i => some (((p.got.getD i none)).getD (arriving s g far (p.loc.plus i)))) }
/-- The pieces that lack a byte. -/
def lacking (ps : List Piece) : List Piece := ps.filter (fun q => q.got.any Option.isNone)
/-- The runs of bytes of pieces. -/
def pieceRuns (ps : List Piece) : List Reach := ps.map (fun q => ⟨q.va, q.loc, q.width⟩)
/-- What the event says that other modules have answered: the lines of the pieces in their order, an expiry, a C (R92, R125). -/
def farData (s : State) (g : Nat) (ps : List Piece) (line : Nat) : List Byte × Nat × Nat :=
  let lines := ((runLines (grp s g).part (pieceRuns ps)).map Prod.fst).filter isFar
  ((s.ev.data.drop (128 * (lines.takeWhile (fun x => x != line)).length)).take 128, s.ev.word.toNat, s.ev.z)
/-- Pieces that lack a byte read it at its home, at this instant; their lines come to the core, and the largest C to the group (R125,
R126, R130, R135). -/
def fillPieces (g : Nat) (sel : Piece → Bool) (ps : List Piece) (s : State) : List Piece × State :=
  let miss := (lacking ps).filter sel
  let far := farData s g miss
  let c := miss.foldl (fun n q => match q.loc with
    | .remote m a => max n (if (ownPlace s (grp s g).part m a .load).isSome then lineC s g q.loc else min s.ev.z (farBound s (grpDie s g)))
    | _ => max n (lineC s g q.loc)) 0
  (ps.map (fun q => if q.got.all Option.isSome || !sel q then q else fillPiece s g far q),
   sawC g c (fetchLines g far (runLines (grp s g).part (pieceRuns miss)) s))
/-- The bytes of complete pieces, one after the other. -/
def pieceBytes (ps : List Piece) : List Byte := ps.flatMap (fun q => q.got.map (fun b => b.getD 0))
/-- The value of a complete piece, extended (R288). -/
def pieceValue (p : Piece) : Nat :=
  let n := leNat (p.got.map (fun b => b.getD 0))
  let w := match p.reg with
    | .k _ => 64
    | _ => 32
  if p.signed then wrapTo w (sgn (8 * p.width) n) else n

/-- A pending write ends, and the accesses behind it go on (R136, R215). -/
def endPend (g id : Nat) (s : State) : State :=
  modGrp g (fun x => { x with pend := x.pend.filter (fun q => q.id != id), waits := x.waits.filter (fun w => w.kind != .pend id) }) s

/-- Will a pending write store as its result arrives (R215)? -/
def storesLate (p : Pend) : Bool :=
  match p.kind with
  | .values _ st => !st.isEmpty
  | _ => false
/-- Does the buffer of a group's core hold a write of the group that issued no later than a time (R128, R215)? -/
def lateEntries (s : State) (g since : Nat) : Bool := (core s (grp s g).core).wcb.any (fun e => e.gids.contains g && decide (e.first ≤ since))

/-! ### Writes on their way to a region -/

/-- A move whose time the home has not fixed yet (R114). -/
def noTime : Nat := 2 ^ 70
/-- The die whose counter times a token's moves; the home of another module is timed by die 0 (R114). [log 44, DEDUCED.] -/
def tokDie (t : Token) : Nat := if t.home < 256 then t.home else 0
/-- An address inside a region. -/
def Token.covers (t : Token) (p va : Nat) : Bool := t.part == p && t.base ≤ va && va < t.base + 2 ^ t.size
/-- Is a write to a region still on its way that a core or an engine passed before a move took effect (R114): late in arriving, in a buffer,
in a message or a request? [log 45, DEDUCED.] -/
def regionBusy (s : State) (t : Token) (op : TokOp) : Bool :=
  s.groups.any (fun g => g.2.part == t.part && g.2.pend.any (fun p => match p.kind with
    | .values _ st => decide (p.deadline.getD 0 ≤ op.eff + 1000) && st.any (fun b => !b.loc.isPad && t.covers t.part b.va)
    | _ => false))
    || s.cores.any (fun c => c.2.wcb.any (fun e => decide (e.first ≤ op.eff) && t.covers e.part e.va && op.kind != .share))
    || s.net.msgs.any (fun m => !m.refused && (decide (m.id < op.mark) || decide (m.first ≤ op.eff) && op.kind != .share) && t.covers m.part m.va)
    || s.net.far.any (fun f => !f.refused && f.write.isSome && decide (f.id < op.mark) && t.covers f.part f.va)
    || s.net.atoms.any (fun a => !a.refused && decide (a.id < op.mark) && t.covers a.part a.va)

/-! ### Requests without an answer -/

/-- A part of a pending write, for some of its lanes, under a number of its own. -/
def Pend.part (p : Pend) (id : Nat) (lanes : Mask) : Pend :=
  { p with id := id, lanes := p.lanes &&& lanes, kind := match p.kind with
    | .load ps => .load (ps.filter (fun q => lanes.getLsbD q.lane))
    | .atomic vals preds pd left => .atomic (vals.filter (fun q => lanes.getLsbD q.1)) (preds.filter (fun q => lanes.getLsbD q.1)) pd left
    | k => k }
/-- Two parts of one pending write. -/
def Pend.join (p q : Pend) : Pend :=
  { p with lanes := p.lanes ||| q.lanes, kind := match p.kind, q.kind with
    | .load a, .load b => .load (a ++ b)
    | .atomic v d pd m, .atomic v' d' _ n => .atomic (v ++ v') (d ++ d') pd (m + n)
    | k, _ => k }
/-- The pieces of a load that a request to another module or the host brings: those of its line. -/
def Far.brings (f : Far) (q : Piece) : Bool :=
  match q.loc with
  | .remote m gpa => f.module == some m && f.gpa / 128 == gpa / 128
  | .cell k => f.module.isNone && f.gpa / 128 == k % 2 ^ 64 / 128
  | _ => false
/-- The lanes of a pending load whose bytes a request was to bring; a load of a uniform or stream register is one lane (R421). -/
def lostLanes (p : Pend) (f : Far) : Mask :=
  match p.kind with
  | .load ps => if ps.any (fun q => match q.reg with
      | .v _ => false
      | _ => true) then p.lanes else Mask.ofPred (fun l => (lacking ps).any (fun q => q.lane == l && f.brings q))
  | _ => p.lanes
/-- Some lanes of a pending write lose their result: their part leaves it under a new number, with its requests; what is left of the write
goes on. -/
def splitLost (g : Nat) (p : Pend) (atoms : List Nat) (lanes : Mask) (s : State) : Pend × State :=
  let late := p.part s.ids.msg lanes
  let left := match p.kind with
    | .atomic _ _ _ n => n - atoms.length
    | _ => 0
  let rest := p.part p.id (~~~lanes)
  let rest := { rest with kind := match rest.kind with
    | .atomic v d pd _ => .atomic v d pd left
    | k => k }
  let late := { late with kind := match late.kind with
    | .atomic v d pd _ => .atomic v d pd atoms.length
    | k => k }
  let wants := fun (f : Far) => match rest.kind with
    | .load ps => (lacking ps).any f.brings
    | _ => false
  (late, modGrp g (fun x => { x with pend := x.pend.flatMap (fun q => if q.id = p.id then (if rest.lanes = 0 then [] else [rest]) else [q]) })
    { s with ids := { s.ids with msg := s.ids.msg + 1 }
             net := { s.net with
               atoms := s.net.atoms.map (fun m => if atoms.contains m.id then { m with refused := true, pend := some late.id } else m)
               far := s.net.far.filter (fun f => f.pend != some p.id || wants f) } })
/-- A group stops at a word that it has passed: the results of some of its lanes never came, or their requests were refused; the other lanes'
results arrive before the record is made, and those lanes are done (R421, R447, R448, R456). Another loss of the word joins the
stop. [log 96, DEDUCED.] -/
def raiseLate (g : Nat) (p : Option Pend) (atoms : List Nat) (lanes : Mask) (pc : DWord) (cls code detail : Nat) (s : State) : State :=
  match p with
  | none =>
    let s := { s with net := { s.net with atoms := s.net.atoms.map (fun m => if atoms.contains m.id then { m with refused := true } else m) } }
    let n := (grp s g).stops.length
    let s := raise { gid := g, lanes := lanes, pc := pc } cls code detail lanes lanes 0 false s
    modGrp g (fun x => { x with stops := (x.stops.take n) ++ (x.stops.drop n).map (fun st => { st with lateAtoms := atoms }) }) s
  | some p =>
    let r := splitLost g p atoms lanes s
    let open_ := fun (st : Stop) => st.lateOf == some p.id && !st.recorded
    if (grp s g).stops.any open_ then
      tryRecord g (modGrp g (fun x => { x with stops := x.stops.map (fun st => if open_ st then
        { st with fr := { st.fr with faulted := st.fr.faulted ||| lanes, done := st.fr.done &&& ~~~lanes },
                  late := (st.late.map (fun q => q.join r.1)).or (some r.1), lateAtoms := st.lateAtoms ++ atoms } else st) }) r.2)
    else
      let n := (grp s g).stops.length
      let t := raise { gid := g, lanes := p.lanes, pc := pc } cls code detail lanes p.lanes (p.lanes &&& ~~~lanes) false r.2
      modGrp g (fun x => { x with stops := (x.stops.take n) ++ (x.stops.drop n).map (fun st => { st with late := some r.1, lateOf := some p.id, lateAtoms := atoms }) }) t

/-- A `tbl.ld` whose read loses a request stops with no effect, as its loads do (R272, R447, R448). -/
def imageLost (g id : Nat) (arr : Arrival) (cls code detail : Nat) (s : State) : State :=
  let s := modGrp g (fun x => { x with stall := none }) { s with net := { s.net with far := s.net.far.filter (fun f => f.pend != some id) } }
  raise arr cls code detail (activeOf s arr) (activeOf s arr) 0 false s
/-- The loss or refusal of a request takes its code: a load or returning atomic stops, a write is reported later (R447, R448). [log 39, DEDUCED; log 96, DEDUCED.] -/
def loseRequest (id code : Nat) (s : State) : State :=
  let late := fun (g pid : Nat) (lost : Pend → Mask) (atoms : List Nat) (detail : Nat) (s : State) => match (grp s g).pend.find? (fun p => p.id == pid) with
    | some p => raiseLate g (some p) atoms (lost p) p.pc 6 code detail s
    | none => match (grp s g).stall with
      | some ⟨.tblLd _ _ i _, arr, _⟩ => if i = pid then imageLost g i arr 6 code detail s else s
      | _ => s
  let write := fun (g : Nat) (a : Nat) (s : State) => modGrp g (fun x => { x with lost := x.lost ++ [(id, code, .ofNat 64 a)] }) s
  let tel := fun (g : Nat) (s : State) => if code = 9 then telemetry (some (grp s g).part) (grpDie s g) 15 s else s
  match s.net.far.find? (fun f => f.id == id && !f.refused) with
  | some f => if f.cmd.isSome then { s with net := { s.net with far := s.net.far.map (fun x => if x.id == id then { x with refused := true } else x) } } else tel f.gid (match f.pend with
    | some q => late f.gid q (fun p => lostLanes p f) [] f.gpa s
    | none => write f.gid f.va { s with net := { s.net with far := s.net.far.map (fun x => if x.id == id then { x with refused := true } else x) } })
  | none => match s.net.msgs.find? (fun m => m.id == id && !m.refused && leaves m.line) with
    | some m =>
      if m.core = walkerCore then storeFault m.part ⟨6, code, 0⟩ m.va { s with net := { s.net with msgs := s.net.msgs.filter (fun x => x.id != id) } }
      else
      let s := { s with net := { s.net with msgs := s.net.msgs.map (fun x => if x.id == id then { x with refused := true } else x) } }
      m.gids.foldl (fun s g => tel g (write g m.va s)) s
    | none => match s.net.atoms.find? (fun a => a.id == id && !a.refused) with
      | some a => match a.loc with
        | .remote _ gpa => tel a.gid (match a.pend with
          | some q => late a.gid q (fun _ => Mask.ofPred (fun l => a.lanes.any (fun y => y.lane == l))) [a.id] gpa s
          | none => write a.gid a.va { s with net := { s.net with atoms := s.net.atoms.map (fun x => if x.id == id then { x with refused := true } else x) } })
        | _ => s
      | none => s
/-- Is an atomic's place in another module? -/
def farAtom (a : Atom) : Bool :=
  match a.loc with
  | .remote _ _ => true
  | _ => false
/-- Is a request held by a die whose reset drains, so that its bound is stopped (R448, R483)? -/
def heldUp (s : State) (id : Nat) : Bool := s.net.crossed.any (fun q => q.2 == id)
/-- The code by which the module itself refuses a load's request to its own number (R92, R447). -/
def ownRefused (s : State) (g : Nat) (ps : List Piece) : Option Nat :=
  (lacking ps).findSome? (fun q => match q.loc with
    | .remote m a => match ownPlace s (grp s g).part m a .load with
      | some (.error e) => some e
      | _ => none
    | _ => none)
/-- The first request of a pending load that the module itself refuses, and its code (R92, R447). -/
def refusedReq (s : State) (g id : Nat) (ps : List Piece) : Option (Nat × Nat) :=
  s.net.far.findSome? (fun f => if f.pend == some id then (ownRefused s g (ps.filter f.brings)).map (fun code => (f.id, code)) else none)

end Sys2Proof.Machine
end

