-- ==== Sys2Proof/Machine/Special.lean ====
section
/-!
DEFINITION. Special functions, whose FP32 result is a free value inside its bound (R268, R269, log 8), and the activation
tables of a core (R270 to R274).
-/
namespace Sys2Proof.Machine

/-! ### Enclosures: a real as an integer over 2^256, within 2^-200 (log 8) -/

/-- The fraction bits of a fixed-point number. -/
def fxBits : Nat := 256
/-- One in fixed point. -/
def fxOne : Int := 2 ^ 256
/-- The product of two fixed-point numbers. -/
def fxMul (a b : Int) : Int := a * b / fxOne
/-- An exact value in fixed point, rounded down. -/
def fxOf (neg : Bool) (m : Nat) (e : Int) : Int :=
  let x := fvInt neg m
  if 0 ≤ e + fxBits then x * 2 ^ (e + fxBits).toNat else x / 2 ^ (-(e + fxBits)).toNat
/-- The sum of a power series: `term k` gives the factor from term k to term k + 1 (numerator in fixed point, denominator). -/
def fxSeries (x : Int) (den : Nat → Nat) : Nat → Nat → Int → Int
  | 0, _, _ => 0
  | n + 1, k, t => t + fxSeries x den n (k + 1) (fxMul t x / (den k : Int))
/-- e^x for |x| at most 1. -/
def fxExp (x : Int) : Int := fxSeries x (fun k => k + 1) 90 0 fxOne
/-- atanh z = z + z³/3 + z⁵/5 + …, for |z| at most 1/3. -/
def fxAtanh (z : Int) : Int :=
  ((List.range 90).foldl (fun (p : Int × Int) k => (p.1 + p.2 / (2 * k + 1 : Nat), fxMul p.2 (fxMul z z))) (0, z)).1
/-- arctan of 1/n. -/
def fxAtanInv (n : Nat) : Int :=
  ((List.range 200).foldl (fun (p : Int × Int) k => (p.1 + (if k % 2 = 0 then 1 else -1) * (p.2 / (2 * k + 1 : Nat)), p.2 / ((n * n : Nat) : Int))) (0, fxOne / (n : Int))).1
/-- π by Machin's formula. -/
def fxPi : Int := 16 * fxAtanInv 5 - 4 * fxAtanInv 239
/-- ln 2. -/
def fxLn2 : Int := 2 * fxAtanh (fxOne / 3)
/-- sin x for |x| at most 4. -/
def fxSin (x : Int) : Int :=
  ((List.range 90).foldl (fun (p : Int × Int) k => (p.1 + p.2, -(fxMul (fxMul p.2 x) x) / ((2 * k + 2) * (2 * k + 3) : Nat))) (0, x)).1
/-- cos x for |x| at most 4. -/
def fxCos (x : Int) : Int :=
  ((List.range 90).foldl (fun (p : Int × Int) k => (p.1 + p.2, -(fxMul (fxMul p.2 x) x) / ((2 * k + 1) * (2 * k + 2) : Nat))) (0, fxOne)).1
/-- An angle reduced into ±π. -/
def fxReduce (x : Int) : Int :=
  let t := 2 * fxPi
  x - (x + fxPi) / t * t
/-- The integer square root, rounded down. -/
def isqrt (n : Nat) : Nat :=
  (List.range ((Nat.log2 n) / 2 + 1)).reverse.foldl (fun r i => if (r + 2 ^ i) * (r + 2 ^ i) ≤ n then r + 2 ^ i else r) 0

/-- The exact value of a function at a finite operand, as fixed point times 2^scale (R268). Functions: 0 rcp, 1 rsq, 2 sqrt,
3 ex2, 4 lg2, 5 sin, 6 cos, 7 tanh. -/
def spExact (fn : Nat) (neg : Bool) (m : Nat) (e : Int) : Int × Int :=
  match fn with
  | 0 => ((if neg then -1 else 1) * ((2 ^ 512 / m : Nat) : Int), -e - 256)
  | 1 =>
    -- 1/√(m 2^e), with the exponent made even
    let p := if e % 2 = 0 then (m, e) else (2 * m, e - 1)
    ((isqrt (2 ^ 1024 / p.1) : Int), -(p.2 / 2) - 256)
  | 2 =>
    let p := if e % 2 = 0 then (m, e) else (2 * m, e - 1)
    ((isqrt (p.1 * 2 ^ 512) : Int), p.2 / 2)
  | 3 =>
    let x := fxOf neg m e
    let n := x / fxOne
    (fxExp (fxMul (x - n * fxOne) fxLn2), n)
  | 4 =>
    let k : Int := (Nat.log2 m : Int)
    let one := fxOf false m (-k)
    let z := (one - fxOne) * fxOne / (one + fxOne)
    ((k + e) * fxOne + 2 * fxAtanh z * fxOne / fxLn2, 0)
  | 5 => (fxSin (fxReduce (fxOf neg m e)), 0)
  | 6 => (fxCos (fxReduce (fxOf neg m e)), 0)
  | _ =>
    let x := fxOf false m e
    if 64 * fxOne ≤ x then ((if neg then -1 else 1) * fxOne, 0)
    else
      let n := 2 * x / fxLn2
      let t := fxExp (2 * x - n * fxLn2) * 2 ^ n.toNat
      ((if neg then -1 else 1) * ((t - fxOne) * fxOne / (t + fxOne)), 0)

/-- The unit in the last place of a value's FP32 representation, as a power of two. -/
def ulpExp (v scale : Int) : Int := max (-149) ((Nat.log2 v.natAbs : Int) - fxBits + scale - 23)

/-- The absolute bound of a function at an operand, as fixed point times 2^scale: a power of two (R268). -/
def spBound (fn : Nat) (m : Nat) (e : Int) (v scale : Int) : Int :=
  let absB := fun (k : Int) => k
  let lo := (Nat.log2 m : Int) + e
  let inLg := lo = -1 || lo = 0 || (lo = 1 && m = 2 ^ Nat.log2 m)
  match fn with
  | 0 => ulpExp v scale
  | 2 => ulpExp v scale
  | 4 => if inLg then absB (-22) else ulpExp v scale + 1
  | 5 => absB (-21)
  | 6 => absB (-21)
  | 7 => absB (-21)
  | _ => ulpExp v scale + 1

/-- Does an FP32 encoding lie within a bound 2^b of the value v × 2^(scale − 256), its enclosure counted in? -/
def spWithin (r : Nat) (v scale b : Int) : Bool :=
  match unpack fmtF32 r with
  | .fin n m e =>
    let lo := min (min (e - scale) (b - scale)) (-256) - 64
    let sh := fun (k : Int) => ((2 ^ (k - lo).toNat : Nat) : Int)
    -- everything in units of 2^(lo + scale)
    let d := fvInt n m * sh (e - scale) - v * sh (-256)
    decide ((d.natAbs : Int) + sh (-256) * 2 ^ 40 ≤ sh (b - scale))
  | _ => false

/-- The exponent of an operand that is an even power of two, whose roots are exact (R350). -/
def evenPower (m : Nat) (e : Int) : Option Int :=
  let k := (Nat.log2 m : Int) + e
  if m = 2 ^ Nat.log2 m && k % 2 = 0 then some k else none
/-- The FP32 result at a finite nonzero operand: a free value inside the bound, else the nearest. Where R268 states no bound for
an exact result beyond the format's range, and for an angle beyond 2^15 inside [−1, 1], the value is free (log 8). -/
def spFinite (fn : Nat) (a : Word) (neg : Bool) (m : Nat) (e : Int) : Nat :=
  let pick := Config.specialPick fn a % 2 ^ 32
  let big := decide (15 ≤ (Nat.log2 m : Int) + e) && !(m = 2 ^ Nat.log2 m && (Nat.log2 m : Int) + e = 15)
  let huge := fn = 3 && decide (8 ≤ (Nat.log2 m : Int) + e)
  if (fn = 5 || fn = 6) && big then
    (match unpack fmtF32 pick with
     | .fin n k x => if spWithin pick 0 0 0 then fmtF32.signed n (fmtF32.mag pick) else (if k = 0 then 0 else bit (decide (x < 0)))
     | _ => 0)
  else if huge && !neg then pick
  else if huge then (if spWithin pick 0 0 (-148) then pick else 0)
  else
    let q := spExact fn neg m e
    if decide (128 ≤ (Nat.log2 q.1.natAbs : Int) - fxBits + q.2) then pick
    else if spWithin pick q.1 q.2 (spBound fn m e q.1 q.2) then pick
    else pack fmtF32 0 0 false (.fin (q.1 < 0) q.1.natAbs (q.2 - fxBits))

/-- The FP32 result of a special function (R268, R269, R350). -/
def spF32 (fn : Nat) (a : Word) : Nat :=
  let one := 0x3F800000
  let inf := fun (n : Bool) => pack fmtF32 0 0 false (.inf n)
  let zero := fun (n : Bool) => fmtF32.signed n 0
  let nan := fmtF32.nanBits
  match unpack fmtF32 a.toNat with
  | .nan => nan
  | .inf n =>
    match fn with
    | 0 => zero n
    | 1 => if n then nan else zero false
    | 2 => if n then nan else inf false
    | 3 => if n then zero false else inf false
    | 4 => if n then nan else inf false
    | 5 => nan
    | 6 => nan
    | _ => fmtF32.signed n one
  | .fin n m e =>
    if m = 0 then
      match fn with
      | 0 => inf n
      | 1 => inf n
      | 2 => zero n
      | 3 => one
      | 4 => inf true
      | 5 => zero n
      | 6 => one
      | _ => zero n
    else if n && (fn = 1 || fn = 2 || fn = 4) then nan
    else if fn = 4 && a.toNat = one then zero false
    else match evenPower m e with
      | some k =>
        if fn = 1 then pack fmtF32 0 0 false (.fin false 1 (-(k / 2)))
        else if fn = 2 then pack fmtF32 0 0 false (.fin false 1 (k / 2))
        else spFinite fn a n m e
      | none => spFinite fn a n m e

/-- A special function: variable latency, the operand widened to FP32 and the result rounded to the type (R268). -/
def spVec (i : Instr) (f : FR) (fn : Nat) : State → State :=
  vecRun i (tyBits f.ty) 0 (tyBits f.ty) true (fun c l =>
    let a := fpA c l f false
    let wide : Word := .ofNat 32 (if f.ty.toNat = 12 then a else pack fmtF32 0 0 false (unpack (fmtOf f.ty) a))
    let r := spF32 fn wide
    { v := [(f.d.toNat, .ofNat 32 (if f.ty.toNat = 12 then r else pack (fmtOf f.ty) 0 0 false (unpack fmtF32 r)))] })
/-- RCP (R268). -/
def execRcp (f : FR) (s : State) : Out := .next (spVec (.rcp f) f 0 s)
/-- RSQ (R268). -/
def execRsq (f : FR) (s : State) : Out := .next (spVec (.rsq f) f 1 s)
/-- SQRT (R268). -/
def execSqrt (f : FR) (s : State) : Out := .next (spVec (.sqrt f) f 2 s)
/-- EX2 (R268). -/
def execEx2 (f : FR) (s : State) : Out := .next (spVec (.ex2 f) f 3 s)
/-- LG2 (R268). -/
def execLg2 (f : FR) (s : State) : Out := .next (spVec (.lg2 f) f 4 s)
/-- SIN (R268). -/
def execSin (f : FR) (s : State) : Out := .next (spVec (.sin f) f 5 s)
/-- COS (R268). -/
def execCos (f : FR) (s : State) : Out := .next (spVec (.cos f) f 6 s)
/-- TANH (R268). -/
def execTanh (f : FR) (s : State) : Out := .next (spVec (.tanh f) f 7 s)

/-! ### Activation tables -/

/-- The number of an image byte: bank, function, offset (R270). -/
def imgKey (bank fn off : Nat) : Nat := (bank * 4 + fn) * 2080 + off
/-- A 4-byte field of an image. -/
def imgWord (s : State) (c bank fn off : Nat) : Nat :=
  leNat ((List.range 4).map (fun i => (core s c).images.get 0 (imgKey bank fn (off + i))))

/-- Function `fn` of a bank at an operand (R271). -/
def tblEval (s : State) (c bank fn a : Nat) : Nat :=
  let w := imgWord s c bank fn
  let nan := fmtF32.nanBits
  let clean := fun (x : Nat) => if isNan fmtF32 x then nan else x
  if isNan fmtF32 a then nan
  else
    let u := fpMul fmtF32 0 (fpSub fmtF32 0 a (w 0)) (w 4)
    match unpack fmtF32 u with
    | .nan => nan
    | .inf n => clean (if n then w 8 else w 12)
    | .fin n m e =>
      if n && m ≠ 0 then clean (w 8)
      else
        let i := if 7 ≤ (Nat.log2 m : Int) + e && m ≠ 0 then 128 else if 0 ≤ e then m * 2 ^ e.toNat else m / 2 ^ (-e).toNat
        if 128 ≤ i then clean (w 12)
        else
          let f := fvAdd 0 (.fin false m e) (.fin true i 0)
          let cf := fun (k : Nat) => unpack fmtF32 (w (0x20 + 16 * i + 4 * k))
          let fma := fun (x : Nat) (y : FV) => pack fmtF32 0 0 false (fvAdd 0 (fvMul (unpack fmtF32 x) f) y)
          fma (fma (fma (w (0x20 + 16 * i + 12)) (cf 2)) (cf 1)) (cf 0)

/-- The function number of a table word. -/
def tblFn (f : FR) : Nat := f.mo.toNat % 4

/-- TBL (R271). Function n of the bank that the lane's clause latched. -/
def execTbl (f : FR) (s : State) : Out :=
  .next (vecRun (.tbl f) 32 0 32 true (fun c l =>
    let g := c.s.cur.gid
    let bank := ((lane c.s g l).clause.map (fun x => x.bank)).getD 0
    { v := [(f.d.toNat, .ofNat 32 (tblEval c.s (grp c.s g).core bank (tblFn f) (srcA c l f.a f.ak 32)))] }) s)

/-- Pieces of 32 bytes of a range, each judged as an access of the group's lowest active lane (R435, R444). -/
def rangeAccess (s : State) (va n : Nat) (acc : Acc) : List (Nat × Except Fail Hit) :=
  let l := lowest (active s)
  (List.range (n / 32)).map (fun i => (l, access s s.cur.gid l 3 (va + 32 * i) 32 acc))

/-- The group stalls at an instruction that has issued (R311). -/
def stallOn (k : StallKind) (s : State) : State := modGrp s.cur.gid (fun x => { x with stall := some ⟨k, s.cur, s.time⟩ }) s
/-- The stall of a group ends. -/
def unstall (g : Nat) (s : State) : State := modGrp g (fun x => { x with stall := none }) s

/-- A stalled instruction completes: its lanes move past it (R311). -/
def endStall (g : Nat) (s : State) : State :=
  match (grp s g).stall with
  | some x => finish x.arr (unstall g s)
  | none => s

/-- A word that judges a range of memory before it acts: faults cover S, a coming right is waited for (R439, R450). -/
def onRange (rs : List (Nat × Except Fail Hit)) (run : State → State) (s : State) : State :=
  match firstClass rs with
  | some (e, _) => stopAll e.cls e.code e.detail (active s) s
  | none => if (rightWaits rs).1 ≠ 0 then drew (addWait s.cur.gid s.cur.lanes s.cur.pc (rightWaits rs).2 s) else run s

/-- The 260 aligned 8-byte words of an image, at the places that they translate to at issue; nothing of them is read yet (R137, R272). -/
def tblPieces (s : State) (va : Nat) : List Piece :=
  ((List.range 65).zip (rangeAccess s va 2080 .load)).flatMap (fun q => match q.2.2 with
    | .ok h => (List.range 4).map (fun i => ⟨q.2.1, .k 0, 8, false, va + 32 * q.1 + 8 * i, h.loc.plus (8 * i), List.replicate 8 none, 4 * q.1 + i⟩)
    | .error _ => [])
/-- TBL_LD (R272). The group stalls until the image is written. -/
def execTblLd (f : FR) (s : State) : Out :=
  .next (judge (.tblLd f) [] (active s) (fun s =>
    if active s = 0 then done s
    else
      let va := (kRead s f.a.toNat).toNat
      onRange (rangeAccess s va 2080 .load) (fun s =>
        drew (stallOn (.tblLd (tblFn f) (tblPieces s va) s.ids.msg false) { s with ids := { s.ids with msg := s.ids.msg + 1 } })) s) s)

/-- Groups of a core that are in a table load, started or not (R272). -/
def tblLoads (s : State) (c : Nat) : List Nat :=
  keysOf s.groups (fun _ g => g.core == c && g.stall.any (fun x => match x.kind with | .tblLd _ _ _ _ => true | _ => false))
/-- Has a lane of the core latched a bank in the clause it is inside (R273)? -/
def latched (s : State) (c bank : Nat) : Bool :=
  s.groups.any (fun g => g.2.core == c && g.2.resident && g.2.lanes.any (fun l => !l.2.exited && l.2.clause.any (fun x => x.bank == bank)))

/-- A piece takes what a load of the group finds near its core now (R127, R135). -/
def takeNear (s : State) (g : Nat) (p : Piece) : Piece := if p.got.all Option.isNone then { p with got := gotNow s g p.loc p.width } else p
/-- Is something in the way of the words of a read that have not come: a port that is shut, a right that the module's own number waits for (R92,
R415, R450)? -/
def readHeld (s : State) (g : Nat) (ps : List Piece) : Bool :=
  (lacking ps).any (fun q => (memKey (grp s g).part q.loc).any (fun k => portShut s (lineOf k))) || ownRefused s g ps == some 0
/-- Words of a started read arrive from their homes, as loads of the group: a request that is refused stops the word (R272, R447). -/
def imageWords (g id : Nat) (ps : List Piece) (sel : Piece → Bool) (run : List Piece → State → State) (s : State) : State :=
  if readHeld s g ps then s
  else match refusedReq s g id ps with
    | some q => loseRequest q.1 q.2 s
    | none => let r := fillPieces g sel ps s; run r.1 r.2
/-- TBL_LD_READ_START (R272). The read starts once no lane is inside a clause that latched the inactive bank: each word takes what lies near, and
requests leave for what lies in other modules; once it has started, the words that the event names arrive from their homes. [log 17, DEDUCED.] -/
def execTblLdReadStart (s : State) : Out :=
  let g := s.ev.x
  let c := (grp s g).core
  .next (match (grp s g).stall with
    | some ⟨.tblLd fn ps id false, arr, t⟩ =>
      if latched s c (1 - (core s c).bank) then s
      else
        let s := ps.foldl (fun s q => countHits g q.loc (sawC g (gotC s g q.loc q.width) s)) s
        let ps := ps.map (takeNear s g)
        sendPend g ⟨id, activeOf s arr, [], .load ps, none, arr.pc⟩ (modGrp g (fun x => { x with stall := some ⟨.tblLd fn ps id true, arr, t⟩ }) s)
    | some ⟨.tblLd fn ps id true, arr, t⟩ =>
      imageWords g id ps (fun q => s.ev.nums.contains q.part) (fun ps s => drew (modGrp g (fun x => { x with stall := some ⟨.tblLd fn ps id true, arr, t⟩ }) s)) s
    | _ => s)

/-- The banks of a core change places (R273). -/
def swapBanks (c : Nat) (s : State) : State := modCore c (fun x => { x with bank := 1 - x.bank }) s
/-- A waiting swap of lanes of a group takes effect, and they move past their word (R273). -/
def swapNow (c g : Nat) (s : State) (w : LWait) : State :=
  match w.kind with
  | .tblSwap ext => finish { gid := g, lanes := w.lanes, pc := w.pc, hasExt := ext }
      (modGrp g (fun x => { x with waits := x.waits.filter (fun y => y.id != w.id) }) (swapBanks c s))
  | _ => s
/-- The pending swaps of a core take effect once no table load is in flight (R273). -/
def runSwaps (c : Nat) (s : State) : State :=
  if !(tblLoads s c).isEmpty then s
  else (keysOf s.groups (fun _ g => g.core == c && g.resident)).foldl (fun s g => (grp s g).waits.foldl (swapNow c g) s) s

/-- TBL_LD_IMAGE_WRITTEN (R272). The function's image is replaced whole, and the group goes on. -/
def execTblLdImageWritten (s : State) : Out :=
  let g := s.ev.x
  let c := (grp s g).core
  .next (match (grp s g).stall with
    | some ⟨.tblLd fn ps id true, _, _⟩ =>
      imageWords g id ps (fun _ => true) (fun ps s =>
        let put := fun (t : Tab Byte) => ((List.range 2080).zip (pieceBytes ps)).foldl (fun t q => t.put (imgKey (1 - (core s c).bank) fn q.1) q.2) t
        let s := { s with net := { s.net with far := s.net.far.filter (fun f => f.pend != some id) } }
        drew (runSwaps c (endStall g (modCore c (fun x => { x with images := put x.images }) s)))) s
    | _ => s)

/-- TBL_SWAP (R273). Current and inactive exchange once no table load is in flight; until then the word's lanes wait. -/
def execTblSwap (s : State) : Out :=
  .next (judge .tblSwap [] (active s) (fun s =>
    let c := (grp s s.cur.gid).core
    if active s = 0 then done s
    else if (tblLoads s c).isEmpty then done (swapBanks c s)
    else drew (addWait s.cur.gid s.cur.lanes s.cur.pc (.tblSwap s.cur.hasExt) s)) s)

/-- TBL_TAG (R274). The tag of function n of the current bank, zero-extended. -/
def execTblTag (f : FR) (s : State) : Out :=
  .next (judge (.tblTag f) [] (active s) (fun s =>
    let c := (grp s s.cur.gid).core
    let tag : DWord := .ofNat 64 (imgWord s c (core s c).bank (tblFn f) 0x10)
    done (if active s ≠ 0 then kPut s.cur.gid f.d.toNat tag s else if s.cur.ext.zero then kPut s.cur.gid f.d.toNat 0 s else s)) s)

end Sys2Proof.Machine
end

