-- ==== Sys2Proof/Machine/Memory.lean ====
section
/-!
DEFINITION. Memory words: loads, stores, uniform loads, prefetches and compress-store (R286 to R293), the stream words (R294 to
R296) with read-ahead (R215), and the arrival of variable-latency results (R196).
-/
namespace Sys2Proof.Machine

/-! ### Shared -/

/-- Bytes of an element of a memory type (R287). -/
def elemBytes (t : BitVec 5) : Nat := tyBits t / 8
/-- Elements of an access (R286). -/
def elemCount (f : FM) : Nat := 2 ^ (f.mo.toNat % 4)
/-- The registers of an access, each with its byte offset and bytes (R287). -/
def elemRegs (f : FM) : List (Nat × Nat × Nat) :=
  let ws := elemBytes f.ty
  (List.range (elemCount f)).flatMap (fun e =>
    if ws = 8 then [(f.data.toNat + 2 * e, 8 * e, 4), (f.data.toNat + 2 * e + 1, 8 * e + 4, 4)] else [(f.data.toNat + e, ws * e, ws)])

/-- The accesses of the active lanes, each of `n` bytes (R288). -/
def laneAccess (s : State) (f : FM) (n : Nat) (acc : Acc) : List (Nat × Except Fail Hit) :=
  (Mask.toList (active s)).map (fun l => (l, access s s.cur.gid l f.space.toNat (effAddr s f l) n acc))
/-- The permitted accesses. -/
def permitted (rs : List (Nat × Except Fail Hit)) : List (Nat × Hit) :=
  rs.filterMap (fun r => match r.2 with
    | .ok h => some (r.1, h)
    | .error _ => none)
/-- The lanes of a list of accesses. -/
def lanesIn {α : Type} (l : List (Nat × α)) : Mask := Mask.ofPred (fun j => l.any (fun q => q.1 == j))

/-- A per-lane memory word at step 7: permitted lanes complete even where others fault; where a right is coming, the word waits
(R421, R440, R450). `fin` is what the word does besides, once nothing faults. -/
def runLanes (rs : List (Nat × Except Fail Hit)) (act : List (Nat × Hit) → State → State) (fin : State → State) (s : State) : State :=
  let ok := permitted rs
  if (rightWaits rs).1 ≠ 0 then drew (addWait s.cur.gid s.cur.lanes s.cur.pc (rightWaits rs).2 s)
  else match firstClass rs with
    | some (e, m) => let sm := active s; raise s.cur e.cls e.code e.detail m sm (lanesIn ok) false (act ok s)
    | none => done (fin (act ok s))

/-- The place of a byte range inside a permitted access: private words lie apart (R85). -/
def placeAt (s : State) (f : FM) (l : Nat) (h : Hit) (off : Nat) (acc : Acc) : Loc :=
  if f.space.toNat = 0 then
    match privateByte s s.cur.gid l (effAddr s f l + off) acc with
    | .ok q => q.loc
    | .error _ => h.loc
  else h.loc.plus off

/-- The virtual address of an access: a vault address stands in the vault window (R86). -/
def accessVa (s : State) (f : FM) (l : Nat) (off : Nat) : Nat :=
  let ea := effAddr s f l + off
  match f.space.toNat with
  | 0 => privateVa s s.cur.gid l ea
  | 2 => (part s (grp s s.cur.gid).part).ctx.vwin.toNat + ea
  | _ => ea

/-! ### Loads and stores -/

/-- LD (R288). -/
def execLd (f : FM) (s0 : State) : Out :=
  .next (judge (.ld f) [] (active s0) (fun s =>
    let g := s.cur.gid
    let rs := laneAccess s f (elemCount f * elemBytes f.ty) .load
    let piece := fun (l : Nat) (h : Hit) (r : Nat × Nat × Nat) =>
      let loc := placeAt s f l h r.2.1 .load
      (⟨l, .v r.1, r.2.2, tySigned f.ty, accessVa s f l r.2.1, loc, gotPart s g (elemCount f * elemBytes f.ty) loc r.2.2, r.2.1 / 8⟩ : Piece)
    let act := fun (ok : List (Nat × Hit)) (s : State) =>
      if ok.isEmpty then s
      else beginLoad g (lanesIn ok) ((elemRegs f).map (fun r => Reg.v r.1)) (ok.flatMap (fun q => (elemRegs f).map (piece q.1 q.2))) s
    let zl := if s.cur.ext.zero then (Mask.toList s.cur.lanes).filter (fun l => !(active s).getLsbD l) else []
    runLanes rs act (fun s => zl.foldl (fun s l => putOut g l { v := (elemRegs f).map (fun r => (r.1, 0)) } s) s) s) s0)

/-- What a lane of a store writes, in order: virtual address, place, bytes (R288). A place of 8 bytes that is a register takes its pair
in one access (R137). -/
def laneStores (s : State) (f : FM) (q : Nat × Hit) : List (Nat × Hit × List Byte) :=
  let g := s.cur.gid
  let bytes := fun (r : Nat × Nat × Nat) => leBytes r.2.2 (vGet s g q.1 r.1).toNat
  match q.2.loc with
  | .reg _ _ _ _ => (List.range (elemCount f)).map (fun e =>
      let b := (elemRegs f).filter (fun r => e * elemBytes f.ty ≤ r.2.1 && r.2.1 < (e + 1) * elemBytes f.ty)
      (accessVa s f q.1 (e * elemBytes f.ty), { q.2 with loc := q.2.loc.plus (e * elemBytes f.ty) }, b.flatMap bytes))
  | _ => (elemRegs f).map (fun r => (accessVa s f q.1 r.2.1, { q.2 with loc := placeAt s f q.1 q.2 r.2.1 .store }, bytes r))
/-- What the lanes of a store write, in ascending order of lane. -/
def stores (s : State) (f : FM) : List (Nat × Hit × List Byte) :=
  (permitted (laneAccess s f (elemCount f * elemBytes f.ty) .store)).flatMap (laneStores s f)

/-- The 8-byte parts of a lane's wide scratchpad store that do not reach the scratchpad at issue, which of them is free (R137, R289). -/
def lateParts (s : State) (f : FM) (q : Nat × Hit) : List (List (Nat × Hit × List Byte)) :=
  let n := elemCount f * elemBytes f.ty
  if !q.2.loc.isPad || n ≤ 8 then []
  else ((List.range (n / 8)).filter (fun i => draw s (0x400 + 4 * q.1 + i) % 2 = 1)).map (fun i =>
    (laneStores s f q).filter (fun x => (x.1 - accessVa s f q.1 0) / 8 == i))
/-- What a lane of a store writes at issue. -/
def nowParts (s : State) (f : FM) (q : Nat × Hit) : List (Nat × Hit × List Byte) :=
  let late := (lateParts s f q).flatMap id
  if late.isEmpty then laneStores s f q else (laneStores s f q).filter (fun x => !late.any (fun y => y.1 == x.1))
/-- The stores of the lanes of a word: the parts of a wide scratchpad store are independent (R137, R288, R289). -/
def storeParts (f : FM) (ok : List (Nat × Hit)) (s t : State) : State :=
  let g := s.cur.gid
  let t := storeAll g (ok.flatMap (nowParts s f)) t
  ok.foldl (fun t q => (lateParts s f q).foldl (fun t l =>
    addPend g (Mask.one q.1) [] (.values [] (l.map (fun x => ⟨q.1, x.1, x.2.1.loc, x.2.2⟩))) none t) t) t
/-- ST (R288). -/
def execSt (f : FM) (s0 : State) : Out :=
  .next (judge (.st f) [] (active s0) (fun s =>
    runLanes (laneAccess s f (elemCount f * elemBytes f.ty) .store) (fun ok t => storeParts f ok s t) id s) s0)

/-- LDU (R291). -/
def execLdu (f : FM) (s0 : State) : Out :=
  .next (judge (.ldu f) [] (active s0) (fun s =>
    let g := s.cur.gid
    let m := active s
    if m = 0 then done s
    else
      let l := lowest m
      match access s g l f.space.toNat (effAddr s f l) (elemBytes f.ty) .load with
      | .error e =>
        if e.cls = 0 then drew (addWait g s.cur.lanes s.cur.pc (waitOf e) s)
        else raise s.cur e.cls e.code e.detail m m 0 false s
      | .ok h =>
        let p : Piece := ⟨l, .k f.data.toNat, elemBytes f.ty, tySigned f.ty, accessVa s f l 0, h.loc, gotNow s g h.loc (elemBytes f.ty), 0⟩
        done (beginLoad g m [.k f.data.toNat] [p] s)) s0)

/-- A prefetch asks for a copy of each lane's line (R292); what does not translate or is not permitted moves nothing. -/
def prefetch (i : Instr) (f : FM) (toL2 : Bool) : State → State := fun s0 =>
  judge i [] (active s0) (fun s =>
    let gr := grp s s.cur.gid
    let ask := (permitted ((Mask.toList (active s)).map (fun l => (l, access s s.cur.gid l f.space.toNat (effAddr s f l) 1 .load)))).filterMap (fun q =>
      match memKey gr.part q.2.loc with
      | some k => if isReg (lineOf k) then none else some (accessVa s f q.1 0 / 128)
      | none => none)
    let items := ask.eraseDups.map (fun n => (⟨0, .lineFill, { x := gr.core, y := gr.part, word := .ofNat 64 (n * 128), flag := toL2 }⟩ : Item))
    done { s with agenda := s.agenda ++ items }) s0
/-- PF_L1 (R292). -/
def execPfL1 (f : FM) (s : State) : Out := .next (prefetch (.pfL1 f) f false s)
/-- PF_L2 (R292). -/
def execPfL2 (f : FM) (s : State) : Out := .next (prefetch (.pfL2 f) f true s)

/-- The lanes that participate in a compress-store (R293, R436). -/
def cstLanes (s : State) : Mask := s.cur.orig.getD (active s)
/-- Where the lane at its place among them stores: ea + place × ws (R293). -/
def cstAddr (s : State) (f : FM) (l : Nat) : Nat :=
  effAddr s f (lowest (active s)) + ((Mask.toList (cstLanes s)).filter (fun j => decide (j < l))).length * elemBytes f.ty
/-- The accesses of a compress-store. -/
def cstAccess (s : State) (f : FM) : List (Nat × Except Fail Hit) :=
  (Mask.toList (active s)).map (fun l => (l, access s s.cur.gid l f.space.toNat (cstAddr s f l) (elemBytes f.ty) .store))
/-- What its lanes store. -/
def cstStores (s : State) (f : FM) (ok : List (Nat × Hit)) : List (Nat × Hit × List Byte) :=
  let g := s.cur.gid
  ok.map (fun q => (if f.space.toNat = 2 then (part s (grp s g).part).ctx.vwin.toNat + cstAddr s f q.1 else cstAddr s f q.1, q.2,
    leBytes (elemBytes f.ty) (if elemBytes f.ty = 8 then vPair s g q.1 f.data.toNat else (vGet s g q.1 f.data.toNat).toNat)))
/-- The whole range of a compress-store must exist in the scratchpad and in the vault (R293). -/
def cstRange (s : State) (f : FM) : Except Fail Hit :=
  let ea := effAddr s f (lowest (active s))
  let n := Mask.count (cstLanes s) * elemBytes f.ty
  match f.space.toNat with
  | 1 => padHit s (grp s s.cur.gid).team ea n
  | 2 => vaultHit s (grp s s.cur.gid).part ea n ea
  | _ => .ok { loc := .cell 0 }
/-- Compress-store (R293): the lane at place i of S stores at ea + i × ws. -/
def compressStore (i : Instr) (f : FM) (count_ : Bool) : State → State := fun s0 =>
  judge i [] (active s0) (fun s =>
    let g := s.cur.gid
    match cstRange s f with
    | .error e => stopAll e.cls e.code (effAddr s f (lowest (active s))) (active s) s
    | .ok _ => runLanes (cstAccess s f) (fun ok t => storeAll g (cstStores s f ok) t)
        (fun t => if count_ then kPut g (f.mo.toNat % 64) (.ofNat 64 (Mask.count (cstLanes s))) t else t) s) s0
/-- CST (R293). -/
def execCst (f : FM) (s : State) : Out := .next (compressStore (.cst f) f false s)
/-- CST_COUNT (R293). kc receives the number of participating lanes. -/
def execCstCount (f : FM) (s : State) : Out := .next (compressStore (.cstCount f) f true s)

/-! ### Streams -/

/-- A stream register of the issuing group. -/
def streamOf (s : State) (n : Nat) : Stream := (grp s s.cur.gid).x.get {} n
/-- Write a stream register. -/
def putStream (n : Nat) (x : Stream) (s : State) : State := modGrp s.cur.gid (fun r => { r with x := r.x.put n x }) s

/-- A stream word whose predicate leaves no lane active passes without effect (R40, R208, R290). -/
def onActive (run : State → State) (s : State) : State := if active s = 0 then done s else run s
/-- XSET (R295). -/
def execXset (f : FX) (s : State) : Out :=
  .next (judge (.xset f) [] (active s) (onActive fun s =>
    let k := fun (r : Byte) => kRead s r.toNat
    done (putStream f.d.toNat { base := k f.a, stride := .ofNat 32 (bits (k f.b) 31 0), count := bits (k f.b) 63 32, modulo := bits (k f.c) 31 0,
                                pos := bits (k f.c) 63 32, space := f.mo.toNat / 4, width := f.mo.toNat % 4 } s)) s)
/-- XPOS (R295). -/
def execXpos (f : FX) (s : State) : Out :=
  .next (judge (.xpos f) [] (active s) (onActive fun s =>
    done (putStream f.d.toNat { streamOf s f.d.toNat with pos := bits (kRead s f.a.toNat) 31 0, ahead := [] } s)) s)
/-- XGET (R295). -/
def execXget (f : FX) (s : State) : Out :=
  .next (judge (.xget f) [] (active s) (onActive fun s =>
    let x := streamOf s f.a.toNat
    let v : DWord := match f.mo.toNat % 4 with
      | 0 => x.base
      | 1 => .ofNat 64 (x.count * 2 ^ 32 + x.stride.toNat)
      | 2 => .ofNat 64 (x.pos * 2 ^ 32 + x.modulo)
      | _ => .ofNat 64 (x.space * 4 + x.width)
    done (kPut s.cur.gid f.d.toNat v s)) s)
/-- The 32-byte image of a stream register (R296). -/
def streamImage (x : Stream) : List Byte :=
  leBytes 8 x.base.toNat ++ leBytes 4 x.stride.toNat ++ leBytes 4 x.count ++ leBytes 4 x.pos ++ leBytes 4 x.modulo
    ++ leBytes 8 (x.space * 4 + x.width)
/-- One access of 32 bytes at a global address by the lowest active lane, judged for the word (R295, R435, R444). -/
def imageAccess (s : State) (va : Nat) (acc : Acc) : List (Nat × Except Fail Hit) :=
  let l := lowest (active s)
  [(l, access s s.cur.gid l 3 va 32 acc)]
/-- A fault of such an access covers the active lanes, a wait the arrival. -/
def onImage (va : Nat) (acc : Acc) (run : Hit → State → State) (s : State) : State :=
  match access s s.cur.gid (lowest (active s)) 3 va 32 acc with
  | .error e =>
    if e.cls = 0 then drew (addWait s.cur.gid s.cur.lanes s.cur.pc (waitOf e) s) else stopAll e.cls e.code e.detail (active s) s
  | .ok h => run h s
/-- XSAVE (R295). -/
def execXsave (f : FX) (s : State) : Out :=
  .next (judge (.xsave f) [] (active s) (onActive fun s =>
    let va := (kRead s f.a.toNat).toNat
    onImage va .store (fun h s => done (storeAt s.cur.gid va h (streamImage (streamOf s f.b.toNat)) s)) s) s)
/-- The stream register of an image (R296). -/
def imageStream (b : List Byte) : Stream :=
  let n := fun (o k : Nat) => leNat ((b.drop o).take k)
  { base := .ofNat 64 (n 0 8), stride := .ofNat 32 (n 8 4), count := n 0xC 4, pos := n 0x10 4, modulo := n 0x14 4,
    space := n 0x18 1 / 4 % 4, width := n 0x18 1 % 4 }
/-- XREST (R295). The image is loaded as four 8-byte words; the group parks until the register is written (log 17). -/
def execXrest (f : FX) (s : State) : Out :=
  .next (judge (.xrest f) [] (active s) (onActive fun s =>
    let g := s.cur.gid
    let va := (kRead s f.a.toNat).toNat
    onImage va .load (fun h s =>
      let id := s.ids.msg
      let s := beginLoad g s.cur.lanes [] (wordPieces s g (lowest (active s)) (.x f.d.toNat) va h 32) s
      let s := finish s.cur s
      drew (modGrp g (fun x => { x with parked := x.parked ++ [id] }) s)) s) s)

/-- STREAM_READ_AHEAD (R215). The unit reads the next vector, up to four ahead of the position, where every lane's read is
permitted and no fence or barrier of the group is under way. -/
def execStreamReadAhead (s : State) : Out :=
  let g := s.ev.x
  let x := s.ev.y
  let st := (grp s g).x.get {} x
  let next := (List.range 4).find? (fun i => !st.ahead.any (fun q => q.1 == st.pos + i))
  let blocked := (grp s g).waits.any (fun w => match w.kind with
      | .fence _ _ _ _ | .bar _ _ _ | .role _ _ | .pkg _ _ _ _ | .passed _ _ => true
      | _ => false)
    || (grp s g).stall.any (fun x => match x.kind with | .eret _ _ _ => true | _ => false)
  .next (match next with
    | none => s
    | some i =>
      let p := st.pos + i
      if st.count ≤ p || blocked || !(grp s g).resident then s
      else
        let rs := (Mask.toList (liveLanes s g)).map (fun l => (l, access s g l st.space (streamAddr st p l) (2 ^ st.width) .load))
        if rs.any (fun r => match r.2 with | .ok _ => false | .error _ => true) then s
        else
          let runs := fun (q : Nat × Hit) => reach s g q.1 st.space (streamAddr st p q.1) (2 ^ st.width) .load q.2
          let all := (permitted rs).flatMap runs
          let new := (permitted rs).map (fun q => (p, q.1, (.ofNat 64 (readNow s g (runs q)) : DWord)))
          drew (modGrp g (fun r => { r with x := r.x.put x { st with ahead := st.ahead ++ new } }) (sawC g (readC s g all) (fetchNow g all s))))

/-! ### Results that arrive -/

/-- VARIABLE_LATENCY_WRITEBACK (R196). A load's missing bytes arrive, for the 8-byte accesses that the event names or for all; the result is
written to its destination for the lanes that have not exited, and the pending write ends; its stores are made for every lane (R137, R231,
R289). A write of a uniform register whose lanes have all exited is discarded. [log 32, DEDUCED; log 113, DESIGN CHOICE.] -/
def execVariableLatencyWriteback (s : State) : Out :=
  let g := s.ev.x
  .next (match (grp s g).pend.find? (fun p => p.id == s.ev.y) with
    | none => s
    | some p =>
      let drop := fun (s : State) => tryRecord g (endPend g p.id { s with net := { s.net with far := s.net.far.filter (fun f => f.pend != some p.id) } })
      let keep := fun (l : Nat) => p.lanes.getLsbD l
      match p.kind with
      | .load ps =>
        if readHeld s g ps then s
        else match refusedReq s g p.id ps with
        | some q => loseRequest q.1 q.2 s
        | none =>
        let r := fillPieces g (fun q => s.ev.nums.isEmpty || s.ev.nums.contains (q.lane + 32 * q.part)) ps s
        let s := drew r.2
        if !(lacking r.1).isEmpty then
          modGrp g (fun x => { x with pend := x.pend.map (fun q => if q.id == p.id then { q with kind := .load r.1 } else q) })
            { s with net := { s.net with far := s.net.far.filter (fun f => f.pend != some p.id || (lacking r.1).any f.brings) } }
        else drop (r.1.foldl (fun s q => match q.reg with
          | .v n => if keep q.lane then vPut g q.lane n (.ofNat 32 (pieceValue q)) s else s
          | .k n => if p.lanes = 0 then s else kPut g n (.ofNat 64 (pieceValue q)) s
          | .x n => if p.lanes = 0 || q.part ≠ 0 then s
            else modGrp g (fun x => { x with x := x.x.put n (imageStream (pieceBytes r.1)) }) s
          | .p _ => s) s)
      | .values vals stores =>
        let s := vals.foldl (fun s q => if keep q.1 then vPut g q.1 q.2.1 q.2.2 s else s) s
        let at_ := p.deadline.getD (s.time + 1000) - 1000
        drop (stores.foldl (fun s b => storeFrom at_ g b.va { loc := b.loc } b.bytes s) s)
      | .uniform k v preds pd =>
        let s := match v with
          | some x => if p.lanes = 0 then s else kPut g k x s
          | none => s
        drop (preds.foldl (fun s q => if keep q.1 then pPut g q.1 pd q.2 s else s) s)
      | .pop _ _ _ _ => s
      | .atomic vals preds pd left =>
        if left ≠ 0 then s
        else
          let s := vals.foldl (fun s q => if keep q.1 then vPut g q.1 q.2.1 q.2.2 s else s) s
          drop (preds.foldl (fun s q => if keep q.1 then pPut g q.1 pd q.2 s else s) s))

end Sys2Proof.Machine
end

