-- ==== Sys2Proof/Machine/Coherence.lean ====
section
/-!
DEFINITION. Leases and write-throughs: the drain of a buffer entry (R128), a write's application at its home (R130, R148, R477,
R485), the hand-out and lapse of copies (R125, R126), host snoops and CXL.mem accesses (R148, R399, R407, R414), and requests
that leave the module and get no answer or a refusal (R447, R448).
-/
namespace Sys2Proof.Machine

/-- WCB_DRAIN_TIMEOUT (R128). The core's entry for a line is written through. -/
def execWcbDrainTimeout (s : State) : Out :=
  .next ((core s s.ev.x).wcb.foldl (fun s e => if e.line == s.ev.y then drainEntry s.ev.x e s else s) s)

/-! ### Writes at their homes -/

/-- Runs of consecutive offsets in the bytes of a message. -/
def byteRuns : Tab Byte → List (Nat × List Byte)
  | [] => []
  | (o, b) :: t => match byteRuns t with
    | (o', l) :: r => if o' = o + 1 then (o, b :: l) :: r else (o, [b]) :: (o', l) :: r
    | [] => [(o, [b])]

/-- The largest expiry of a copy of a line that the module holds (R125, R130). -/
def heldExpiry (s : State) (line : Nat) : Nat :=
  ((s.cores.flatMap (fun c => c.2.l1) ++ s.dies.flatMap (fun d => d.2.l2)).filter (fun x => x.line == line)).foldl (fun n x => max n x.expiry) 0
/-- A write to the module's own number lands in a partition that imports it: a cell or a register (R92, R401, R411). -/
def ownWrite (q va : Nat) (h : Hit) (l : List Byte) (s : State) : Nat × State :=
  match h.loc with
  | .cell key => homeWrite q none va key l s
  | .reg p _ page off => (0, match regStore s p page off (.ofNat 64 (leNat l)) with
    | some it => { s with agenda := s.agenda ++ [it] }
    | none => s)
  | _ => (0, s)
/-- A write-through reaches its home, run by run: its W. Another module's W is what it acknowledges, no earlier than the end of every lease
that it has granted here (R92, R130, R411). -/
def msgWrite (m : Msg) (w : Nat) (s : State) : Nat × State :=
  let d := coreDie m.core
  let lau := teamLaunch s m.team
  if isFar m.line then
    let a := farPlace (m.line * 128)
    let s := movedFar m.part lau d m.bytes.length true s
    let r := (byteRuns m.bytes).foldl (fun (r : Nat × State) q => match ownPlace s m.part a.1 (a.2 + q.1) .store with
      | some (.ok (p, va, h)) => let x := ownWrite p va h q.2 r.2; (max r.1 x.1, x.2)
      | _ => (max r.1 (min w (farBound s 0)), r.2)) (max (gtime s 0) (heldExpiry s m.line), s)
    let s := match writeDecl r.2 m.part m.va with
      | some (g, n, _, _) => modNode m.part g n (fun x => { x with unreplayable := true }) r.2
      | none => r.2
    (r.1, noteW m.part m.va r.1 s)
  else if isReg m.line then
    let w := gtime s (lineHome m.line)
    (w, regLine m.line m.bytes (modLine m.line (fun x => { x with c := w }) (noteW m.part m.va w s)))
  else (byteRuns m.bytes).foldl (fun (r : Nat × State) q =>
    let x := homeWrite m.part lau (m.va + q.1) (m.line * 128 + q.1) q.2 r.2
    (max r.1 x.1, x.2)) (0, s)
/-- The home applies a write-through and acknowledges it to the groups that wrote; `w` is what another module acknowledges (R130, R485).
[log 38, DESIGN CHOICE.] -/
def applyMsg (m : Msg) (w : Nat) (s : State) : State :=
  let r := msgWrite m w s
  let w := r.1
  let s := noteMove m.part m.va w m.id m.first r.2
  let own := !passesL2 (coreDie m.core) m.line
  let s := { s with net := { s.net with msgs := s.net.msgs.filter (fun x => x.id != m.id) }
                    marks := { s.marks with poison := if m.bytes.length = 128 then s.marks.poison.filter (fun q => q.1 != m.line) else s.marks.poison
                                            held := s.marks.held.filter (fun h => h.msg != m.id) } }
  let s := if isFar m.line then s else countAt m.part (lineHome m.line) (64 + 7) 1 s
  m.gids.foldl (fun s g => modGrp g (fun x => { x with largestW := max x.largestW w, largestWd := if own then max x.largestWd w else x.largestWd }) s) s

/-- A home that cannot read a line's horizon takes the longest lease (R457). -/
def horizonLost (p line : Nat) (s : State) : State :=
  let d := lineHome line
  telemetry (some p) d 6 (modLine line (fun x => { x with h := max x.h (gtime s d + 131072) }) s)

/-- The lines of this module that a request of a partition to another module's number, its own, would write (R92, R148). -/
def ownLines (s : State) (p m gpa : Nat) (acc : Acc) : List Nat :=
  match ownPlace s p m gpa acc with
  | some (.ok (_, _, { loc := .cell k, .. })) => [lineOf k]
  | _ => []
/-- The line whose bytes a message writes: of one to the module's own number the line that it lands in (R92, R148). -/
def msgLine (s : State) (m : Msg) : Nat :=
  let a := farPlace (m.line * 128)
  if isFar m.line then ((ownLines s m.part a.1 a.2 .store).head?).getD m.line else m.line
/-- A store to another module is acknowledged with its W, no earlier than the end of every lease of the line that is held here (R130, R411,
R448); one to the module itself applies here. [log 33, DEDUCED.] -/
def applyFar (f : Far) (w : Nat) (s : State) : State :=
  let l := f.write.getD []
  let s := { s with net := { s.net with far := s.net.far.filter (fun x => x.id != f.id) } }
  let s := match writeDecl s f.part f.va with
    | some (g, n, _, _) => modNode f.part g n (fun x => { x with unreplayable := true }) s
    | none => s
  let ack := fun (w : Nat) (s : State) => let s := noteMove f.part f.va w f.id f.sent (noteW f.part f.va w s); match f.cmd with
    | some (c, id) => if c = 2 ^ 20 then
        { s with net := { s.net with colls := s.net.colls.map (fun k => if k.id = id then { k with largestW := max k.largestW w } else k) } }
      else modCore c (fun x => { x with chans := x.chans.map (fun q =>
        (q.1, { q.2 with queue := q.2.queue.map (fun k => if k.id = id then { k with largestW := max k.largestW w } else k) })) }) s
    | none => modGrp f.gid (fun x => { x with largestW := max x.largestW w, largestWd := max x.largestWd w }) s
  let s := movedFar f.part (f.lau.orElse (fun _ => groupLaunch s f.gid)) ((f.cmd.map (fun q => if q.1 = 2 ^ 20 then 0 else coreDie q.1)).getD (grpDie s f.gid)) l.length true s
  match f.module.bind (fun m => ownPlace s f.part m f.gpa .engineWrite) with
  | some (.ok (q, va, h)) =>
    let r := ownWrite q va h (l.map Prod.snd) s
    ack r.1 r.2
  | _ => ack (max (max (gtime s 0) (heldExpiry s (lineOf (farKey f.part (f.module.getD 0) f.gpa)))) (min w (farBound s 0))) s

/-- The order in which one core's write-throughs reach a home: the number of the home of a line (R124, R128). -/
def homeNo (line : Nat) : Nat :=
  match lineTier line with
  | 0 => lineHome line
  | 1 => lineHome line
  | 2 => 16 + lineHome line
  | 3 => 256
  | 5 => 257
  | _ => 512 + line * 128 / 2 ^ 44
/-- The oldest message that reaches its home before any other of its core to that home; the walker's writes of a partition keep one order
(R128, R370). -/
def firstMsg (s : State) (m : Msg) : Option Msg :=
  if m.core = walkerCore then (walkerMsgs s m.part).head? else s.net.msgs.find? (fun x => x.core == m.core && homeNo x.line == homeNo m.line)
/-- Does an older load of a group that wrote a message still lack a byte that the message carries (R136)? [log 22, DEDUCED.] -/
def readFirst (s : State) (m : Msg) : Bool :=
  m.gids.any (fun g => (grp s g).pend.any (fun p => decide (p.id < m.id) && (match p.kind with
    | .load ps => (lacking ps).any (fun q => (memKey m.part q.loc).any (fun k => m.bytes.any (fun b => k ≤ m.line * 128 + b.1 && m.line * 128 + b.1 < k + q.width)))
    | _ => false)))
/-- The code by which a request of a write to the module's own number is refused (R447). -/
def ownRefusal (s : State) (m : Msg) : Option Nat :=
  let a := farPlace (m.line * 128)
  if !isFar m.line then none
  else match ownPlace s m.part a.1 a.2 .store with
    | some (.error e) => some e
    | _ => none

/-- WRITE_THROUGH_APPLY (R130). Messages of one core to one home apply in the order sent (R128), and after the older loads of their bytes
(R136); a line that the host caches is snooped first, and its write held (R148). With the flag, the home cannot read the line's horizon
(R457). A write to the module's own number is refused as R447 says. -/
def execWriteThroughApply (s : State) : Out :=
  .next (match s.net.msgs.find? (fun m => m.id == s.ev.x) with
    | some m =>
      if m.refused || portShut s m.line || firstMsg s m != some m || s.marks.held.any (fun h => h.msg == m.id) || readFirst s m then s
      else match ownRefusal s m with
      | some 0 => s
      | some code => loseRequest m.id code s
      | none =>
        let s := if s.ev.flag && !isFar m.line then horizonLost m.part m.line s else s
        if s.marks.hostLines.contains (msgLine s m) then
          askBack (msgLine s m) { s with marks := { s.marks with held := s.marks.held ++ [⟨msgLine s m, m.id⟩] } }
        else drew (applyMsg m s.ev.y s)
    | none => match s.net.far.find? (fun f => f.id == s.ev.x) with
      | some f =>
        if f.refused || f.write.isNone || !linkOpen s then s
        else match f.module.bind (fun m => ownPlace s f.part m f.gpa .engineWrite) with
          | some (.error 0) => s
          | some (.error code) => loseRequest f.id code s
          | _ => hostFree ((f.module.map (fun m => ownLines s f.part m f.gpa .engineWrite)).getD []) (fun s => drew (applyFar f s.ev.y s)) s
      | none => s)

/-- BACK_INVALIDATE_ANSWER (R148). The held write applies now, so its W is no earlier than the answer. [log 38, DESIGN CHOICE.] -/
def execBackInvalidateAnswer (s : State) : Out :=
  let line := s.ev.x
  let mine := s.marks.held.filter (fun h => h.line == line)
  let keep := fun (l : List Nat) => l.filter (fun x => x != line)
  let s := { s with marks := { s.marks with hostLines := keep s.marks.hostLines, asked := keep s.marks.asked, held := s.marks.held.filter (fun h => h.line != line) } }
  .next (mine.foldl (fun s h => match s.net.msgs.find? (fun m => m.id == h.msg) with
    | some m => applyMsg m 0 s
    | none => s) s)

/-! ### Copies -/

/-- A new copy of a line for a core, where its home hands one out: of another module's line, the event gives the bytes, and nums the expiry
and C (R124, R125, log 17). -/
def newCopy (s : State) (c p va home line : Nat) : Option (Copy × State) :=
  if portShut s line then none
  else if isFar line then farCopy s c p none line s.ev.data (s.ev.nums.headD (gtime s (coreDie c) + 1024)) (s.ev.nums.getD 1 0)
  else if (List.range 128).any (fun i => isPoison s (line * 128 + i)) then none
  else (leaseOf s p va home).map (fun l => makeCopy s c p none line l)
/-- LINE_FILL (R125). A copy of a line for a core's L1, through its die's L2 where the home lies elsewhere, or for the L2 alone
(flag); a usable L2 copy serves the L1 unless a new one is asked for (z nonzero). [log 36, DESIGN CHOICE.] -/
def execLineFill (s : State) : Out :=
  let c := s.ev.x
  let p := s.ev.y
  let d := coreDie c
  let va := s.ev.word.toNat / 128 * 128
  .next (if (clus s (coreClus c)).holder ≠ some p then s
    else match translate s p c va 1 .load with
    | .ok h => match memKey p h.loc with
      | none => s
      | some key =>
        let line := lineOf key
        if isReg line then s else
        let old := if s.ev.flag || s.ev.z ≠ 0 || !passesL2 d line then none else copyOf s d line 0 (die s d).l2
        match old with
        | some x => giveL1 c x (fillTlb s p c va)
        | none =>
          if s.ev.flag && !passesL2 d line then s
          else match newCopy s c p va h.home line with
            | none => s
            | some r =>
              let t := fillTlb r.2 p c va
              drew (if s.ev.flag then giveL2 d r.1 t else install c r.1 t)
    | _ => s)

/-- COPY_LEASE_LAPSE (R126). A copy that is no longer usable is gone. -/
def execCopyLeaseLapse (s : State) : Out :=
  let d := coreDie s.ev.x
  let keep := fun (x : Copy) => x.line != s.ev.y || usable s d x
  .next (if s.ev.flag then modDie d (fun x => { x with l2 := x.l2.filter keep }) s
    else modCore s.ev.x (fun x => { x with l1 := x.l1.filter keep }) s)

/-! ### The host -/

/-- HOST_SNOOP (R148). The host port answers once die 0's gtime exceeds H + 20. [log 38, DESIGN CHOICE.] -/
def execHostSnoop (s : State) : Out :=
  .next (if lineTier s.ev.x = 3 && (lineSt s s.ev.x).h + 20 < gtime s 0 then { s with host := { s.host with out := s.host.out ++ [.snoopDone s.ev.x] } } else s)

/-- The place of a byte that the host reaches through a VF's decoder, and its virtual address (R399, R109). -/
def cxlByte (s : State) (vf p h : Nat) (acc : Acc) : Option (Nat × Loc) :=
  let v := s.host.vfs.get {} vf
  let va := v.win.toNat + (h - v.decBase.toNat)
  if h < v.decBase.toNat || v.decBase.toNat + v.decSize ≤ h then none
  else match translate s p (2 ^ 40) va 1 acc with
    | .ok hit =>
      if needsRight hit acc && (rightCode s p (5 * 2 ^ 21 + vf) va hit.home acc).isSome then none else some (va, hit.loc)
    | .error _ => none

/-- CXL_MEM_READ (R399, R148, R407). Served at the home without a copy; with the flag the host caches the lines. An access that is
not permitted moves no byte: what the host gets is free. [log 37, DESIGN CHOICE.] -/
def execCxlMemRead (s : State) : Out :=
  let vf := s.ev.x
  let out := fun (l : List Byte) (bad : Bool) (s : State) => { s with host := { s.host with out := s.host.out ++ [.readData l bad] } }
  .next (match vfServes s vf with
    | none => s
    | some p =>
      if (part s p).erased then out (List.replicate s.ev.y 0xFF) true s
      else
        let ls := (List.range s.ev.y).map (fun i => cxlByte s vf p (s.ev.word.toNat + i) .load)
        let byte := fun (i : Nat) => match ls.getD i none with
          | some (_, .cell k) => cellGet s.mem k
          | some (_, .reg q _ page o) => regByte s q page o
          | _ => .ofNat 8 (draw s i)
        let bad := ls.any (fun x => match x with | some (_, .cell k) => isPoison s k | _ => false)
        let lines := (ls.filterMap (fun x => match x with | some (_, .cell k) => some (lineOf k) | _ => none)).eraseDups
        let s := lines.foldl (fun s n => moved p none n (min 128 s.ev.y) false s) (out ((List.range s.ev.y).map byte) bad s)
        drew (if s.ev.flag then { s with marks := { s.marks with hostLines := (lines ++ s.marks.hostLines).eraseDups } } else s))

/-- CXL_MEM_WRITE (R399, R130, R407). Translated and applied at the home; a write that is not permitted moves no byte. -/
def execCxlMemWrite (s : State) : Out :=
  let vf := s.ev.x
  .next (match vfServes s vf with
    | none => s
    | some p =>
      let n := s.ev.data.length
      let ls := (List.range n).filterMap (fun i => cxlByte s vf p (s.ev.word.toNat + i) .store)
      if (part s p).erased || ls.length ≠ n then s
      else match ls.head? with
        | some (_, .reg q _ page o) => match regStore s q page o (.ofNat 64 (leNat s.ev.data)) with
          | some it => { s with agenda := s.agenda ++ [it] }
          | none => s
        | _ => drew ((keyRuns ((ls.zip s.ev.data).filterMap (fun x => match memKey p x.1.2 with
            | some k => some (x.1.1, k, x.2)
            | none => none))).foldl (fun s x =>
              if isFar (lineOf x.2.1) then (List.range x.2.2.length).zip x.2.2 |>.foldl (fun s b => walkerSend p (x.1 + b.1) (x.2.1 + b.1) b.2 s) s
              else (homeWrite p none x.1 x.2.1 x.2.2 s).2) s))

/-! ### Requests without an answer -/

/-- When a request was first sent, by its number (R448). -/
def sentAt (s : State) (id : Nat) : Option Nat :=
  (((s.net.far.find? (fun f => f.id == id)).map (fun f => f.sent)).orElse (fun _ => (s.net.msgs.find? (fun m => m.id == id)).map (fun m => m.sent))).orElse
    (fun _ => (s.net.atoms.find? (fun a => a.id == id)).map (fun a => a.sent))

/-- REQUEST_UNREACHABLE (R448). No answer within 20 µs, unless a die whose reset drains holds the request (R483). Before that, the event says
under the flag that the destination of a write-through will not answer. -/
def execRequestUnreachable (s : State) : Out :=
  .next (if heldUp s s.ev.x then s
    else if (sentAt s s.ev.x).any (fun t => decide (t + 20000 ≤ s.time)) then loseRequest s.ev.x 9 s
    else if !s.ev.flag then s
    else { s with net := { s.net with msgs := s.net.msgs.map (fun m => if m.id = s.ev.x && leaves m.line then { m with silent := true } else m) } })

/-- REMOTE_REFUSAL_RESPONSE (R447). Code 0x08 or 0x0B from a remote module, 0x0C from the host. [log 39, DEDUCED.] -/
def execRemoteRefusalResponse (s : State) : Out :=
  let far := s.net.far.find? (fun f => f.id == s.ev.x)
  let host := (far.any (fun f => f.module.isNone)) || s.net.msgs.any (fun m => m.id == s.ev.x && lineTier m.line == 3)
  .next (if !(if host then hostOpen s else linkOpen s) then s else if (host && s.ev.y = 0xC) || (!host && (s.ev.y = 8 || s.ev.y = 0xB)) then loseRequest s.ev.x s.ev.y s else s)

end Sys2Proof.Machine
end

