-- ==== Sys2Proof/Machine/Issue.lean ====
section
/-!
DEFINITION. How a word comes to run: the fetch of an arrival's word and of the extension word before it
(R38, R41, R207, R438, R439 step 1), and the selection of groups and lanes to issue (R39 to R45, R497).
-/
namespace Sys2Proof.Machine

/-! ### Fetch -/

/-- The code of R432 for a word that is no instruction. [log 19, DEDUCED.] -/
def rejectCode (r : Reject) : Nat :=
  match r with
  | .unassigned => 1
  | .permanent => 2
  | .reserved => 3
  | .extension => 7
  | .short => 1

/-- The word of an arrival, with a loop pass's steps applied (R216, R217): the stepped fields wrap as R217 states. -/
def stepWord (w inc : DWord) (idx pass : Nat) : DWord :=
  ([48, 32, 16, 0]).foldl (fun w lo =>
    let st := bits inc (lo + 15) lo
    if st / 4096 ≠ idx || idx = 0 then w
    else
      let n := sgn 9 (st % 512) * (pass : Int)
      let put := fun (hi lo' : Nat) (v : Nat) => (BitVec.ofNat 64 (w.toNat - bits w hi lo' * 2 ^ lo' + v * 2 ^ lo') : DWord)
      match st / 512 % 8 with
      | 0 => put 51 44 (wrapTo 8 ((bits w 51 44 : Int) + n))
      | 1 => put 43 36 (wrapTo 8 ((bits w 43 36 : Int) + n))
      | 2 => put 35 28 (wrapTo 8 ((bits w 35 28 : Int) + n))
      | 3 => put 27 20 (wrapTo 8 ((bits w 27 20 : Int) + n))
      | 4 => put 19 0 (wrapTo 20 ((bits w 19 0 : Int) + 16 * n))
      | _ => w) w

/-- The word at an address inside a lane's clause, as the pass uses it. -/
def clauseWord (s : State) (g : Nat) (c : Clause) (addr : Nat) : Except Fail DWord :=
  match fetchWord s g addr with
  | .error e => .error e
  | .ok w =>
    if !c.loop then .ok w
    else match fetchWord s g (c.hdr.toNat + 8) with
      | .error e => .error e
      | .ok inc => .ok (stepWord w inc ((addr - c.hdr.toNat) / 8 - 1) c.pass)

/-- The instruction that a word with a reserved bit set would be: one whose extension word breaks R209 is judged at that word (R438). [log 121, DEDUCED.] -/
def bareInstr (w : DWord) : Option Instr :=
  [w &&& ~~~0x2000, .ofNat 64 (bits w 63 52 * 2 ^ 52)].findSome? (fun x => (decode x).toOption)
/-- The predicate that an extension word's field names (R207). -/
def extGuard (w : DWord) : Ext := { Ext.plain with pred := .ofNat 3 (bits w 51 49), neg := bits w 48 48 == 1 }
/-- An arrival's word is fetched and decoded: the instruction with the arrival made current, or the state after the fault of
steps 1 and 2 of R439 that its words raise, which covers the lanes that its predicate leaves active (R38, R207, R209, R434, R438, R495). -/
def arrive (a : Arrival) (s : State) : State ⊕ (Instr × State) :=
  let g := a.gid
  let c := ((lane s g (lowest a.lanes)).clause).getD { hdr := a.pc - 8, word := .ofNat 64 (15 * 2 ^ 56) }
  let stop := fun (ext : Bool) (m : Mask) (cls code detail : Nat) => (Sum.inl (raise { a with hasExt := ext } cls code detail m m 0 false s) : State ⊕ (Instr × State))
  match clauseWord s g c a.pc.toNat with
  | .error e => stop false a.lanes e.cls e.code a.pc.toNat
  | .ok w =>
    let bad := fun (ext : Bool) => stop ext (activeOf s { a with hasExt := ext, ext := if ext then extGuard w else guardOf w })
    if bits w 63 56 ≠ 0xFE then
      match decode w with
      | .error r => bad false 1 (rejectCode r) 0
      | .ok i => .inr (i, { s with cur := { a with live := true, word := w, ext := guardOf w, hasExt := false } })
    else
      let own := match decodeExt w with | .error code => [code] | .ok _ => []
      if (nextHeader c).toNat ≤ a.pc.toNat + 8 then bad true 1 (((own ++ [7]).min?).getD 7) 0
      else match clauseWord s g c (a.pc.toNat + 8) with
        | .error f => if own.isEmpty then bad true f.cls f.code (a.pc.toNat + 8) else bad true 1 (own.headD 0) 0
        | .ok w2 =>
          if !extMajor (bits w2 63 56) then bad true 1 (((own ++ [7]).min?).getD 7) 0
          else match decodeExt w with
          | .error code => bad true 1 code 0
          | .ok e => match decode w2 with
            | .error r => bad true 1 ((((bareInstr w2).map (extCodes (grp s g).budget e)).bind List.min?).getD (rejectCode r)) 0
            | .ok i => .inr (i, { s with cur := { a with live := true, word := w2, ext := e, hasExt := true } })

end Sys2Proof.Machine
end

