-- ==== Sys2Proof/Machine/Control.lean ====
section
/-!
DEFINITION. Control words (R228 to R234), the exit of lanes and groups (R29, R231, R303), and the loop buffer (R216, R217,
R232).
-/
namespace Sys2Proof.Machine

/-! ### Exit -/

/-- Lanes that wait go on past their word, and the wait makes its antecedent record (R195, R307, R363). -/
def releaseWait (g : Nat) (w : LWait) (waitKind : Nat) (a : Ante) (s : State) : State :=
  let s := modGrp g (fun x => { x with waits := x.waits.filter (fun y => y.id != w.id) }) s
  let s := passLanes { gid := g, lanes := w.lanes, pc := w.pc } w.lanes s
  if waitKind = 0 then s else recordWait s g (lowest w.lanes) waitKind w.since a

/-- The lanes of a role's resident groups that have not exited (R303). -/
def roleLanes (s : State) (t : Nat) (consumer : Bool) : Nat :=
  ((liveGroups s t).filter (fun g => (grp s g).consumer == consumer && (grp s g).resident)).map (fun g => Mask.count (liveLanes s g)) |>.sum

/-- The waits of a group of one kind go on as waits of another (R302, R303). -/
def passWaits (g : Nat) (old new : WaitKind) (s : State) : State :=
  modGrp g (fun x => { x with waits := x.waits.map (fun w => if w.kind == old then { w with kind := new } else w) }) s
/-- Barrier waits of a group whose phase has completed end, with the record of the arrival that completed it (R302, R303, R307). -/
def endPassed (g : Nat) (s : State) : State :=
  (grp s g).waits.foldl (fun s w => match w.kind with | .passed k a => releaseWait g w k a s | _ => s) s
/-- A role barrier whose count has reached the role's lanes completes its phase, of which every waiter learns (R303). -/
def roleCheck (t : Nat) (consumer : Bool) (id : Nat) (a : Ante) (s : State) : State :=
  let key := bit consumer * 4 + id
  let b := (team s t).roleBars.get {} key
  if b.count = 0 || b.count ≠ roleLanes s t consumer then s
  else
    let s := modTeam t (fun x => { x with roleBars := x.roleBars.put key { b with count := 0, phase := b.phase + 1, last := a } }) s
    (liveGroups s t).foldl (fun s g =>
      if (grp s g).consumer != consumer then s else passWaits g (.role id b.phase) (.passed 10 a) s) s

/-- The barriers of every role of a team are judged again, after lanes have exited or a group has joined (R303). -/
def roleCheckAll (t : Nat) (a : Ante) (s : State) : State :=
  ([false, true]).foldl (fun s c => (List.range 4).foldl (fun s id => roleCheck t c id a s) s) s

/-- Pending writes of exited lanes are discarded when they arrive (R231). -/
def dropLanes (m : Mask) (p : Pend) : Pend := { p with lanes := p.lanes &&& ~~~m }

/-- Lanes exit; a group whose last lane exits frees its place (R29, R231, R51). -/
def exitLanes (g : Nat) (m : Mask) (s : State) : State :=
  if m = 0 then s
  else
    let s := modLanes g m (fun l => { l with exited := true, clause := none }) s
    let s := modGrp g (fun x => { x with pend := x.pend.map (dropLanes m) }) s
    let t := (grp s g).team
    let s := if liveLanes s g = 0 then modGrp g (fun x => { x with exited := true }) s else endPass g s
    let (a, s) := grpEvent s g (lowest m)
    roleCheckAll t a s

/-- Writes of a group that were declared lost and that a waiting word has to report: the lowest address, with its code
(R447, R448). [log 39, DEDUCED.] -/
def lostWrite (s : State) (g : Nat) : Option (Nat × Nat) :=
  ((grp s g).lost.map (fun p => (p.2.1, p.2.2.toNat))).foldl (fun (b : Option (Nat × Nat)) q =>
    if b.all (fun y => decide (q.2 < y.2)) then some q else b) none

/-- A word that waits on the acknowledgement of a lost write stops on class 0x06; else it runs (R448). -/
def orLost (run : State → State) (s : State) : State :=
  match lostWrite s s.cur.gid with
  | some a => stopAll 6 a.1 a.2 s.cur.lanes s
  | none => run s

/-! ### Control words -/

/-- NOP (R206). No operation. -/
def execNop (s : State) : Out := .next (judge .nop [] s.cur.lanes done s)

/-- The taking lanes transfer, the others move on (R229). -/
def branch (i : Instr) (f : FB) (extra : State → List Nat) (target : State → Nat → DWord) (link : State → State) (s0 : State) : State :=
  judge i (extra s0) (takers s0 f) (fun s =>
    let m := takers s f
    let a := s.cur
    let pend := parkIf a s
    let t := target s
    let s := finishLanes a (a.lanes &&& ~~~m) pend
    drew (transfer a.gid m t false (link s))) s0

/-- A word that must be the last of its clause and is not (R192, R432 code 0x0E). [log 92, DEDUCED.] -/
def notLast (s : State) : List Nat :=
  match (lane s s.cur.gid (lowest s.cur.lanes)).clause with
  | some c => if s.cur.pc + 8 = nextHeader c then [] else [0xE]
  | none => []
/-- A target from a register with a nonzero bit in [63:56] or [2:0] (R229, R432 code 0x0F); a register that is still pending
is not read (R424). [log 21, DEDUCED.] -/
def badTarget (f : FB) (regs : List Reg) (t : State → Nat → DWord) (s : State) : List Nat :=
  let m := takers s f
  if regs.any (fun r => (pendingRegs s s.cur.gid m).contains r) then []
  else if (Mask.toList m).any (fun l => bits (t s l) 63 56 ≠ 0 || bits (t s l) 2 0 ≠ 0) then [0xF] else []

/-- The PC-relative target (R205). -/
def relTarget (f : FB) (s : State) (_ : Nat) : DWord := .ofNat 64 (wrapTo 64 ((s.cur.pc.toNat : Int) + 8 * sgn 28 f.off.toNat))
/-- The target in a vector pair. [log 21, DEDUCED.] -/
def pairTarget (f : FB) (s : State) (l : Nat) : DWord := .ofNat 64 (vPair s s.cur.gid l f.a.toNat)
/-- The target in a uniform register. [log 21, DEDUCED.] -/
def uniTarget (f : FB) (s : State) (_ : Nat) : DWord := kRead s f.a.toNat
/-- The return address, the header that follows the clause, into vd of the taking lanes (R230). -/
def linkTo (f : FB) (m : Mask) (ret : DWord) (s : State) : State :=
  (Mask.toList m).foldl (fun s l => vPutPair s.cur.gid l f.d.toNat ret.toNat s) s

/-- BRA (R229). PC-relative branch. -/
def execBra (f : FB) (s : State) : Out := .next (branch (.bra f) f (fun _ => []) (relTarget f) id s)
/-- BRX_V (R229). Branch through a vector pair. -/
def execBrxV (f : FB) (s : State) : Out :=
  .next (branch (.brxV f) f (badTarget f (vList f.a.toNat 2) (pairTarget f)) (pairTarget f) id s)
/-- BRX_K (R229). Branch through a uniform register. -/
def execBrxK (f : FB) (s : State) : Out :=
  .next (branch (.brxK f) f (badTarget f [.k f.a.toNat] (uniTarget f)) (uniTarget f) id s)
/-- CALL (R230). PC-relative call. -/
def execCall (f : FB) (s : State) : Out :=
  .next (branch (.call f) f notLast (relTarget f) (linkTo f (takers s f) (s.cur.pc + 8)) s)
/-- CALL_V (R230). Call through a vector pair, read before vd is written. -/
def execCallV (f : FB) (s : State) : Out :=
  .next (branch (.callV f) f (fun s => notLast s ++ badTarget f (vList f.a.toNat 2) (pairTarget f) s) (pairTarget f)
    (linkTo f (takers s f) (s.cur.pc + 8)) s)
/-- CALL_K (R230). Call through a uniform register. -/
def execCallK (f : FB) (s : State) : Out :=
  .next (branch (.callK f) f (fun s => notLast s ++ badTarget f [.k f.a.toNat] (uniTarget f) s) (uniTarget f)
    (linkTo f (takers s f) (s.cur.pc + 8)) s)
/-- RET (R230). Return through a vector pair. -/
def execRet (f : FB) (s : State) : Out :=
  .next (branch (.ret f) f (badTarget f (vList f.a.toNat 2) (pairTarget f)) (pairTarget f) id s)

/-- EXIT (R231, R448). The taking lanes exit. -/
def execExit (f : FB) (s0 : State) : Out :=
  .next (judge (.exit f) [] (takers s0 f) (fun s =>
    let a := s.cur
    let m := takers s f
    let run := fun (s : State) => drew (exitLanes a.gid m (finishLanes a (a.lanes &&& ~~~m) s))
    if liveLanes s a.gid &&& ~~~m = 0 then orLost run s else run s) s0)

/-- LOOP (R232, R444). The taking lanes go to the loop clause, or wait at the word while the buffer is busy; the others go to the
header after the loop clause. The word that follows is a header only when `loop` is the last word of its clause; one that cannot be fetched stops the word with its
fault (R446). [log 92, DEDUCED.] -/
def execLoop (f : FB) (s0 : State) : Out :=
  let hdr := s0.cur.pc + 8
  match fetchWord s0 s0.cur.gid hdr.toNat with
  | .error e => .next (if !s0.cur.live then s0 else match notLast s0 with
    | [] => stopAll e.cls e.code hdr.toNat (takers s0 f) s0
    | c :: _ => stopAll 1 c 0 (takers s0 f) s0)
  | .ok w => .next (judge (.loop f) (if (notLast s0).isEmpty && !isLoop w then [0xD] else notLast s0) (takers s0 f) (fun s =>
    let a := s.cur
    let m := takers s f
    let s := parkIf a s
    let after := hdr + .ofNat 64 (8 * (clauseCount w + 1))
    let s := modLanes a.gid (a.lanes &&& ~~~m) (fun l =>
      { l with pc := after, clause := none, viaLoop := false, viaFall := true, relHere := false, since := s.time }) s
    drew (if (grp s a.gid).loop.isSome then (if m = 0 then s else addWait a.gid m a.pc (.loopBuf m) s)
      else transfer a.gid m (fun _ => hdr) true s)) s0)

/-- LOOP_BUFFER_FREE (R232). Lanes that waited at their loop word transfer once the buffer is free. -/
def execLoopBufferFree (s : State) : Out :=
  let g := s.ev.x
  .next (if (grp s g).loop.isSome then s
    else ((grp s g).waits.filter (fun w => match w.kind with | .loopBuf _ => true | _ => false)).foldl (fun s w =>
      transfer g w.lanes (fun _ => w.pc + 8) true (modGrp g (fun x => { x with waits := x.waits.filter (fun y => y.id != w.id) }) s)) s)

/-- YIELD (R233). Ends the slice's hold on the group and lowers it for the next slice cycle. -/
def execYield (s : State) : Out :=
  .next (judge .yield [] s.cur.lanes (fun s =>
    let g := grp s s.cur.gid
    let s := modCore g.core (fun x => { x with slices := x.slices.put g.slice { x.slices.get {} g.slice with hold := none } }) s
    done (modGrp s.cur.gid (fun x => { x with yielded := true }) s)) s)

/-- Write the elected lane's predicate to every issuing lane (R234). -/
def electP (f : FB) (s : State) : State :=
  let m := takers s f
  (Mask.toList s.cur.lanes).foldl (fun t l => pPut s.cur.gid l f.d.toNat (m != 0 && l == lowest m) t) s
/-- ELECT (R234). pd is true in the lowest participating lane alone. -/
def execElect (f : FB) (s : State) : Out := .next (judge (.elect f) [] (takers s f) (fun s => done (electP f s)) s)
/-- ELECT_K (R234). The same, and ka receives the lane's number. -/
def execElectK (f : FB) (s : State) : Out :=
  .next (judge (.electK f) [] (takers s f) (fun s =>
    let m := takers s f
    done (kPut s.cur.gid f.a.toNat (if m = 0 then .ofNat 64 (2 ^ 64 - 1) else .ofNat 64 (lowest m)) (electP f s))) s)

end Sys2Proof.Machine
end

