-- ==== Sys2Proof/Machine/Sync.lean ====
section
/-!
DEFINITION. Fences (R131, R132, R140) and barriers (R133, R302 to R305, R307).
-/
namespace Sys2Proof.Machine

/-! ### The conditions of a fence -/

/-- The extra wait of a fence or token move of a partition that holds a die in time alarm (R458). [log 40, DEDUCED.] -/
def alarmExtra (s : State) (p : Nat) : Nat :=
  if (List.range 8).any (fun i => (vdt s p i).any (fun d => (die s d).alarm)) then 40 else 0

/-- Is a pending write a load's (R132)? -/
def isLoadPend (p : Pend) : Bool :=
  match p.kind with
  | .load _ => true
  | _ => false

/-- Do the group's accesses older than number `id` meet the first condition of a scope (R132)? A bound store that enters the buffer late is as
old as its word (R215). -/
def fenceFirst (s : State) (g scope id : Nat) : Bool :=
  let gr := grp s g
  let d := coreDie gr.core
  let since := ((gr.waits.find? (fun w => w.id == id)).map LWait.since).getD ((gr.stall.map Stall.since).getD s.time)
  let loads := gr.pend.any (fun p => (isLoadPend p || storesLate p) && decide (p.id < id))
  let msgs := lateEntries s g since
    || s.net.msgs.any (fun m => m.gids.contains g && (decide (m.id < id) || decide (m.first ≤ since)) && (decide (5 ≤ scope) || !passesL2 d m.line))
  let atoms := s.net.atoms.any (fun a => a.gid == g && decide (a.id < id)) || gr.pend.any (fun p => decide (p.id < id) && (match p.kind with | .atomic _ _ _ _ => true | _ => false))
  let far := s.net.far.any (fun f => f.gid == g && decide (f.id < id) && f.write.isSome)
  !loads && (decide (scope < 3) || (!msgs && !atoms && (decide (scope < 5) || !far)))

/-- The gtime that a scope must exceed (R132). [log 40, DEDUCED.] -/
def fenceBound (s : State) (g scope : Nat) : Nat :=
  let gr := grp s g
  if scope < 3 then 0
  else if scope < 5 then max gr.largestWd gr.largestC
  else max gr.largestW gr.largestC + 20 + alarmExtra s gr.part

/-- The fill floor that a completed fence sets: no copy made before it began (R132, R140). [log 26, DEDUCED.] -/
def setFloor (g scope begun : Nat) (s : State) : State :=
  if scope < 3 then s else modGrp g (fun x => { x with floorL1 := max x.floorL1 (begun + 1), floorL2 := max x.floorL2 (begun + 1) }) s

/-- A wait goes on as a barrier's, which begins now (R307). -/
def waitNow (g id : Nat) (k : WaitKind) (s : State) : State :=
  modGrp g (fun x => { x with waits := x.waits.map (fun w => if w.id == id then { w with kind := k, since := s.time } else w) }) s
/-- A wait goes on as another one. -/
def setWait (g id : Nat) (k : WaitKind) (s : State) : State :=
  modGrp g (fun x => { x with waits := x.waits.map (fun w => if w.id == id then { w with kind := k } else w) }) s

/-! ### Arrivals -/

/-- The team whose state holds a barrier: the group's own, or for a gang barrier the team of rank 0 (R302). -/
def barTeam (s : State) (g : Nat) (gang : Bool) : Nat :=
  let t := (grp s g).team
  if gang then (gangTeam s t 0).getD t else t
/-- A team or gang barrier. -/
def barOf (s : State) (g : Nat) (gang : Bool) (id : Nat) : Barrier :=
  let t := team s (barTeam s g gang)
  if gang then t.gangBars.get {} id else t.bars.get {} id
def putBar (g : Nat) (gang : Bool) (id : Nat) (b : Barrier) (s : State) : State :=
  modTeam (barTeam s g gang) (fun t => if gang then { t with gangBars := t.gangBars.put id b } else { t with bars := t.bars.put id b }) s
/-- The groups whose lanes may wait at a barrier. -/
def barGroups (s : State) (g : Nat) (gang : Bool) : List Nat :=
  let t := (grp s g).team
  if gang then ((List.range 4).filterMap (fun r => gangTeam s t r)).flatMap (liveGroups s) else liveGroups s t

/-- An arrival that waits at its word stops on a fault (R444). -/
def stopWait (g : Nat) (w : LWait) (cls code detail : Nat) (s : State) : State :=
  let s := modGrp g (fun x => { x with waits := x.waits.filter (fun y => y.id != w.id) }) s
  raise { gid := g, lanes := w.lanes, pc := w.pc } cls code detail w.lanes w.lanes 0 false s

/-- An arrival is counted at a team or gang barrier; the waiters of a phase that it completes learn of it one by one (R302, R362). -/
def arriveBar (g : Nat) (w : LWait) (gang : Bool) (id n : Nat) (sync : Bool) (s : State) : State :=
  let b := barOf s g gang id
  if b.count ≠ 0 && b.expected ≠ n then stopWait g w 1 0x16 0 s
  else
    let (a, s) := grpEvent s g (lowest w.lanes)
    let b := { b with count := b.count + 1, expected := n }
    if b.count = n then
      let s := putBar g gang id { b with count := 0, phase := b.phase + 1, last := a } s
      releaseWait g w 0 a ((barGroups s g gang).foldl (fun s h => passWaits h (.bar gang id b.phase) (.passed 9 a) s) s)
    else
      let s := putBar g gang id b s
      if sync then waitNow g w.id (.bar gang id b.phase) s else releaseWait g w 0 a s

/-- An arrival's lanes are counted at a role barrier (R303). -/
def arriveRole (g : Nat) (w : LWait) (id : Nat) (s : State) : State :=
  let gr := grp s g
  let key := bit gr.consumer * 4 + id
  let b := (team s gr.team).roleBars.get {} key
  let (a, s) := grpEvent s g (lowest w.lanes)
  let s := modTeam gr.team (fun t => { t with roleBars := t.roleBars.put key { b with count := b.count + Mask.count w.lanes } }) s
  roleCheck gr.team gr.consumer id a (waitNow g w.id (.role id b.phase) s)

/-- The operation number of a package barrier's arrival among the atomic requests. -/
def pkgOp : Nat := 100
/-- A package barrier's arrival goes to the service group that owns its word (R304). A generation of 2^32 stands until it is
applied; the word's granule is dirty (R375). -/
def arrivePkg (g : Nat) (w : LWait) (k : Nat) (loc : Loc) (va n : Nat) (s : State) : State :=
  let gr := grp s g
  let id := s.ids.msg
  let a : Atom := { id := id, gid := g, core := gr.core, part := gr.part, team := gr.team, loc := loc, va := va, width := 8, ty := 11,
                    op := pkgOp, lanes := [⟨0, .ofNat 64 n, 0⟩], pend := none, wait_ := some w.id, sent := s.time,
                    dest := ((memKey gr.part loc).map (fun k => carriesTo s gr.part (lineOf k))).getD 0 }
  waitNow g w.id (.pkg k loc (2 ^ 32) none) (markDirty (team s gr.team).launch va { s with net := { s.net with atoms := s.net.atoms ++ [a] }, ids := { s.ids with msg := id + 1 } })

/-- What follows a fence that has completed. -/
def afterFence (g : Nat) (w : LWait) (next : AfterFence) (s : State) : State :=
  match next with
  | .nothing => releaseWait g w 0 {} s
  | .bar gang id n sync => arriveBar g w gang id n sync s
  | .role id => arriveRole g w id s
  | .pkg k loc va n => arrivePkg g w k loc va n s

/-- A waiting fence goes on as far as its conditions allow (R132, R448). -/
def fenceStep (g : Nat) (w : LWait) (s : State) : State :=
  match w.kind with
  | .fence scope begun bound next =>
    let judged := decide (3 ≤ scope) || next != .nothing
    match if judged then lostWrite s g else none with
    | some a => stopWait g w 6 a.1 a.2 s
    | none =>
      let b : Option (Nat × Nat) := match begun with
        | some t => some (t, bound)
        | none => if fenceFirst s g scope w.id then some (s.time, fenceBound s g scope) else none
      match b with
      | none => s
      | some (t, bd) =>
        if scope < 3 || bd < gtime s (grpDie s g) then afterFence g w next (setFloor g scope t s)
        else setWait g w.id (.fence scope (some t) bd next) s
  | _ => s

/-- A fence begins to wait for an arrival; what streams have read ahead is read again after it (R128, R132, R215). -/
def beginFence (scope : Nat) (next : AfterFence) (s : State) : State :=
  let g := s.cur.gid
  let s := endAhead g (drainGroup g s)
  let id := s.ids.msg
  let s := addWait g s.cur.lanes s.cur.pc (.fence scope none 0 next) (parkIf s.cur s)
  drew (match (grp s g).waits.find? (fun w => w.id == id) with
    | some w => fenceStep g w s
    | none => s)

/-! ### The words -/

/-- FENCE (R132). -/
def execFence (f : FF) (s : State) : Out :=
  .next (judge (.fence f) [] s.cur.lanes (fun s => if f.scope.toNat < 3 then beginFence f.scope.toNat .nothing s
    else orLost (beginFence f.scope.toNat .nothing) s) s)

/-- A barrier's count operand (R300). -/
def barCount (s : State) (f : FF) : Nat := if f.bk.toNat = 3 then f.b.toNat else (kRead s f.b.toNat).toNat
/-- An arrival at a team or gang barrier (R302, R432). -/
def barrier (i : Instr) (f : FF) (gang sync : Bool) : State → State := fun s0 =>
  judge i [] s0.cur.lanes (fun s =>
    let n := barCount s f
    let b := barOf s s.cur.gid gang f.id.toNat
    if n = 0 || 4095 < n || (b.count ≠ 0 && b.expected ≠ n) then stopAll 1 0x16 0 s.cur.lanes s
    else orLost (beginFence f.scope.toNat (.bar gang f.id.toNat n sync)) s) s0
/-- BAR_SYNC (R302). -/
def execBarSync (f : FF) (s : State) : Out := .next (barrier (.barSync f) f false true s)
/-- BAR_ARRIVE (R302). -/
def execBarArrive (f : FF) (s : State) : Out := .next (barrier (.barArrive f) f false false s)
/-- BAR_GANG_SYNC (R302). -/
def execBarGangSync (f : FF) (s : State) : Out := .next (barrier (.barGangSync f) f true true s)
/-- BAR_GANG_ARRIVE (R302). -/
def execBarGangArrive (f : FF) (s : State) : Out := .next (barrier (.barGangArrive f) f true false s)
/-- BAR_ROLE (R303). -/
def execBarRole (f : FF) (s : State) : Out :=
  .next (judge (.barRole f) [] s.cur.lanes (fun s => orLost (beginFence 1 (.role f.id.toNat)) s) s)
/-- BAR_PKG (R304). -/
def execBarPkg (f : FF) (s : State) : Out :=
  .next (judge (.barPkg f) [] s.cur.lanes (fun s =>
    let g := s.cur.gid
    let gr := grp s g
    let n := bits (kRead s f.b.toNat) 31 0
    let va := (kRead s f.a.toNat).toNat
    if n = 0 then stopAll 1 0x16 0 s.cur.lanes s
    else if !(launch s (team s gr.team).launch).record.coRes then stopAll 1 0x17 0 s.cur.lanes s
    else match access s g (lowest s.cur.lanes) 3 va 8 .atomic with
      | .error e =>
        if e.cls = 0 then drew (addWait g s.cur.lanes s.cur.pc (waitOf e) s) else stopAll e.cls e.code e.detail s.cur.lanes s
      | .ok h => orLost (beginFence 5 (.pkg f.d.toNat h.loc va n)) s) s)

/-! ### The events -/

/-- The fence of a stalled `eret` goes on; when it completes, the trap that the group handles is resolved with TRACT's action, its trap
registers read 0 and the group goes on (R429). -/
def eretStep (g : Nat) (s : State) : State :=
  match (grp s g).stall with
  | some ⟨.eret id begun bound, arr, since⟩ =>
    match lostWrite s g with
    | some e => raise arr 6 e.1 e.2 arr.lanes arr.lanes 0 false (unstall g s)
    | none =>
      let b : Option (Nat × Nat) := match begun with
        | some t => some (t, bound)
        | none => if fenceFirst s g 7 id then some (s.time, fenceBound s g 7) else none
      match b with
      | none => s
      | some (t, bd) =>
        if bd < gtime s (grpDie s g) then
          let tid := (team s (grp s g).team).handles
          let act := (team s (grp s g).team).action
          let s := modTeam (grp s g).team (fun x => { x with handles := none, action := 0 }) (endStall g (setFloor g 7 t s))
          match tid with
          | some x => resolve x act s
          | none => s
        else modGrp g (fun x => { x with stall := some ⟨.eret id (some t) bd, arr, since⟩ }) s
  | _ => s

/-- FENCE_COMPLETE (R132). A waiting fence whose conditions hold begins, and completes past its bound. -/
def execFenceComplete (s : State) : Out :=
  .next (match (grp s s.ev.x).stall with
  | some ⟨.eret _ _ _, _, _⟩ => eretStep s.ev.x s
  | _ => match (grp s s.ev.x).waits.find? (fun w => w.id == s.ev.y) with
    | some w => fenceStep s.ev.x w s
    | none => s)

/-- The 8 bytes of a package barrier's word, where it lies in this module. [log 42, DEDUCED.] -/
def pkgWord (s : State) (loc : Loc) : Nat :=
  match loc with
  | .cell k => leNat (cellBytes s.mem k 8)
  | _ => 0

/-- PKG_BARRIER_RELEASE (R304). The word's generation is no longer the arrival's: kd is written and the lanes go on. For a word of
another module, the event's z tells the generation that its service group reports, word, nums and the name in data what advanced it.
[log 42, DEDUCED.] -/
def execPkgBarrierRelease (s : State) : Out :=
  let g := s.ev.x
  .next (match (grp s g).waits.find? (fun w => w.id == s.ev.y) with
    | some w => match w.kind with
      | .pkg k loc gen ended =>
        let now := match loc with
          | .remote _ _ => s.ev.z % 2 ^ 32
          | _ => pkgWord s loc / 2 ^ 32
        if 2 ^ 32 ≤ gen || now = gen then s
        else releaseWait g w 11 (ended.getD ⟨s.ev.word, min (s.ev.nums.headD 0) (farBound s (grpDie s g)), 9, farName s.ev⟩) (kPut g k (.ofNat 64 (gen * 2 ^ 32)) s)
      | _ => s
    | none => s)

end Sys2Proof.Machine
end

