-- ==== Sys2Proof/Machine/Atomics.lean ====
section
/-!
DEFINITION. Atomics (R143, R297 to R299): combined requests, their application at the scratchpad or the service group, the
arrivals of package barriers there (R304, R481), requests of other modules (R411), and the migration of atomic regions (R144).
-/
namespace Sys2Proof.Machine

/-! ### Operations -/

/-- The new value of a word under an operation: 0 add, 1 min, 2 max, 3 and, 4 or, 5 xor, 6 exchange or store, 7 compare-and-swap,
8 load (R297, R299). -/
def atomNew (ty op old b swap : Nat) : Nat :=
  let t : BitVec 5 := .ofNat 5 ty
  let w := tyBits t
  match op with
  | 0 => if ty = 11 || ty = 12 then fpAdd (fmtOf t) 0 old b else (old + b) % 2 ^ w
  | 1 => if readAs t old ≤ readAs t b then old else b
  | 2 => if readAs t b ≤ readAs t old then old else b
  | 3 => old &&& b
  | 4 => old ||| b
  | 5 => old ^^^ b
  | 6 => b
  | 7 => if old = b then swap else old
  | _ => old

/-- A combined request acts for its lanes in ascending order: what each lane finds, and the word's end value (R299). -/
def atomRun (ty op : Nat) : List AtomLane → Nat → List (AtomLane × Nat) × Nat
  | [], old => ([], old)
  | l :: t, old =>
    let r := atomRun ty op t (atomNew ty op old l.operand.toNat l.swap.toNat)
    ((l, old) :: r.1, r.2)

/-- What the lanes write: the old value to vd, and for a compare-and-swap the success to pd (R297, R299). -/
def atomOuts (op w d : Nat) (rs : List (AtomLane × Nat)) : List (Nat × Nat × Word) × List (Nat × Bool) :=
  (rs.flatMap (fun r => (regsOf d w r.2).map (fun q => (r.1.lane, q.1, q.2))),
   if op = 7 then rs.map (fun r => (r.1.lane, r.2 == r.1.operand.toNat)) else [])

/-! ### The words -/

/-- The permitted lanes by the word that they name (R299). -/
def byWord : List (Nat × Hit) → List (Loc × List Nat)
  | [] => []
  | (l, h) :: t =>
    let r := byWord t
    if r.any (fun q => q.1 == h.loc) then r.map (fun q => if q.1 == h.loc then (q.1, l :: q.2) else q) else (h.loc, [l]) :: r

/-- The operands of lanes of an atomic word: of a returning one from the registers that its mode field names (R297, R299). -/
def atomLanes (s : State) (f : FM) (op : Nat) (returns : Bool) (ls : List Nat) : List AtomLane :=
  let w := tyBits f.ty
  let src := if returns then f.mo.toNat else f.data.toNat
  let val := fun (l n : Nat) => if w = 64 then vPair s s.cur.gid l n else (vGet s s.cur.gid l n).toNat
  ls.map (fun l => ⟨l, .ofNat 64 (if op = 8 then 0 else val l src), .ofNat 64 (if op = 7 then val l (src + w / 32) else 0)⟩)
/-- Does a word lie in a scratchpad? -/
def inPad (q : Loc × List Nat) : Bool := match q.1 with | .pad _ _ => true | _ => false
/-- The scratchpad words of an atomic word are updated at once (R138, R299): what their lanes find. -/
def runPads (w ty op : Nat) (lanes : List Nat → List AtomLane) (pads : List (Loc × List Nat)) (s : State) : List (AtomLane × Nat) × State :=
  pads.foldl (fun (r : List (AtomLane × Nat) × State) q => match q.1 with
    | .pad t o =>
      let x := atomRun ty op (lanes q.2) (leNat (padBytes r.2 t o (w / 8)))
      (r.1 ++ x.1, padWrite t o (leBytes (w / 8) x.2) r.2)
    | _ => r) ([], s)
/-- One combined request leaves for the place where it applies (R298, R299). -/
def sendAtom (a : Atom) (s : State) : State :=
  let s := cacheEntry a.core a.part a.va s
  let s := { s with net := { s.net with atoms := s.net.atoms ++ [{ a with id := s.ids.msg, dest := ((memKey a.part a.loc).map (fun k => carriesTo s a.part (lineOf k))).getD 0 }] }, ids := { s.ids with msg := s.ids.msg + 1 } }
  if a.op = 8 then s else markDirty (team s a.team).launch a.va s
/-- An atomic word: one combined request for each word named; a scratchpad applies it at once; read-ahead ends (R138, R215, R298, R299). -/
def atomic (i : Instr) (f : FM) (op : Nat) (returns : Bool) (pd : Nat) : State → State := fun s0 =>
  judge i [] (active s0) (fun s =>
    let g := s.cur.gid
    let gr := grp s g
    let w := tyBits f.ty
    let act := fun (ok : List (Nat × Hit)) (t : State) =>
      if ok.isEmpty then t
      else
        let others := (byWord ok).filter (fun q => !inPad q)
        let t := endAhead g t
        let r := runPads w f.ty.toNat op (atomLanes s f op returns) ((byWord ok).filter inPad) t
        let o := atomOuts op w f.data.toNat r.1
        let u := if returns then
            addPend g (lanesIn ok) ((regsOf f.data.toNat w 0).map (fun q => Reg.v q.1) ++ (if op = 7 && pd ≠ 0 then [.p pd] else []))
              (.atomic o.1 o.2 pd others.length) none r.2
          else r.2
        others.foldl (fun u q => sendAtom { id := 0, gid := g, core := gr.core, part := gr.part, team := gr.team, loc := q.1, va := accessVa s f (q.2.headD 0) 0,
                                            width := w / 8, ty := f.ty.toNat, op := op, lanes := atomLanes s f op returns q.2,
                                            pend := if returns then some t.ids.msg else none, sent := s.time, pc := s.cur.pc } u) u
    let zl := if s.cur.ext.zero && returns then (Mask.toList s.cur.lanes).filter (fun l => !(active s).getLsbD l) else []
    let zero : LaneOut := { v := regsOf f.data.toNat w 0, p := if op = 7 then [(pd, false)] else [] }
    runLanes (laneAccess s f (w / 8) .atomic) act (fun s => zl.foldl (fun s l => putOut g l zero s) s) s) s0

/-- ATOM_ADD (R297). -/
def execAtomAdd (f : FM) (s : State) : Out := .next (atomic (.atomAdd f) f 0 true 0 s)
/-- ATOM_MIN (R297). -/
def execAtomMin (f : FM) (s : State) : Out := .next (atomic (.atomMin f) f 1 true 0 s)
/-- ATOM_MAX (R297). -/
def execAtomMax (f : FM) (s : State) : Out := .next (atomic (.atomMax f) f 2 true 0 s)
/-- ATOM_AND (R297). -/
def execAtomAnd (f : FM) (s : State) : Out := .next (atomic (.atomAnd f) f 3 true 0 s)
/-- ATOM_OR (R297). -/
def execAtomOr (f : FM) (s : State) : Out := .next (atomic (.atomOr f) f 4 true 0 s)
/-- ATOM_XOR (R297). -/
def execAtomXor (f : FM) (s : State) : Out := .next (atomic (.atomXor f) f 5 true 0 s)
/-- ATOM_EXCH (R297). -/
def execAtomExch (f : FM) (s : State) : Out := .next (atomic (.atomExch f) f 6 true 0 s)
/-- ATOM_CAS (R299). -/
def execAtomCas (pd : BitVec 3) (f : FM) (s : State) : Out := .next (atomic (.atomCas pd f) f 7 true pd.toNat s)
/-- ATOM_LD (R297). -/
def execAtomLd (f : FM) (s : State) : Out := .next (atomic (.atomLd f) f 8 true 0 s)
/-- ATOM_ST (R297). -/
def execAtomSt (f : FM) (s : State) : Out := .next (atomic (.atomSt f) f 6 false 0 s)
/-- RED_ADD (R297). -/
def execRedAdd (f : FM) (s : State) : Out := .next (atomic (.redAdd f) f 0 false 0 s)
/-- RED_MIN (R297). -/
def execRedMin (f : FM) (s : State) : Out := .next (atomic (.redMin f) f 1 false 0 s)
/-- RED_MAX (R297). -/
def execRedMax (f : FM) (s : State) : Out := .next (atomic (.redMax f) f 2 false 0 s)
/-- RED_AND (R297). -/
def execRedAnd (f : FM) (s : State) : Out := .next (atomic (.redAnd f) f 3 false 0 s)
/-- RED_OR (R297). -/
def execRedOr (f : FM) (s : State) : Out := .next (atomic (.redOr f) f 4 false 0 s)
/-- RED_XOR (R297). -/
def execRedXor (f : FM) (s : State) : Out := .next (atomic (.redXor f) f 5 false 0 s)

/-! ### Application -/

/-- The cluster number of a service group in a partition (R104). -/
def groupClus (s : State) (p holder : Nat) : Option Nat := (vdt s p (nbits holder 7 5)).map (fun d => d * 16 + nbits holder 3 0)
/-- The holder identity of a cluster's service group in a partition (R104). -/
def clusHolder (s : State) (p c : Nat) : Nat := 3 * 2 ^ 21 + vdieOf s p (c / 16) * 32 + c % 16
/-- The holder identity of a copy channel (R104): virtual die, core within the die, channel. -/
def chanHolder (s : State) (p c ch : Nat) : Nat := 2 * 2 ^ 21 + vdieOf s p (coreDie c) * 128 + c % 64 * 2 + ch

/-- The acknowledgement of an atomic: its W reaches the group (R130, R143). -/
def ackAtom (a : Atom) (w : Nat) (s : State) : State :=
  modGrp a.gid (fun x => { x with largestW := max x.largestW w, largestWd := max x.largestWd w })
    { s with net := { s.net with atoms := s.net.atoms.filter (fun x => x.id != a.id) } }

/-- Results of a request reach the pending write that waits for them. -/
def answerAtom (a : Atom) (rs : List (AtomLane × Nat)) (s : State) : State :=
  match a.pend with
  | none => s
  | some pid => modGrp a.gid (fun x => { x with pend := x.pend.map (fun p =>
      if p.id != pid then p
      else match p.kind with
        | .atomic vals preds pd left =>
          let d := (p.regs.findSome? (fun r => match r with | .v n => some n | _ => none)).getD 0
          let o := atomOuts a.op (8 * a.width) d rs
          { p with kind := .atomic (vals ++ o.1) (preds ++ o.2) pd (left - 1) }
        | _ => p) }) s

/-- Every arrival of a package barrier in a generation learns what advanced it (R304, R307). -/
def endGeneration (loc : Loc) (gen : Nat) (a : Ante) (s : State) : State :=
  (keysOf s.groups (fun _ x => !x.waits.isEmpty)).foldl (fun s g => modGrp g (fun x => { x with waits := x.waits.map (fun w => match w.kind with
    | .pkg k l n none => if l == loc && n == gen then { w with kind := .pkg k l n (some a) } else w
    | _ => w) }) s) s

/-- A package barrier's arrival finds a word: its new value and what the arrival waits for (R304, R481). [log 42, DEDUCED.] -/
def applyPkg (a : Atom) (old : Nat) (s : State) : Option Nat × State :=
  let n := ((a.lanes.head?).map (fun l => l.operand.toNat)).getD 1
  let gen := old / 2 ^ 32
  let cnt := (old % 2 ^ 32 + 1) % 2 ^ 32
  match (grp s a.gid).waits.find? (fun w => some w.id == a.wait_) with
  | none => (none, s)
  | some w => match w.kind with
    | .pkg k _ _ _ =>
      if old % 2 ^ 32 = 0xFFFFFFFF then
        (none, releaseWait a.gid w 11 {} (kPut a.gid k (.ofNat 64 (gen * 2 ^ 32 + s.map.version % 2 ^ 24 * 256 + 0x81)) s))
      else
        let (e, s) := grpEvent s a.gid (lowest w.lanes)
        let s := setWait a.gid w.id (.pkg k a.loc gen none) s
        if cnt = n then (some ((gen + 1) % 2 ^ 32 * 2 ^ 32), endGeneration a.loc gen e s) else (some (gen * 2 ^ 32 + cnt), s)
    | _ => (none, s)

/-- A word of a register page as an atomic meets it: an access of a level-0 group to the register page returns 0 and stores nothing
(R401). -/
def atomReg (a : Atom) (p page off : Nat) (s : State) : List (AtomLane × Nat) × State :=
  if page = 0 && (grp s a.gid).level = 0 then (a.lanes.map (fun l => (l, 0)), s)
  else
    let r := atomRun a.ty a.op a.lanes (leNat ((List.range a.width).map (fun i => regByte s p page (off + i))))
    (r.1, if a.op = 8 then s else match regStore s p page off (.ofNat 64 r.2) with
      | some it => { s with agenda := s.agenda ++ [it] }
      | none => s)

/-- The region's service group counts a request of a cluster of the partition while a window is open (R144). [log 41, DEDUCED.] -/
def noteAtom (a : Atom) (home w : Nat) (s : State) : State :=
  let c := coreClus a.core
  noteTok a.part (((tokenAt s a.part a.va home).map (fun t => t.base)).getD 1) (fun t =>
    { t with winCount := if t.winAt.isSome && (clus s c).holder == some a.part then t.winCount.put c (t.winCount.get 0 c + 1) else t.winCount
             lastW := max t.lastW w }) (noteMove a.part a.va w a.id a.sent s)
/-- The die whose counter times an atomic on a region: its service group's (R143). -/
def atomDie (s : State) (p va home : Nat) : Nat := (((tokenAt s p va home).bind (fun t => groupClus s p t.owner)).map clusDie).getD home
/-- Does an atomic come before the instant from which a migration lets its region's service group act (R144)? -/
def atomEarly (s : State) (p va home : Nat) : Bool := (tokenAt s p va home).any (fun t => decide (gtime s (atomDie s p va home) < t.notBefore))
/-- The value that an atomic leaves in a cell of this module: the cell's C, and what its region learns, is the atomic's W (R114, R130, R143). -/
def atomPut (p : Nat) (lau : Option Nat) (va key w : Nat) (l : List Byte) (s : State) : State :=
  modLine (lineOf key) (fun x => { x with c := w }) (applyAt key l (moved p lau (lineOf key) l.length true (shadowWrite p va key s))).2

/-- A request applies to a cell of this module: W is gtime at the service group's die (R143). -/
def applyCell (a : Atom) (key : Nat) (s : State) : State :=
  let home := lineHome (lineOf key)
  let w := gtime s (atomDie s a.part a.va home)
  let old := leNat (cellBytes s.mem key a.width)
  let put := fun (n : Nat) (s : State) => atomPut a.part (teamLaunch s a.team) a.va key w (leBytes a.width n) s
  let s := noteAtom a home w (countAt a.part home (64 + 18) 1 s)
  if a.op = pkgOp then
    let r := applyPkg a old s
    ackAtom a w (match r.1 with
      | some n => put n r.2
      | none => r.2)
  else
    let r := atomRun a.ty a.op a.lanes old
    ackAtom a w (answerAtom a r.1 (if a.op = 8 then s else put r.2 s))

/-- The place of a request's word: of one to the module's own number the one that it lands at (R92). -/
def atomPlace (s : State) (a : Atom) : Loc :=
  match a.loc with
  | .remote m gpa => match ownPlace s a.part m gpa .atomic with
    | some (.ok (_, _, h)) => h.loc
    | _ => a.loc
  | l => l
/-- Does an older request of a lane of a request stand before it, to a byte of its word (R136, R143)? -/
def atomBehind (s : State) (a : Atom) : Bool :=
  s.net.atoms.any (fun b => decide (b.id < a.id) && b.gid == a.gid && meet a.part (atomPlace s b) b.width (atomPlace s a) a.width
    && b.lanes.any (fun l => a.lanes.any (fun m => m.lane == l.lane)))
/-- ATOMIC_APPLY (R299, R143). A request applies once no older one of its lanes to a byte of its word stands before it, and no earlier
than its region's migration allows (R144); a line that the host caches is asked back first (R148). For a word of another module, y is the W
and nums what each lane found; a word of the module's own number applies here, under the rights of a remote module (R92, R411). -/
def execAtomicApply (s : State) : Out :=
  .next (match s.net.atoms.find? (fun a => a.id == s.ev.x) with
    | none => s
    | some a =>
      if atomBehind s a || a.refused then s
      else match a.loc with
        | .cell key =>
          if portShut s (lineOf key) || atomEarly s a.part a.va (lineHome (lineOf key)) then s else hostFree (if a.op = 8 then [] else [lineOf key]) (fun s => drew (applyCell a key s)) s
        | .reg p _ page off =>
          let r := atomReg a p page off s
          ackAtom a (gtime s (coreDie a.core)) (answerAtom a r.1 r.2)
        | .remote m gpa =>
          if !linkOpen s then s else
          let far := movedFar a.part (teamLaunch s a.team) (coreDie a.core) a.width true
          match ownPlace s a.part m gpa .atomic with
          | some (.error 0) => s
          | some (.error code) => loseRequest a.id code s
          | some (.ok (q, va, { loc := .cell key, .. })) =>
            if atomEarly s q va (lineHome (lineOf key)) then s
            else hostFree (if a.op = 8 then [] else [lineOf key]) (fun s => drew (applyCell { a with part := q, va := va, loc := .cell key } key (far s))) s
          | some (.ok (_, _, { loc := .reg p _ page off, .. })) =>
            let r := atomReg a p page off (far s)
            ackAtom a (gtime s (coreDie a.core)) (answerAtom a r.1 r.2)
          | _ =>
            let w := min s.ev.y (farBound s (coreDie a.core))
            let s := noteMove a.part a.va w a.id a.sent (noteW a.part a.va w (far s))
            if a.op = pkgOp then ackAtom a w (applyPkg a (s.ev.nums.headD 0) s).2
            else ackAtom a w (answerAtom a (a.lanes.zip (s.ev.nums ++ List.replicate 32 0)) s)
        | .pad _ _ => ackAtom a 0 s)

/-! ### Migration -/

/-- An atomic region moves to another cluster's service group; the lenders and grants stay (R110, R144). [log 41, DEDUCED.] -/
def migrate (t : Token) (c : Nat) (s : State) : State :=
  let d := clusDie c
  modTok t.part t.base (fun x => { x with owner := clusHolder s t.part c, notBefore := max t.lastW (gtime s d) + 20, winAt := some s.time, winCount := [] }) s

/-- ATOMIC_WINDOW_END (R144). After 50 µs, a cluster that sent more than half of the window's atomics, and at least 256, takes the
region, and a new window starts; else none is open until the next migration. [log 41, DEDUCED.] -/
def execAtomicWindowEnd (s : State) : Out :=
  .next (match s.tokens.find? (fun t => t.part == s.ev.x && t.base == s.ev.y) with
    | none => s
    | some t =>
      if !t.atomic || !t.winAt.any (fun w => decide (w + 50000 ≤ s.time)) then s
      else
        let total := (t.winCount.map Prod.snd).sum
        match t.winCount.find? (fun q => groupClus s t.part t.owner != some q.1 && decide (total < 2 * q.2) && decide (256 ≤ q.2)) with
        | some q => migrate t q.1 s
        | none => noteTok t.part t.base (fun x => { x with winAt := none, winCount := [] }) s)

/-! ### Requests of other modules -/

/-- The places of the bytes of a request that another module sends to a partition, with their addresses there: the first of R447's codes that
refuses it, or code 0 while it waits for a right (R109, R411, R450). -/
def requestPlaces (s : State) (q m gpa n : Nat) (acc : Acc) : Except Nat (List (Nat × Loc)) :=
  (List.range n).mapM (fun i => match importPlace s q m (gpa + i) acc with
    | .error e => .error e
    | .ok (va, h) => match h.loc with
      | .cell key => if !acc.writes && isPoison s key then .error 0xB else .ok (va, h.loc)
      | .reg _ _ _ _ => .ok (va, h.loc)
      | _ => .error 0xB)
/-- A line is handed to another module under a lease: its expiry and C (R125). -/
def leaseLine (q va line : Nat) (s : State) : (Nat × Nat) × State :=
  let h := lineHome line
  match leaseOf s q va h with
  | some l => ((gtime s h + l, (lineSt s line).c), modLine line (fun x => { x with h := max x.h (gtime s h + l) }) s)
  | none => ((0, (lineSt s line).c), s)
/-- The line of a place in memory. -/
def Loc.lines (l : Loc) : List Nat := match l with | .cell k => [lineOf k] | _ => []
/-- A read of another module's is answered: each byte at its home, each line with its lease (R125, R130, R401, R411). -/
def serveRead (q : Nat) (ps : List (Nat × Loc)) (s : State) : List Byte × List (Nat × Nat) × State :=
  let data := ps.map (fun x => match x.2 with
    | .cell k => cellGet s.mem k
    | .reg p _ page o => regByte s p page o
    | _ => 0)
  let r := (keyRuns ((ps.filter (fun x => !x.2.lines.isEmpty)).filterMap (fun x => (memKey q x.2).map (fun k => (x.1, k, (0 : Byte)))))).foldl (fun (r : List (Nat × Nat) × State) x =>
    let y := leaseLine q x.1 (lineOf x.2.1) (moved q none (lineOf x.2.1) x.2.2.length false r.2)
    (r.1 ++ [y.1], y.2)) ([], s)
  (data, r.1, r.2)
/-- A write of another module's applies at its homes: its largest W (R130, R401, R411). -/
def serveWrite (q : Nat) (ps : List (Nat × Loc)) (l : List Byte) (s : State) : Nat × State :=
  match ps.head? with
  | some (_, .reg p _ page o) => (0, match regStore s p page o (.ofNat 64 (leNat l)) with
    | some it => { s with agenda := s.agenda ++ [it] }
    | none => s)
  | _ => (keyRuns ((ps.zip l).filterMap (fun x => (memKey q x.1.2).map (fun k => (x.1.1, k, x.2))))).foldl (fun (r : Nat × State) x =>
      let y := homeWrite q none x.1 x.2.1 x.2.2 r.2
      (max r.1 y.1, y.2)) (0, s)

/-- REMOTE_REQUEST (R411). Module x asks for its partition y: the target partition z must import the two. The request runs in z's context
under the rights of the remote module (R109): a read of nums[0] bytes, a write of the data (flag), or an atomic with nums = [width, type,
operation, operand, swap]. It waits, and comes again, where a right is on its way, the host caches the line, or a migration bounds it
(R144, R148, R450). [log 18, DEDUCED.] -/
def execRemoteRequest (s : State) : Out :=
  let q := s.ev.z
  let m := s.ev.x
  let gpa := s.ev.word.toNat
  let n := s.ev.nums.headD 0
  let reply := fun (ok : Bool) (l : List Byte) (t : List (Nat × Nat)) (s : State) => { s with host := { s.host with out := s.host.out ++ [.remoteReply ok l t] } }
  let on := fun (n : Nat) (acc : Acc) (run : List (Nat × Loc) → State → State) => match requestPlaces s q m gpa n acc with
    | .error 0 => s
    | .error _ => reply false [] [] s
    | .ok ps => if acc.writes then hostFree (ps.flatMap (fun x => x.2.lines)).eraseDups (fun s => drew (run ps s)) s else drew (run ps s)
  .next (if !linkOpen s then s
    else if (part s q).state != .ready || !(part s q).imports.contains (m, s.ev.y) then reply false [] [] s
    else if 5 ≤ s.ev.nums.length then on n .atomic (fun ps s => match ps with
      | (va, .cell key) :: _ =>
        let home := lineHome (lineOf key)
        if atomEarly s q va home then s
        else
          let w := gtime s (atomDie s q va home)
          let old := leNat (cellBytes s.mem key n)
          let r := atomRun (s.ev.nums.getD 1 0) (s.ev.nums.getD 2 0) [⟨0, .ofNat 64 (s.ev.nums.getD 3 0), .ofNat 64 (s.ev.nums.getD 4 0)⟩] old
          let a : Atom := { id := 0, gid := 0, core := 2 ^ 40, part := q, team := 0, loc := .cell key, va := va, width := n, ty := 0, op := 0, lanes := [], pend := none, sent := 0 }
          reply true (leBytes n old) [(w, 0)] (atomPut q none va key w (leBytes n r.2) (noteAtom a home w (countAt q home (64 + 18) 1 s)))
      | (_, .reg p _ page off) :: _ =>
        let old := leNat ((List.range n).map (fun i => regByte s p page (off + i)))
        let op := s.ev.nums.getD 2 0
        let r := atomRun (s.ev.nums.getD 1 0) op [⟨0, .ofNat 64 (s.ev.nums.getD 3 0), .ofNat 64 (s.ev.nums.getD 4 0)⟩] old
        reply true (leBytes n old) [] (if op = 8 then s else match regStore s p page off (.ofNat 64 r.2) with
          | some it => { s with agenda := s.agenda ++ [it] }
          | none => s)
      | _ => reply false [] [] s)
    else if s.ev.flag then on s.ev.data.length .store (fun ps s => let r := serveWrite q ps s.ev.data s; reply true [] [(r.1, 0)] r.2)
    else on n .load (fun ps s => let r := serveRead q ps s; reply true r.1 r.2.1 r.2.2))

end Sys2Proof.Machine
end

