-- ==== Sys2Proof/Machine/Tokens.lean ====
section
/-!
DEFINITION. Owner tokens: the token instructions (R111 to R119, R306, R453, R454), their queue and moves at the home (R114, R115,
R450), and the settlements of completed and lost holders (R120, R455, R456).
-/
namespace Sys2Proof.Machine

/-- The token of a partition at a base. -/
def tokenBase (s : State) (p base : Nat) : Option Token := s.tokens.find? (fun t => t.part == p && t.base == base)
/-- Entries of a partition homed on a die (R102). [log 44, DEDUCED.] -/
def tokensOn (s : State) (p home : Nat) : Nat := (s.tokens.filter (fun t => t.part == p && t.home == home)).length
/-- Has the home of a token no free entry within the context's quota (R102)? -/
def noEntry (s : State) (p home : Nat) : Bool :=
  decide (home < 256) && (decide ((part s p).ctx.quota.get 0 (vdieOf s p home) ≤ tokensOn s p home)
    || decide (Config.tokenEntries ≤ (s.tokens.filter (fun t => t.home == home)).length))

/-! ### Judgement -/

/-- The code of R453 by which an operation on an entry is refused, as the operations before it have left the entry (R111, R113); none when it
stands. Halves that are homed apart do not merge. [log 43, DEDUCED.] -/
def tokRefusal (s : State) (p : Nat) (t : Token) (op : TokOp) : Option Nat :=
  let lender := t.outer = op.holder || t.inner = op.holder
  let role : Bool := match op.kind with
    | .ret => if t.atomic then lender else t.owner = op.holder
    | .share => t.owner = op.holder || (t.atomic && t.sharers.contains op.holder)
    | _ => t.owner = op.holder
  let buddy := tokenBase s p (t.base + 2 ^ t.size)
  let k := holderKind op.target
  if op.size ≠ t.size then some 1
  else if !role then some 2
  else match op.kind with
  | .lend => if k = 0 || k = 7 || op.target = t.owner then some 3 else if t.outer ≠ 0 && t.inner ≠ 0 then some 4 else none
  | .share => if k = 0 || k = 7 || op.target = t.owner then some 3 else if t.sharers.contains op.target then some 8
    else if 1024 ≤ t.sharers.length then some 9 else none
  | .ret => if t.outer = 0 && t.inner = 0 then some 5 else none
  | .tdrop => if t.outer ≠ 0 || t.inner ≠ 0 then some 6 else none
  | .split => if t.size = 16 then some 7 else if noEntry s p t.home then some 0xB else none
  | .merge => match buddy with
    | some b => if b.size = t.size && b.owner = t.owner && b.outer = t.outer && b.inner = t.inner && b.lease = t.lease && b.pub = t.pub && b.home = t.home
        then none else some 7
    | none => some 7

/-- Does the share count let an operation take effect (R115)? -/
def shareOk (s : State) (p : Nat) (t : Token) (op : TokOp) : Bool :=
  match op.kind with
  | .share => true
  | .ret => if t.atomic then t.sharers.all (fun x => x == op.holder) else t.sharers.isEmpty
  | .merge => t.sharers.isEmpty && (tokenBase s p (t.base + 2 ^ t.size)).all (fun b => b.sharers.isEmpty && b.moving.isNone)
  | _ => t.sharers.isEmpty

/-! ### Effects -/

/-- The issuing group goes on past its token instruction (R111). -/
def tokDone (gid : Option Nat) (s : State) : State :=
  match gid with
  | none => s
  | some g => match (grp s g).stall with
    | some ⟨.token, arr, _⟩ => finish arr (modGrp g (fun x => { x with stall := none }) s)
    | _ => s
/-- The issuing group stops at its token instruction (R453). -/
def tokStop (gid : Option Nat) (code ka : Nat) (s : State) : State :=
  match gid with
  | none => s
  | some g => match (grp s g).stall with
    | some ⟨.token, arr, _⟩ => raise arr 0xA code ka arr.lanes arr.lanes 0 false (modGrp g (fun x => { x with stall := none }) s)
    | _ => s

/-- The writes of a team that lie in a region leave every buffer (R114, R128). -/
def drainRegion (p base size holder : Nat) (s : State) : State :=
  let inR := fun (e : WEntry) => e.part == p && base ≤ e.va && e.va < base + 2 ^ size && teamHolder s e.team == holder
  (keysOf s.cores (fun _ c => c.wcb.any inR)).foldl (fun s c => drainWhere c inR s) s
/-- The home fixes the time at which a move completes, once the drain is done (R114, R458). [log 45, DEDUCED.] -/
def fixTime (p base : Nat) (s : State) : State :=
  modTok p base (fun t => match t.moving with
    | some (op, tm) => if tm = noTime && !regionBusy s t op then
        { t with moving := some (op, max op.wct (gtime s (tokDie t)) + 20 + (if (die s (tokDie t)).alarm then 40 else 0)) } else t
    | none => t) s

/-- The halves of a region (R116): each keeps the last move, for nothing moves (R106). -/
def splitTok (p base : Nat) (s : State) : State :=
  match tokenBase s p base with
  | none => s
  | some t =>
    let lo := { t with size := t.size - 1 }
    let hi := { lo with base := t.base + 2 ^ (t.size - 1), waiting := [] }
    let s := dropEntry p base s
    { s with tokens := (s.tokens.map (fun x => if x.part == p && x.base == base then lo else x)) ++ [hi] }
/-- A region and its upper buddy become one: the later of their last moves and of their writes' completion times stand (R106, R114, R116); what
waited at the buddy finds no entry of its region (R453). [log 43, DEDUCED.] -/
def mergeTok (p base : Nat) (s : State) : State :=
  match tokenBase s p base with
  | none => s
  | some t =>
    let b := (tokenBase s p (base + 2 ^ t.size)).getD t
    let l := if t.lastAnte.time < b.lastAnte.time then b else t
    let m := { t with size := t.size + 1, last := l.last, lastAnte := l.lastAnte, lastW := max t.lastW b.lastW }
    let s := b.waiting.foldl (fun s o => tokStop o.gid 1 b.base s) (dropEntry p (base + 2 ^ t.size) (dropEntry p base s))
    { s with tokens := (s.tokens.filter (fun x => !(x.part == p && x.base == base + 2 ^ t.size))).map (fun x => if x.part == p && x.base == base then m else x) }

/-- A moving operation changes its entry (R114): the lenders, the owner, the shares. -/
def moveEntry (op : TokOp) (now : Nat) (t : Token) : Token :=
  match op.kind with
  | .lend =>
    let t := if t.outer = 0 then { t with outer := t.owner } else { t with inner := t.owner }
    let t := { t with owner := op.target }
    if t.atomic then { t with sharers := [op.holder], winAt := some now, winCount := [], notBefore := 0 } else t
  | .ret =>
    let t := { t with sharers := if t.atomic then [] else t.sharers, winAt := none, winCount := [] }
    if t.inner ≠ 0 then { t with owner := t.inner, inner := 0 } else { t with owner := t.outer, outer := 0 }
  | .share => { t with sharers := t.sharers ++ [op.target] }
  | _ => t

/-- An operation takes effect at its entry (R114, R116). -/
def tokEffect (p : Nat) (t : Token) (op : TokOp) (s : State) : State :=
  let s := countAt p (tokDie t) (64 + 19) 1 s
  let s := match (if op.kind == .share then none else op.gid), op.ante with
    | some g, some a => recordWait s g (((grp s g).stall.map (fun x => lowest x.arr.lanes)).getD 0) 12 op.at_ a
    | _, _ => s
  match op.kind with
  | .split => tokDone op.gid (splitTok p t.base s)
  | .merge => tokDone op.gid (mergeTok p t.base s)
  | _ =>
    -- h: the holder whose writes are written through (R114)
    let h := if op.kind == .ret || op.kind == .share then t.owner else op.holder
    let s := drainRegion p t.base t.size h s
    let mark := s.ids.msg
    fixTime p t.base (modTok p t.base (fun x => { moveEntry op s.time x with moving := some ({ op with mark := mark, eff := s.time, wct := t.lastW }, noTime) }) s)

/-- The lower half whose `tmerge` an operation on the upper half waits behind: one that came no later (R115, R116). -/
def mergeAhead (s : State) (p : Nat) (t : Token) (op : TokOp) : Bool :=
  decide (2 ^ t.size ≤ t.base) && (tokenBase s p (t.base - 2 ^ t.size)).any (fun l => l.size == t.size
    && l.waiting.any (fun o => o.kind == .merge && o.size == t.size && decide (o.at_ ≤ op.at_)))
/-- The oldest waiting operations of an entry act as far as they can (R111, R115, R453); `n` bounds how many. -/
def tokTry (p base : Nat) : Nat → State → State
  | 0, s => s
  | n + 1, s =>
    match tokenBase s p base with
    | none => s
    | some t => match t.moving, t.waiting with
      | none, op :: rest =>
        match tokRefusal s p t op with
        | some c => tokTry p base n (tokStop op.gid c t.base (modTok p base (fun x => { x with waiting := rest }) s))
        | none =>
          if !shareOk s p t op || (op.gid.isSome && mergeAhead s p t op) then s
          else tokTry p base n (tokEffect p t op (modTok p base (fun x => { x with waiting := rest }) s))
      | _, _ => s
/-- The queue of one entry acts. -/
def tokOne (p base : Nat) (s : State) : State := tokTry p base (((tokenBase s p base).map (fun t => t.waiting.length)).getD 0) s
/-- The queue of an entry of a size acts, and what a `tmerge` ties to it: the queues of its two neighbours of that size (R115, R116). -/
def tokBeside (p base size : Nat) (s : State) : State :=
  let n := 2 ^ size
  tokOne p (base + n) (if n ≤ base then tokOne p (base - n) (tokOne p base s) else tokOne p base s)
/-- The queue of an entry acts, and what is tied to it. -/
def tokRun (p base : Nat) (s : State) : State := tokBeside p base (((tokenBase s p base).map (fun t => t.size)).getD 16) s
/-- An operation reaches its entry. -/
def tokAsk (p base : Nat) (op : TokOp) (s : State) : State :=
  tokRun p base (modTok p base (fun t => { t with waiting := t.waiting ++ [op] }) s)

/-- What waits on the share count of an entry learns what has lowered it: its own queue, and a `tmerge` at its lower half (R116, R307). -/
def tellWaits (p base : Nat) (a : Ante) (s : State) : State :=
  { s with tokens := s.tokens.map (fun t =>
      if t.part == p && t.base == base then { t with waiting := t.waiting.map (fun o => { o with ante := some a }) }
      else if t.part == p && t.base + 2 ^ t.size == base then { t with waiting := t.waiting.map (fun o => if o.kind == .merge then { o with ante := some a } else o) }
      else t) }
/-- A share is given back: at once, ahead of what waits (R111, R117); what it lets act learns of it (R307). -/
def dropShare (p base holder : Nat) (a : Ante) (s : State) : State :=
  tokRun p base (tellWaits p base a (modTok p base (fun t => { t with sharers := t.sharers.erase holder, last := a.event, lastAnte := a }) s))

/-! ### The words -/

/-- A token instruction of a group: its earlier writes leave the buffer, and it reports a lost one (R128, R448). -/
def tokWord (i : Instr) (run : Nat → State → State) : State → State := fun s0 =>
  judge i [] s0.cur.lanes (fun s => orLost (fun s => run s.cur.gid (drainGroup s.cur.gid s)) s) s0

/-- The entry that an instruction names exactly (R113); `tmerge` names its lower half. -/
def tokNamed (s : State) (p ka size : Nat) : Option Token := s.tokens.find? (fun t => t.part == p && t.base == ka && t.size == size)

/-- An instruction that queues at its entry (R111, R113). -/
def tokOpWord (i : Instr) (f : FT) (kind : TokKind) : State → State := tokWord i (fun g s =>
  let gr := grp s g
  let ka := (kRead s f.a.toNat).toNat
  let size := if kind = .merge then f.size.toNat - 1 else f.size.toNat
  match tokNamed s gr.part ka size with
  | none => stopAll 0xA 1 ka s.cur.lanes s
  | some t =>
    if kind = .merge && (f.size.toNat = 0 || 55 < f.size.toNat || ka % 2 ^ f.size.toNat ≠ 0) then stopAll 0xA 1 ka s.cur.lanes s
    else
      let (ev, s) := grpEvent s g (lowest s.cur.lanes)
      let op : TokOp := { kind := kind, holder := teamHolder s gr.team, target := bits (kRead s f.b.toNat) 23 0, gid := some g, at_ := s.time, size := size, ev := ev }
      let s := modGrp g (fun x => { x with stall := some ⟨.token, s.cur, s.time⟩ }) s
      drew (tokAsk gr.part t.base op s))

/-- TMAKE (R118). -/
def execTmake (f : FT) (s : State) : Out :=
  .next (tokWord (.tmake f) (fun g s =>
    let gr := grp s g
    let ka := (kRead s f.a.toNat).toNat
    let sz := f.size.toNat
    let clash := s.tokens.any (fun t => t.part == gr.part && decide (ka < t.base + 2 ^ t.size) && decide (t.base < ka + 2 ^ sz))
    let bad := sz < 16 || 55 < sz || ka % 2 ^ sz ≠ 0 || 2 ^ 56 < ka + 2 ^ sz || 12 ≤ f.lease.toNat || clash
    match translate s gr.part gr.core ka 1 .load with
    | .error _ => stopAll 0xA 0xA ka s.cur.lanes s
    | .ok h =>
      if bad then stopAll 0xA 0xA ka s.cur.lanes s
      else if noEntry s gr.part h.home then stopAll 0xA 0xB ka s.cur.lanes s
      else
        let (ev, s) := grpEvent s g (lowest s.cur.lanes)
        let t : Token := { part := gr.part, base := ka, size := sz, home := h.home, owner := teamHolder s gr.team, lease := f.lease.toNat, pub := f.pub,
                           last := ev.event, lastAnte := ev }
        done (countAt gr.part (tokDie t) (64 + 19) 1 { s with tokens := s.tokens ++ [t] })) s)
/-- TDROP (R114). -/
def execTdrop (f : FT) (s : State) : Out := .next (tokOpWord (.tdrop f) f .tdrop s)
/-- TLEND (R114). -/
def execTlend (f : FT) (s : State) : Out := .next (tokOpWord (.tlend f) f .lend s)
/-- TRET (R114). -/
def execTret (f : FT) (s : State) : Out := .next (tokOpWord (.tret f) f .ret s)
/-- TSPLIT (R116). -/
def execTsplit (f : FT) (s : State) : Out := .next (tokOpWord (.tsplit f) f .split s)
/-- TMERGE (R116). -/
def execTmerge (f : FT) (s : State) : Out := .next (tokOpWord (.tmerge f) f .merge s)
/-- TSHARE (R114). -/
def execTshare (f : FT) (s : State) : Out := .next (tokOpWord (.tshare f) f .share s)
/-- TUNSHARE (R117). The team's share ends at once. -/
def execTunshare (f : FT) (s : State) : Out :=
  .next (tokWord (.tunshare f) (fun g s =>
    let gr := grp s g
    let ka := (kRead s f.a.toNat).toNat
    match tokNamed s gr.part ka f.size.toNat with
    | none => stopAll 0xA 1 ka s.cur.lanes s
    | some t =>
      if !t.sharers.contains (teamHolder s gr.team) then stopAll 0xA 2 ka s.cur.lanes s
      else
        let (ev, s) := grpEvent s g (lowest s.cur.lanes)
        done (countAt gr.part (tokDie t) (64 + 19) 1 (dropShare gr.part t.base (teamHolder s gr.team) ev s))) s)

/-- The four words of an entry (R106). -/
def entryWords (t : Token) : List DWord :=
  [.ofNat 64 (t.base / 2 ^ 16 * 2 ^ 16 + t.size),
   .ofNat 64 (t.sharers.length * 2 ^ 48 + t.owner * 2 ^ 24 + t.lease * 2 ^ 20 + bit t.pub * 2 ^ 19 + (if t.moving.isSome then 2 else 1) * 2 ^ 17),
   .ofNat 64 (t.outer * 2 ^ 24 + t.inner), t.last]
/-- kd to kd+3 receive the entry that covers an address; zeros when none does (R119). -/
def putEntry (g kd va : Nat) (s : State) : State :=
  let ws := ((tokenCover s (grp s g).part va).map entryWords).getD [0, 0, 0, 0]
  ((List.range 4).zip ws).foldl (fun s q => kPut g (kd + q.1) q.2 s) s
/-- Does a team own or share the region that covers an address, its right begun (R119, R450)? -/
def holdsRegion (s : State) (g va : Nat) : Bool :=
  let gr := grp s g
  let h := teamHolder s gr.team
  match tokenCover s gr.part va with
  | none => false
  | some t => (t.owner == h || t.sharers.contains h) && !(match t.moving with
    | some (op, _) => op.kind == .tdrop || (op.kind == .share && op.target == h) || (op.kind == .lend && t.atomic && op.holder == h)
        || (op.kind != .share && t.owner == h)
    | none => false)
/-- The acquire of a completed `tquery.hold`: no copy made before it serves a later load of the group (R119, R132). -/
def acquire (g : Nat) (s : State) : State := modGrp g (fun x => { x with floorL1 := max x.floorL1 s.time, floorL2 := max x.floorL2 s.time }) s

/-- TQUERY (R119). -/
def execTquery (f : FT) (s : State) : Out :=
  .next (tokWord (.tquery f) (fun g s => done (putEntry g f.d.toNat (kRead s f.a.toNat).toNat s)) s)
/-- TQUERY_HOLD (R119). -/
def execTqueryHold (f : FT) (s : State) : Out :=
  .next (tokWord (.tqueryHold f) (fun g s =>
    let va := (kRead s f.a.toNat).toNat
    if holdsRegion s g va then done (acquire g (putEntry g f.d.toNat va s))
    else drew (modGrp g (fun x => { x with stall := some ⟨.hold f.d.toNat va, s.cur, s.time⟩ }) s)) s)

/-! ### The events -/

/-- TQUERY_HOLD_END (R119, R121). The record names the entry's last move. -/
def execTqueryHoldEnd (s : State) : Out :=
  let g := s.ev.x
  .next (match (grp s g).stall with
    | some ⟨.hold k va, arr, since⟩ =>
      if !holdsRegion s g va || (team s (grp s g).team).state ≠ .resident then s
      else
        let a := ((tokenCover s (grp s g).part va).map (fun t => t.lastAnte)).getD {}
        let s := acquire g (putEntry g k va (modGrp g (fun x => { x with stall := none }) s))
        recordWait (finish arr s) g (lowest arr.lanes) 13 since a
    | _ => s)

/-- TOKEN_MOVE_EFFECT (R114, R115). The oldest waiting operation whose share condition holds takes effect. -/
def execTokenMoveEffect (s : State) : Out := .next (tokRun s.ev.x s.ev.y s)

/-- Lanes that waited for a right that a move creates issue again (R450). -/
def wakeRights (p : Nat) (s : State) : State :=
  { s with groups := s.groups.map (fun g => if g.2.part == p then
      (g.1, { g.2 with waits := g.2.waits.filter (fun w => match w.kind with | .right _ => false | _ => true) }) else g) }

/-- TOKEN_MOVE_COMPLETE (R114). The home fixes t once the drain is done; at t the entry is held again, or free after `tdrop`. The move's event
is made at t (R359). -/
def execTokenMoveComplete (s : State) : Out :=
  let p := s.ev.x
  let base := s.ev.y
  .next (match tokenBase s p base with
    | none => s
    | some t => match t.moving with
      | none => s
      | some (op, tm) =>
        if tm = noTime then fixTime p base s
        else if gtime s (tokDie t) < tm then s
        else
          let s := if op.kind = .tdrop then let s := dropEntry p base s; { s with tokens := s.tokens.filter (fun x => !(x.part == p && x.base == base)) }
            else modTok p base (fun x => { x with moving := none, last := op.ev.event, lastAnte := { op.ev with time := tm } }) s
          let s := if op.kind = .tdrop then t.waiting.foldl (fun s o => tokStop o.gid 1 base s) s else s
          tokBeside p base t.size (wakeRights p (tokDone op.gid s)))

/-- Does an operation wait on a share count: the oldest of an entry that does not move, which a share of it, or of the upper half of a merge,
holds back (R115)? -/
def shareWait (s : State) (p : Nat) (t : Token) (op : TokOp) : Bool :=
  op.gid.isSome && op.kind != .share && t.moving.isNone && t.waiting.head? == some op
    && match op.kind with
      | .merge => !t.sharers.isEmpty || (tokenBase s p (t.base + 2 ^ t.size)).any (fun b => !b.sharers.isEmpty)
      | _ => !shareOk s p t op
/-- SHARE_WAIT_BOUND (R454). The instruction is withdrawn, the shares behind it apply, and its group stops. -/
def execShareWaitBound (s : State) : Out :=
  let p := s.ev.x
  let base := s.ev.y
  .next (match tokenBase s p base with
    | none => s
    | some t => match t.waiting.find? (fun o => shareWait s p t o && decide (o.at_ + 100000 ≤ s.time)) with
      | none => s
      | some op =>
        tokRun p base (tokStop op.gid 0xC base (modTok p base (fun x => { x with waiting := x.waiting.erase op }) s)))

/-! ### Settlements -/

/-- An operation that the module issues for a holder: it has no bound and no group (R120, R459). -/
def ownOp (s : State) (kind : TokKind) (holder target size : Nat) (ev : Ante) : TokOp :=
  { kind := kind, holder := holder, target := target, at_ := s.time, settle := true, size := size, ev := ev }

/-- A completed team's tokens: shares dropped, lent regions returned, owned ones lent to the walker, lender fields rewritten
(R120). -/
def settleTeam (p h : Nat) (s : State) : State :=
  let mine := s.tokens.filter (fun t => t.part == p)
  let ev := fun (d : Nat) (s : State) => unitEvent s p d 0xF0 6 (partyName 0)
  let s := (mine.filter (fun t => t.sharers.contains h)).foldl (fun s t => let r := ev (tokDie t) s; dropShare p t.base h r.1 r.2) s
  let s := ((s.tokens.filter (fun t => t.part == p && t.owner == h && t.outer != 0 && !(t.waiting.any (fun o => o.settle && o.holder == h)) && t.moving.isNone))).foldl
    (fun s t => let r := ev (tokDie t) s; tokAsk p t.base (ownOp s .ret h 0 t.size r.1) r.2) s
  let s := ((s.tokens.filter (fun t => t.part == p && t.owner == h && t.outer == 0 && !(t.waiting.any (fun o => o.settle && o.holder == h)) && t.moving.isNone))).foldl
    (fun s t => let r := ev (tokDie t) s; tokAsk p t.base (ownOp s .lend h walkerHolder t.size r.1) r.2) s
  let s := (s.tokens.filter (fun t => t.part == p && (t.outer == h || t.inner == h))).foldl (fun s t => dropEntry p t.base s) s
  { s with tokens := s.tokens.map (fun t => if t.part == p then
      { t with outer := if t.outer = h then walkerHolder else t.outer, inner := if t.inner = h then walkerHolder else t.inner } else t) }
/-- Does any entry still name a holder as owner or sharer, or wait for it (R115, R120)? -/
def holderNamed (s : State) (p h : Nat) : Bool :=
  s.tokens.any (fun t => t.part == p && (t.owner == h || t.sharers.contains h || t.waiting.any (fun o => o.settle && o.holder == h)
    || t.moving.any (fun m => m.1.settle && m.1.holder == h)))

/-- Is a holder lost (R455)? -/
def isLost (s : State) (p h : Nat) : Bool := s.losts.any (fun l => l.part == p && l.holder == h)
/-- An entry without a lost owner: the nearest lender that is not lost, else the walker (R455). [log 45, DEDUCED.] -/
def settleOwner (s : State) (p : Nat) (t : Token) : Token :=
  if !isLost s p t.owner then t
  else if t.inner ≠ 0 && !isLost s p t.inner then { t with owner := t.inner, inner := 0 }
  else if t.outer ≠ 0 && !isLost s p t.outer then { t with owner := t.outer, outer := 0, inner := 0 }
  else { t with owner := walkerHolder, outer := 0, inner := 0 }
/-- Is a write-through of a lost team to a region still on its way (R455)? -/
def lostBusy (s : State) (p : Nat) (t : Token) : Bool :=
  s.net.msgs.any (fun m => t.covers m.part m.va && isLost s p (teamHolder s m.team))

/-- HOLDER_LOST_SETTLEMENT (R455, R456). Once the lost holders' write-throughs have applied or been discarded and a move under way has
completed (R107), and at t := max(latest W, gtime) + 20, which the step waits for, the entry drops lost shares, changes its owner and its
lenders. Atomics that had not applied at a lost service group stop their issuers. [log 45, DEDUCED.] -/
def execHolderLostSettlement (s : State) : Out :=
  let p := s.ev.x
  let base := s.ev.y
  .next (match tokenBase s p base with
    | none => s
    | some t =>
      let named := isLost s p t.owner || isLost s p t.outer || isLost s p t.inner || t.sharers.any (isLost s p)
      let since := ((s.losts.filter (fun l => l.part == p)).map LostHolder.since).foldl max 0
      if !named || t.moving.isSome || lostBusy s p t then s
      else if gtime s (tokDie t) < t.lastW + 20 || s.time < since + 20 then s
      else
        let wasAtomic := t.atomic && isLost s p t.owner
        let r := unitEvent s p (tokDie t) 0xF0 6 (partyName 0)
        let fix := fun (x : Token) =>
          let x := settleOwner s p x
          let w := fun (h : Nat) => if h ≠ 0 && isLost s p h then walkerHolder else h
          { x with sharers := if wasAtomic then [] else x.sharers.filter (fun h => !isLost s p h), outer := w x.outer, inner := w x.inner,
                   last := r.1.event, lastAnte := r.1, waiting := x.waiting.filter (fun o => !isLost s p o.holder) }
        let s := tellWaits p base r.1 (wakeRights p (modTok p base fix r.2))
        let hit := s.net.atoms.filter (fun a => t.covers a.part a.va && !a.refused)
        let s := if wasAtomic then hit.foldl (fun s a =>
            let lanes := Mask.ofPred (fun l => a.lanes.any (fun q => q.lane == l))
            let pd := (grp s a.gid).pend.find? (fun q => some q.id == a.pend)
            raiseLate a.gid pd [a.id] lanes a.pc 7 7 a.va s) s
          else s
        let s := tokRun p base s
        let names := fun (h : Nat) => s.tokens.any (fun x => x.part == p && (x.owner == h || x.outer == h || x.inner == h || x.sharers.contains h))
        { s with losts := s.losts.filter (fun l => l.part != p || names l.holder) })

end Sys2Proof.Machine
end

