-- ==== Sys2Proof/Machine/Queues.lean ====
section
/-!
DEFINITION. Queue registers: the entries that engines push and groups pop (R312 to R315), and the completion tokens (R316).
-/
namespace Sys2Proof.Machine

/-- The entries of a queue that a group pops from: its own q1, q3 and q5, its team's q8 (R312, R315). -/
def queueOf (s : State) (g q : Nat) : List (DWord × Ante) :=
  match q with
  | 1 => (grp s g).q1
  | 3 => (grp s g).q3
  | 5 => (grp s g).q5
  | _ => (team s (grp s g).team).q8
/-- A queue with other entries. -/
def setQueue (g q : Nat) (l : List (DWord × Ante)) (s : State) : State :=
  match q with
  | 1 => modGrp g (fun x => { x with q1 := l }) s
  | 3 => modGrp g (fun x => { x with q3 := l }) s
  | 5 => modGrp g (fun x => { x with q5 := l }) s
  | _ => modTeam (grp s g).team (fun x => { x with q8 := l }) s
/-- A command's completion entry enters a queue of its group. -/
def pushEntry (g q : Nat) (e : DWord) (a : Ante) (s : State) : State := setQueue g q (queueOf s g q ++ [(e, a)]) s
/-- A popped entry no longer counts among the group's commands that have entries to come (R180, R325, R328). -/
def uncount (g q : Nat) (s : State) : State :=
  match q with
  | 1 => modGrp g (fun x => { x with held1 := x.held1 - 1 }) s
  | 3 => modGrp g (fun x => { x with held3 := x.held3 - 1 }) s
  | _ => s
/-- Is a pop of a queue pending, in the group, or for q8 in any group of the team (R313)? -/
def popsWaiting (s : State) (g q : Nat) : List (Nat × Pend) :=
  (if q = 8 then liveGroups s (grp s g).team else [g]).flatMap (fun h => ((grp s h).pend.filter (fun p => match p.kind with
    | .pop n _ _ _ => n == q
    | _ => false)).map (fun p => (h, p)))

/-- The oldest entry of a queue is taken. -/
def takeEntry (g q : Nat) (s : State) : Option ((DWord × Ante) × State) :=
  match queueOf s g q with
  | e :: rest => some (e, uncount g q (setQueue g q rest s))
  | [] => none

/-- May a group pop the queue (R313)? No launch runs a service group. -/
def popLegal (q : Nat) : Bool := q == 1 || q == 3 || q == 5 || q == 8

/-- QPOP (R313). Takes the oldest entry into kd, or leaves kd pending until one comes. -/
def execQpop (f : FS) (s : State) : Out :=
  .next (judge (.qpop f) [] (active s) (fun s =>
    let g := s.cur.gid
    let q := f.num.toNat
    let m := active s
    if !popLegal q then stopAll 1 0x11 0 m s
    else if m = 0 then done s
    else if !(popsWaiting s g q).isEmpty then done (addPend g m [.k f.d.toNat] (.pop q f.d.toNat s.time m) none s)
    else match takeEntry g q s with
      | some (e, s) => done (addPend g m [.k f.d.toNat] (.uniform f.d.toNat (some e.1) [] 0) none s)
      | none => done (addPend g m [.k f.d.toNat] (.pop q f.d.toNat s.time m) none s)) s)

/-- QTRY (R313). Takes the oldest entry if the queue holds one, and says so in pd. [log 46, DEDUCED.] -/
def execQtry (f : FS) (s : State) : Out :=
  .next (judge (.qtry f) [] (active s) (fun s =>
    let g := s.cur.gid
    let q := f.num.toNat
    let m := active s
    let k := f.d.toNat
    let pd := f.c.toNat
    let regs := .k k :: (if pd = 0 then [] else [Reg.p pd])
    let preds := fun (b : Bool) => (Mask.toList m).map (fun l => (l, b))
    if !popLegal q then stopAll 1 0x11 0 m s
    else if m = 0 then done s
    else match if (popsWaiting s g q).isEmpty then takeEntry g q s else none with
      | some (e, s) => done (addPend g m regs (.uniform k (some e.1) (preds true) pd) none s)
      | none => done (addPend g m regs (.uniform k none (preds false) pd) none s)) s)

/-- QPUSH (R313). Legal only on q7 for a service group, which no launch can run: class 0x01, code 0x11. -/
def execQpush (f : FS) (s : State) : Out := .next (judge (.qpush f) [] (active s) (fun s => stopAll 1 0x11 0 (active s) s) s)

/-- QUEUE_POP_ENTRY (R313, R314). The oldest pending pop of a queue takes the entry that has come, and its wait makes a record. -/
def execQueuePopEntry (s : State) : Out :=
  let g := s.ev.x
  .next (match (grp s g).pend.find? (fun p => p.id == s.ev.y) with
    | none => s
    | some p => match p.kind with
      | .pop q k since m =>
        if (popsWaiting s g q).any (fun o => decide (o.2.id < p.id)) || (team s (grp s g).team).state ≠ .resident then s
        else match takeEntry g q s with
          | none => s
          | some (e, s) =>
            let s := modGrp g (fun x => { x with pend := x.pend.filter (fun o => o.id != p.id) }) s
            let s := if p.lanes = 0 then s else kPut g k e.1 s
            tryRecord g (recordWait s g (lowest m) 2 since e.2)
      | _ => s)

/-- A completion token of a group (R316). -/
def ctok (s : State) (g n : Nat) : CTok := (grp s g).c.get {} n
/-- A command takes a token. -/
def takeTok (g : Nat) (n : Option Nat) (s : State) : State :=
  match n with
  | some n => modGrp g (fun x => { x with c := x.c.put n { x.c.get {} n with busy := true } }) s
  | none => s
/-- A command's completion makes its token idle. -/
def freeTok (g : Nat) (n : Option Nat) (a : Ante) (s : State) : State :=
  match n with
  | some n => modGrp g (fun x => { x with c := x.c.put n { busy := false, last := a } }) s
  | none => s
/-- An event of a core's engines (R362, R363). -/
def engineEvent (p c kind : Nat) (nm : Name) (s : State) : Ante × State := unitEvent s p (coreDie c) (0x40 + c % 64) kind nm
/-- The name of a command's issuer: the pushing lane, or the node's (R361, R423). -/
def issuerName (s : State) (w : Issuer) : Name :=
  match w.gid with
  | some g => laneName s g w.lane
  | none => partyName (((part s w.part).graphs.get {} w.graph).tag % 65536 * 65536 + w.node)

/-- The name of the engine that runs a command: of the command's launch, and of no lane (R361). -/
def partyOf (s : State) (w : Issuer) : Name := partyName (issuerName s w).launch

/-- Are the group's writes from before number `mark` acknowledged (R145)? A bound store that enters the buffer late is as old as its word (R215). -/
def released (s : State) (g mark : Nat) : Bool :=
  let since := (((grp s g).stall).map Stall.since).getD s.time
  !((grp s g).pend.any (fun p => storesLate p && decide (p.id < mark)) || lateEntries s g since
    || s.net.msgs.any (fun m => m.gids.contains g && (decide (m.id < mark) || decide (m.first ≤ since))) || s.net.far.any (fun f => f.gid == g && f.write.isSome && decide (f.id < mark))
    || s.net.atoms.any (fun a => a.gid == g && decide (a.id < mark)))

/-- A trap of an engine command, level 1, belonging to its pushing lane (R423, R475). `mark` stops the command under the trap's id.
With no handler it is resolved at once with action kill team; while 64 traps are unresolved the command stays stopped with no record (R427).
[log 56, DEDUCED.] -/
def engineTrap (w : Issuer) (c : Option Nat) (unit_ cmd code detail : Nat) (mark : DWord → State → State) (s : State) : State :=
  let d := match c with
    | some c => coreDie c
    | none => (vdt s w.part 0).getD 0
  let (e, s) := newEvent s w.part d ((c.map (fun c => 0x40 + c % 64)).getD 0xF2)
  let fr : FRec := { tid := e, cls := 0xB, code := code, flags := 0, level := 1, ver := s.map.version, pc := w.pc, detail := .ofNat 64 detail,
                     name := issuerName s w, faulted := Mask.one w.lane, part := Mask.one w.lane, done := 0, time := gtime s d }
  let t : Trap := { fr := fr, part := w.part, core := c, unit_ := unit_, cmd := cmd, team := w.gid.map (fun _ => w.team) }
  let s := mark e s
  if 64 ≤ pendingTraps s w.part then { s with trapQ := s.trapQ ++ [(t, (part s w.part).hvec)] } else recordTrap t (part s w.part).hvec s

end Sys2Proof.Machine
end

