-- ==== Sys2Proof/Machine/Blocks.lean ====
section
/-!
DEFINITION. Parameter blocks and descriptors: how the engines read and check them at a push (R100, R176 to R179, R322, R323, R327,
R328, R443).
-/
namespace Sys2Proof.Machine

/-- A base-and-extent check of an engine operand: in scratchpad, vault or global space (R100). Scratchpad and vault addresses are
32 bits. -/
def extentOk (s : State) (t p space a n : Nat) : Bool :=
  match space with
  | 1 => a < 2 ^ 32 && (padHit s t a n).toOption.isSome
  | 2 => a < 2 ^ 32 && (vaultHit s p a n a).toOption.isSome
  | _ => true

/-- A little-endian field of a block. -/
def fld (b : List Byte) (o n : Nat) : Nat := leNat ((b.drop o).take n)
/-- The lowest code among checks that fail. -/
def firstCode (l : List (Nat × Bool)) : Option Nat := ((l.filter (fun q => q.2)).map Prod.fst).min?

/-! ### Matrix parameter blocks -/

/-- Bits of an element of a matrix format code (R169, R177). -/
def mBits (f : Nat) : Nat :=
  match f with
  | 0 => 32 | 1 => 16 | 2 => 16 | 3 => 8 | 4 => 8 | 5 => 8 | 8 => 8 | _ => 4
/-- Depth chunk of a format (R161). -/
def mChunk (f : Nat) : Nat :=
  match f with
  | 0 => 8 | 1 => 16 | 2 => 16 | 3 => 32 | 4 => 32 | 5 => 32 | 8 => 32 | _ => 64
/-- Formats that a command accepts as a pair (R177). -/
def mPair (a b : Nat) : Bool := a < 10 && b < 10 && (a == b || (a == 3 && b == 4) || (a == 4 && b == 3))
/-- Does a format carry block scales (R178)? -/
def mScaled (f : Nat) : Bool := f == 5 || f == 7
/-- Integer formats (R165). -/
def mInt (f : Nat) : Bool := f == 8 || f == 9
/-- Quotient rounded up. -/
def ceilDiv (a b : Nat) : Nat := (a + b - 1) / b

/-- A parameter block from its 64 bytes, in the region mode of a clause (R176, R185). -/
def parseBlock (b : List Byte) (clauseMode : Nat) : Block :=
  let w := fld b 0 4
  let md := nbits w 23 22
  { aFmt := nbits w 31 28, bFmt := nbits w 27 24, mode := if md = 3 then clauseMode else md, z := nbits w 21 21 = 1,
    tok := if nbits w 20 20 = 1 then some (nbits w 19 17) else none, gran := nbits w 16 13, tile := nbits w 12 10,
    m := 16 * (fld b 4 1 % 8 + 1), n := 16 * (fld b 5 1 % 4 + 1), k := 16 * (fld b 6 2 + 1), aSlot := fld b 8 1 % 32, aCount := fld b 9 1,
    bSlot := fld b 10 1 % 32, bCount := fld b 11 1, rowLo := fld b 12 1, rowHi := fld b 13 1, colLo := fld b 14 1, colHi := fld b 15 1,
    depLo := fld b 16 2, depHi := fld b 18 2, aScale := fld b 20 4, bScale := fld b 24 4, tag := fld b 28 4 }
/-- A slot sequence of a command (R176). -/
def slotSeq (first count_ : Nat) : List Nat := (List.range count_).map (fun i => (first + i) % 32)
/-- The slots that a block names, each once. -/
def blockSlots (b : Block) : List Nat := (slotSeq b.aSlot b.aCount ++ slotSeq b.bSlot b.bCount).eraseDups
/-- The code by which a block is refused (R179, R443). -/
def blockRefusal (s : State) (g addr : Nat) (raw : List Byte) (b : Block) : Option Nat :=
  let gr := grp s g
  let c := core s gr.core
  let t := gr.team
  let w := fld raw 0 4
  let kinds := !mPair b.aFmt b.bFmt
  let shape_ := b.aCount ≠ ceilDiv b.k (1024 / mBits b.aFmt) || b.bCount ≠ ceilDiv b.k (2048 / mBits b.bFmt) || 16 < b.aCount || 16 < b.bCount
    || b.rowHi ≤ b.rowLo || b.m < b.rowHi || b.colHi ≤ b.colLo || b.n < b.colHi || b.depHi ≤ b.depLo || b.k < b.depHi
    || (mScaled b.aFmt && b.k % 32 ≠ 0)
  firstCode [(1, addr % 64 ≠ 0 || !extentOk s t gr.part 1 addr 64),
    (2, w % 1024 ≠ 0 || 8 ≤ fld raw 4 1 || 4 ≤ fld raw 5 1 || 32 ≤ fld raw 8 1 || 32 ≤ fld raw 10 1 || fld raw 32 32 ≠ 0),
    (3, kinds || shape_),
    (4, (c.tileE.get {} b.tile).holder ≠ some g),
    (5, (blockSlots b).any (fun i => (c.slotE.get {} i).holder ≠ some t)),
    (6, mScaled b.aFmt && (!extentOk s t gr.part 1 b.aScale (b.m * (b.k / 32)) || !extentOk s t gr.part 1 b.bScale (b.n * (b.k / 32))))]

/-! ### Copy descriptors -/

/-- A copy descriptor from its 64 bytes (R322). -/
def parseCopy (b : List Byte) : CopyDesc :=
  let w := fld b 0 4
  { kind := nbits w 31 28, srcSpace := nbits w 27 26, dstSpace := nbits w 25 24, idxSpace := nbits w 23 22, width := 2 ^ nbits w 21 20,
    tok := if nbits w 19 19 = 1 then some (nbits w 18 16) else none, gran := nbits w 15 12, slot := nbits w 11 7, zero := nbits w 6 6 = 1,
    status := nbits w 5 5 = 1, l := fld b 4 4, rows := fld b 8 4, tag := fld b 12 4, src := .ofNat 64 (fld b 16 8), dst := .ofNat 64 (fld b 24 8),
    srcPitch := fld b 32 4, dstPitch := fld b 36 4, colIdx := .ofNat 64 (fld b 32 8), idx := .ofNat 64 (fld b 40 8), dst2 := .ofNat 64 (fld b 48 8),
    firstRow := fld b 56 4 }
/-- Operands of a copy with their spaces and extents (R323). -/
def copyOperands (d : CopyDesc) : List (Nat × Nat × Nat) :=
  let rows := fun (a pitch : Nat) => (a, (d.rows - 1) * pitch + d.l)
  let src := rows d.src.toNat d.srcPitch
  let dst := rows d.dst.toNat d.dstPitch
  match d.kind with
  | 0 => [(d.srcSpace, src.1, src.2), (d.dstSpace, dst.1, dst.2)]
  | 1 => [(d.srcSpace, src.1, src.2)]
  | 2 => [(d.dstSpace, dst.1, dst.2), (d.idxSpace, d.idx.toNat, 4 * d.rows)]
  | 3 => [(d.srcSpace, src.1, src.2), (d.idxSpace, d.idx.toNat, 4 * d.rows)]
  | _ => [(d.dstSpace, d.dst.toNat, 4 * d.l), (d.dstSpace, d.dst2.toNat, d.width * d.l), (d.idxSpace, d.idx.toNat + 4 * d.firstRow, 4 * (d.rows + 1))]
/-- Checks of a descriptor's own fields (R322, R443): reserved ones, then ranges. A walk's column buffer and column-index array are a
destination and a source, so that they are multiples of w. [log 53, DEDUCED.] -/
def copyFields (raw : List Byte) (d : CopyDesc) : List (Nat × Bool) :=
  let w := fld raw 0 4
  let walk := d.kind = 4
  let slot := d.kind = 1
  let unaligned := fun (x : Nat) => x % d.width ≠ 0
  [(2, w % 32 ≠ 0 || fld raw 60 4 ≠ 0 || (!slot && (nbits w 11 7 ≠ 0 || d.zero)) || (slot && d.dstSpace ≠ 0) || (d.kind < 2 && d.idxSpace ≠ 0)
      || (!walk && (fld raw 48 8 ≠ 0 || fld raw 56 4 ≠ 0))),
   (3, 4 < d.kind || d.srcSpace = 0 || (!slot && d.dstSpace = 0) || (2 ≤ d.kind && d.idxSpace = 0) || (d.kind = 2 && d.srcSpace ≠ 3)
      || (d.kind = 3 && d.dstSpace ≠ 3) || (walk && d.srcSpace ≠ 3) || d.l = 0 || 2 ^ 24 ≤ d.l || (!walk && unaligned d.l) || d.rows = 0 || 2 ^ 20 < d.rows
      || unaligned d.src.toNat || (!walk && (unaligned d.dst.toNat || unaligned d.srcPitch || unaligned d.dstPitch))
      || (walk && (unaligned d.dst.toNat || unaligned d.dst2.toNat || unaligned d.colIdx.toNat)) || (2 ≤ d.kind && d.idx.toNat % 4 ≠ 0))]
/-- The code by which a group's descriptor is refused; `form` is the sub-op (R323, R443). -/
def copyRefusal (s : State) (g addr form : Nat) (raw : List Byte) (d : CopyDesc) : Option Nat :=
  let gr := grp s g
  let t := gr.team
  let held := (core s gr.core).slotE.get {} d.slot
  firstCode ([(1, addr % 64 ≠ 0 || !extentOk s t gr.part 1 addr 64)] ++ copyFields raw d
    ++ ([(3, decide (d.kind ≠ form)), (5, d.kind = 1 && held.holder ≠ some t),
        (6, (copyOperands d).any (fun q => !extentOk s t gr.part q.1 q.2.1 q.2.2)),
        (7, d.kind = 1 && 16384 < d.dst.toNat + (d.rows - 1) * d.dstPitch + d.l)] : List (Nat × Bool)))
/-- Is a graph copy node's descriptor refused at acceptance (R327)? -/
def nodeCopyBad (s : State) (p : Nat) (raw : List Byte) (d : CopyDesc) : Bool :=
  (firstCode (copyFields raw d)).isSome || d.kind = 1 || d.tok.isSome || d.status || d.srcSpace = 1 || d.dstSpace = 1 || d.idxSpace = 1
    || (copyOperands d).any (fun q => q.1 == 2 && !extentOk s 0 p q.1 q.2.1 q.2.2)

/-! ### Collective descriptors -/

/-- A collective descriptor from its 64 bytes (R328). -/
def parseColl (b : List Byte) (id : Nat) (w : Issuer) (die_ core_ inst addr : Nat) : CollCmd :=
  let c := fld b 0 4
  { id := id, who := w, die := die_, op := nbits c 31 28, combine := nbits c 27 24, ty := nbits c 23 19,
    tok := if nbits c 18 18 = 1 then some (nbits c 17 15) else none, status := nbits c 14 14 = 1, n := fld b 4 4, key := .ofNat 64 (fld b 8 8), rank := fld b 16 4,
    m := fld b 20 4, root := fld b 24 4, tag := fld b 28 4, src := .ofNat 64 (fld b 32 8), dst := .ofNat 64 (fld b 40 8), inst := inst, core := core_, addr := addr }
/-- Checks of a collective descriptor's fields (R328, R443). -/
def collFields (raw : List Byte) (c : CollCmd) : List (Nat × Bool) :=
  let w := tyBits (.ofNat 5 c.ty) / 8
  let okTy := [11, 12, 14, 15, 2, 3, 6, 7].contains c.ty || ((c.ty = 9 || c.ty = 10) && c.op < 2 && 3 ≤ c.combine && c.combine ≤ 5)
  let flt := [11, 12, 14, 15].contains c.ty
  [(2, fld raw 0 4 % 2 ^ 14 ≠ 0 || fld raw 48 16 ≠ 0 || (c.op ≠ 3 && c.root ≠ 0) || (2 ≤ c.op && c.op ≤ 3 && c.combine ≠ 0)),
   (3, 3 < c.op || 5 < c.combine || !okTy || (flt && 3 ≤ c.combine && c.op < 2) || c.n = 0 || c.m = 0 || 65536 < c.m || c.m ≤ c.rank || c.m ≤ c.root
      || c.src.toNat % w ≠ 0 || c.dst.toNat % w ≠ 0)]
/-- The code by which a group's collective descriptor is refused (R328, R443). -/
def collRefusal (s : State) (g addr : Nat) (raw : List Byte) (c : CollCmd) : Option Nat :=
  let gr := grp s g
  firstCode ((1, addr % 64 ≠ 0 || !extentOk s gr.team gr.part 1 addr 64) :: collFields raw c)

end Sys2Proof.Machine
end

