-- ==== Sys2Proof/Machine/Select.lean ====
section
/-!
DEFINITION. The slice cycle: entry into clauses with its conditions and checks (R45, R194, R195, R217, R372, R381, R432, R436),
and the selection of a group and of the two slots' program counters (R39 to R44, R48, R497).
-/
namespace Sys2Proof.Machine

/-! ### Reservations -/

/-- The unit number of a slice in the arbiter's order (R382). -/
def sliceUnit (sl : Nat) : Nat := 4 + sl
/-- A unit's reservation is released (R381). -/
def releaseResv (c unit_ : Nat) (s : State) : State :=
  modClus (coreClus c) (fun x => { x with grants := x.grants.filter (fun r => !(r.core == c && r.unit_ == unit_)),
                                          requests := x.requests.filter (fun r => !(r.core == c && r.unit_ == unit_)) }) s
/-- Does a unit hold a reservation (R381)? -/
def holdsResv (s : State) (c unit_ : Nat) : Bool := (clus s (coreClus c)).grants.any (fun r => r.core == c && r.unit_ == unit_)
/-- A unit asks for a reservation, once (R381, R382). -/
def askResv (c unit_ amount prio : Nat) (s : State) : State :=
  if (clus s (coreClus c)).requests.any (fun r => r.core == c && r.unit_ == unit_) then s
  else modClus (coreClus c) (fun x => { x with requests := x.requests ++ [⟨unit_, c, amount, prio, gtime s (coreDie c)⟩] }) s
/-- The priority of a group's launch (R57). -/
def grpPrio (s : State) (g : Nat) : Nat := (launch s (team s (grp s g).team).launch).prio

/-! ### Clause entry -/

/-- The words of a clause's body as a pass uses them, with their positions. -/
def clauseWords (s : State) (g : Nat) (c : Clause) : List (Nat × DWord) :=
  (List.range (clauseCount c.word)).filterMap (fun i =>
    if c.loop && i = 0 then none
    else match clauseWord s g c (c.hdr.toNat + 8 * (i + 1)) with
      | .ok w => some (i, w)
      | .error _ => none)

/-- The registers that the register fields of a list of words name (R194). -/
def wordRegs : Ext → List (Nat × DWord) → List Reg
  | _, [] => []
  | e, (_, w) :: t =>
    if bits w 63 56 = 0xFE then
      match decodeExt w with
      | .ok x => Reg.p x.pred.toNat :: (if x.kind4.toNat = 1 then [Reg.v x.src4.toNat] else []) ++ wordRegs x t
      | .error _ => wordRegs Ext.plain t
    else match decode w with
      | .ok i => let sh := shape (if e = Ext.plain then guardOf w else e) i; sh.rd ++ sh.wr ++ wordRegs Ext.plain t
      | .error _ => wordRegs Ext.plain t

/-- The four steps of an increment word: word, selector, step (R216). -/
def stepsOf (inc : DWord) : List (Nat × Nat × Int) :=
  ([48, 32, 16, 0]).map (fun lo => (bits inc (lo + 15) (lo + 12), bits inc (lo + 11) (lo + 9), sgn 9 (bits inc (lo + 8) lo)))

/-- The tile wait number of a pass (R217). -/
def tileNo (w inc : DWord) (loop : Bool) (pass : Nat) : Nat :=
  let n := bits w 47 42
  let by_ : Int := if loop then (((stepsOf inc).filter (fun q => q.1 != 0 && q.2.1 == 5)).map (fun q => q.2.2)).sum * pass else 0
  if n < 32 then wrapTo 5 (n + by_) else if n < 40 then 32 + wrapTo 3 ((n : Int) - 32 + by_) else n

/-- The selectors of R216 that the format of a major opcode has: Format N none, R its four register fields, I and M their two, M its
offset, whose bits no selector 2 names, a family format D, A and B (R199, R202 to R206, R212). [log 118, DEDUCED.] -/
def fieldsOf (m : Nat) : List Nat :=
  if m < 0x20 || 0xFE ≤ m then []
  else if (0x30 ≤ m && m ≤ 0x37) || m = 0x3E || m = 0x3F || (0x70 ≤ m && m ≤ 0x7F) then [0, 1]
  else if m ≤ 0x9F then [0, 1, 2, 3]
  else if m ≤ 0xB7 || (0xC0 ≤ m && m ≤ 0xCA) then [0, 1, 4]
  else [0, 1, 2]

/-- Does a step name the increment word, an extension word, a word outside the body, or a field that its word lacks? A step of word index 0
is unused, and 0 throughout (R216, R432 code 0x0E). -/
def badStep (ws : List (Nat × DWord)) (q : Nat × Nat × Int) : Bool :=
  if q.1 = 0 then q.2.1 != 0 || q.2.2 != 0
  else match ws.find? (fun w => w.1 == q.1) with
    | none => true
    | some (_, w) => bits w 63 56 = 0xFE || (q.2.1 != 5 && !(fieldsOf (bits w 63 56)).contains q.2.1)

/-- Position of extension words and of the increment word (R197). [log 29, DESIGN CHOICE.] -/
def noStop (w : DWord) (ws : List (Nat × DWord)) (i : Nat) : Bool :=
  (isLoop w && i = 0) || ws.any (fun q => q.1 == i && bits q.2 63 56 == 0xFE)

/-- The code of R432 that a header breaks, for lanes that came by a transfer, a `loop` or by falling through, at the first pass
or a later one; 0 when it breaks none (R436). -/
def headerCode (w inc : DWord) (ws : List (Nat × DWord)) (tile : Nat) (wrong first : Bool) : Nat :=
  let n := clauseCount w
  if 2 ≤ bits w 63 60 || bits w 37 32 ≠ 0 || bits w 15 0 ≠ 0 then 9
  else if bits w 39 38 = 3 then 0xA
  else if bits w 41 41 = 1 && 40 ≤ tile then 0xB
  else if (List.range 16).any (fun i => w.toNat.testBit (16 + i) && (decide (n ≤ i) || noStop w ws i)) then 0xC
  else if wrong then 0xD
  else if isLoop w && first && (n < 2 || ws.any (fun q => 1 ≤ bits q.2 63 56 && bits q.2 63 56 ≤ 0x1F) || (stepsOf inc).any (badStep ws)) then 0xE
  else 0

/-- The tile-table entry of a number is ready (R172, R194), and the completion that made it so. -/
def tileReady (s : State) (c n : Nat) : Bool × Ante :=
  if n < 32 then let e := (core s c).slotE.get {} n; (e.state == .ready, e.last)
  else let e := (core s c).tileE.get {} (n - 32); (e.state == .ready, e.last)

/-- Does a lend of the walker to a team still wait at its entry? The team's first issue comes after it (R67). [log 94, DEDUCED.] -/
def lendQueued (s : State) (t : Nat) : Bool :=
  s.tokens.any (fun k => k.part == (team s t).part && k.waiting.any (fun o => o.holder == walkerHolder && o.target == teamHolder s t))
/-- A group may issue and enter clauses: resident, not stopped, stalled, parked or held, with no debug stop to come, and its team has been lent
its tokens (R40, R67, R421, R311, R197, R372, R486). -/
def canGo (s : State) (g : Nat) : Bool :=
  let gr := grp s g
  gr.resident && !gr.exited && gr.stops.isEmpty && gr.stall.isNone && !isParked gr && !gr.debugStop && !(die s (coreDie gr.core)).bankLow
    && !s.issuing.any (fun a => a.gid == g) && !lendQueued s gr.team

/-- Lanes of a group that wait at a word (R40). [log 31, DEDUCED.] -/
def waitingLanes (s : State) (g : Nat) : Mask := (grp s g).waits.foldl (fun m w => m ||| w.lanes) 0

/-- Is a group of the debugger's target team (R371, R372)? -/
def isTarget (s : State) (g : Nat) : Bool :=
  let gr := grp s g
  let o := (part s gr.part).obs
  bits o.dbgTgt 63 32 == launchId s g && bits o.dbgTgt 31 0 == (team s gr.team).index
/-- Is a header armed as a breakpoint (R372)? -/
def isArmed (s : State) (p : Nat) (h : DWord) : Bool :=
  let o := (part s p).obs
  (List.range 4).any (fun i => o.dbgCtl.getLsbD i && bits (o.dbgBp.get 0 i) 55 3 == bits h 55 3 && h.toNat < 2 ^ 56)
/-- The stepping mode of a group (R371). -/
def stepMode (s : State) (g : Nat) : Nat :=
  let o := (part s (grp s g).part).obs
  if isTarget s g && bits o.dbgCtl 12 8 == (grp s g).place then bits o.dbgCtl 5 4 else 0

/-! The lanes at a header: who stands there, which pass of a clause it would be, and whom the frontier holds. -/

/-- The lanes of a group that stand at a header and wait for nothing (R194). -/
def standing (s : State) (g : Nat) (h : DWord) : Mask :=
  let wl := waitingLanes s g
  Mask.ofPred (fun l => let x := lane s g l; !x.exited && x.clause.isNone && x.pc == h && !wl.getLsbD l)
/-- Would it be the first pass of the clause at a header: is the group's loop buffer not there (R217)? -/
def firstPass (s : State) (g : Nat) (h w : DWord) : Bool := !(isLoop w && ((grp s g).loop.any (fun b => b.hdr == h)))
/-- The lanes that a pass would take: at a later pass of a loop those of its buffer (R217). -/
def passSet (s : State) (g : Nat) (h w : DWord) : Mask :=
  match (grp s g).loop with
  | some b => if firstPass s g h w then standing s g h else standing s g h &&& b.lanes
  | none => standing s g h
/-- May a pass of the loop buffer begin: at the first pass the buffer is free, at a later one the pass before has ended and all of the
loop's lanes stand at the header (R217, R232). -/
def passOpen (s : State) (g : Nat) (h w : DWord) : Bool :=
  !(isLoop w && (grp s g).loop.isSome && firstPass s g h w)
    && match (grp s g).loop with
      | some b => firstPass s g h w || (!b.running && passSet s g h w == Mask.ofPred (fun l => b.lanes.getLsbD l && !(lane s g l).exited))
      | none => true
/-- The uniform register of the `loop` before a header (R217). -/
def loopReg (s : State) (g : Nat) (h : DWord) : Nat :=
  match fetchWord s g (h.toNat - 8) with
  | .ok x => bits x 43 36
  | .error _ => 0
/-- The increment word after a loop header (R216). -/
def incWord (s : State) (g : Nat) (h : DWord) : DWord :=
  match fetchWord s g (h.toNat + 8) with
  | .ok x => x
  | .error _ => 0
/-- Does the frontier hold the lanes at an entry header: does a lane of the group stand lower (R45)? -/
def frontierHolds (s : State) (g : Nat) (h w : DWord) : Bool :=
  bits w 40 40 = 1 && firstPass s g h w
    && (List.range 32).any (fun l => !(lane s g l).exited && !(passSet s g h w).getLsbD l && decide ((lane s g l).pc.toNat < h.toNat))
/-- The lanes that would enter: of lanes that the frontier holds only those released at this header (R45). -/
def entrants (s : State) (g : Nat) (h w : DWord) : Mask :=
  let set := passSet s g h w
  if frontierHolds s g h w then set &&& Mask.ofPred (fun l => (lane s g l).relHere) else set
/-- Lanes for which no write is pending to a register that the words name (R194 condition 3). -/
def clearOf (s : State) (g : Nat) (regs : List Reg) : Mask :=
  Mask.ofPred (fun l => !(regs.any (fun r => (pendingRegs s g (Mask.one l)).contains r)))
/-- The entrants that came by a way that the header does not admit: a transfer to it has taken place (R432 code 0x0D, R444).
[log 119, DEDUCED.] -/
def wrongWay (s : State) (g : Nat) (w : DWord) (m : Mask) : Mask :=
  m &&& Mask.ofPred (fun l =>
    let x := lane s g l
    (bits w 40 40 = 0 && !x.viaFall) || (isLoop w != x.viaLoop))

/-- Lanes held at a header by the frontier alone: their counters rise, and at 64 a lane is released (R45). -/
def frontierCount (g : Nat) (m : Mask) (s : State) : State :=
  let s := modLanes g m (fun l => { l with waitCtr := l.waitCtr + 1 }) s
  let free := Mask.ofPred (fun l => m.getLsbD l && decide (64 ≤ (lane s g l).waitCtr))
  let s := if free = 0 then s else count g 5 (Mask.count free) s
  modLanes g free (fun l => { l with waitCtr := 0, released := true, relHere := true }) s

/-- Has a lane at a header waited at least one slice cycle on conditions 1 and 2 of R194, the last of which a completion met at a gtime: was it
seen held there in a slice cycle, or did a slice cycle pass until then (R195)? -/
def longHeld (s : State) (g l ended : Nat) : Bool :=
  let gr := grp s g
  (lane s g l).held || decide (4 ≤ (ended - (die s (coreDie gr.core)).off - (lane s g l).since) * ((core s gr.core).slices.get {} gr.slice).ratio)
/-- The lanes that pass the checks enter the clause: the first pass of a loop reads its register (R194, R195, R217, R232,
R273, R381). -/
def enterNow (g : Nat) (h w : DWord) (m : Mask) (kn : Nat) (first : Bool) (ws : List (Nat × DWord)) (last : Option Ante) (s : State) : State :=
  let gr := grp s g
  let sl := (core s gr.core).slices.get {} gr.slice
  let heavy := ws.any (fun q => 0x40 ≤ bits q.2 63 56 && bits q.2 63 56 ≤ 0x8F)
  let kv := kGet s g kn
  let entryBit := bits w 40 40 = 1 && (first || !isLoop w)
  if isLoop w && first && bits kv 31 0 = 0 then
    modLanes g m (fun l => { l with pc := h + .ofNat 64 (8 * (clauseCount w + 1)), viaLoop := false, viaFall := true, waitCtr := 0, released := l.released && (!entryBit || l.relHere), relHere := false, held := false, since := s.time }) s
  else if heavy && sl.resv = 0 then
    modGrp g (fun x => { x with resvWait := true }) (askResv gr.core (sliceUnit gr.slice) sl.ratio (grpPrio s g) s)
  else
    let s := match last with
      | some a => recordLong s g (lowest m) 1 (lane s g (lowest (m &&& Mask.ofPred (fun l => longHeld s g l a.time)))).since a
      | none => s
    let c : Clause := { hdr := h, word := w, bank := (core s gr.core).bank, loop := isLoop w, pass := bits kv 63 32 }
    let s := modLanes g m (fun l => { l with
      pc := h + (if isLoop w then 16 else 8), clause := some c, waitCtr := 0, held := false, released := l.released && (!entryBit || l.relHere), relHere := false }) s
    let mode := stepMode s g
    let buf : LoopBuf := { hdr := h, word := w, k := kn, lanes := m, running := true }
    let s := modGrp g (fun x =>
      { x with dbgMode := mode, passBp := x.passBp &&& ~~~m, loop := if isLoop w then some buf else x.loop }) s
    let s := if heavy then modCore gr.core (fun x => { x with slices := x.slices.put gr.slice { x.slices.get {} gr.slice with fresh := true } }) s else s
    count g 13 1 s

/-- Lanes of a group at a header enter its clause where every condition holds (R45, R194, R195, R217, R372, R436). `tick` says
that a slice cycle passes, which the frontier counters count, and which marks the lanes that conditions 1 and 2 of R194 hold. [log 31, DEDUCED.] -/
def enterClause (tick : Bool) (g : Nat) (h : DWord) (s : State) : State :=
  let gr := grp s g
  let at_ := standing s g h
  if at_ = 0 || !canGo s g || (team s gr.team).goal ≠ 0 || (part s gr.part).suspended then s
  else match fetchWord s g h.toNat with
  | .error e => raise { gid := g, lanes := at_, pc := h } e.cls e.code h.toNat at_ at_ 0 true s
  | .ok w =>
    let first := firstPass s g h w
    let set := passSet s g h w
    if set = 0 || !passOpen s g h w then s
    else
      let kn := loopReg s g h
      let pass := bits (kGet s g kn) 63 32
      let inc := incWord s g h
      let c : Clause := { hdr := h, word := w, loop := isLoop w, pass := pass }
      let ws := clauseWords s g c
      let tile := tileNo w inc (isLoop w) pass
      let toks := (List.range 8).filter (fun i => w.toNat.testBit (48 + i))
      let tw := bits w 41 41 = 1 && tile < 40
      if toks.any (fun i => (gr.c.get {} i).busy) || (tw && !(tileReady s gr.core tile).1) then
        (if tick then modLanes g set (fun l => { l with held := true }) s else s)
      else
          let clear := clearOf s g (wordRegs Ext.plain ws)
          let held := frontierHolds s g h w
          let s := if held && tick then frontierCount g (set &&& clear &&& Mask.ofPred (fun l => !(lane s g l).relHere)) s else s
          let m := if held then set &&& Mask.ofPred (fun l => (lane s g l).relHere) else set
          if m = 0 || m &&& ~~~clear ≠ 0 then s
          else
            let wrongL := if first then wrongWay s g w m else 0
            let arr : Arrival := { gid := g, lanes := m, pc := h, word := w }
            let code := headerCode w inc ws tile (wrongL != 0) first
            if isTarget s g && isArmed s gr.part h && m &&& ~~~gr.passBp != 0 then
              raise arr 0xD (draw s 0xD0 % 256) 0 m m 0 true (modGrp g (fun x => { x with passBp := x.passBp ||| m }) s)
            else if code ≠ 0 then raise arr 1 code 0 m m 0 true s
            else
              let antes := (toks.map (fun i => (gr.c.get {} i).last)) ++ (if tw then [(tileReady s gr.core tile).2] else [])
              let a := antes.foldl (fun (b : Option Ante) x => if b.all (fun y => decide (y.time ≤ x.time)) then some x else b) none
              let waited := a.filter (fun q => (Mask.toList m).any (fun l => longHeld s g l q.time))
              enterNow g h w m kn first ws waited s


/-- FRONTIER_RELEASE (R45). A lane whose counter has reached 64 is released. -/
def execFrontierRelease (s : State) : Out :=
  .next (if (lane s s.ev.x s.ev.y).waitCtr < 64 then s
    else count s.ev.x 5 1 (modLane s.ev.x s.ev.y (fun l => { l with waitCtr := 0, released := true, relHere := true }) s))

/-! ### Selection -/

/-- The port of a major opcode (R497); 0 for `nop`. -/
def portOf (m : Nat) : Nat :=
  if m = 0 then 0 else if m < 0x20 then 1 else if m < 0x40 then 2 else if m < 0x88 then 3 else if m < 0x8A then 4
  else if (0xA0 ≤ m && m ≤ 0xA4) || (0xC0 ≤ m && m ≤ 0xCA) then 5 else 6

/-- May an instruction issue in slot B (R42, R206)? A word that advances a bound stream writes a stream register. -/
def slotBClass (e : Ext) (i : Instr) : Bool :=
  let m := major i
  let vec := m ≤ 5 || (0x20 ≤ m && m ≤ 0x37) || (0x40 ≤ m && m ≤ 0x8F) || m = 0xA0 || m = 0xA1 || m = 0xA3
  let not_ := match i with
    | .tblLd _ => true
    | .tblSwap => true
    | .tblTag _ => true
    | _ => false
  vec && !not_ && e.bindA.isNone && e.bindB.isNone && e.bindD.isNone

/-- The instruction at a lane's PC, with the extension word before it, where both can be fetched and decoded. -/
def peek (s : State) (g l : Nat) : Option (Ext × Instr) :=
  match (lane s g l).clause with
  | none => none
  | some c =>
    let pc := (lane s g l).pc.toNat
    match clauseWord s g c pc with
    | .error _ => none
    | .ok w =>
      if bits w 63 56 ≠ 0xFE then (decode w).toOption.map (fun i => (guardOf w, i))
      else match decodeExt w, clauseWord s g c (pc + 8) with
        | .ok e, .ok w2 => (decode w2).toOption.map (fun i => (e, i))
        | _, _ => none

/-- Is a tile empty or ready, so that its holder may reach it (R175)? -/
def tileOpen (s : State) (c n : Nat) : Bool :=
  let st := ((core s c).tileE.get {} n).state
  st == .empty || st == .ready

/-- The ready lanes of a group (R40, R175, R450). -/
def readyLanes (s : State) (g : Nat) : Mask :=
  let d := grpDie s g
  let wl := (grp s g).waits.foldl (fun (m : Mask) w => match w.kind with
    | .right t => if gtime s d < t then m ||| w.lanes else m
    | .pend i => if (grp s g).pend.any (fun p => p.id == i) then m ||| w.lanes else m
    | .tile n => if tileOpen s (grp s g).core n then m else m ||| w.lanes
    | _ => m ||| w.lanes) 0
  if !canGo s g then 0 else Mask.ofPred (fun l => let x := lane s g l; !x.exited && x.clause.isSome && !wl.getLsbD l)

/-- The least number of a list. -/
def least (l : List Nat) : Option Nat := l.foldl (fun (b : Option Nat) x => if b.all (fun y => decide (x < y)) then some x else b) none

/-- The program counters of slots A and B among the ready lanes (R41). -/
def slotPcs (s : State) (g : Nat) (ready : Mask) : Nat × Option Nat :=
  let pcs := fun (m : Mask) => (Mask.toList m).map (fun l => (lane s g l).pc.toNat)
  let rel := ready &&& Mask.ofPred (fun l => (lane s g l).released)
  let a := ((least (pcs rel)).orElse (fun _ => least (pcs ready))).getD 0
  let others := ready &&& Mask.ofPred (fun l => (lane s g l).pc.toNat != a)
  if rel ≠ 0 then (a, least (pcs (others &&& ~~~rel)))
  else
    let hdrOf := fun (l : Nat) => (lane s g l).clause.map (fun c => c.hdr)
    let ha := ((Mask.toList ready).find? (fun l => (lane s g l).pc.toNat == a)).bind hdrOf
    let cand := pcs (others &&& Mask.ofPred (fun l => hdrOf l == ha))
    let n := fun (p : Nat) => (cand.filter (fun x => x == p)).length
    (a, cand.foldl (fun (b : Option Nat) x => match b with
      | none => some x
      | some y => if n y < n x || (n x = n y && x < y) then some x else some y) none)

/-- Do two instructions need one port? `nop` needs none (R497). -/
def portClash (m n : Nat) : Bool := portOf m == portOf n && portOf m != 0
/-- The arrivals of a selected group (R41, R42, R227, R497). R44 places no order between the two: slot A's word runs first.
[log 28, DESIGN CHOICE.] -/
def arrivalsOf (s : State) (g : Nat) (ready : Mask) : List Arrival :=
  let ab := slotPcs s g ready
  let at_ := fun (p : Nat) => ready &&& Mask.ofPred (fun l => (lane s g l).pc.toNat == p)
  let a : Arrival := { live := true, gid := g, lanes := at_ ab.1, pc := .ofNat 64 ab.1 }
  match ab.2 with
  | none => [a]
  | some b =>
    let pa := ((peek s g (lowest (at_ ab.1))).map (fun q => major q.2)).getD 0
    match peek s g (lowest (at_ b)) with
    | some (e, i) =>
      if slotBClass e i && !portClash (major i) pa then [a, { live := true, gid := g, lanes := at_ b, pc := .ofNat 64 b, slotB := true, kBefore := some (grp s g).k }]
      else [a]
    | none => [a]

/-- A step of the debugger: a stepped group stops after a slice cycle in which it issued, once a push of it has been accepted; in
step-to-completion mode once the results of the words just issued have arrived and the commands that they pushed have completed (R372).
[log 29, DESIGN CHOICE.] -/
def debugStep (g : Nat) (s : State) : State :=
  let gr := grp s g
  let mine := fun (id : Nat) (w : Issuer) => w.gid == some g && decide (gr.debugMark ≤ id)
  let cmds := (core s gr.core).mq.any (fun c => mine c.id c.who) || (core s gr.core).chans.any (fun c => c.2.queue.any (fun q => mine q.id q.who))
    || s.net.colls.any (fun c => mine c.id c.who)
  let pushing := gr.stall.any (fun x => match x.kind with
    | .push _ _ _ _ => true
    | _ => false)
  if !gr.debugStop || !gr.stops.isEmpty || gr.exited || pushing || s.issuing.any (fun a => a.gid == g)
      || (gr.dbgMode = 2 && (gr.pend.any (fun p => decide (gr.debugMark ≤ p.id)) || cmds)) then s
  else
    let m := liveLanes s g
    raise { gid := g, lanes := m, pc := (lane s g (lowest m)).pc } 0xD (draw s 0xD1 % 256) 0 m m 0 false (modGrp g (fun x => { x with debugStop := false }) s)

/-- Groups of a slice (R39). -/
def sliceGroups (s : State) (c sl : Nat) : List Nat := keysOf s.groups (fun _ g => g.core == c && g.slice == sl && g.resident && !g.exited)

/-- The next fetch address of a group: its slot A's (R41, R48), which is one of two where its lanes diverge. [log 30, DESIGN CHOICE.] -/
def fetchPc (s : State) (g : Nat) : Nat := (slotPcs s g (readyLanes s g)).1
/-- The slice-cycle counters of the groups of a slice (R368). -/
def sliceCounts (gs : List Nat) (s : State) : State :=
  gs.foldl (fun s g =>
    let gr := grp s g
    let on := fun (b : Bool) (i : Nat) (s : State) => if b then count g i 1 s else s
    let kind := fun (f : StallKind → Bool) => gr.stall.any (fun x => f x.kind)
    let fused := readyLanes s g != 0 && gs.any (fun h => h != g && readyLanes s h != 0 && fetchPc s h == fetchPc s g)
    on fused 4 <| on (isParked gr) 6
      <| on (gr.waits.any (fun w => match w.kind with | .bar _ _ _ => true | .role _ _ => true | .pkg _ _ _ _ => true | _ => false)) 9
      <| on (gr.pend.any (fun p => match p.kind with | .pop _ _ _ _ => true | _ => false)) 10
      <| on (kind (fun k => match k with | .token => true | .hold _ _ => true | _ => false)) 11
      <| on (gr.resvWait || (die s (coreDie gr.core)).bankLow) 12 s) s

/-- The group that a slice selects (R39, R233). -/
def selectGroup (s : State) (c sl : Nat) (cand : List Nat) : Option Nat :=
  let x := (core s c).slices.get {} sl
  let held := x.hold.filter (fun g => cand.contains g && (readyLanes s g &&& x.holdLanes) != 0)
  match held with
  | some g => some g
  | none =>
    let pool := if cand.any (fun g => !(grp s g).yielded) then cand.filter (fun g => !(grp s g).yielded) else cand
    let key := fun (g : Nat) => ((grp s g).lastIssue * 16 + (team s (grp s g).team).slot) * 32 + (grp s g).place
    pool.foldl (fun (b : Option Nat) g => match b with
      | none => some g
      | some h => if key g < key h then some g else some h) none

/-- The slice's hold on a group ends once its slot A lane set has left its clause for a clause start: once each lane of it has (R39). [log 108,
DESIGN CHOICE.] -/
def dropHold (c sl : Nat) (s : State) : State :=
  let x := (core s c).slices.get {} sl
  match x.hold with
  | none => s
  | some g =>
    if (Mask.toList x.holdLanes).any (fun l => (lane s g l).clause.isSome && !(lane s g l).exited) then s
    else modCore c (fun y => { y with slices := y.slices.put sl { x with hold := none } }) s

/-- CLAUSE_ENTRY (R39, R194). -/
def execClauseEntry (s : State) : Out :=
  let gr := grp s s.ev.x
  .next (drew (enterClause false s.ev.x s.ev.word (dropHold gr.core gr.slice s)))

/-- The headers at which lanes of a group stand. -/
def headersOf (s : State) (g : Nat) : List DWord :=
  (((Mask.toList (liveLanes s g)).filter (fun l => (lane s g l).clause.isNone)).map (fun l => (lane s g l).pc)).eraseDups
/-- What holds lanes at a header in this slice cycle: conditions 1 and 2 of R194, or the frontier alone (R45, R368 counters 7 and 8). -/
def heldBy (s : State) (g : Nat) (h : DWord) : Bool × Bool :=
  match fetchWord s g h.toNat with
  | .error _ => (false, false)
  | .ok w =>
    if standing s g h = 0 || !canGo s g || (team s (grp s g).team).goal ≠ 0 || (part s (grp s g).part).suspended || passSet s g h w = 0 || !passOpen s g h w then (false, false)
    else
      let pass := bits (kGet s g (loopReg s g h)) 63 32
      let tile := tileNo w (incWord s g h) (isLoop w) pass
      let toks := (List.range 8).any (fun i => w.toNat.testBit (48 + i) && ((grp s g).c.get {} i).busy)
      let held := toks || (bits w 41 41 = 1 && tile < 40 && !(tileReady s (grp s g).core tile).1)
      (held, !held && frontierHolds s g h w && (passSet s g h w) != entrants s g h w)
/-- What happens in a slice cycle before a group is selected: barrier waits whose phase has completed end, a group that the debugger steps
stops, a hold that has ended goes, and lanes at headers enter their clauses (R39, R194, R302, R303, R372, R383). -/
def sliceEnter (c sl : Nat) (s : State) : State :=
  let gs := sliceGroups s c sl
  gs.foldl (fun s g =>
    let hs := headersOf s g
    let by_ := hs.map (heldBy s g)
    let s := modGrp g (fun x => { x with resvWait := false }) s
    let s := if by_.any Prod.fst then count g 7 1 s else s
    let s := if by_.any Prod.snd then count g 8 1 s else s
    hs.foldl (fun s h => enterClause true g h s) s) (dropHold c sl (gs.foldl (fun s g => debugStep g (endPassed g s)) s))

/-- ISSUE_SELECT (R39 to R45). A slice cycle: lanes enter clauses, then one group issues from slots A and B. -/
def execIssueSelect (s : State) : Out :=
  let c := s.ev.x
  let sl := s.ev.y
  let gs := sliceGroups s c sl
  let s := sliceCounts gs (sliceEnter c sl s)
  let x := (core s c).slices.get {} sl
  let s := if gs.isEmpty then s else count (gs.headD 0) 0 1 s
  let x := { x with cycles := x.cycles + 1, idle := if x.resv = 0 || x.fresh then 0 else x.idle + 1, fresh := false }
  let s := if 64 ≤ x.idle then releaseResv c (sliceUnit sl) s else s
  let x := if 64 ≤ x.idle then { x with resv := 0, idle := 0 } else x
  let cand := gs.filter (fun g => readyLanes s g != 0)
  let pick := selectGroup s c sl cand
  let s := gs.foldl (fun s g => modGrp g (fun y => { y with yielded := false }) s) s
  match pick with
  | none => .next (drew (modCore c (fun y => { y with slices := y.slices.put sl { x with hold := none } }) s))
  | some g =>
    let ready := readyLanes s g
    let arrs := arrivalsOf s g ready
    let lanesOf := arrs.foldl (fun m a => m ||| a.lanes) 0
    let s := modGrp g (fun y => { y with lastIssue := x.cycles, waits := y.waits.filter (fun w => (w.lanes &&& lanesOf) == 0),
                                         debugStop := y.dbgMode != 0, debugMark := s.ids.msg }) s
    let x := { x with hold := some g, holdLanes := (arrs.headD {}).lanes }
    let l := (team s (grp s g).team).launch
    let s := modCore c (fun y => { y with slices := y.slices.put sl x, issueBy := y.issueBy.put l (y.issueBy.get 0 l + 1) }) s
    let s := count g 1 1 (count g 2 (arrs.length - 1) (count g 3 (Mask.count lanesOf) s))
    .next (drew { s with issuing := arrs })

end Sys2Proof.Machine
end

