-- ==== Sys2Proof/Machine/Accum.lean ====
section
/-!
DEFINITION. Accumulator tokens and access (R170, R171, R174, R175, R318).
-/
namespace Sys2Proof.Machine

/-- The tile-table entry of a tile (R172). -/
def tileEnt (s : State) (c n : Nat) : TileEntry := (core s c).tileE.get {} n
def modTile (c n : Nat) (f : TileEntry → TileEntry) (s : State) : State :=
  modCore c (fun x => { x with tileE := x.tileE.put n (f (x.tileE.get {} n)) }) s
/-- The number of a word of a tile in accumulator memory (R170). -/
def tileKey (n i : Nat) : Nat := n * 8192 + i
/-- The place number of an uncorrectable error in a tile or a slot (R485). -/
def tilePlace (n : Nat) : Nat := 2 ^ 40 + n
def slotPlace (n : Nat) : Nat := 2 ^ 41 + n
/-- Has an uncorrectable error struck a place of a core (R485)? -/
def coreBad (s : State) (c place : Nat) : Bool := (core s c).poison.any (fun q => q.1 == place)

/-- A group takes a free tile's token (R174). -/
def takeTile (g n : Nat) (s : State) : State := modTile (grp s g).core n (fun e => { e with holder := some g }) s

/-- AACQ (R174). Waits until the tile's holder is none and no earlier group waits. -/
def execAacq (f : FS) (s : State) : Out :=
  .next (judge (.aacq f) [] (active s) (fun s =>
    let g := s.cur.gid
    let c := (grp s g).core
    let n := f.num.toNat
    if active s = 0 then done s
    else if (tileEnt s c n).holder.isNone && !((core s c).aacqQ.any (fun q => q.1 == n)) then done (takeTile g n s)
    else drew (stallOn (.aacq n) (modCore c (fun x => { x with aacqQ := x.aacqQ ++ [(n, g)] }) s))) s)

/-- AACQ_GRANT (R174). The token passes to the oldest waiting group, whose wait names what freed the tile (R318). -/
def execAacqGrant (s : State) : Out :=
  let c := s.ev.x
  let n := s.ev.y
  .next (match (core s c).aacqQ.find? (fun q => q.1 == n) with
    | none => s
    | some (_, g) =>
      if (tileEnt s c n).holder.isSome then s
      else match (grp s g).stall with
        | some ⟨.aacq _, arr, since⟩ =>
          let freed := (tileEnt s c n).freed
          let s := modCore c (fun x => { x with aacqQ := x.aacqQ.erase (n, g) }) s
          recordWait (endStall g (takeTile g n s)) g (lowest (activeOf s arr)) 4 since freed
        | _ => modCore c (fun x => { x with aacqQ := x.aacqQ.erase (n, g) }) s)

/-- A group gives a tile's token back; the event names the release (R174, R334). -/
def freeTile (g n lane_ : Nat) (s : State) : State :=
  let (a, s) := grpEvent s g lane_
  modTile (grp s g).core n (fun e => { e with holder := none, freed := a }) s

/-- Class 0x01, code 0x13, when the group does not hold the tile (R175). -/
def needTile (n : Nat) (run : State → State) (s : State) : State :=
  if (tileEnt s (grp s s.cur.gid).core n).holder ≠ some s.cur.gid then stopAll 1 0x13 0 (active s) s else run s

/-- AREL (R318). Waits until no accepted command names the tile. -/
def execArel (f : FS) (s : State) : Out :=
  .next (judge (.arel f) [] (active s) (fun s =>
    let g := s.cur.gid
    let n := f.num.toNat
    needTile n (fun s =>
      if active s = 0 then done s
      else if (tileEnt s (grp s g).core n).pending = 0 then done (freeTile g n (lowest (active s)) s) else drew (stallOn (.arel n) s)) s) s)

/-- AREL_COMPLETE (R318). Pending has reached 0; the record names the completion that brought it there. -/
def execArelComplete (s : State) : Out :=
  let g := s.ev.x
  .next (match (grp s g).stall with
    | some ⟨.arel n, arr, since⟩ =>
      let e := tileEnt s (grp s g).core n
      if e.pending ≠ 0 then s
      else endStall g (freeTile g n (lowest (activeOf s arr)) (recordWait s g (lowest (activeOf s arr)) 5 since e.last))
    | _ => s)

/-- An accumulator access: faults when the group does not hold the tile, waits at its word while the tile fills (R175). -/
def tileAccess (i : Instr) (f : FS) (run : Nat → Nat → State → State) : State → State := fun s0 =>
  judge i [] (active s0) (fun s =>
    let g := s.cur.gid
    let c := (grp s g).core
    let n := f.num.toNat
    needTile n (fun s =>
      if active s = 0 then done s
      else if !tileOpen s c n then drew (addWait g s.cur.lanes s.cur.pc (.tile n) s) else run c n s) s) s0
/-- The first word that a lane names (R318). -/
def tileIdx (s : State) (f : FS) (l : Nat) : Nat :=
  let cnt := cntOf f.mo
  srcBits s l f.a f.ak 32 % 8192 / cnt * cnt

/-- ARD (R318). Each participating lane's words move to vd on. -/
def execArd (f : FS) (s : State) : Out :=
  .next (tileAccess (.ard f) f (fun c n s =>
    if coreBad s c (tilePlace n) then raise s.cur 0xF 7 0 (active s) (active s) 0 false s
    else
      let w := fun (l e : Nat) => (core s c).tileW.get 0 (tileKey n ((tileIdx s f l + e) % 8192))
      let outs := (Mask.toList (active s)).map (fun l => (l, ({ v := (List.range (cntOf f.mo)).map (fun e => (f.d.toNat + e, w l e)) } : LaneOut)))
      done (outs.foldl (fun s q => putOut s.cur.gid q.1 q.2 s) s)) s)
/-- AWR (R318). Lanes in ascending order, so the highest leaves its value; the tile becomes ready. -/
def execAwr (f : FS) (s : State) : Out :=
  .next (tileAccess (.awr f) f (fun c n s0 =>
    let put := fun (t : Tab Word) (l : Nat) => (List.range (cntOf f.mo)).foldl (fun t e =>
      t.put (tileKey n ((tileIdx s0 f l + e) % 8192)) (vGet s0 s0.cur.gid l (f.b.toNat + e))) t
    let s := modCore c (fun x => { x with tileW := (Mask.toList (active s0)).foldl put x.tileW }) s0
    done (modTile c n (fun e => { e with state := .ready }) s)) s)
/-- Every word of a tile reads +0. -/
def clearTile (c n : Nat) (s : State) : State :=
  modCore c (fun x => { x with tileW := x.tileW.filter (fun q => q.1 / 8192 != n), poison := x.poison.filter (fun q => q.1 != tilePlace n) }) s
/-- ACLR (R318). -/
def execAclr (f : FS) (s : State) : Out :=
  .next (tileAccess (.aclr f) f (fun c n s => done (modTile c n (fun e => { e with state := .ready }) (clearTile c n s))) s)

end Sys2Proof.Machine
end

