-- ==== Sys2Proof/Machine/Residency.lean ====
section
/-!
DEFINITION. Residency: what a core's slices hold, how a team's groups are placed, and the state of a group at its start (R33,
R34, R37, R51).
-/
namespace Sys2Proof.Machine

/-- Group places and group-registers that each slice of a core has free (R33). -/
def sliceFree (s : State) (c : Nat) : List (Nat × Nat) :=
  (List.range 6).map (fun i =>
    let on := s.groups.filter (fun g => g.2.core == c && g.2.slice == i && g.2.resident && !g.2.exited)
    (16 - on.length, 1024 - (on.map (fun g => g.2.budget)).sum))
/-- The slice that takes a group: the most free group-registers with room for it, the lower number on a tie (R34, R51). -/
def pickSlice (free : List (Nat × Nat)) (budget : Nat) : Option Nat :=
  ((List.range free.length).zip free).foldl (fun (b : Option Nat) q =>
    if q.2.1 = 0 || q.2.2 < budget then b
    else match b with
      | none => some q.1
      | some i => if (free.getD i (0, 0)).2 < q.2.2 then some q.1 else b) none
/-- Free group places and group-registers of each slice of a core. -/
abbrev SliceRoom := List (Nat × Nat)
/-- A core with nothing on it (R33). -/
def emptyRoom : SliceRoom := List.replicate 6 (16, 1024)
/-- A group goes to the slice that the rule names, when it fits there (R34). -/
def placeGroup (r : SliceRoom) (budget : Nat) : Option (Nat × SliceRoom) :=
  match pickSlice r 0 with
  | none => none
  | some i => if (r.getD i (0, 0)).2 < budget then none else some (i, r.modify i (fun q => (q.1 - 1, q.2 - budget)))
/-- The slices that a team's groups take, one at a time in ascending number, and what is left (R34). -/
def placeAll : SliceRoom → List Nat → Option (List Nat × SliceRoom)
  | r, [] => some ([], r)
  | r, b :: t => match placeGroup r b with
    | none => none
    | some (i, r') => (placeAll r' t).map (fun q => (i :: q.1, q.2))
/-- The budgets of a team's groups in ascending group number (R30). -/
def budgets (r : LaunchRec) : List Nat := List.replicate r.p r.pBudget ++ List.replicate r.c r.cBudget

/-- A group at its start (R37): every lane at an entry header. -/
def freshGroup (s : State) (t : Nat) (place slice budget : Nat) (consumer : Bool) (entry : DWord) (lanes : Nat) : Group :=
  let tm := team s t
  let l := launch s tm.launch
  { part := tm.part, team := t, core := tm.core, slice := slice, place := place, budget := budget, consumer := consumer,
    level := bit l.handler.isSome, resident := true, exited := false,
    lanes := (List.range 32).map (fun i => (i, { pc := entry, exited := decide (lanes ≤ i), since := s.time })),
    k := [(0, l.record.args)] }
/-- A group comes into being. -/
def addGroup (g : Group) (s : State) : State :=
  { s with groups := s.groups.put s.ids.group g, ids := { s.ids with group := s.ids.group + 1 } }

end Sys2Proof.Machine
end

