-- ==== Sys2Proof/Machine/Matrix.lean ====
section
/-!
DEFINITION. The matrix engine: what a command reads, the reference sum (R161 to R165), the checksums and thresholds (R166 to R168),
segments (R183, R184), the strainer (R460 to R473) and the steep controller (R187, R188).
-/
namespace Sys2Proof.Machine

/-! ### Inputs -/

/-- Depth positions of an A slot and of a B slot (R169). -/
def depthA (f : Nat) : Nat := 1024 / mBits f
def depthB (f : Nat) : Nat := 2048 / mBits f
/-- A byte of a slot as the head command reads it: a slot that it has left, as it was then (R173). -/
def slotByte (s : State) (c slot k : Nat) : Byte :=
  match (core s c).mq.head? with
  | some m => if m.left.contains slot then m.image.get 0 (slot * 16384 + k) else (core s c).slotB.get 0 (slot * 16384 + k)
  | none => (core s c).slotB.get 0 (slot * 16384 + k)
/-- The raw element `i` of a slot for elements of `w` bits, nibbles low first (R169, R151). -/
def slotElem (s : State) (c slot i w : Nat) : Nat :=
  if w = 4 then (slotByte s c slot (i / 2)).toNat / 16 ^ (i % 2) % 16
  else leNat ((List.range (w / 8)).map (fun k => slotByte s c slot (i * (w / 8) + k)))
/-- Raw elements A(r, k) and B(k, j) of a command (R169, R176). -/
def rawA (s : State) (c : Nat) (b : Block) (r k : Nat) : Nat :=
  slotElem s c ((b.aSlot + k / depthA b.aFmt) % 32) (r * depthA b.aFmt + k % depthA b.aFmt) (mBits b.aFmt)
def rawB (s : State) (c : Nat) (b : Block) (k j : Nat) : Nat :=
  slotElem s c ((b.bSlot + k / depthB b.bFmt) % 32) (k % depthB b.bFmt * 64 + j) (mBits b.bFmt)
/-- The value of a raw element of a floating format (R149, R151, R152). -/
def mValue (f n : Nat) : FV :=
  match f with
  | 0 => unpack fmtTf32 (n / 2 ^ 13)
  | 1 => unpack fmtF16 n
  | 2 => unpack fmtBf16 n
  | 3 => unpack fmtE4m3 n
  | 4 => unpack fmtE5m2 n
  | 5 => unpack fmtE4m3 n
  | _ => unpack fmtE2m1 n
/-- A value with a scale byte: times 2^(byte − 127), NaN for 0xFF (R161, R163). -/
def withScale (x : FV) (sc : Nat) : FV :=
  match x with
  | .fin n m e => if sc = 0xFF then .nan else .fin n m (e + sc - 127)
  | y => if sc = 0xFF then .nan else y
/-- The scale byte of row or column `r` at depth `k` (R178). -/
def scaleByte (s : State) (t base r k K : Nat) : Nat :=
  match padHit s t (base + r * (K / 32) + k / 32) 1 with
  | .ok { loc := .pad o off, .. } => leNat (padBytes s o off 1)
  | _ => 0
/-- a' and b' of R166: element values with their block scales. -/
def elemA (s : State) (c : Nat) (m : MCmd) (r k : Nat) : FV :=
  let x := mValue m.block.aFmt (rawA s c m.block r k)
  if mScaled m.block.aFmt then withScale x (scaleByte s m.who.team m.block.aScale r k m.block.k) else x
def elemB (s : State) (c : Nat) (m : MCmd) (k j : Nat) : FV :=
  let x := mValue m.block.bFmt (rawB s c m.block k j)
  if mScaled m.block.bFmt then withScale x (scaleByte s m.who.team m.block.bScale j k m.block.k) else x
/-- Is a depth position unmasked (R164)? -/
def Block.open (b : Block) (k : Nat) : Bool := b.depLo ≤ k && k < b.depHi

/-! ### Segments -/

/-- Chunks of a command (R161). -/
def Block.chunks (b : Block) : Nat := ceilDiv b.k (mChunk b.aFmt)
/-- Chunks of a whole segment (R183). -/
def Block.perSeg (b : Block) : Nat := if b.gran = 0 then b.chunks else 2 ^ (b.gran - 1)
/-- Segments of a command (R183). -/
def Block.segs (b : Block) : Nat := ceilDiv b.chunks b.perSeg
/-- First chunk and count of chunks of a segment. -/
def Block.segChunks (b : Block) (q : Nat) : Nat × Nat := (q * b.perSeg, min b.perSeg (b.chunks - q * b.perSeg))
/-- Depth positions of a chunk. -/
def Block.depths (b : Block) (q : Nat) : List Nat :=
  (List.range (mChunk b.aFmt)).map (fun i => q * mChunk b.aFmt + i) |>.filter (fun k => decide (k < b.k))
/-- Depth positions of a segment. -/
def Block.segDepths (b : Block) (q : Nat) : List Nat :=
  (List.range (b.segChunks q).2).flatMap (fun i => b.depths ((b.segChunks q).1 + i))
/-- Computed rows and columns (R176). -/
def Block.rows (b : Block) : List Nat := (List.range (b.rowHi - b.rowLo)).map (fun i => b.rowLo + i)
def Block.cols (b : Block) : List Nat := (List.range (b.colHi - b.colLo)).map (fun i => b.colLo + i)
/-- Computed elements as words of the tile (R170). -/
def Block.elems (b : Block) : List Nat := b.rows.flatMap (fun i => b.cols.map (fun j => i * 64 + j))
/-- Slots that a segment reads. -/
def Block.segSlots (b : Block) (q : Nat) : List Nat :=
  ((b.segDepths q).flatMap (fun k => [(b.aSlot + k / depthA b.aFmt) % 32, (b.bSlot + k / depthB b.bFmt) % 32])).eraseDups
/-- Slots that a chunk reads. -/
def Block.chunkSlots (b : Block) (q : Nat) : List Nat :=
  ((b.depths q).flatMap (fun k => [(b.aSlot + k / depthA b.aFmt) % 32, (b.bSlot + k / depthB b.bFmt) % 32])).eraseDups
/-- Slots that a command has finished reading at the end of a segment. -/
def Block.slotsDone (b : Block) (q : Nat) : List Nat :=
  (b.segSlots q).filter (fun n => !((List.range b.segs).any (fun r => decide (q < r) && (b.segSlots r).contains n)))
/-- The matrix clock of a core in 0.1 GHz: a degraded core has no headroom (R389, R474). -/
def matrixClock (s : State) (c : Nat) : Nat :=
  match (clus s (coreClus c)).matClock with
  | 1 => if entryState s (coreEntry c) = 3 then 20 else 24
  | 2 => 10
  | _ => 20
/-- The reservation of a segment at an offset, in cu (R381). -/
def matrixCu (s : State) (c o : Nat) : Nat := ceilDiv (48 * matrixClock s c * (64 - o)) (20 * 64)

/-! ### The reference -/

/-- The products of a chunk at an element (R161, R164). -/
def products (s : State) (c : Nat) (m : MCmd) (i j q : Nat) : List FV :=
  (m.block.depths q).map (fun k => if m.block.open k then fvMul (elemA s c m i k) (elemB s c m k j) else .fin false 0 0)
/-- One chunk of the reference: an exact sum, one rounding (R162, R163). -/
def chunkSum (acc : Nat) (l : List FV) : Nat := pack fmtF32 0 0 false (l.foldl (fvAdd 0) (unpack fmtF32 acc))
/-- Unmasked integer products of some depths at an element (R165). -/
def intSum (s : State) (c : Nat) (m : MCmd) (i j : Nat) (ks : List Nat) : Int :=
  let w := mBits m.block.aFmt
  ((ks.filter m.block.open).map (fun k => sgn w (rawA s c m.block i k) * sgn w (rawB s c m.block k j))).sum
/-- The segment reference of an element from its incoming word (R162, R165, R184). -/
def segRef (s : State) (c : Nat) (m : MCmd) (e : Nat) (inc : Word) : Word :=
  let i := e / 64
  let j := e % 64
  if mInt m.block.aFmt then .ofNat 32 (wrapTo 32 ((inc.toNat : Int) + intSum s c m i j (m.block.segDepths m.seg)))
  else
    let q := m.block.segChunks m.seg
    .ofNat 32 ((List.range q.2).foldl (fun acc r => chunkSum acc (products s c m i j (q.1 + r))) inc.toNat)

/-! ### Checksums and thresholds -/

/-- FP64 encodings on the guarded path (R166). -/
def d64 (mode : Nat) (x : FV) : Nat := pack fmtF64 mode 0 false x
def dSum (mode : Nat) (l : List Nat) : Nat := l.foldl (fpAdd fmtF64 mode) 0
def dAbs (x : Nat) : Nat := x % 2 ^ 63
def dFinite (x : Nat) : Bool := x / 2 ^ 52 % 2048 != 2047
/-- Values of the words of some elements. -/
def wordsAt (vals : List (Nat × Word)) (f : Nat → Bool) : List Nat := (vals.filter (fun q => f q.1)).map (fun q => q.2.toNat)
/-- The checksum of a row: `g[i]` with `up` false, `AS[i]` with it (R166). -/
def rowSum (s : State) (c : Nat) (m : MCmd) (kept : List (Nat × Word)) (up : Bool) (i : Nat) : Nat :=
  let mode := if up then 2 else 0
  let f := fun (x : Nat) => if up then dAbs x else x
  let acc := dSum mode ((wordsAt kept (fun e => e / 64 == i)).map (fun w => f (d64 0 (unpack fmtF32 w))))
  let prods := ((m.block.segDepths m.seg).filter m.block.open).map (fun k =>
    fpMul fmtF64 mode (f (d64 0 (elemA s c m i k))) (dSum mode (m.block.cols.map (fun j => f (d64 0 (elemB s c m k j))))))
  fpAdd fmtF64 mode acc (dSum mode prods)
/-- The checksum of a column: `h[j]`, or `BS[j]` (R166). -/
def colSum (s : State) (c : Nat) (m : MCmd) (kept : List (Nat × Word)) (up : Bool) (j : Nat) : Nat :=
  let mode := if up then 2 else 0
  let f := fun (x : Nat) => if up then dAbs x else x
  let acc := dSum mode ((wordsAt kept (fun e => e % 64 == j)).map (fun w => f (d64 0 (unpack fmtF32 w))))
  let prods := ((m.block.segDepths m.seg).filter m.block.open).map (fun k =>
    fpMul fmtF64 mode (dSum mode (m.block.rows.map (fun i => f (d64 0 (elemA s c m i k))))) (f (d64 0 (elemB s c m k j))))
  fpAdd fmtF64 mode acc (dSum mode prods)
/-- The checksums modulo 2^32 of an integer command's row and column (R166). -/
def rowInt (s : State) (c : Nat) (m : MCmd) (kept : List (Nat × Word)) (i : Nat) : Nat :=
  wrapTo 32 (((wordsAt kept (fun e => e / 64 == i)).sum : Nat) + (m.block.cols.map (fun j => intSum s c m i j (m.block.segDepths m.seg))).sum)
def colInt (s : State) (c : Nat) (m : MCmd) (kept : List (Nat × Word)) (j : Nat) : Nat :=
  wrapTo 32 (((wordsAt kept (fun e => e % 64 == j)).sum : Nat) + (m.block.rows.map (fun i => intSum s c m i j (m.block.segDepths m.seg))).sum)
/-- cf × n × u × 2^(−shift) of R167, exactly representable. -/
def tolUnit (m : MCmd) (shift : Nat) : Nat :=
  let cf := if [5, 6, 7].contains m.block.aFmt then 8 else 4
  d64 2 (.fin false (cf * (m.block.segChunks m.seg).2) (-24 - (shift : Int)))
/-- An exact sum of FP32 words (R166). -/
def exactSum (l : List Nat) : FV := l.foldl (fun x w => fvAdd 0 x (unpack fmtF32 w)) (.fin false 0 0)
/-- Is a value a finite number? -/
def FV.isFin : FV → Bool
  | .fin _ _ _ => true
  | _ => false
/-- |x| above y, both finite (R167). -/
def fvAbove (x y : FV) : Bool :=
  match x, y with
  | .fin _ m e, .fin _ n f => let lo := min e f; decide (n * 2 ^ (f - lo).toNat < m * 2 ^ (e - lo).toNat)
  | _, _ => true

/-- A row's or column's judgement (R167, R461). -/
inductive Verdict where
  | ok
  | off
  | open_
  deriving DecidableEq, Repr

/-- One line of a segment: its checksum, its sum of magnitudes, its delivered words. -/
def judgeSums (m : MCmd) (g as_ : Nat) (l : List Nat) : Verdict :=
  let dr := exactSum l
  if !dFinite g || !dFinite as_ || !dr.isFin then .open_
  else if fvAbove (fvAdd 0 dr (unpack fmtF64 g).negate) (unpack fmtF64 (fpMul fmtF64 2 (tolUnit m 1) as_)) then .off else .ok
/-- The judgement of row `i` under delivered words (R460, R461, R166 for integers). [log 49, DEDUCED.] -/
def judgeRow (s : State) (c : Nat) (m : MCmd) (kept vals : List (Nat × Word)) (i : Nat) : Verdict :=
  let l := wordsAt vals (fun e => e / 64 == i)
  if mInt m.block.aFmt then (if l.sum % 2 ^ 32 = rowInt s c m kept i then .ok else .off)
  else judgeSums m (rowSum s c m kept false i) (rowSum s c m kept true i) l
/-- The judgement of column `j`. [log 49, DEDUCED.] -/
def judgeCol (s : State) (c : Nat) (m : MCmd) (kept vals : List (Nat × Word)) (j : Nat) : Verdict :=
  let l := wordsAt vals (fun e => e % 64 == j)
  if mInt m.block.aFmt then (if l.sum % 2 ^ 32 = colInt s c m kept j then .ok else .off)
  else judgeSums m (colSum s c m kept false j) (colSum s c m kept true j) l

/-- The mismatched rows and columns (R460), and those that cannot be judged (R461). -/
structure Judged where
  mr : List Nat
  mc : List Nat
  openR : List Nat
  openC : List Nat

def judgeAll (s : State) (c : Nat) (m : MCmd) (kept vals : List (Nat × Word)) : Judged :=
  let r := m.block.rows.map (fun i => (i, judgeRow s c m kept vals i))
  let q := m.block.cols.map (fun j => (j, judgeCol s c m kept vals j))
  let pick := fun (l : List (Nat × Verdict)) (v : Verdict) => (l.filter (fun x => x.2 == v)).map Prod.fst
  ⟨pick r .off, pick q .off, pick r .open_, pick q .open_⟩

/-- The segment reference of every computed element. -/
def segRefs (s : State) (c : Nat) (m : MCmd) (kept : List (Nat × Word)) : List (Nat × Word) := kept.map (fun q => (q.1, segRef s c m q.1 q.2))

/-- R461: every element of a row or column that cannot be judged becomes the reference, until every other one can be judged; the
elements whose bits changed. -/
def repair (s : State) (c : Nat) (m : MCmd) (kept refs : List (Nat × Word)) : Nat → List (Nat × Word) → List Nat × List (Nat × Word)
  | 0, vals => ([], vals)
  | n + 1, vals =>
    let j := judgeAll s c m kept vals
    let hit := fun (e : Nat) => j.openR.contains (e / 64) || j.openC.contains (e % 64)
    let new := (vals.zip refs).map (fun q => if hit q.1.1 then q.2 else q.1)
    let diff := ((vals.zip new).filter (fun q => q.1.2 != q.2.2)).map (fun q => q.1.1)
    if diff.isEmpty then ([], vals)
    else let r := repair s c m kept refs n new; (diff ++ r.1, r.2)

/-- R168: an element that the strainer lets pass lies within τ of the reference; it is the reference bit for bit where τ is 0, the reference
is no finite number or a norm is not finite (log 9). -/
def bounded (s : State) (c : Nat) (m : MCmd) (kept refs vals : List (Nat × Word)) : List (Nat × Word) :=
  if mInt m.block.aFmt then refs
  else (vals.zip refs).map (fun q =>
    let e := q.1.1
    let r := unpack fmtF32 q.2.2.toNat
    let as_ := rowSum s c m kept true (e / 64)
    let bs := colSum s c m kept true (e % 64)
    let tau := fpMul fmtF64 2 (tolUnit m 0) (min as_ bs)
    let d := unpack fmtF32 q.1.2.toNat
    if q.1.2 = q.2.2 then q.1
    else if tau % 2 ^ 63 = 0 || !dFinite as_ || !dFinite bs || !r.isFin || !d.isFin || fvAbove (fvAdd 0 d r.negate) (unpack fmtF64 tau) then q.2
    else q.1)

/-! ### Counting -/

/-- The bin of an offset (R471). -/
def offsetBin (o : Nat) : Nat := if o = 0 then 0 else if o ≤ 10 then 1 else if o ≤ 20 then 2 else 3
/-- A count of a mismatch histogram rises: sub-array `u` at key 4u + bin, lane `l` at 128 + 4l + bin (R471). [log 48, DEDUCED.] -/
def histAdd (c key : Nat) (s : State) : State := modCore c (fun x => { x with hist := x.hist.put key (min (x.hist.get 0 key + 1) 0xFFFF) }) s
/-- The sub-array and lane of an element (R471). -/
def subArray (e : Nat) : Nat := 4 * (e / 64 / 16) + e % 64 / 16
def elemLane (e : Nat) : Nat := 16 * (e / 64 % 16) + e % 64 % 16
/-- An element is counted at its lane and sub-array. [log 48, DEDUCED.] -/
def histElem (c o : Nat) (e : Nat) (s : State) : State := histAdd c (128 + 4 * elemLane e + offsetBin o) (histAdd c (4 * subArray e + offsetBin o) s)
/-- Each distinct sub-array of a set of rows and columns is counted. -/
def histSubs (c o : Nat) (rows cols : List Nat) (s : State) : State :=
  ((rows.flatMap (fun i => cols.map (fun j => subArray (i * 64 + j)))).eraseDups).foldl (fun s u => histAdd c (4 * u + offsetBin o) s) s

/-- Change the command at the head of a core's matrix queue. -/
def modHead (c : Nat) (f : MCmd → MCmd) (s : State) : State :=
  modCore c (fun x => { x with mq := match x.mq with
    | m :: t => f m :: t
    | [] => [] }) s
/-- Events of a command, saturating, and of the steep controller's window (R187, R467). -/
def addEvents (c p mine steep : Nat) (s : State) : State :=
  let s := modHead c (fun m => { m with events := min (m.events + mine) 0xFFFF }) s
  countAt p (coreDie c) 30 steep (modCore c (fun x => { x with steep := { x.steep with events := x.steep.events + steep } }) s)

/-- The channel of a core. -/
def chan (s : State) (c ch : Nat) : Chan := (core s c).chans.get {} ch
/-- A waiting fill of a channel whose slot has no readers makes its slot filling; Z clears the slot (R173). -/
def acceptFill (c ch id : Nat) (s : State) : State :=
  match (chan s c ch).queue.find? (fun m => m.id == id) with
  | none => s
  | some m =>
    let n := m.desc.slot
    if m.desc.kind ≠ 1 || m.filling || ((core s c).slotE.get {} n).readers ≠ 0 then s
    else
      modCore c (fun x => { x with
        slotE := x.slotE.put n { (x.slotE.get {} n) with state := .filling }
        slotB := if m.desc.zero then x.slotB.filter (fun q => q.1 / 16384 != n) else x.slotB
        chans := x.chans.put ch { (x.chans.get {} ch) with queue := (x.chans.get {} ch).queue.map (fun k => if k.id == id then { k with filling := true } else k) } }) s
/-- A slot as the engine leaves it: ready, one reader fewer; with the last reader gone, fills that wait for it are accepted before any later
event reaches it (R173). -/
def leaveSlot (c : Nat) (w : Issuer) (n : Nat) (s : State) : State :=
  let r := engineEvent w.part c 2 (partyOf s w) s
  let s := modCore c (fun x =>
    let e := x.slotE.get {} n
    { x with slotE := x.slotE.put n { e with state := if e.state = .draining then .ready else e.state, readers := e.readers - 1, lastRead := r.1 } }) r.2
  (List.range 2).foldl (fun s ch =>
    ((chan s c ch).queue.filter (fun m => m.desc.kind == 1 && m.desc.slot == n)).foldl (fun s m => acceptFill c ch m.id s) s) s

/-! ### Segments run -/

/-- How many chunks of the head command's segment have had their slots ready, in order: those seen, and the next ones whose slots are, `most` of
them at the most where it is not 0 (R173, R179). -/
def chunksReach (s : State) (c : Nat) (m : MCmd) (seen most : Nat) : Nat :=
  let q := m.block.segChunks m.seg
  let open_ := fun (n : Nat) => m.left.contains n || ((core s c).slotE.get {} n).state == .ready || ((core s c).slotE.get {} n).state == .draining
  let n := ((List.range q.2).takeWhile (fun i => decide (i < seen) || (m.block.chunkSlots (q.1 + i)).all open_)).length
  if most = 0 then n else min n (seen + most)
/-- Has an uncorrectable error struck the tile, or a slot or scale byte of the chunks from `lo` to before `hi` (R420, R485)? -/
def chunksBad (s : State) (c : Nat) (m : MCmd) (lo hi : Nat) : Bool :=
  let b := m.block
  let chunks := (List.range hi).filterMap (fun i => if lo ≤ i then some ((b.segChunks m.seg).1 + i) else none)
  let bytes := fun (base : Nat) (rows : List Nat) => rows.flatMap (fun r => ((chunks.flatMap b.depths).map (fun k => base + r * (b.k / 32) + k / 32)).eraseDups)
  let bad := fun (a : Nat) => match padHit s m.who.team a 1 with
    | .ok { loc := .pad t o, .. } => coreBad s c (t * 2 ^ 19 + o / 128)
    | _ => false
  coreBad s c (tilePlace b.tile) || (chunks.flatMap b.chunkSlots).any (fun n => !m.left.contains n && coreBad s c (slotPlace n))
    || (mScaled b.aFmt && (bytes b.aScale b.rows ++ bytes b.bScale b.cols).any bad)
/-- Does the engine go on with a segment at this time: have the slots of its next chunk been ready, or of all (R173)? -/
def runGoes (s : State) (c : Nat) (m : MCmd) (r : MRun) : Bool :=
  decide ((m.block.segChunks m.seg).2 ≤ r.seen) || decide (r.seen < chunksReach s c m r.seen 0)
/-- The slots of the chunks that the engine has reached drain (R173). -/
def drainSlots (c : Nat) (m : MCmd) (lo hi : Nat) (s : State) : State :=
  let l := (List.range hi).flatMap (fun i => if lo ≤ i then m.block.chunkSlots ((m.block.segChunks m.seg).1 + i) else [])
  modCore c (fun x => { x with slotE := (l.filter (fun n => !m.left.contains n)).foldl (fun t n => t.put n { t.get {} n with state := .draining }) x.slotE }) s
/-- The slots that the engine has finished reading before the segment's end are left; a checked segment may be reissued, and keeps them to its
end (R173, R465). [log 111, DEDUCED.] -/
def leaveEarly (c : Nat) (m : MCmd) (seen : Nat) (s : State) : State :=
  let b := m.block
  let q := b.segChunks m.seg
  let later := (List.range q.2).flatMap (fun i => if seen ≤ i then b.chunkSlots (q.1 + i) else [])
  let l := if b.mode = 1 then []
    else (b.slotsDone m.seg).filter (fun n => !m.left.contains n && !later.contains n && (List.range seen).any (fun i => (b.chunkSlots (q.1 + i)).contains n))
  let image := (core s c).slotB.filter (fun y => l.contains (y.1 / 16384))
  l.foldl (fun s n => leaveSlot c m.who n s) (modHead c (fun x => { x with left := x.left ++ l, image := image ++ x.image }) s)

/-- MATRIX_SEGMENT_START (R173, R179, R183, R185, R381, R464). The engine takes the head command's next segment once its reservation is
granted and the slots of its first chunk are ready; it waits at each later slot as it reaches it, and leaves one that it has finished
reading. The event's z, when not 0, limits the chunks that it reaches in the step. [log 111, DEDUCED.] -/
def execMatrixSegmentStart (s : State) : Out :=
  let c := s.ev.x
  let co := core s c
  .next (match co.mq, co.mrun with
    | m :: _, none =>
      let b := m.block
      let n := chunksReach s c m 0 s.ev.z
      let tm := team s m.who.team
      if m.stopped || b.segs ≤ m.seg || 0x40 ≤ m.status || tm.state ≠ .resident || tm.goal ≠ 0 || (part s m.who.part).suspended || n = 0
          || chunksBad s c m 0 n then s
      else
        let o := if b.mode = 0 || m.hard then 0 else co.steep.offset
        if !holdsResv s c 0 then askResv c 0 (matrixCu s c o) ((m.who.gid.map (grpPrio s)).getD 0) s
        else
          let kept := b.elems.map (fun e => (e, if b.z && m.seg = 0 then 0 else co.tileW.get 0 (tileKey b.tile e)))
          let r : MRun := { attempt := if m.hard then 3 else 0, offset0 := o, offset := o, kept := kept, start := s.time, seen := n }
          drainSlots c m 0 n (modCore c (fun x => { x with mrun := some r }) s)
    | m :: _, some r =>
      let n := chunksReach s c m r.seen s.ev.z
      let s := leaveEarly c m r.seen s
      if n ≤ r.seen || chunksBad s c m r.seen n then s
      else drainSlots c m r.seen n (modCore c (fun x => { x with mrun := some { r with seen := n } }) s)
    | [], _ => s)

/-- The words that an attempt forms: the reference, or at an offset below the safe point, or where the engine fails, a free word at
free elements (R185, log 9). -/
def attemptWords (s : State) (m : MCmd) (r : MRun) (failing : Bool) (refs : List (Nat × Word)) : List (Nat × Word) :=
  if m.block.mode = 0 || (r.offset = 0 && !failing) then refs
  else refs.map (fun q => (q.1, if Config.lateHere s.free q.1 then Config.lateWord s.free q.1 else q.2))

/-- The engine's busy time in cc, two to the nanosecond (R368 counter 31). [log 51, DEDUCED.] -/
def busyTime (c : Nat) (m : MCmd) (r : MRun) (s : State) : State := countAt m.who.part (coreDie c) 31 (2 * (s.time - r.start)) s

/-- The segment is delivered: its words go to the tile, its slots are left, its reservation is released (R173, R184, R381). [log 51, DEDUCED.] -/
def deliverSegment (c : Nat) (m : MCmd) (r : MRun) (vals : List (Nat × Word)) (s : State) : State :=
  let b := m.block
  let s := modCore c (fun x => { x with
    tileW := vals.foldl (fun t q => t.put (tileKey b.tile q.1) q.2) x.tileW
    mrun := none }) s
  let last := decide (1 ≤ r.attempt && r.offset = 0)
  let s := busyTime c m r s
  let s := modHead c (fun m => { m with seg := m.seg + 1, hard := false, status := if last && b.mode = 1 then 1 else m.status, left := [], image := [] }) s
  releaseResv c 0 (((b.slotsDone m.seg).filter (fun n => !m.left.contains n)).foldl (fun s n => leaveSlot c m.who n s) s)

/-! ### Windows of the steep controller -/

/-- Weak sub-arrays and lanes of a core (R473). -/
def weakCount (s : State) (c : Nat) : Nat := ((s.nonvol.weak.filter (fun q => q.1 / 512 == c))).length
/-- The safe point of a core in mV at its matrix clock in force (R188, R389, R473). -/
def safePoint (s : State) (c : Nat) : Nat := Config.fusedSafePoint c (matrixClock s c) + 5 * min (weakCount s c) 8
/-- STEEPSTAT of a core (R188). -/
def steepStat (s : State) (c : Nat) : Nat :=
  let x := (core s c).steep
  x.offset % 32 * 2 ^ 56 + safePoint s c % 2 ^ 16 * 2 ^ 32 + x.lastEvents % 2 ^ 32

/-- A core's offset changes between chunks: the largest offset at which a chunk of a running attempt 0 runs is the old one or the new one, as
its chunks fell (R187, R464, R465). An exact segment and a later attempt run at the offset that they have. [log 50, DEDUCED.] -/
def setOffset (c o : Nat) (s : State) : State :=
  match (core s c).mq, (core s c).mrun with
  | m :: _, some r =>
    let moves := m.block.mode ≠ 0 && r.attempt = 0 && draw s c % 2 = 0
    drew (modCore c (fun x => { x with steep := { x.steep with offset := o }, mrun := some (if moves then { r with offset := o, offset0 := o } else r) }) s)
  | _, _ => modCore c (fun x => { x with steep := { x.steep with offset := o } }) s
/-- A change of a core's matrix clock sets its offset to 0, but not that of a running attempt (R187, R389, R469). -/
def clearOffset (c : Nat) (s : State) : State := modCore c (fun x => { x with steep := { x.steep with offset := 0 } }) s
/-- The offset that a window's end gives (R187, R473). -/
def windowOffset (x : Steep) : Nat :=
  let target := bits x.cfg 47 32
  if x.resetReq || bits x.cfg 0 0 = 0 || target = 0 then 0
  else if x.products = 0 then x.offset
  else if target * x.products < x.events * 1000000 then x.offset - 1
  else if 2 * x.events * 1000000 ≤ target * x.products && x.offset < bits x.cfg 28 24 then x.offset + 1
  else x.offset
/-- A window of a core ends: the offset moves under the STEEPCFG that was in effect, the partition's takes effect, and the next window starts
with the products that the ended one did not hold (R187, R188, R473). [log 114, DESIGN CHOICE.] -/
def endWindow (c past : Nat) (s : State) : State :=
  let x := (core s c).steep
  let cfg := match (clus s (coreClus c)).holder with
    | some p => (part s p).steep
    | none => x.cfg
  let s := setOffset c (windowOffset x) s
  modCore c (fun y => { y with steep := { offset := windowOffset x, products := past, start := s.time, cfg := cfg,
                                          lastEvents := if x.products = 0 then 0 else x.events } }) s

/-- The chunks of an attempt are counted, a reissued one's too; the window ends with its last product, be it inside the attempt (R467, R373,
R187). [log 115, DESIGN CHOICE.] -/
def countChunks (c : Nat) (m : MCmd) (s : State) : State :=
  let n := (m.block.segChunks m.seg).2
  let l := (team s m.who.team).launch
  let s := countAt m.who.part (coreDie c) (27 + m.block.mode) n s
  let s := modLaunch l (fun x => { x with chunks := x.chunks + n }) s
  let s := modCore c (fun x => { x with chunkBy := x.chunkBy.put l (x.chunkBy.get 0 l + n) }) s
  let x := (core s c).steep
  let room := 2 ^ bits x.cfg 20 16 - x.products
  if n < room then modCore c (fun y => { y with steep := { x with products := x.products + n } }) s
  else endWindow c (n - room) (modCore c (fun y => { y with steep := { x with products := x.products + room } }) s)

/-- The strainer hard fault: the tile keeps the segment's incoming values, and the core degrades or fails (R470, R474). [log 48, DEDUCED.] -/
def hardFault (c : Nat) (m : MCmd) (r : MRun) (s : State) : State :=
  let s := busyTime c m r s
  let s := telemetry (some m.who.part) (coreDie c) 8 s
  let s := releaseResv c 0 (modCore c (fun x => { x with mrun := none }) s)
  let s := engineTrap m.who (some c) 0 m.id 0x40 m.addr (fun tid s => modHead c (fun x => { x with stopped := true, hard := true, stopTrap := some tid }) s) s
  { s with agenda := s.agenda ++ [⟨0, .coreFailure, { x := c, flag := true }⟩] }

/-- The checked judgement of an attempt: deliver, recompute one element, reissue, or the hard fault (R461, R462, R464, R466, R470). -/
def judgeChecked (c : Nat) (m : MCmd) (r : MRun) (vals refs : List (Nat × Word)) (s : State) : State :=
  let p := m.who.part
  let o := r.offset
  let fixed := repair s c m r.kept refs (m.block.m + m.block.n) vals
  let changed := fixed.1.eraseDups
  let vals := fixed.2
  let j := judgeAll s c m r.kept vals
  let fail := fun (s : State) =>
    let s := histSubs c o j.mr j.mc s
    if o = 0 then hardFault c m r s
    else
      let k := r.attempt + 1
      let o' := if 3 ≤ k then 0 else r.offset0 - k
      let s := addEvents c p 1 1 (modCore c (fun x => { x with mrun := some { r with attempt := k, offset := o' } }) s)
      let held := ((clus s (coreClus c)).grants.filter (fun g => g.core == c && g.unit_ == 0)).map (fun g => g.amount) |>.sum
      if o' = 0 && held < matrixCu s c 0 then askResv c 0 (matrixCu s c 0 - held) ((m.who.gid.map (grpPrio s)).getD 0) s else s
  let s' := changed.foldl (fun s e => histElem c o e s) (addEvents c p changed.length changed.length s)
  match j.mr, j.mc with
  | [], [] => deliverSegment c m r (bounded s c m r.kept refs vals) s'
  | [i], [k] =>
    let e := i * 64 + k
    let new := (vals.zip refs).map (fun q => if q.1.1 = e then q.2 else q.1)
    let s'' := histElem c o e (addEvents c p 1 1 s')
    if judgeRow s c m r.kept new i = .ok && judgeCol s c m r.kept new k = .ok then deliverSegment c m r (bounded s c m r.kept refs new) s'' else fail s''
  | _, _ => fail s'

/-- SEGMENT_JUDGE (R348, R460 to R471). The attempt's words are formed and judged; the flag says that the engine fails in this attempt. The
strainer finds nothing in one at offset 0 that does not. -/
def execSegmentJudge (s : State) : Out :=
  let c := s.ev.x
  let co := core s c
  .next (match co.mq, co.mrun with
    | m :: _, some r =>
      if (clus s (coreClus c)).requests.any (fun q => q.core == c && q.unit_ == 0) || r.seen < (m.block.segChunks m.seg).2 then s
      else
        let refs := segRefs s c m r.kept
        let s := countChunks c m s
        let r := (core s c).mrun.getD r
        let vals := attemptWords s m r s.ev.flag refs
        drew (match (if r.offset = 0 && !s.ev.flag then 0 else m.block.mode) with
          | 0 => deliverSegment c m r refs s
          | 1 => judgeChecked c m r vals refs s
          | _ =>
            let j := judgeAll s c m r.kept vals
            let n := j.mr.length + j.mc.length
            let s := addEvents c m.who.part n (if n = 0 then 0 else 1) s
            let s := match j.mr, j.mc with
              | [i], [k] => histElem c r.offset (i * 64 + k) s
              | a, b => histSubs c r.offset a b s
            deliverSegment c m r vals s)
    | _, _ => s)

/-- MATRIX_COMMAND_COMPLETE (R146, R174, R181, R470). The tile, the token, the completion entry and the metering, in this order; a
skipped command leaves its slots and its later segments. -/
def execMatrixCommandComplete (s : State) : Out :=
  let c := s.ev.x
  .next (match (core s c).mq, (core s c).mrun with
    | m :: rest, none =>
      let b := m.block
      if m.stopped || (m.seg < b.segs && m.status < 0x40) || (team s m.who.team).state ≠ .resident then s
      else
        let p := m.who.part
        let left := ((List.range b.segs).flatMap (fun q => if q < m.seg then [] else b.slotsDone q)).eraseDups.filter (fun n => !m.left.contains n)
        let s := left.foldl (fun s n => leaveSlot c m.who n s) s
        let (a, s) := engineEvent p c 2 (partyOf s m.who) s
        let s := modTile c b.tile (fun e => { e with pending := e.pending - 1, state := if e.pending ≤ 1 then .ready else e.state, last := a }) s
        let s := modCore c (fun x => { x with mq := rest }) s
        let entry : DWord := .ofNat 64 (b.tag * 2 ^ 32 + m.events * 2 ^ 16 + b.tile * 2 ^ 8 + m.status)
        let s := match m.who.gid with
          | some g => pushEntry g 1 entry a (freeTok g b.tok a s)
          | none => s
        let n := b.rows.length * b.cols.length * b.k
        drew (releaseResv c 0 (meterAdd p (1 + 3 * b.aFmt + b.mode) (2 ^ 16) n (countAt p (coreDie c) (17 + b.aFmt) n s)))
    | _, _ => s)

/-! ### The steep controller -/

/-- STEEP_WINDOW_END (R187, R188, R473). A window ends after 1 ms at the latest; one that ends by its products ends in `countChunks`. [log 50, DEDUCED.] -/
def execSteepWindowEnd (s : State) : Out :=
  let x := (core s s.ev.x).steep
  .next (if x.products < 2 ^ bits x.cfg 20 16 && s.time < x.start + 1000000 then s else endWindow s.ev.x 0 s)

end Sys2Proof.Machine
end

