-- ==== Sys2Proof/Machine/Copy.lean ====
section
/-!
DEFINITION. Copy commands: how an engine reaches an operand (R100, R109, R452), what a copy moves (R324), its segments (R326), its
completion (R146, R325), and the stop of an engine command on a fault (R423, R484).
-/
namespace Sys2Proof.Machine

/-! ### How an engine reaches a byte -/

/-- An operand of a command of `who`, run on core `c` under a holder identity: the virtual address it has for rights, and its place
(R82, R86, R88 to R93, R108, R109); a request to the module's own number is refused here (R447). Class 0 is the wait of R450. -/
def engineHit (s : State) (w : Issuer) (c holder space a n : Nat) (acc : Acc) : Except Fail (Nat × Loc) :=
  let p := w.part
  let r := match space with
    | 1 => padHit s w.team a n
    | 2 => vaultHit s p a n a
    | _ => translate s p c a n acc
  match r with
  | .error f => .error f
  | .ok h =>
    let va := if space = 2 then (part s p).ctx.vwin.toNat + a else a
    let right := if space = 1 || !needsRight h acc then none else rightCode s p holder va h.home acc
    match right with
    | some 0 => .error ⟨0, 0, 0⟩
    | some k => .error ⟨7, k, a⟩
    | none =>
      let bad : Bool := match h.loc with
        | .cell key => acc = .engineRead && (List.range n).any (fun i => isPoison s (key + i))
        | .pad t off => acc = .engineRead && coreBad s (team s t).core (t * 2 ^ 19 + off / 128)
        | _ => false
      if bad then .error ⟨0xF, 0, a⟩
      else match h.loc with
        | .remote m gpa => match ownPlace s p m gpa acc with
          | some (.error 0) => .error ⟨0, 0, 0⟩
          | some (.error e) => .error ⟨6, e, h.gpa⟩
          | _ => .ok (va, h.loc)
        | _ => .ok (va, h.loc)
/-- The code of R484 for a fault that an engine meets; none while it waits for a right. -/
def engineCode (f : Fail) : Option Nat := if f.cls = 0 then none else some f.cls
/-- The byte that an engine reads at a place, at its home (R145); a byte of another module is `far`. -/
def engineByte (s : State) (w : Issuer) (l : Loc) (far : Byte) : Byte :=
  match l with
  | .cell k => cellGet s.mem k
  | .pad t o => cellGet (team s t).pad o
  | .reg q _ page o => if page = 0 && (w.gid.map (fun g => (grp s g).level)).getD 0 = 0 then 0 else regByte s q page o
  | .remote m a => match ownPlace s w.part m a .engineRead with
    | some (.ok (_, _, { loc := .cell k, .. })) => cellGet s.mem k
    | some (.ok (_, _, { loc := .reg q _ page o, .. })) => regByte s q page o
    | some _ => 0
    | none => far
/-- A copy or collective node of a graph, where bytes are accounted to launches (R361, R373, R374). -/
def nodeLaunch (g n : Nat) : Nat := 2 ^ 40 - 2 ^ 20 + g * 4096 + n
/-- The launch that a command belongs to: its team's, or its node (R373). -/
def issuerLaunch (s : State) (w : Issuer) : Option Nat := if w.gid.isSome then teamLaunch s w.team else some (nodeLaunch w.graph w.node)
/-- Bytes that an engine writes at a place: the write's W, 0 where the home answers later (R129, R145, R477). `cmd` names the command to
which a remote home answers. [log 24, DESIGN CHOICE; log 38, DESIGN CHOICE.] -/
def engineWrite (w : Issuer) (cmd : Nat × Nat) (va : Nat) (l : Loc) (b : List Byte) (s : State) : Nat × State :=
  let dirty := fun (s : State) => if w.gid.isSome then markDirty (team s w.team).launch va s else s
  match l with
  | .cell k => homeWrite w.part (issuerLaunch s w) va k b (dirty s)
  | .pad t o => (0, padWrite t o b s)
  | .reg _ _ _ _ => (0, s)
  | .remote m gpa =>
    let id := s.ids.msg
    let f : Far := { id := id, gid := 2 ^ 40, part := w.part, module := some m, gpa := gpa, va := va, write := some ((List.range b.length).zip b),
                     sent := s.time, cmd := some cmd, lau := issuerLaunch s w, dest := carries s w.part (some m) }
    (0, { s with net := { s.net with far := s.net.far ++ [f] }, ids := { s.ids with msg := id + 1 } })
/-- The number of bytes that an engine reads at a place is counted at its home (R368, R376). -/
def engineCount (p : Nat) (lau : Option Nat) (d : Nat) (l : Loc) (n : Nat) (s : State) : State :=
  match l with
  | .cell k => moved p lau (lineOf k) n false s
  | .remote _ _ => movedFar p lau d n false s
  | _ => s

/-! ### What a copy moves -/

/-- One aligned piece of at most 4 bytes: source and destination spaces and addresses; space 0 is the slot (R137, R324). -/
structure CopyPiece where
  id : Nat
  srcSpace : Nat
  src : Nat
  dstSpace : Nat
  dst : Nat
  len : Nat
  deriving DecidableEq, Repr

/-- Change the command at the head of a channel. -/
def modCopy (c ch : Nat) (f : CopyCmd → CopyCmd) (s : State) : State :=
  modCore c (fun x => { x with chans := x.chans.put ch { (x.chans.get {} ch) with queue := match (x.chans.get {} ch).queue with
    | m :: t => f m :: t
    | [] => [] } })
    s
/-- The holder identity whose rights a copy uses: its team's, or the channel's for a graph node (R109). -/
def copyHolder (s : State) (c ch : Nat) (m : CopyCmd) : Nat := if m.who.gid.isSome then teamHolder s m.who.team else chanHolder s m.who.part c ch
/-- Does another module hold a place? -/
def farHeld (s : State) (p : Nat) (l : Loc) : Bool :=
  match l with
  | .remote m a => (ownPlace s p m a .engineRead).isNone
  | _ => false
/-- A 32-bit number of an index array (R322); one on another module waits, as class 0, until the command has its home's answer. -/
def indexAt (s : State) (c ch : Nat) (m : CopyCmd) (i : Nat) : Except Fail Nat :=
  match engineHit s m.who c (copyHolder s c ch m) m.desc.idxSpace (m.desc.idx.toNat + 4 * i) 4 .engineRead with
  | .error f => .error f
  | .ok (_, l) =>
    if farHeld s m.who.part l then match m.index.find? (fun q => q.1 == i) with
      | some q => .ok q.2
      | none => .error ⟨0, 0, 0⟩
    else .ok (leNat ((List.range 4).map (fun k => engineByte s m.who (l.plus k) 0)))
/-- Rows of a copy, or elements of a walk whose range is known (R324). -/
def copyUnits (m : CopyCmd) : Nat := if m.desc.kind = 4 then (m.walk.map Prod.snd).getD 0 else m.desc.rows
/-- Units of a segment (R326). -/
def copyStep (m : CopyCmd) : Nat :=
  if m.desc.gran = 0 then max 1 (copyUnits m) else (if m.desc.kind = 4 then 256 else 1) * 2 ^ (m.desc.gran - 1)
/-- The units of the current segment. -/
def segUnits (m : CopyCmd) : List Nat := (List.range (min (copyStep m) (copyUnits m - m.next))).map (fun i => m.next + i)
/-- The numbers of its index array that a command reads next, on another module and not answered yet: a walk's two row pointers, or those
of the segment's rows (R324). -/
def farIndices (s : State) (c ch : Nat) (m : CopyCmd) : List Nat :=
  let l := if m.desc.kind = 4 then (if m.walk.isSome then [] else [m.desc.firstRow, m.desc.firstRow + m.desc.rows])
    else if m.desc.kind = 2 || m.desc.kind = 3 then segUnits m else []
  l.filter (fun i => match engineHit s m.who c (copyHolder s c ch m) m.desc.idxSpace (m.desc.idx.toNat + 4 * i) 4 .engineRead with
    | .error _ => false
    | .ok (_, l) => farHeld s m.who.part l && !m.index.any (fun q => q.1 == i))
/-- The answers of other modules to those reads, 4 bytes each. -/
def readIndices (c ch : Nat) (l : List Nat) (data : List Byte) (s : State) : State :=
  modCopy c ch (fun x => { x with index := x.index ++ (List.range l.length).map (fun k => (l.getD k 0, leNat ((List.range 4).map (fun j => data.getD (4 * k + j) 0)))) }) s
/-- Is the current segment the last? -/
def lastSeg (m : CopyCmd) : Bool := copyUnits m ≤ m.next + copyStep m
/-- A run of bytes cut at aligned 4-byte words of its destination. -/
def cutRun (u srcSpace src dstSpace dst len : Nat) : List CopyPiece :=
  (List.range ((dst % 4 + len + 3) / 4)).map (fun k =>
    let lo := if k = 0 then 0 else 4 * k - dst % 4
    let hi := min len (4 * (k + 1) - dst % 4)
    ⟨u * 2 ^ 24 + k, srcSpace, src + lo, dstSpace, dst + lo, hi - lo⟩)
/-- The pieces of a unit (R324), or the fault that the read of its index meets. -/
def unitPieces (s : State) (c ch : Nat) (m : CopyCmd) (u : Nat) : Except Fail (List CopyPiece) :=
  let d := m.desc
  let at_ := fun (base : DWord) (off : Nat) => (base.toNat + off) % 2 ^ 64
  match d.kind with
  | 0 => .ok (cutRun u d.srcSpace (at_ d.src (u * d.srcPitch)) d.dstSpace (at_ d.dst (u * d.dstPitch)) d.l)
  | 1 => .ok (cutRun u d.srcSpace (at_ d.src (u * d.srcPitch)) 0 (at_ d.dst (u * d.dstPitch)) d.l)
  | 2 => match indexAt s c ch m u with
    | .error f => .error f
    | .ok i => .ok (cutRun u d.srcSpace (at_ d.src (i * d.srcPitch)) d.dstSpace (at_ d.dst (u * d.dstPitch)) d.l)
  | 3 => match indexAt s c ch m u with
    | .error f => .error f
    | .ok i => .ok (cutRun u d.srcSpace (at_ d.src (u * d.srcPitch)) d.dstSpace (at_ d.dst (i * d.dstPitch)) d.l)
  | _ =>
    let lo := (m.walk.map Prod.fst).getD 0
    .ok (cutRun (2 * u) d.srcSpace (at_ d.colIdx ((lo + u) * 4)) d.dstSpace (at_ d.dst (u * 4)) 4
      ++ cutRun (2 * u + 1) d.srcSpace (at_ d.src ((lo + u) * d.width)) d.dstSpace (at_ d.dst2 (u * d.width)) d.width)
/-- The places of a piece: of each source byte, and of the destination; none for a slot. -/
def pieceHit (s : State) (c ch : Nat) (m : CopyCmd) (q : CopyPiece) : Except Fail (List Loc × Option (Nat × Loc)) :=
  let h := copyHolder s c ch m
  match (List.range q.len).mapM (fun i => engineHit s m.who c h q.srcSpace (q.src + i) 1 .engineRead) with
  | .error f => .error f
  | .ok src =>
    if q.dstSpace = 0 then .ok (src.map Prod.snd, none)
    else match engineHit s m.who c h q.dstSpace q.dst q.len .engineWrite with
      | .error f => .error f
      | .ok d => .ok (src.map Prod.snd, some d)
/-- The pieces of the current segment that have not moved, or the first fault met in them (R423, R452). -/
def segPieces (s : State) (c ch : Nat) (m : CopyCmd) : Except Fail (List CopyPiece) :=
  match (segUnits m).mapM (unitPieces s c ch m) with
  | .error f => .error f
  | .ok l => .ok (l.flatten.filter (fun q => !m.moved.contains q.id))
/-- The fault that the current segment of a copy meets, if any. -/
def copyFault (s : State) (c ch : Nat) (m : CopyCmd) : Option Fail :=
  match segPieces s c ch m with
  | .error f => some f
  | .ok l => l.findSome? (fun q => match pieceHit s c ch m q with
    | .error f => some f
    | .ok _ => none)
/-- The line of the place that a piece writes. -/
def pieceLines (s : State) (c ch : Nat) (m : CopyCmd) (q : CopyPiece) : List Nat :=
  match pieceHit s c ch m q with
  | .ok (_, some (_, l)) => l.lines
  | _ => []
/-- One piece moves (R324): bytes read, one write. `far` are bytes that another module sends. [log 53, DEDUCED.] -/
def movePiece (c ch : Nat) (far : List Byte) (q : CopyPiece) (s : State) : State :=
  match (chan s c ch).queue.head? with
  | none => s
  | some m => match pieceHit s c ch m q with
    | .error _ => s
    | .ok (src, dst) =>
      let b := (List.range q.len).zip src |>.map (fun x => engineByte s m.who x.2 (far.getD x.1 0))
      let s := match src.head? with
        | some l => engineCount m.who.part (issuerLaunch s m.who) (coreDie c) l q.len s
        | none => s
      let s := countAt m.who.part (coreDie c) 32 q.len (countAt m.who.part (coreDie c) 33 q.len s)
      let (w, s) := match dst with
        | some (va, l) => engineWrite m.who (c, m.id) va l b s
        | none => (0, modCore c (fun x => { x with slotB := (List.range q.len).zip b |>.foldl (fun t y => t.put (m.desc.slot * 16384 + q.dst + y.1) y.2) x.slotB }) s)
      modCopy c ch (fun m => { m with largestW := max m.largestW w, moved := m.moved ++ [q.id] }) s

/-- The walk's row range, read when its first segment starts (R324). -/
def readWalk (c ch : Nat) (m : CopyCmd) (s : State) : State :=
  if m.desc.kind ≠ 4 || m.walk.isSome then s
  else match indexAt s c ch m m.desc.firstRow, indexAt s c ch m (m.desc.firstRow + m.desc.rows) with
    | .ok lo, .ok hi =>
      let e := if hi < lo then 0 else min (hi - lo) m.desc.l
      modCopy c ch (fun x => { x with walk := some (lo, e), status := if hi < lo then 2 else if e < hi - lo then 1 else 0 }) s
    | _, _ => s

/-- Is a core's cluster clocked: neither gated nor waking (R395)? -/
def clocked (s : State) (c : Nat) : Bool := (clus s (coreClus c)).state < 5
/-- May the head command of a channel run its segment? One that a stop or a suspension reached does not start another, and none runs on a
gated cluster (R77, R395, R475). -/
def copyRuns (s : State) (c ch : Nat) (m : CopyCmd) : Bool :=
  let begun := holdsResv s c (1 + ch)
  let tm := team s m.who.team
  clocked s c && !m.stopped && !m.ended && (m.desc.kind ≠ 1 || m.filling) && (begun || !(part s m.who.part).suspended)
    && (m.who.gid.isNone || (tm.state == .resident && (begun || tm.goal == 0)))

/-- The priority of a command (R382). -/
def cmdPrio (s : State) (w : Issuer) : Nat :=
  match w.gid with
  | some g => grpPrio s g
  | none => ((((part s w.part).graphs.get {} w.graph).nodes)[w.node]?.map (fun n => n.prio)).getD 0

/-- A segment of the head command of a channel runs: its reservation is asked for, some pieces move early, or all that are left move
and the segment ends, once the host caches none of the lines that they write (R137, R148, R326, R381); while numbers of an index array are
to come from another module, the step brings those. `last` says which segments the step is for. [log 38, DESIGN CHOICE; log 53, DEDUCED.] -/
def copySegment (last : Bool) (s : State) : State :=
  let c := s.ev.x
  let ch := s.ev.y
  let pieces := s.ev.nums
  let far := s.ev.data
  match (chan s c ch).queue.head? with
  | none => s
  | some m =>
    if !copyRuns s c ch m then s
    else if !holdsResv s c (1 + ch) then askResv c (1 + ch) 8 (cmdPrio s m.who) s
    else if !(farIndices s c ch m).isEmpty then readIndices c ch (farIndices s c ch m) far s
    else
      let s := readWalk c ch m (if m.start = 0 then modCopy c ch (fun x => { x with start := s.time }) s else s)
      match (chan s c ch).queue.head? with
      | none => s
      | some m =>
        if (m.desc.kind = 4 && m.walk.isNone) || lastSeg m != last then s
        else match segPieces s c ch m with
          | .error _ => s
          | .ok l =>
            let l := if s.ev.flag then l.filter (fun q => pieces.contains q.id) else l
            hostFree (l.flatMap (pieceLines s c ch m)).eraseDups (fun s =>
            if s.ev.flag then l.foldl (fun s q => movePiece c ch far q s) s
            else if (copyFault s c ch m).isSome then s
            else
              let s := (l.foldl (fun (r : Nat × State) q => (r.1 + q.len, movePiece c ch (far.drop r.1) q r.2)) (0, s)).2
              if s.net.far.any (fun f => f.cmd == some (c, m.id)) then s else
              let s := modCopy c ch (fun x => { x with next := x.next + (segUnits x).length, moved := [], index := [], start := 0, ended := last }) s
              releaseResv c (1 + ch) (countAt m.who.part (coreDie c) 35 (2 * (s.time - m.start)) s)) s

/-- COPY_SEGMENT_END (R326). With the flag, the pieces that nums lists move and the segment goes on. [log 51, DEDUCED; log 53, DEDUCED.] -/
def execCopySegmentEnd (s : State) : Out := .next (drew (copySegment false s))

/-- SLOT_FILL_ACCEPT (R173). The first waiting fill of the channel whose slot has no readers is accepted. -/
def execSlotFillAccept (s : State) : Out :=
  let c := s.ev.x
  let ch := s.ev.y
  .next (match (chan s c ch).queue.find? (fun m => m.desc.kind == 1 && !m.filling && ((core s c).slotE.get {} m.desc.slot).readers == 0) with
    | some m => acceptFill c ch m.id s
    | none => s)

/-- The completion of the head command of a channel: slot, token, status entry (R146, R173, R325). -/
def completeCopy (c ch : Nat) (m : CopyCmd) (s : State) : State :=
  let (a, s) := engineEvent m.who.part c 3 (partyOf s m.who) s
  let s := modCore c (fun x => { x with
    chans := x.chans.put ch { (x.chans.get {} ch) with queue := (x.chans.get {} ch).queue.drop 1 }
    slotE := if m.desc.kind = 1 then x.slotE.put m.desc.slot { (x.slotE.get {} m.desc.slot) with state := .ready, last := a } else x.slotE }) s
  match m.who.gid with
  | some g =>
    let s := freeTok g m.desc.tok a s
    if m.desc.status then pushEntry g 3 (.ofNat 64 (m.desc.tag * 2 ^ 32 + m.next % 2 ^ 24 * 2 ^ 8 + m.status)) a s else s
  | none => s

/-- COPY_COMPLETE (R146, R325). The last segment's pieces move; once every write is acknowledged and the die's gtime has passed the
largest W + 20, the command completes. A skipped command completes with status 0x80 (R482). -/
def execCopyComplete (s : State) : Out :=
  let c := s.ev.x
  let ch := s.ev.y
  .next (drew (match (chan s c ch).queue.head? with
    | none => s
    | some m =>
      if m.stopped then s
      else if !m.ended then copySegment true s
      else if s.net.far.any (fun f => f.cmd == some (c, m.id)) || gtime s (coreDie c) ≤ m.largestW + 20 then s
      else completeCopy c ch m s))

/-! ### Stops -/

/-- ENGINE_FAULT_STOP for a channel (R423, R452, R484): the head command's segment meets a fault, or a request of the command got no answer
or a refusal (the flag, for a read). [log 52, DEDUCED.] -/
def stopCopy (c ch : Nat) (s : State) : State :=
  match (chan s c ch).queue.head? with
  | none => s
  | some m =>
    let lost := s.net.far.any (fun f => f.cmd == some (c, m.id) && f.refused) || s.ev.flag
    let code := if lost then some 6 else (copyFault s c ch m).bind engineCode
    let walkBad := if m.desc.kind = 4 && m.walk.isNone then
        ([m.desc.firstRow, m.desc.firstRow + m.desc.rows]).findSome? (fun i => match indexAt s c ch m i with
          | .error f => engineCode f
          | .ok _ => none)
      else none
    let live := holdsResv s c (1 + ch) || lost
    match (if m.stopped || m.ended || !live then none else walkBad.orElse (fun _ => code)) with
    | none => s
    | some k =>
      let s := { s with net := { s.net with far := s.net.far.filter (fun f => !(f.cmd == some (c, m.id) && f.refused)) } }
      let s := releaseResv c (1 + ch) s
      engineTrap m.who (some c) (1 + ch) m.id k m.addr (fun tid s => modCopy c ch (fun x => { x with stopped := true, stopTrap := some tid, moved := [], index := [], start := 0 }) s) s
/-- ENGINE_FAULT_STOP for the matrix engine: it reaches a poisoned slot, tile or scale byte; nothing of that segment is delivered (R420, R484,
R485). [log 52, DEDUCED.] -/
def stopMatrix (c : Nat) (s : State) : State :=
  match (core s c).mq with
  | m :: _ =>
    let seen := (((core s c).mrun).map MRun.seen).getD 0
    let bad := chunksBad s c m seen (chunksReach s c m seen 0)
    if m.stopped || !bad || m.block.segs ≤ m.seg || 0x40 ≤ m.status then s
    else engineTrap m.who (some c) 0 m.id 0xF m.addr (fun tid s => modHead c (fun x => { x with stopped := true, stopTrap := some tid }) s)
      (releaseResv c 0 (modCore c (fun x => { x with mrun := none }) s))
  | [] => s

end Sys2Proof.Machine
end

