-- ==== Sys2Proof/Machine/Integer.lean ====
section
/-!
DEFINITION. Integer words: arithmetic, logic, shifts, bit fields, compares, selects, predicates, addresses and moves, in their
vector, immediate and uniform forms (R224 to R249).
-/
namespace Sys2Proof.Machine

/-! ### The operations, on operands of the type's width -/

/-- An integer operation: type, modifier, and the operands' bits; the exact result of R235 to R245. -/
abbrev IOp := BitVec 5 → Byte → Nat → Nat → Nat → Int

/-- The type's range (R235). -/
def clampTo (t : BitVec 5) (x : Int) : Int :=
  let w := tyBits t
  if tySigned t then max (-(2 ^ (w - 1) : Nat) : Int) (min x ((2 ^ (w - 1) : Nat) - 1)) else max 0 (min x ((2 ^ w : Nat) - 1))
def opAdd : IOp := fun t _ a b _ => readAs t a + readAs t b
def opSub : IOp := fun t _ a b _ => readAs t a - readAs t b
def opMul : IOp := fun t _ a b _ => readAs t a * readAs t b
def opMulHi : IOp := fun t _ a b _ => (readAs t a * readAs t b) / ((2 ^ tyBits t : Nat) : Int)
def opMad : IOp := fun t _ a b c => readAs t a * readAs t b + readAs t c
def opAbs : IOp := fun t _ a _ _ => ((readAs t a).natAbs : Int)
def opNeg : IOp := fun t _ a _ _ => -readAs t a
def opMin : IOp := fun t _ a b _ => min (readAs t a) (readAs t b)
def opMax : IOp := fun t _ a b _ => max (readAs t a) (readAs t b)
def opAddSat : IOp := fun t _ a b _ => clampTo t (readAs t a + readAs t b)
def opSubSat : IOp := fun t _ a b _ => clampTo t (readAs t a - readAs t b)
/-- Quotient and remainder with the fixed corners of R236. -/
def divRem (t : BitVec 5) (a b : Nat) : Int × Int :=
  let x := readAs t a
  let y := readAs t b
  if y = 0 then (-1, x)
  else if tySigned t && x == -((2 ^ (tyBits t - 1) : Nat) : Int) && y == -1 then (x, 0)
  else (x.tdiv y, x - x.tdiv y * y)
def opDiv : IOp := fun t _ a b _ => (divRem t a b).1
def opRem : IOp := fun t _ a b _ => (divRem t a b).2
def opAnd : IOp := fun _ _ a b _ => ((a &&& b : Nat) : Int)
def opOr : IOp := fun _ _ a b _ => ((a ||| b : Nat) : Int)
def opXor : IOp := fun _ _ a b _ => ((a ^^^ b : Nat) : Int)
def opNot : IOp := fun t _ a _ _ => ((2 ^ tyBits t - 1 - a : Nat) : Int)
/-- A number from its bits, given as a test on bit numbers. -/
def ofBits (w : Nat) (f : Nat → Bool) : Nat := ((List.range w).filter f).foldl (fun n i => n + 2 ^ i) 0
def opBool3 : IOp := fun t fn a b c => (ofBits (tyBits t) (fun i => truth fn (a.testBit i) (b.testBit i) (c.testBit i)) : Int)
def opShl : IOp := fun t _ a b _ => if tyBits t ≤ b then 0 else ((a * 2 ^ b : Nat) : Int)
def opShr : IOp := fun t _ a b _ => if tyBits t ≤ b then 0 else ((a / 2 ^ b : Nat) : Int)
def opSar : IOp := fun t _ a b _ => sgn (tyBits t) a / ((2 ^ min b (tyBits t - 1) : Nat) : Int)
/-- The funnel shift amount: modulo the width, or clamped to it (R238). -/
def funnelBy (t : BitVec 5) (mo : Byte) (c : Nat) : Nat := if mo.getLsbD 0 then min c (tyBits t) else c % tyBits t
def opFsl : IOp := fun t mo a b c => (((a * 2 ^ tyBits t + b) * 2 ^ funnelBy t mo c / 2 ^ tyBits t % 2 ^ tyBits t : Nat) : Int)
def opFsr : IOp := fun t mo a b c => (((a * 2 ^ tyBits t + b) / 2 ^ funnelBy t mo c % 2 ^ tyBits t : Nat) : Int)
def opPopc : IOp := fun t _ a _ _ => ((((List.range (tyBits t)).filter a.testBit).length : Nat) : Int)
def opClz : IOp := fun t _ a _ _ => (((List.range (tyBits t)).find? (fun i => a.testBit (tyBits t - 1 - i))).getD (tyBits t) : Int)
def opCtz : IOp := fun t _ a _ _ => (((List.range (tyBits t)).find? a.testBit).getD (tyBits t) : Int)
def opBrev : IOp := fun t _ a _ _ => (ofBits (tyBits t) (fun i => a.testBit (tyBits t - 1 - i)) : Int)
/-- Position and length of a bit field (R240). -/
def fieldOf (w b : Nat) : Nat × Nat := let pos := min (b % 256) w; (pos, min (b / 256 % 256) (w - pos))
def opBfe : IOp := fun t _ a b _ =>
  let f := fieldOf (tyBits t) b
  let x := a / 2 ^ f.1 % 2 ^ f.2
  if tySigned t && 0 < f.2 && 2 ^ (f.2 - 1) ≤ x then (x : Int) - (2 ^ f.2 : Nat) else x
def opBfi : IOp := fun t _ a b c =>
  let f := fieldOf (tyBits t) c
  (ofBits (tyBits t) (fun i => if f.1 ≤ i && i < f.1 + f.2 then a.testBit (i - f.1) else b.testBit i) : Int)
/-- One result byte of `bsel` (R241). -/
def bselByte (a b ctl : Nat) : Nat :=
  let x := (a % 2 ^ 32 + 2 ^ 32 * (b % 2 ^ 32)) / 256 ^ (ctl % 8) % 256
  match ctl / 64 with
  | 0 => x
  | 1 => 0
  | 2 => if 128 ≤ x then 255 else 0
  | _ => 255
def opBsel : IOp := fun _ _ a b c => ((leNat ((List.range 4).map (fun i => BitVec.ofNat 8 (bselByte a b (c / 256 ^ i % 256)))) : Nat) : Int)
/-- b of `lea.ext`: `.sx` and `.zx` read one 32-bit value (R245). -/
def leaB (t : BitVec 5) (mo : Byte) (b : Nat) : Int :=
  if t.toNat = 7 && mo.toNat / 64 = 2 then sgn 32 b else if t.toNat = 7 && mo.toNat / 64 = 1 then ((b % 2 ^ 32 : Nat) : Int) else (b : Int)
def opLeaExt : IOp := fun t mo a b _ =>
  let k := mo.toNat % 64
  (a : Int) + (if tyBits t ≤ k then 0 else leaB t mo b * ((2 ^ k : Nat) : Int))
def opLeaSp : IOp := fun t mo a b c =>
  ((wrapTo 32 (opLeaExt t mo a b c) % 2 ^ 28 + wrapTo 32 (opLeaExt t mo a b c) / 2 ^ 30 * 2 ^ 30 + c % 4 * 2 ^ 28 : Nat) : Int)
def opMov : IOp := fun _ _ a _ _ => (a : Int)
def opImm : IOp := fun _ _ _ b _ => (b : Int)

/-! ### Running them -/

/-- A result of a type as registers of a lane (R224). -/
def outReg (d : Byte) (rt : BitVec 5) (x : Int) : LaneOut :=
  let w := if tyBits rt = 64 then 64 else 32
  { v := regsOf d.toNat w (extTo w rt x) }
/-- A vector integer word; `rt` is the type of its result, `wb` the width of source B. -/
def vecInt (i : Instr) (f : FR) (wb : Nat) (rt : BitVec 5) (op : IOp) (s : State) : State :=
  let w := tyBits f.ty
  vecRun i w wb (tyBits rt) false (fun c l =>
    outReg f.d rt (op f.ty f.mo (srcA c l f.a f.ak w) (srcB c l f.b f.bk wb) (srcBits c.s l f.c f.ck w))) s
/-- A 32-bit immediate as an operand of a type (R203). -/
def immBits (t : BitVec 5) (imm : Word) : Nat :=
  if t.toNat = 3 then wrapTo 64 imm.toInt else if tyBits t = 64 then imm.toNat else imm.toNat % 2 ^ tyBits t
/-- A vector integer word with an immediate in place of source B (R246). -/
def vecImm (i : Instr) (f : FI) (op : IOp) (s : State) : State :=
  let t := immTy f.ty
  vecRun i (tyBits t) (tyBits t) (tyBits t) false (fun c l =>
    outReg f.d t (op t 0 (srcA c l f.a 0 (tyBits t)) (immBits t f.imm) 0)) s
/-- A uniform integer word (R247): `wb` and `wc` are the widths of sources B and C. -/
def uniInt (i : Instr) (f : FR) (rt : BitVec 5) (op : IOp) (s : State) : State :=
  let w := tyBits f.ty
  uniRun i f.d (fun s => extTo 64 rt (op f.ty f.mo (uniBits s f.a f.ak w) (uniBits s f.b f.bk w) (uniBits s f.c f.ck w))) s
/-- A uniform integer word with an immediate (R249). -/
def uniImm (i : Instr) (f : FI) (op : IOp) (s : State) : State :=
  let t := immTy f.ty
  uniRun i f.d (fun s => extTo 64 t (op t 0 (uniBits s f.a 1 (tyBits t)) (immBits t f.imm) 0)) s

/-! ### The words -/
/-- ADD (R235). Integer add of a and b, modulo 2^w. -/
def execAdd (f : FR) (s : State) : Out := .next (vecInt (.add f) f (tyBits f.ty) f.ty opAdd s)
/-- U_ADD (R247). Uniform integer add, once per arrival. -/
def execUAdd (f : FR) (s : State) : Out := .next (uniInt (.uAdd f) f f.ty opAdd s)
/-- SUB (R235). Integer subtract of b from a, modulo 2^w. -/
def execSub (f : FR) (s : State) : Out := .next (vecInt (.sub f) f (tyBits f.ty) f.ty opSub s)
/-- U_SUB (R247). Uniform integer subtract. -/
def execUSub (f : FR) (s : State) : Out := .next (uniInt (.uSub f) f f.ty opSub s)
/-- MUL_LO (R235). Low half of the product a × b. -/
def execMulLo (f : FR) (s : State) : Out := .next (vecInt (.mulLo f) f (tyBits f.ty) f.ty opMul s)
/-- U_MUL_LO (R247). Uniform low product. -/
def execUMulLo (f : FR) (s : State) : Out := .next (uniInt (.uMulLo f) f f.ty opMul s)
/-- MUL_HI (R235). High half of the product a × b. -/
def execMulHi (f : FR) (s : State) : Out := .next (vecInt (.mulHi f) f (tyBits f.ty) f.ty opMulHi s)
/-- U_MUL_HI (R247). Uniform high product. -/
def execUMulHi (f : FR) (s : State) : Out := .next (uniInt (.uMulHi f) f f.ty opMulHi s)
/-- MAD_LO (R235). a × b + c, modulo 2^w. -/
def execMadLo (f : FR) (s : State) : Out := .next (vecInt (.madLo f) f (tyBits f.ty) f.ty opMad s)
/-- U_MAD_LO (R247). Uniform multiply-add. -/
def execUMadLo (f : FR) (s : State) : Out := .next (uniInt (.uMadLo f) f f.ty opMad s)
/-- MUL_WIDE (R235). Full 64-bit product of 32-bit operands, written to an even pair. -/
def execMulWide (f : FR) (s : State) : Out := .next (vecInt (.mulWide f) f (tyBits f.ty) (f.ty + 1) opMul s)
/-- U_MUL_WIDE (R247). Uniform widening product into one k register. -/
def execUMulWide (f : FR) (s : State) : Out := .next (uniInt (.uMulWide f) f (f.ty + 1) opMul s)
/-- ABS (R235). Integer absolute value. -/
def execAbs (f : FR) (s : State) : Out := .next (vecInt (.abs f) f (tyBits f.ty) f.ty opAbs s)
/-- U_ABS (R247). Uniform absolute value. -/
def execUAbs (f : FR) (s : State) : Out := .next (uniInt (.uAbs f) f f.ty opAbs s)
/-- NEG (R235). Integer negation. -/
def execNeg (f : FR) (s : State) : Out := .next (vecInt (.neg f) f (tyBits f.ty) f.ty opNeg s)
/-- U_NEG (R247). Uniform negation. -/
def execUNeg (f : FR) (s : State) : Out := .next (uniInt (.uNeg f) f f.ty opNeg s)
/-- MIN (R235). Integer minimum. -/
def execMin (f : FR) (s : State) : Out := .next (vecInt (.min f) f (tyBits f.ty) f.ty opMin s)
/-- U_MIN (R247). Uniform minimum. -/
def execUMin (f : FR) (s : State) : Out := .next (uniInt (.uMin f) f f.ty opMin s)
/-- MAX (R235). Integer maximum. -/
def execMax (f : FR) (s : State) : Out := .next (vecInt (.max f) f (tyBits f.ty) f.ty opMax s)
/-- U_MAX (R247). Uniform maximum. -/
def execUMax (f : FR) (s : State) : Out := .next (uniInt (.uMax f) f f.ty opMax s)
/-- ADD_SAT (R235). Integer add clamped to the type's range. -/
def execAddSat (f : FR) (s : State) : Out := .next (vecInt (.addSat f) f (tyBits f.ty) f.ty opAddSat s)
/-- U_ADD_SAT (R247). Uniform saturating add. -/
def execUAddSat (f : FR) (s : State) : Out := .next (uniInt (.uAddSat f) f f.ty opAddSat s)
/-- SUB_SAT (R235). Integer subtract clamped to the type's range. -/
def execSubSat (f : FR) (s : State) : Out := .next (vecInt (.subSat f) f (tyBits f.ty) f.ty opSubSat s)
/-- U_SUB_SAT (R247). Uniform saturating subtract. -/
def execUSubSat (f : FR) (s : State) : Out := .next (uniInt (.uSubSat f) f f.ty opSubSat s)
/-- DIV (R236). Integer quotient truncated toward zero, with fixed results for division by zero and overflow. -/
def execDiv (f : FR) (s : State) : Out := .next (vecInt (.div f) f (tyBits f.ty) f.ty opDiv s)
/-- U_DIV (R247). Uniform divide. -/
def execUDiv (f : FR) (s : State) : Out := .next (uniInt (.uDiv f) f f.ty opDiv s)
/-- REM (R236). Integer remainder with the sign of the dividend. -/
def execRem (f : FR) (s : State) : Out := .next (vecInt (.rem f) f (tyBits f.ty) f.ty opRem s)
/-- U_REM (R247). Uniform remainder. -/
def execURem (f : FR) (s : State) : Out := .next (uniInt (.uRem f) f f.ty opRem s)
/-- AND (R237). Bitwise and. -/
def execAnd (f : FR) (s : State) : Out := .next (vecInt (.and f) f (tyBits f.ty) f.ty opAnd s)
/-- U_AND (R247). Uniform bitwise and. -/
def execUAnd (f : FR) (s : State) : Out := .next (uniInt (.uAnd f) f f.ty opAnd s)
/-- OR (R237). Bitwise or. -/
def execOr (f : FR) (s : State) : Out := .next (vecInt (.or f) f (tyBits f.ty) f.ty opOr s)
/-- U_OR (R247). Uniform bitwise or. -/
def execUOr (f : FR) (s : State) : Out := .next (uniInt (.uOr f) f f.ty opOr s)
/-- XOR (R237). Bitwise exclusive or. -/
def execXor (f : FR) (s : State) : Out := .next (vecInt (.xor f) f (tyBits f.ty) f.ty opXor s)
/-- U_XOR (R247). Uniform bitwise exclusive or. -/
def execUXor (f : FR) (s : State) : Out := .next (uniInt (.uXor f) f f.ty opXor s)
/-- NOT (R237). Bitwise not. -/
def execNot (f : FR) (s : State) : Out := .next (vecInt (.not f) f (tyBits f.ty) f.ty opNot s)
/-- U_NOT (R247). Uniform bitwise not. -/
def execUNot (f : FR) (s : State) : Out := .next (uniInt (.uNot f) f f.ty opNot s)
/-- BOOL3 (R237). Three-input bitwise function given by an 8-bit truth table. -/
def execBool3 (f : FR) (s : State) : Out := .next (vecInt (.bool3 f) f (tyBits f.ty) f.ty opBool3 s)
/-- U_BOOL3 (R247). Uniform three-input bitwise function. -/
def execUBool3 (f : FR) (s : State) : Out := .next (uniInt (.uBool3 f) f f.ty opBool3 s)
/-- SHL (R238). Logical shift left; 0 when the amount is at least w. -/
def execShl (f : FR) (s : State) : Out := .next (vecInt (.shl f) f (tyBits f.ty) f.ty opShl s)
/-- U_SHL (R247). Uniform shift left. -/
def execUShl (f : FR) (s : State) : Out := .next (uniInt (.uShl f) f f.ty opShl s)
/-- SHR (R238). Logical shift right. -/
def execShr (f : FR) (s : State) : Out := .next (vecInt (.shr f) f (tyBits f.ty) f.ty opShr s)
/-- U_SHR (R247). Uniform logical shift right. -/
def execUShr (f : FR) (s : State) : Out := .next (uniInt (.uShr f) f f.ty opShr s)
/-- SAR (R238). Arithmetic shift right. -/
def execSar (f : FR) (s : State) : Out := .next (vecInt (.sar f) f (tyBits f.ty) f.ty opSar s)
/-- U_SAR (R247). Uniform arithmetic shift right. -/
def execUSar (f : FR) (s : State) : Out := .next (uniInt (.uSar f) f f.ty opSar s)
/-- FSL (R238). Funnel shift left of the concatenation of a and b. -/
def execFsl (f : FR) (s : State) : Out := .next (vecInt (.fsl f) f (tyBits f.ty) f.ty opFsl s)
/-- U_FSL (R247). Uniform funnel shift left. -/
def execUFsl (f : FR) (s : State) : Out := .next (uniInt (.uFsl f) f f.ty opFsl s)
/-- FSR (R238). Funnel shift right of the concatenation of a and b. -/
def execFsr (f : FR) (s : State) : Out := .next (vecInt (.fsr f) f (tyBits f.ty) f.ty opFsr s)
/-- U_FSR (R247). Uniform funnel shift right. -/
def execUFsr (f : FR) (s : State) : Out := .next (uniInt (.uFsr f) f f.ty opFsr s)
/-- POPC (R239). Population count. -/
def execPopc (f : FR) (s : State) : Out := .next (vecInt (.popc f) f (tyBits f.ty) 6 opPopc s)
/-- U_POPC (R247). Uniform population count. -/
def execUPopc (f : FR) (s : State) : Out := .next (uniInt (.uPopc f) f 6 opPopc s)
/-- CLZ (R239). Count of leading zero bits. -/
def execClz (f : FR) (s : State) : Out := .next (vecInt (.clz f) f (tyBits f.ty) 6 opClz s)
/-- U_CLZ (R247). Uniform leading-zero count. -/
def execUClz (f : FR) (s : State) : Out := .next (uniInt (.uClz f) f 6 opClz s)
/-- CTZ (R239). Count of trailing zero bits. -/
def execCtz (f : FR) (s : State) : Out := .next (vecInt (.ctz f) f (tyBits f.ty) 6 opCtz s)
/-- U_CTZ (R247). Uniform trailing-zero count. -/
def execUCtz (f : FR) (s : State) : Out := .next (uniInt (.uCtz f) f 6 opCtz s)
/-- BREV (R239). Bit reversal. -/
def execBrev (f : FR) (s : State) : Out := .next (vecInt (.brev f) f (tyBits f.ty) f.ty opBrev s)
/-- U_BREV (R247). Uniform bit reversal. -/
def execUBrev (f : FR) (s : State) : Out := .next (uniInt (.uBrev f) f f.ty opBrev s)
/-- BFE (R240). Bit-field extract. -/
def execBfe (f : FR) (s : State) : Out := .next (vecInt (.bfe f) f (tyBits f.ty) f.ty opBfe s)
/-- U_BFE (R247). Uniform bit-field extract. -/
def execUBfe (f : FR) (s : State) : Out := .next (uniInt (.uBfe f) f f.ty opBfe s)
/-- BFI (R240). Bit-field insert. -/
def execBfi (f : FR) (s : State) : Out := .next (vecInt (.bfi f) f (tyBits f.ty) f.ty opBfi s)
/-- U_BFI (R247). Uniform bit-field insert. -/
def execUBfi (f : FR) (s : State) : Out := .next (uniInt (.uBfi f) f f.ty opBfi s)
/-- BSEL (R241). Byte select with fill control. -/
def execBsel (f : FR) (s : State) : Out := .next (vecInt (.bsel f) f (tyBits f.ty) f.ty opBsel s)
/-- U_BSEL (R247). Uniform byte select. -/
def execUBsel (f : FR) (s : State) : Out := .next (uniInt (.uBsel f) f f.ty opBsel s)
/-- LEA_EXT (R245). Address a + (b shl s). -/
def execLeaExt (f : FR) (s : State) : Out := .next (vecInt (.leaExt f) f (if f.ty.toNat = 7 && f.mo.toNat < 64 then 64 else 32) f.ty opLeaExt s)
/-- LEA_SP (R245). Scratchpad address with the gang rank inserted. -/
def execLeaSp (f : FR) (s : State) : Out := .next (vecInt (.leaSp f) f (tyBits f.ty) f.ty opLeaSp s)
/-- MOV (R245). Register move. -/
def execMov (f : FR) (s : State) : Out := .next (vecInt (.mov f) f (tyBits f.ty) f.ty opMov s)
/-- U_MOV (R248). Uniform register move. -/
def execUMov (f : FR) (s : State) : Out := .next (uniInt (.uMov f) f f.ty opMov s)
/-- U_LEA_EXT (R248). Uniform address computation. -/
def execULeaExt (f : FR) (s : State) : Out := .next (uniInt (.uLeaExt f) f f.ty opLeaExt s)
/-- U_LEA_SP (R248). Uniform scratchpad address with rank. -/
def execULeaSp (f : FR) (s : State) : Out := .next (uniInt (.uLeaSp f) f f.ty opLeaSp s)
/-- ADD_IMM (R246). Integer add with a 32-bit immediate. -/
def execAddImm (f : FI) (s : State) : Out := .next (vecImm (.addImm f) f opAdd s)
/-- SUB_IMM (R246). Integer subtract with an immediate. -/
def execSubImm (f : FI) (s : State) : Out := .next (vecImm (.subImm f) f opSub s)
/-- MUL_LO_IMM (R246). Low product with an immediate. -/
def execMulLoImm (f : FI) (s : State) : Out := .next (vecImm (.mulLoImm f) f opMul s)
/-- MUL_HI_IMM (R246). High product with an immediate. -/
def execMulHiImm (f : FI) (s : State) : Out := .next (vecImm (.mulHiImm f) f opMulHi s)
/-- MIN_IMM (R246). Integer minimum with an immediate. -/
def execMinImm (f : FI) (s : State) : Out := .next (vecImm (.minImm f) f opMin s)
/-- MAX_IMM (R246). Integer maximum with an immediate. -/
def execMaxImm (f : FI) (s : State) : Out := .next (vecImm (.maxImm f) f opMax s)
/-- ADD_SAT_IMM (R246). Saturating add with an immediate. -/
def execAddSatImm (f : FI) (s : State) : Out := .next (vecImm (.addSatImm f) f opAddSat s)
/-- SUB_SAT_IMM (R246). Saturating subtract with an immediate. -/
def execSubSatImm (f : FI) (s : State) : Out := .next (vecImm (.subSatImm f) f opSubSat s)
/-- DIV_IMM (R246). Integer divide by an immediate. -/
def execDivImm (f : FI) (s : State) : Out := .next (vecImm (.divImm f) f opDiv s)
/-- REM_IMM (R246). Integer remainder by an immediate. -/
def execRemImm (f : FI) (s : State) : Out := .next (vecImm (.remImm f) f opRem s)
/-- AND_IMM (R246). Bitwise and with an immediate. -/
def execAndImm (f : FI) (s : State) : Out := .next (vecImm (.andImm f) f opAnd s)
/-- OR_IMM (R246). Bitwise or with an immediate. -/
def execOrImm (f : FI) (s : State) : Out := .next (vecImm (.orImm f) f opOr s)
/-- XOR_IMM (R246). Bitwise exclusive or with an immediate. -/
def execXorImm (f : FI) (s : State) : Out := .next (vecImm (.xorImm f) f opXor s)
/-- SHL_IMM (R246). Shift left by an immediate. -/
def execShlImm (f : FI) (s : State) : Out := .next (vecImm (.shlImm f) f opShl s)
/-- SHR_IMM (R246). Logical shift right by an immediate. -/
def execShrImm (f : FI) (s : State) : Out := .next (vecImm (.shrImm f) f opShr s)
/-- SAR_IMM (R246). Arithmetic shift right by an immediate. -/
def execSarImm (f : FI) (s : State) : Out := .next (vecImm (.sarImm f) f opSar s)
/-- MOV_IMM (R246). Moves an immediate into a vector register. -/
def execMovImm (f : FI) (s : State) : Out := .next (vecImm (.movImm f) f opImm s)
/-- U_ADD_IMM (R249). Uniform add with an immediate. -/
def execUAddImm (f : FI) (s : State) : Out := .next (uniImm (.uAddImm f) f opAdd s)
/-- U_SUB_IMM (R249). Uniform subtract with an immediate. -/
def execUSubImm (f : FI) (s : State) : Out := .next (uniImm (.uSubImm f) f opSub s)
/-- U_MUL_LO_IMM (R249). Uniform low product with an immediate. -/
def execUMulLoImm (f : FI) (s : State) : Out := .next (uniImm (.uMulLoImm f) f opMul s)
/-- U_MIN_IMM (R249). Uniform minimum with an immediate. -/
def execUMinImm (f : FI) (s : State) : Out := .next (uniImm (.uMinImm f) f opMin s)
/-- U_MAX_IMM (R249). Uniform maximum with an immediate. -/
def execUMaxImm (f : FI) (s : State) : Out := .next (uniImm (.uMaxImm f) f opMax s)
/-- U_AND_IMM (R249). Uniform and with an immediate. -/
def execUAndImm (f : FI) (s : State) : Out := .next (uniImm (.uAndImm f) f opAnd s)
/-- U_OR_IMM (R249). Uniform or with an immediate. -/
def execUOrImm (f : FI) (s : State) : Out := .next (uniImm (.uOrImm f) f opOr s)
/-- U_XOR_IMM (R249). Uniform exclusive or with an immediate. -/
def execUXorImm (f : FI) (s : State) : Out := .next (uniImm (.uXorImm f) f opXor s)
/-- U_SHL_IMM (R249). Uniform shift left by an immediate. -/
def execUShlImm (f : FI) (s : State) : Out := .next (uniImm (.uShlImm f) f opShl s)
/-- U_SHR_IMM (R249). Uniform logical shift right by an immediate. -/
def execUShrImm (f : FI) (s : State) : Out := .next (uniImm (.uShrImm f) f opShr s)
/-- U_SAR_IMM (R249). Uniform arithmetic shift right by an immediate. -/
def execUSarImm (f : FI) (s : State) : Out := .next (uniImm (.uSarImm f) f opSar s)
/-- U_MOV_IMM (R249). Moves an immediate into kd. -/
def execUMovImm (f : FI) (s : State) : Out := .next (uniImm (.uMovImm f) f opImm s)
/-- SETP (R242). Integer compare into a predicate, with accumulation. -/
def execSetp (f : FR) (s : State) : Out :=
  let w := tyBits f.ty
  .next (vecRun (.setp f) w w 0 false (fun c l =>
    let r := intCond (f.mo.toNat % 16) (readAs f.ty (srcA c l f.a f.ak w)) (readAs f.ty (srcB c l f.b f.bk w))
    { p := [(f.d.toNat, accum f.mo (pGet c.s c.s.cur.gid l f.d.toNat) r)] }) s)
/-- USETP (R248). Uniform compare, written to pd of every issuing lane. -/
def execUsetp (f : FR) (s : State) : Out :=
  let w := tyBits f.ty
  .next (judge (.usetp f) [] s.cur.lanes (fun s =>
    let r := intCond (f.mo.toNat % 16) (readAs f.ty (uniBits s f.a f.ak w)) (readAs f.ty (uniBits s f.b f.bk w))
    done ((Mask.toList s.cur.lanes).foldl (fun t l => pPut s.cur.gid l f.d.toNat (accum f.mo (pGet s s.cur.gid l f.d.toNat) r) t) s)) s)
/-- SEL (R243). Select by a predicate. -/
def execSel (f : FR) (s : State) : Out :=
  let w := tyBits f.ty
  .next (vecRun (.sel f) w w w false (fun c l =>
    outReg f.d f.ty (if pGet c.s c.s.cur.gid l f.c.toNat then srcA c l f.a f.ak w else srcB c l f.b f.bk w)) s)
/-- U_SEL (R248). Uniform select on a nonzero register. -/
def execUSel (f : FR) (s : State) : Out :=
  .next (uniInt (.uSel f) f f.ty (fun _ _ a b c => if c ≠ 0 then (a : Int) else b) s)
/-- UMOV (R248). The value of the lowest issuing lane, to a uniform register. -/
def execUmov (f : FR) (s : State) : Out :=
  .next (uniRun (.umov f) f.d (fun s => extTo 64 f.ty (srcBits s (lowest s.cur.lanes) f.a f.ak (tyBits f.ty))) s)
/-- MOVHI (R249). Writes bits [63:32] of a uniform register. -/
def execMovhi (f : FI) (s : State) : Out :=
  .next (uniRun (.movhi f) f.d (fun s => f.imm.toNat * 2 ^ 32 + (kRead s f.d.toNat).toNat % 2 ^ 32) s)
/-- PLOP (R244). Three-input predicate function. -/
def execPlop (f : FR) (s : State) : Out :=
  .next (vecRun (.plop f) 0 0 0 false (fun c l =>
    let p := fun (x : Byte) => pGet c.s c.s.cur.gid l x.toNat
    { p := [(f.d.toNat, truth f.mo (p f.a) (p f.b) (p f.c))] }) s)
/-- P2V (R244). The predicates of the lane as a vector value. -/
def execP2v (f : FR) (s : State) : Out :=
  .next (vecRun (.p2v f) 0 0 32 false (fun c l =>
    { v := [(f.d.toNat, .ofNat 32 (ofBits 8 (fun i => pGet c.s c.s.cur.gid l i)))] }) s)
/-- V2P (R244). Predicates from the bits of a vector value, under a mask. -/
def execV2p (f : FR) (s : State) : Out :=
  .next (vecRun (.v2p f) 32 0 0 false (fun c l =>
    let x := srcA c l f.a f.ak 32
    { p := ((List.range 8).filter (fun i => f.mo.getLsbD i)).map (fun i => (i, x.testBit i)) }) s)

end Sys2Proof.Machine
end

