-- ==== Sys2Proof/Machine/Collective.lean ====
section
/-!
DEFINITION. Collectives (R328 to R331): the start of an instance, what each rank receives, and the completion of each rank.
-/
namespace Sys2Proof.Machine

/-- A collective command by its number. -/
def collCmd (s : State) (id : Nat) : Option CollCmd := s.net.colls.find? (fun c => c.id == id)
/-- Change a collective command. -/
def modColl (id : Nat) (f : CollCmd → CollCmd) (s : State) : State :=
  { s with net := { s.net with colls := s.net.colls.map (fun c => if c.id == id then f c else c) } }
/-- Do two commands belong to one instance (R329)? -/
def sameInst (x c : CollCmd) : Bool := x.who.part == c.who.part && x.key == c.key && x.inst == c.inst
/-- Is a command one that its die's collective engine runs: the first accepted there that has not completed, but for commands of the same
instance, which start together (R328, R330)? -/
def atEngine (s : State) (c : CollCmd) : Bool := (s.net.colls.find? (fun x => x.die == c.die && (x.id == c.id || !sameInst x c))).any (fun x => x.id == c.id)
/-- A command is accepted: its push is the last of its instance's on this module (R331). -/
def acceptColl (c : CollCmd) (s : State) : State :=
  { s with net := { s.net with colls := (s.net.colls ++ [c]).map (fun x => if sameInst x c then { x with last := c.who.pushEvent } else x) } }
/-- Bytes of an element of a collective's type. -/
def collWidth (c : CollCmd) : Nat := tyBits (.ofNat 5 c.ty) / 8
/-- Elements that a rank's source holds (R330). [log 54, DEDUCED.] -/
def collSource (c : CollCmd) : Nat := if c.op = 1 then c.n * c.m else if c.op = 3 && c.rank ≠ c.root then 0 else c.n
/-- Elements that a rank's destination receives (R330). -/
def collDest (c : CollCmd) : Nat := if c.op = 2 then c.n * c.m else c.n
/-- Two elements combined (R330, R255). -/
def combine (comb ty a b : Nat) : Nat :=
  let t : BitVec 5 := .ofNat 5 ty
  let flt := 11 ≤ ty
  match comb with
  | 0 => if flt then fpAdd (fmtOf t) 0 a b else (a + b) % 2 ^ tyBits t
  | 1 => if flt then fpPick (fmtOf t) false false a b else if readAs t a ≤ readAs t b then a else b
  | 2 => if flt then fpPick (fmtOf t) true false a b else if readAs t a ≤ readAs t b then b else a
  | 3 => a &&& b
  | 4 => a ||| b
  | _ => a ^^^ b
/-- The elements of a list of bytes. -/
def elemsOf (w : Nat) (l : List Byte) : List Nat := (List.range (l.length / w)).map (fun i => leNat ((l.drop (i * w)).take w))
/-- Elements combined in ascending rank order (R330). -/
def combineAll (comb ty : Nat) : List (List Nat) → List Nat
  | [] => []
  | x :: rest => rest.foldl (fun t y => (t.zip y).map (fun q => combine comb ty q.1 q.2)) x
/-- What a rank's destination receives from the sources of all ranks (R330). [log 54, DEDUCED.] -/
def collResult (c : CollCmd) (srcs : List (List Nat)) : List Nat :=
  match c.op with
  | 0 => combineAll c.combine c.ty srcs
  | 1 => combineAll c.combine c.ty (srcs.map (fun l => (l.drop (c.rank * c.n)).take c.n))
  | 2 => srcs.flatten
  | _ => srcs.getD c.root []

/-- The holder identity of a collective: its team's, or for a graph node that of the first copy channel of its core (R109). -/
def collHolder (s : State) (c : CollCmd) : Nat := if c.who.gid.isSome then teamHolder s c.who.team else chanHolder s c.who.part c.core 0
/-- The source bytes of a rank (R330), or the fault met there. -/
def collRead (s : State) (c : CollCmd) (far : List Byte) : Except Fail (List Byte) :=
  (List.range (collSource c * collWidth c)).mapM (fun i =>
    match engineHit s c.who c.core (collHolder s c) 3 ((c.src.toNat + i) % 2 ^ 64) 1 .engineRead with
    | .error f => .error f
    | .ok (_, l) => .ok (engineByte s c.who l (far.getD i 0)))
/-- The words that a rank's destination takes (R137). -/
def collPieces (c : CollCmd) : List CopyPiece := (cutRun 0 3 0 3 c.dst.toNat (collDest c * collWidth c)).filter (fun q => !c.moved.contains q.id)
/-- The fault that a rank's destination meets. -/
def collFault (s : State) (c : CollCmd) : Option Fail :=
  (collPieces c).findSome? (fun q => match engineHit s c.who c.core (collHolder s c) 3 (q.dst % 2 ^ 64) q.len .engineWrite with
    | .error f => some f
    | .ok _ => none)

/-- The commands of the instance that a command belongs to, ascending by rank (R329). -/
def collInst (s : State) (c : CollCmd) : List CollCmd :=
  (List.range c.m).filterMap (fun r => s.net.colls.find? (fun x => sameInst x c && x.rank == r))
/-- Do the commands of an instance name one operation (R329)? [log 54, DEDUCED.] -/
def collAgree (l : List CollCmd) : Bool :=
  match l with
  | [] => false
  | c :: _ => l.all (fun x => x.op == c.op && x.combine == c.combine && x.ty == c.ty && x.n == c.n && x.m == c.m && x.root == c.root)
/-- Does a rank still take part: not ended by a skip or a failed die? -/
def collLives (c : CollCmd) : Bool := c.result == 0

/-- May a rank's command start? Not while its team stops or is saved, or its context is suspended (R77, R475). -/
def collRuns (s : State) (c : CollCmd) : Bool :=
  let tm := team s c.who.team
  clocked s c.core && !(part s c.who.part).suspended && (c.who.gid.isNone || (tm.state == .resident && tm.goal == 0))
/-- The bytes that a rank reads are counted at their homes (R368, R376). -/
def collCount (c : CollCmd) (s : State) : State :=
  let w := collWidth c
  (List.range (collSource c)).foldl (fun s i => match engineHit s c.who c.core (collHolder s c) 3 ((c.src.toNat + i * w) % 2 ^ 64) w .engineRead with
    | .ok (_, l) => engineCount c.who.part (issuerLaunch s c.who) c.die l w s
    | .error _ => s) s

/-- COLLECTIVE_START (R329, R330, R381). The instance of command x starts once all its ranks' commands are accepted, those of nums on
other modules, whose sources stand in data, and each one's engine holds its reservation. Every source is read before anything is
written; after those sources data holds, rank by rank, the bytes that a local rank's source has on another module. The source of a rank
that has ended early is free. [log 54, DEDUCED.] -/
def execCollectiveStart (s : State) : Out :=
  .next (match collCmd s s.ev.x with
    | none => s
    | some c =>
      let l := collInst s c
      let live := l.filter collLives
      let all := (List.range c.m).all (fun r => l.any (fun x => x.rank == r) || s.ev.nums.contains r)
      if !all || !collAgree l || l.any (fun x => x.started) || live.any (fun x => !atEngine s x || x.stopTrap.isSome || !collRuns s x) then s
      else if live.any (fun x => !holdsResv s x.core 3) then
        live.foldl (fun s x => if holdsResv s x.core 3 then s else askResv x.core 3 16 (cmdPrio s x.who) s) s
      else
        let w := collWidth c
        let bytes := fun (r : Nat) => match l.find? (fun x => x.rank == r) with
          | some x =>
            if collLives x then
              let away := ((s.ev.nums.map (fun q => collSource { c with rank := q } * w)).sum)
              let before := (l.filter (fun (y : CollCmd) => decide (y.rank < r))).map (fun y => collSource y * w)
              collRead s x (s.ev.data.drop (away + before.sum))
            else .ok ((List.range (collSource x * w)).map (fun i => .ofNat 8 (draw s i)))
          | none =>
            let before := (s.ev.nums.filter (fun q => decide (q < r))).length
            let size := collSource { c with rank := r } * w
            .ok ((s.ev.data.drop (before * size)).take size)
        match (List.range c.m).mapM bytes with
        | .error _ => s
        | .ok srcs =>
          let es := srcs.map (elemsOf w)
          let start := fun (x : CollCmd) => { x with started := true, out := (collResult x es).flatMap (leBytes w) }
          let s := live.foldl (fun s x => collCount x (countAt x.who.part x.die 34 (collSource x * w) s)) s
          drew { s with net := { s.net with colls := s.net.colls.map (fun x => if l.any (fun y => y.id == x.id) && collLives x then start x else x) } })

/-- One word of a rank's destination is written (R137). -/
def collMove (id : Nat) (q : CopyPiece) (s : State) : State :=
  match collCmd s id with
  | none => s
  | some c => match engineHit s c.who c.core (collHolder s c) 3 (q.dst % 2 ^ 64) q.len .engineWrite with
    | .error _ => s
    | .ok (va, l) =>
      let (w, s) := engineWrite c.who (2 ^ 20, id) va l ((c.out.drop (q.dst - c.dst.toNat)).take q.len) s
      modColl id (fun x => { x with moved := x.moved ++ [q.id], largestW := max x.largestW w }) (countAt c.who.part c.die 34 q.len s)

/-- A rank's command completes: token, result entry, and the record that names the push of the rank accepted last, of a free one of the wait
kinds that R363 lists, for none is this wait's (R331). [log 55, DESIGN CHOICE.] -/
def completeColl (c : CollCmd) (last : Ante) (s : State) : State :=
  let (a, s) := unitEvent s c.who.part c.die 0xF2 4 (partyOf s c.who)
  let r : ARec := ⟨a.event, last.event, max a.time last.time, last.time, partyOf s c.who, 1 + draw s 0 % 14, last.kind, last.name, min (s.time - c.who.at_) 0xFFFFFFFF⟩
  let s := countAt c.who.part c.die 36 1 <| modDie c.die (fun x => { x with records := (x.records ++ [r]).drop ((x.records.length + 1) - Config.recordStore) }) s
  let s := { s with net := { s.net with colls := s.net.colls.filter (fun x => x.id != c.id) } }
  let s := if s.net.colls.any (fun x => x.core == c.core && x.started) then s else releaseResv c.core 3 s
  match c.who.gid with
  | some g =>
    let s := modGrp g (fun x => { x with held5 := x.held5 - 1 }) (freeTok g c.tok a s)
    if c.status then pushEntry g 5 (.ofNat 64 (c.tag * 2 ^ 32 + c.result)) a s else s
  | none => s

/-- COLLECTIVE_COMPLETE (R146, R330, R331). The words of rank y of the instance of command x are written, those of nums early under the
flag, once the host caches none of their lines (R148); once every write is acknowledged and gtime has passed the largest W + 20, the command
completes, one that ended early too. Where ranks lie on other modules, word and z name the push and time of the last one accepted there, if
it was the last of all. [log 38, DESIGN CHOICE; log 54, DEDUCED.] -/
def execCollectiveComplete (s : State) : Out :=
  .next (match (collCmd s s.ev.x).bind (fun c => (collInst s c).find? (fun x => x.rank == s.ev.y)) with
    | none => s
    | some c =>
      let inst := collInst s c
      let all := inst.all (fun x => x.started || !collLives x) && c.m ≤ inst.length + s.ev.nums.length
      let away : Ante := ⟨s.ev.word, min s.ev.z (farBound s c.die), 9, farName s.ev⟩
      let lastPush := if s.ev.word = 0 || s.ev.nums.isEmpty || away.time < c.last.time then c.last else away
      let open_ := s.net.far.any (fun f => f.cmd == some (2 ^ 20, c.id)) || gtime s c.die ≤ c.largestW + 20
      let lines := fun (l : List CopyPiece) => (l.flatMap (fun q => match engineHit s c.who c.core (collHolder s c) 3 (q.dst % 2 ^ 64) q.len .engineWrite with
        | .ok (_, l) => l.lines
        | .error _ => [])).eraseDups
      if c.stopTrap.isSome then s
      else if !collLives c then (if !open_ && (c.result = 0x81 || all || c.started) then drew (completeColl c lastPush s) else s)
      else if !c.started then s
      else if s.ev.flag then
        let l := (collPieces c).filter (fun q => s.ev.nums.contains q.id)
        hostFree (lines l) (fun s => l.foldl (fun s q => collMove c.id q s) s) s
      else if !c.written then
        if (collFault s c).isSome then s
        else hostFree (lines (collPieces c)) (fun s =>
          modColl c.id (fun x => { x with written := true }) ((collPieces c).foldl (fun s q => collMove c.id q s) s)) s
      else if open_ then s
      else drew (completeColl c lastPush s))

/-- ENGINE_FAULT_STOP for a collective command (R423, R484): a read before the start, or a write after it, meets a fault, or a remote
request of the command got no answer or a refusal. -/
def stopColl (id : Nat) (s : State) : State :=
  match collCmd s id with
  | none => s
  | some c =>
    let lost := s.net.far.any (fun f => f.cmd == some (2 ^ 20, id) && f.refused) || s.ev.flag
    let code := if lost then some 6
      else if c.started then (if c.written then none else (collFault s c).bind engineCode)
      else match collRead s c [] with
        | .error f => engineCode f
        | .ok _ => none
    match (if c.stopTrap.isSome || !collLives c || !atEngine s c then none else code) with
    | none => s
    | some k =>
      let s := { s with net := { s.net with far := s.net.far.filter (fun f => !(f.cmd == some (2 ^ 20, id) && f.refused)) } }
      engineTrap c.who none 3 id k c.addr (fun tid s => modColl id (fun x => { x with stopTrap := some tid, written := false, moved := [] }) s) s

/-- ENGINE_FAULT_STOP (R423, R452, R484). Unit 0 is the matrix engine, 1 and 2 the copy channels, 3 the collective engine with command z. [log 52, DEDUCED.] -/
def execEngineFaultStop (s : State) : Out :=
  .next (match s.ev.y with
    | 0 => stopMatrix s.ev.x s
    | 1 => stopCopy s.ev.x 0 s
    | 2 => stopCopy s.ev.x 1 s
    | 3 => stopColl s.ev.z s
    | _ => s)

end Sys2Proof.Machine
end

