-- ==== Sys2Proof/Machine/Push.lean ====
section
/-!
DEFINITION. The pushes of engine commands (R145, R179, R180, R311, R316, R317, R321, R325, R328, R443).
-/
namespace Sys2Proof.Machine

/-- The bytes of a block or descriptor in the team's scratchpad. -/
def blockBytes (s : State) (t addr : Nat) : List Byte :=
  match padHit s t addr 64 with
  | .ok { loc := .pad o off, .. } => padBytes s o off 64
  | _ => []
/-- The region mode of the clause that a lane is inside (R185). -/
def clauseMode (s : State) (g l : Nat) : Nat := ((lane s g l).clause.map (fun c => bits c.word 39 38)).getD 0
/-- The issuer of a lane's command. -/
def issuerOf (s : State) (a : Arrival) (l : Nat) : Issuer :=
  let gr := grp s a.gid
  { gid := some a.gid, team := gr.team, part := gr.part, lane := l, pc := a.pc, at_ := s.time }
/-- The code by which a lane's command is refused (R443). -/
def pushRefusal (s : State) (a : Arrival) (l addr : Nat) : Option Nat :=
  let g := a.gid
  let raw := blockBytes s (grp s g).team addr
  match bits a.word 63 56 with
  | 0xE1 => blockRefusal s g addr raw (parseBlock raw (clauseMode s g l))
  | 0xE2 => copyRefusal s g addr (bits a.word 55 52) raw (parseCopy raw)
  | _ => collRefusal s g addr raw (parseColl raw 0 (issuerOf s a l) 0 0 0 addr)

/-- The token that a lane's command takes. -/
def pushTok (s : State) (a : Arrival) (l : Nat) (raw : List Byte) : Option Nat :=
  match bits a.word 63 56 with
  | 0xE1 => (parseBlock raw (clauseMode s a.gid l)).tok
  | 0xE2 => (parseCopy raw).tok
  | _ => (parseColl raw 0 (issuerOf s a l) 0 0 0 0).tok
/-- The channel that a copy word names (R321). -/
def pushChan (a : Arrival) : Nat := bits a.word 0 0
/-- Is there room for one more command (R180, R325, R328)? -/
def pushRoom (s : State) (a : Arrival) (raw : List Byte) : Bool :=
  let gr := grp s a.gid
  match bits a.word 63 56 with
  | 0xE1 => (core s gr.core).mq.length < 16 && gr.held1 < 16
  | 0xE2 => (chan s gr.core (pushChan a)).queue.length < 16 && (!(parseCopy raw).status || gr.held3 < 16)
  | _ => gr.held5 < 16

/-- One command is accepted (R173, R174, R179, R323, R328, R329). -/
def acceptOne (a : Arrival) (l addr : Nat) (raw : List Byte) (s : State) : State :=
  let g := a.gid
  let (ev, s) := grpEvent s g l
  let c := (grp s g).core
  let w := { issuerOf s a l with pushEvent := ev }
  let id := s.ids.msg
  let s := takeTok g (pushTok s a l raw) { s with ids := { s.ids with msg := id + 1 } }
  match bits a.word 63 56 with
  | 0xE1 =>
    let b := parseBlock raw (clauseMode s g l)
    let s := modTile c b.tile (fun e => { e with state := .filling, pending := e.pending + 1 }) s
    let s := modCore c (fun x => { x with
      mq := x.mq ++ [{ id := id, who := w, block := b, addr := addr }]
      slotE := (blockSlots b).foldl (fun t n => t.put n { (t.get {} n) with readers := (t.get {} n).readers + 1 }) x.slotE }) s
    modGrp g (fun x => { x with held1 := x.held1 + 1 }) s
  | 0xE2 =>
    let d := parseCopy raw
    let ch := pushChan a
    let s := modCore c (fun x => { x with chans := x.chans.put ch { (x.chans.get {} ch) with queue := (x.chans.get {} ch).queue ++ [{ id := id, who := w, desc := d, addr := addr }] } }) s
    acceptFill c ch id (modGrp g (fun x => { x with held3 := x.held3 + bit d.status }) s)
  | _ =>
    let p := (grp s g).part
    let q := parseColl raw id w (coreDie c) c 0 addr
    let n := (((part s p).collSeq.find? (fun e => e.1 == q.key && e.2.1 == q.rank)).map (fun e => e.2.2)).getD 0
    let s := modPart p (fun x => { x with collSeq := (q.key, q.rank, n + 1) :: x.collSeq.filter (fun e => !(e.1 == q.key && e.2.1 == q.rank)) }) s
    modGrp g (fun x => { x with held5 := x.held5 + 1 }) (acceptColl { q with inst := n } s)

/-- The engine reads and checks the block of every lane of a push, or the lowest lane's refusal (R179, R443). -/
def readBlocks (s : State) (a : Arrival) (m : Mask) (l : List (Nat × Nat × List Byte)) : Except (Nat × Nat) (List (Nat × Nat × List Byte)) :=
  match l.findSome? (fun q => (pushRefusal s a q.1 q.2.1).map (fun c => (c, q.2.1))) with
  | some e => .error e
  | none => .ok (l.map (fun q => (q.1, q.2.1, if m.getLsbD q.1 then blockBytes s (grp s a.gid).team q.2.1 else q.2.2)))
/-- A stalled push goes on: once the group's earlier writes have arrived, its lanes' blocks are read and checked, and their commands are
accepted in ascending order while they fit and their tokens are idle (R145, R179, R311, R316). [log 93, DEDUCED.] -/
def pushOn (g : Nat) (s : State) : State :=
  match (grp s g).stall with
  | some ⟨.push _ left blocks mark, arr, since⟩ =>
    match lostWrite s g with
    | some e => raise arr 6 e.1 e.2 left left 0 false (unstall g s)
    | none =>
      if !released s g mark then s
      else if blocks.any (fun q => !q.2.2.isEmpty) then go g arr since mark blocks left s
      else match readBlocks s arr left blocks with
        | .error e => raise arr 9 e.1 e.2 left left 0 false (unstall g s)
        | .ok l => go g arr since mark l left s
  | _ => s
where
  go (g : Nat) (arr : Arrival) (since mark : Nat) : List (Nat × Nat × List Byte) → Mask → State → State
    | [], _, s => endStall g s
    | (l, addr, raw) :: rest, left, s =>
      let hold := fun (busy : Option Nat) => modGrp g (fun x => { x with stall := some ⟨.push busy left ((l, addr, raw) :: rest) mark, arr, since⟩ }) s
      match (pushTok s arr l raw).filter (fun n => (ctok s g n).busy) with
      | some n => hold (some n)
      | none =>
        if !pushRoom s arr raw then hold none
        else go g arr since mark rest (left &&& ~~~(Mask.one l)) (acceptOne arr l addr raw s)

/-- A push word (R310, R443): the group's buffer drains, every participating lane's block is judged, and the commands are accepted. -/
def push (i : Instr) (f : FS) (s0 : State) : State :=
  judge i [] (active s0) (fun s =>
    let m := active s
    if m = 0 then done s
    else
      let s := drainGroup s.cur.gid s
      drew (pushOn s.cur.gid (stallOn (.push none m ((Mask.toList m).map (fun l => (l, srcBits s l f.a f.ak 32, []))) s.ids.msg) s))) s0
/-- A copy push: class 0x01, code 0x12, from a group other than the copy-issuing group: a continuation group is a consumer group at whatever
place (R31, R51, R321). -/
def pushCopy (i : Instr) (f : FS) (s0 : State) : State :=
  judge i [] (active s0) (fun s => if (grp s s.cur.gid).place ≠ 0 || (grp s s.cur.gid).cont then stopAll 1 0x12 0 (active s) s else push i f s) s0

/-- MMA (R179, R317). -/
def execMma (f : FS) (s : State) : Out := .next (push (.mma f) f s)
/-- CPY_LIN (R321, R324). -/
def execCpyLin (f : FS) (s : State) : Out := .next (pushCopy (.cpyLin f) f s)
/-- CPY_SLOT (R321, R324). -/
def execCpySlot (f : FS) (s : State) : Out := .next (pushCopy (.cpySlot f) f s)
/-- CPY_GTH (R321, R324). -/
def execCpyGth (f : FS) (s : State) : Out := .next (pushCopy (.cpyGth f) f s)
/-- CPY_SCT (R321, R324). -/
def execCpySct (f : FS) (s : State) : Out := .next (pushCopy (.cpySct f) f s)
/-- CPY_CSR (R321, R324). -/
def execCpyCsr (f : FS) (s : State) : Out := .next (pushCopy (.cpyCsr f) f s)
/-- COLL (R328). -/
def execColl (f : FS) (s : State) : Out := .next (push (.coll f) f s)

/-- PUSH_ROOM_RESUME (R180, R311). A push that waits for room, or for its group's acknowledgements, goes on. -/
def execPushRoomResume (s : State) : Out :=
  let g := s.ev.x
  .next (match (grp s g).stall with
    | some ⟨.push none _ _ _, _, _⟩ => pushOn g s
    | _ => s)
/-- BUSY_TOKEN_RESUME (R316). The token is idle: the wait makes its record and the push goes on. -/
def execBusyTokenResume (s : State) : Out :=
  let g := s.ev.x
  .next (match (grp s g).stall with
    | some ⟨.push (some n) left blocks mark, arr, since⟩ =>
      if (ctok s g n).busy then s
      else
        let s := recordWait s g (lowest left) 3 since (ctok s g n).last
        pushOn g (modGrp g (fun x => { x with stall := some ⟨.push none left blocks mark, arr, s.time⟩ }) s)
    | _ => s)

end Sys2Proof.Machine
end

