-- ==== Sys2Proof/Machine/Slots.lean ====
section
/-!
DEFINITION. Slot claims and tile waits (R173, R319, R320), and step marks with their critical-path reports (R332, R333, R358, R363 to
R367).
-/
namespace Sys2Proof.Machine

/-! ### Slots -/

/-- The tile-table entry of a slot. -/
def slotEnt (s : State) (c n : Nat) : SlotEntry := (core s c).slotE.get {} n
def modSlot (c n : Nat) (f : SlotEntry → SlotEntry) (s : State) : State :=
  modCore c (fun x => { x with slotE := x.slotE.put n (f (x.slotE.get {} n)) }) s
/-- The team of a group takes a slot (R173). -/
def takeSlot (g n : Nat) (s : State) : State := modSlot (grp s g).core n (fun e => { e with holder := some (grp s g).team, state := .empty }) s
/-- May a claim take the slot now (R173)? -/
def slotFree (s : State) (c n : Nat) : Bool := (slotEnt s c n).holder.isNone && (slotEnt s c n).state == .empty
/-- May a slot be released now (R173)? -/
def slotIdle (s : State) (c n : Nat) : Bool :=
  (slotEnt s c n).readers == 0 && ((slotEnt s c n).state == .empty || (slotEnt s c n).state == .ready)
/-- A slot is released; the event names the release (R173, R334). Its next holder finds no error mark on it. [log 57, DEDUCED.] -/
def freeSlot (g n lane_ : Nat) (s : State) : State :=
  let (a, s) := grpEvent s g lane_
  let c := (grp s g).core
  modCore c (fun x => { x with poison := x.poison.filter (fun q => q.1 != slotPlace n) })
    (modSlot c n (fun e => { e with holder := none, state := .empty, freed := a }) s)

/-- SLCLAIM (R173, R319). -/
def execSlclaim (s : State) : Out :=
  .next (judge .slclaim [] (active s) (fun s =>
    let g := s.cur.gid
    let c := (grp s g).core
    let n := s.cur.ext.sys.num.toNat
    if (slotEnt s c n).holder = some (grp s g).team then stopAll 1 0x14 0 (active s) s
    else if active s = 0 then done s
    else if slotFree s c n && !((core s c).claimQ.any (fun q => q.1 == n)) then done (takeSlot g n s)
    else drew (stallOn (.slclaim n) (modCore c (fun x => { x with claimQ := x.claimQ ++ [(n, g)] }) s))) s)
/-- SLCLAIM_GRANT (R319). The freed slot passes to the oldest waiting claim. -/
def execSlclaimGrant (s : State) : Out :=
  let c := s.ev.x
  let n := s.ev.y
  .next (match (core s c).claimQ.find? (fun q => q.1 == n) with
    | none => s
    | some (_, g) =>
      if !slotFree s c n then s
      else
        let freed := (slotEnt s c n).freed
        let s := modCore c (fun x => { x with claimQ := x.claimQ.erase (n, g) }) s
        match (grp s g).stall with
        | some ⟨.slclaim _, arr, since⟩ => recordWait (endStall g (takeSlot g n s)) g (lowest (activeOf s arr)) 6 since freed
        | _ => s)
/-- SLREL (R173, R319). -/
def execSlrel (s : State) : Out :=
  .next (judge .slrel [] (active s) (fun s =>
    let g := s.cur.gid
    let c := (grp s g).core
    let n := s.cur.ext.sys.num.toNat
    if (slotEnt s c n).holder ≠ some (grp s g).team then stopAll 1 0x14 0 (active s) s
    else if active s = 0 then done s
    else if slotIdle s c n then done (freeSlot g n (lowest (active s)) s)
    else drew (stallOn (.slrel n) s)) s)
/-- SLREL_COMPLETE (R173, R319). The record names the engine's last read of the slot. [log 57, DEDUCED.] -/
def execSlrelComplete (s : State) : Out :=
  let g := s.ev.x
  .next (match (grp s g).stall with
    | some ⟨.slrel n, arr, since⟩ =>
      let e := slotEnt s (grp s g).core n
      if !slotIdle s (grp s g).core n then s
      else endStall g (freeSlot g n (lowest (activeOf s arr)) (recordWait s g (lowest (activeOf s arr)) 7 since e.lastRead))
    | _ => s)

/-! ### Tile and token waits -/

/-- The completions that a wait on a tile-table entry or on tokens waits for: whether all have come, and the latest (R195, R320). -/
def waitOn (s : State) (g : Nat) (k : StallKind) : Option Ante :=
  match k with
  | .twait n => let r := tileReady s (grp s g).core n; if r.1 then some r.2 else none
  | .cwait m =>
    let l := (List.range 8).filter (fun i => m.testBit i)
    if l.any (fun i => (ctok s g i).busy) then none
    else some (l.foldl (fun (b : Ante) i => if b.time ≤ (ctok s g i).last.time then (ctok s g i).last else b) {})
  | _ => none
/-- TWAIT (R320). -/
def execTwait (s : State) : Out :=
  .next (judge .twait [] (active s) (fun s =>
    let k : StallKind := .twait s.cur.ext.sys.num.toNat
    if active s = 0 || (waitOn s s.cur.gid k).isSome then done s else drew (stallOn k s)) s)
/-- CWAIT (R320). -/
def execCwait (s : State) : Out :=
  .next (judge .cwait [] (active s) (fun s =>
    let k : StallKind := .cwait s.cur.ext.sys.num.toNat
    if active s = 0 || (waitOn s s.cur.gid k).isSome then done s else drew (stallOn k s)) s)
/-- TILE_WAIT_END (R195, R320). The record names the completion that ended the wait. -/
def execTileWaitEnd (s : State) : Out :=
  let g := s.ev.x
  .next (match (grp s g).stall with
    | some ⟨k, arr, since⟩ => match waitOn s g k with
      | some a => recordWait (endStall g s) g (lowest (activeOf s arr)) 8 since a
      | none => s
    | none => s)

/-! ### Step marks -/

/-- The launch of a group. -/
def grpLaunch (s : State) (g : Nat) : Nat := (team s (grp s g).team).launch
/-- STEP_BEGIN (R332, R367). Opens a step unless it is open or sixteen are. -/
def execStepBegin (s : State) : Out :=
  .next (judge .stepBegin [] (active s) (fun s =>
    let g := s.cur.gid
    let l := grpLaunch s g
    let n := bits (kRead s s.cur.ext.sys.a.toNat) 31 0
    if active s = 0 || (launch s l).steps.any (fun q => q.1 == n) || 16 ≤ (launch s l).steps.length then done s
    else done (modLaunch l (fun x => { x with steps := x.steps ++ [(n, gtime s (grpDie s g))] }) s)) s)

/-- The 64 bytes of an antecedent record (R363). -/
def recBytes (r : ARec) : List Byte :=
  leBytes 8 r.event.toNat ++ leBytes 8 r.ante.toNat ++ leBytes 8 r.ended ++ leBytes 8 r.anteTime ++ nameBytes r.waiter
    ++ [.ofNat 8 r.waitKind, .ofNat 8 r.anteKind, 0, 0] ++ nameBytes r.anteName ++ leBytes 4 r.duration
/-- What the store of another module's die answers for an event: no record, an overwritten one, or a record, whose 64 bytes are free
(R333, R366). [log 58, DEDUCED.] -/
def farRecord (s : State) (e : DWord) : Option (Option ARec) :=
  (Config.farRecord s.free e).map (fun r => r.map (fun w =>
    let f := fun (i : Nat) => w.getD i 0
    ⟨f 0, f 1, (f 2).toNat, (f 3).toNat, ⟨bits (f 4) 31 0, bits (f 4) 63 32, bits (f 5) 31 0⟩, bits (f 5) 39 32, bits (f 5) 47 40,
      ⟨bits (f 6) 31 0, bits (f 6) 63 32, bits (f 7) 31 0⟩, bits (f 7) 63 32⟩))
/-- The record that an event takes, from the store of the die that made it: none, an overwritten one, or the record, which the group may have
made on another die, before it was saved (R358, R364). -/
def recordOf (s : State) (p : Nat) (e : DWord) : Option (Option ARec) :=
  if bits e 63 56 ≠ s.host.module then farRecord s e
  else
    let at_ := fun (x : DWord) => (vdt s p (bits x 55 53)).bind (fun d => (die s d).records.find? (fun r => r.event == x))
    match at_ e with
    | some r => some (some r)
    | none => (vdt s p (bits e 55 53)).bind (fun d => ((die s d).binds.find? (fun b => b.1 == e)).map (fun b => at_ b.2))
/-- The chain backward from an event (R333, R358, R366): the records taken, latest first, and whether it broke. [log 58, DEDUCED.] -/
def chain (s : State) (p t0 : Nat) : Nat → DWord → List ARec → List ARec × Bool
  | 0, _, acc => (acc.reverse, false)
  | n + 1, e, acc => match recordOf s p e with
    | none => (acc.reverse, false)
    | some none => (acc.reverse, true)
    | some (some r) => if r.anteTime < t0 || acc.contains r then (acc.reverse, false) else chain s p t0 n r.ante (r :: acc)
/-- The accesses of a report of `n` bytes (R332, R444). [log 58, DEDUCED.] -/
def reportAccess (s : State) (va n : Nat) : List (Nat × Except Fail Hit) :=
  if va % 64 ≠ 0 then [(lowest (active s), .error ⟨4, 1, va⟩)] else rangeAccess s va n .store

/-- The report of a step that a group ends: its bytes, the number of records in it, and the state after the event that ends it (R333, R365,
R366). [log 58, DEDUCED.] -/
def stepReport (s : State) (n t0 room : Nat) : List Byte × Nat × State :=
  let r := grpEvent s s.cur.gid (lowest (active s))
  let recs := chain r.2 (grp s s.cur.gid).part t0 65536 r.1.event []
  let kept := recs.1.take ((room - 64) / 64)
  let header := leBytes 4 n ++ leBytes 4 kept.length ++ leBytes 4 (64 + 64 * kept.length)
    ++ leBytes 4 (bit (kept.length < recs.1.length) + 2 * bit recs.2) ++ leBytes 8 t0 ++ leBytes 8 r.1.time ++ nameBytes r.1.name
    ++ leBytes 4 0 ++ leBytes 8 r.1.event.toNat ++ leBytes 8 0
  (header ++ (kept.reverse.flatMap recBytes), kept.length, drew r.2)
/-- The stores that write bytes at an address whose accesses are judged, 32 bytes each. [log 58, DEDUCED.] -/
def reportStores (va : Nat) (bytes : List Byte) (acc : List (Nat × Except Fail Hit)) : List (Nat × Hit × List Byte) :=
  ((permitted acc).zip (List.range acc.length)).map (fun q => (va + 32 * q.2, q.1.2, (bytes.drop (32 * q.2)).take 32))
/-- A step of a launch closes (R332). -/
def closeStep (l n : Nat) (s : State) : State := modLaunch l (fun x => { x with steps := x.steps.filter (fun q => q.1 != n) }) s

/-- STEP_END (R332, R333, R365, R366, R367). Closes the step, writes the report as stores of the group, and puts its length and count
in kd. -/
def execStepEnd (s : State) : Out :=
  .next (judge .stepEnd [] (active s) (fun s =>
    let g := s.cur.gid
    let f := s.cur.ext.sys
    let l := grpLaunch s g
    let n := bits (kRead s f.a.toNat) 31 0
    let va := (kRead s f.b.toNat).toNat
    let room := bits (kRead s f.c.toNat) 31 0
    let setK := fun (x : Nat) (s : State) => kPut g f.d.toNat (.ofNat 64 x) s
    if active s = 0 then done s
    else match (launch s l).steps.find? (fun q => q.1 == n) with
      | none => done (setK 0 s)
      | some (_, t0) =>
        if room < 64 then done (setK 0 (closeStep l n s))
        else
          let r := stepReport s n t0 room
          let acc := reportAccess s va (64 + 64 * r.2.1)
          onRange acc (fun _ =>
            done (setK (r.2.1 * 2 ^ 32 + (64 + 64 * r.2.1)) (closeStep l n (storeAll g (reportStores va r.1 acc) r.2.2)))) s) s)

end Sys2Proof.Machine
end

