-- ==== Sys2Proof/Machine/System.lean ====
section
/-!
DEFINITION. System instructions (R335 to R346): software traps and `eret` (R337, R429), special registers (R338, R426), translation
maintenance (R339), copies dropped (R340), time (R341), the map (R342), dies (R343), counter banks (R344), slice ratios (R345,
R388), `halt` and `wfw` (R346).
-/
namespace Sys2Proof.Machine

/-! ### Traps -/

/-- TRAP (R337). The word is complete, and the group stops with class 0x0C and code n. -/
def execTrap (s : State) : Out :=
  .next (judge .trap [] (active s) (fun s =>
    let a := s.cur
    let m := active s
    let n := a.ext.sys.num.toNat
    if m = 0 then done s else drew (raise a 0xC n n m m 0 false (finish a s))) s)
/-- ERET (R429). A fence of system scope, then the group's trap is resolved; a group that handles no trap goes on. -/
def execEret (s : State) : Out :=
  .next (judge .eret [] (active s) (fun s =>
    let g := s.cur.gid
    if active s = 0 || (team s (grp s g).team).handles.isNone then done s
    else
      let s := endAhead g (drainGroup g s)
      drew (eretStep g (stallOn (.eret s.ids.msg none 0) s))) s)

/-! ### Special registers -/

/-- The record of the trap that a group's team handles (R426). -/
def handled (s : State) (g : Nat) : Option FRec := (team s (grp s g).team).handles.bind (fun t => (s.traps.find? (fun x => x.fr.tid == t)).map (fun x => x.fr))
/-- A special register as `srd` reads it (R338, R426, R188, R94). [log 20, DEDUCED.] -/
def srValue (s : State) (g n : Nat) : DWord :=
  let p := (grp s g).part
  let c := (part s p).ctx
  match n with
  | 0x00 => c.txroot
  | 0x01 => c.vwin
  | 0x02 => c.pvwin
  | 0x03 => c.pvcfg
  | 0x04 => c.vdt
  | 0x05 => c.vxt
  | 0x10 => (part s p).steep
  | 0x11 => .ofNat 64 (steepStat s (grp s g).core)
  | 0x20 => (part s p).hvec
  | 0x29 => .ofNat 64 (team s (grp s g).team).action
  | 0x2A => if (handled s g).isSome then .ofNat 64 (pendingTraps s p) else 0
  | _ => if 0x21 ≤ n && n ≤ 0x28 then match handled s g with
      | some r => .ofNat 64 (leNat (((frecBytes r).drop (8 * (n - 0x21))).take 8))
      | none => 0
    else 0
/-- SRD (R338). [log 46, DEDUCED.] -/
def execSrd (s : State) : Out :=
  .next (judge .srd [] (active s) (fun s =>
    let g := s.cur.gid
    let f := s.cur.ext.sys
    if active s = 0 then done s
    else done (addPend g (active s) [.k f.d.toNat] (.uniform f.d.toNat (some (srValue s g f.num.toNat)) [] 0) none s)) s)
/-- STEEPCFG from a written value, with R188's clamps. -/
def steepCfg (x : DWord) : DWord :=
  .ofNat 64 (bits x 47 32 * 2 ^ 32 + min (bits x 28 24) 30 * 2 ^ 24 + min (max (bits x 20 16) 12) 24 * 2 ^ 16 + bits x 0 0)
/-- A write of a special register (R188, R426); a read-only one keeps its value. [log 20, DEDUCED.] -/
def srWrite (g n : Nat) (x : DWord) (s : State) : State :=
  let p := (grp s g).part
  match n with
  | 0x10 => modPart p (fun q => { q with steep := steepCfg x }) s
  | 0x20 => modPart p (fun q => { q with hvec := .ofNat 64 (bits x 55 6 * 64) }) s
  | 0x29 => if (team s (grp s g).team).handles.isSome then modTeam (grp s g).team (fun q => { q with action := bits x 1 0 }) s else s
  | _ => s
/-- SWR (R338). -/
def execSwr (s : State) : Out :=
  .next (judge .swr [] (active s) (fun s =>
    let f := s.cur.ext.sys
    if active s = 0 then done s else done (srWrite s.cur.gid f.num.toNat (kRead s f.a.toNat) s)) s)

/-! ### Translation maintenance -/

/-- The cores that a scope covers (R131, R339): its own for scopes 0 to 2. -/
def scopeCores (c scope : Nat) : Nat → Bool := fun x =>
  if scope < 3 then x == c else if scope = 3 then coreClus x == coreClus c else if scope = 4 then coreDie x == coreDie c
  else true
/-- Is an access of a partition to a page, made before number `mark` by a core in the scope, still on its way (R97, R339)? [log 63, DEDUCED.] -/
def onTheWay (s : State) (p : Nat) (cov : Nat → Bool) (page : Option Nat) (mark since : Nat) : Bool :=
  let inPage := fun (va : Nat) => page.all (fun q => va / 65536 == q)
  let mine := fun (g : Nat) => (grp s g).part == p && cov (grp s g).core
  let lack := fun (ps : List Piece) => ps.any (fun x => inPage x.va && x.got.any Option.isNone)
  s.groups.any (fun g => g.2.part == p && cov g.2.core && (g.2.stall.any (fun x => match x.kind with
      | .tblLd _ ps id _ => decide (id < mark) && lack ps
      | _ => false) || g.2.waits.any (fun w => match w.kind with
      | .fence _ _ _ (.pkg _ _ va _) => decide (w.id < mark) && inPage va
      | _ => false) || g.2.pend.any (fun q => decide (q.id < mark) && (match q.kind with
      | .load ps => lack ps
      | .values _ st => st.any (fun b => inPage b.va)
      | _ => false))))
    || s.cores.any (fun c => cov c.1 && c.2.wcb.any (fun e => e.part == p && inPage e.va && decide (e.first ≤ since)))
    || s.net.msgs.any (fun m => m.part == p && cov m.core && inPage m.va && (decide (m.id < mark) || decide (m.first ≤ since)))
    || s.net.far.any (fun f => (match f.cmd with
        | some (c, _) => f.part == p && (c == 2 ^ 20 || cov c)
        | none => mine f.gid) && inPage f.va && decide (f.id < mark))
    || s.net.atoms.any (fun a => a.part == p && cov a.core && inPage a.va && decide (a.id < mark))
/-- `xlinv`: the group stalls until the maintenance has completed. [log 63, DEDUCED.] -/
def maintain (i : Instr) (page : State → Option Nat) (s0 : State) : State :=
  judge i [] (active s0) (fun s =>
    if active s = 0 then done s
    else drew (stallOn (.xlinv (s.cur.ext.sys.mo.toNat % 8) (page s) false s.ids.msg) s)) s0
/-- XLINV (R339). [log 63, DEDUCED.] -/
def execXlinv (s : State) : Out := .next (maintain .xlinv (fun s => some ((kRead s s.cur.ext.sys.a.toNat).toNat / 65536)) s)
/-- XLINV_ALL (R339). -/
def execXlinvAll (s : State) : Out := .next (maintain .xlinvAll (fun _ => none) s)
/-- XLINV_COMPLETE (R97, R339). Once the group's earlier writes have applied, the cores of the scope forget what they cached, and walks of
their dies use no copy from before; once every
access translated before that has reached its destination, the group goes on. [log 63, DEDUCED.] -/
def execXlinvComplete (s : State) : Out :=
  let g := s.ev.x
  .next (match (grp s g).stall with
    | some ⟨.xlinv scope page begun mark, arr, since⟩ =>
      let gr := grp s g
      let cov := scopeCores gr.core scope
      if !begun then
        let own := (core s gr.core).wcb.any (fun e => e.gids.contains g && decide (e.first ≤ since)) || !released s g mark
        if own then s
        else
          let hits := fun (e : TlbEntry) => e.part == gr.part && page.all (fun q => if e.big then q / 32 == e.page else q == e.page)
          let s := { s with cores := s.cores.map (fun c => if cov c.1 then (c.1, { c.2 with tlb := c.2.tlb.filter (fun e => !hits e) }) else c) }
          let s := (if scope < 5 then [coreDie gr.core] else List.range 8).foldl (fun s d => modDie d (fun x => { x with walkFloor := s.time + 1 }) s) s
          modGrp g (fun x => { x with stall := some ⟨.xlinv scope page true s.ids.msg, arr, s.time⟩ }) s
      else if onTheWay s gr.part cov page mark since then s
      else endStall g s
    | _ => s)

/-- The lines of a range of global addresses, one run for each 64 KiB page of it that translates (R340). -/
def rangeLines (s : State) (p c va n : Nat) : List (Nat × Nat) :=
  if n = 0 then []
  else (List.range ((va % 65536 + n + 65535) / 65536)).filterMap (fun i =>
    let lo := if i = 0 then va else (va / 65536 + i) * 65536
    let hi := min (va + n) ((va / 65536 + i + 1) * 65536)
    match translate s p c lo 1 .load with
    | .ok h => (memKey p h.loc).map (fun k => (lineOf k, lineOf (k + (hi - 1 - lo))))
    | .error _ => none)
/-- LINV (R340). Drops the copies of a range's lines from the core's L1, or from every L1 and the L2 of the die. -/
def execLinv (s : State) : Out :=
  .next (judge .linv [] (active s) (fun s =>
    let g := s.cur.gid
    let gr := grp s g
    let f := s.cur.ext.sys
    let va := (kRead s f.a.toNat).toNat
    let rs := rangeLines s gr.part gr.core va (bits (kRead s f.b.toNat) 31 0)
    if active s = 0 then done s
    else
        let hit := fun (line : Nat) => rs.any (fun r => decide (r.1 ≤ line) && decide (line ≤ r.2))
        let keep := fun (l : List Copy) => l.filter (fun y => !hit y.line)
        let s := drainWhere gr.core (fun e => e.gids.contains g && hit e.line) s
        let d := coreDie gr.core
        done (if f.mo.toNat % 8 = 2 then modCore gr.core (fun x => { x with l1 := keep x.l1 }) s
          else modDie d (fun x => { x with l2 := keep x.l2 })
            { s with cores := s.cores.map (fun c => if coreDie c.1 = d then (c.1, { c.2 with l1 := keep c.2.l1 }) else c) })) s)

/-! ### Time and the map -/

/-- A system word that writes one value to kd for an arrival with a participating lane. -/
def toK (i : Instr) (v : State → Nat) (s0 : State) : State :=
  judge i [] (active s0) (fun s =>
    if active s = 0 then done s else done (kPut s.cur.gid s.cur.ext.sys.d.toNat (.ofNat 64 (v s)) s)) s0

/-- GTIME (R341). -/
def execGtime (s : State) : Out := .next (toK .gtime (fun s => gtime s (grpDie s s.cur.gid)) s)
/-- GTIME_UNTIL (R341). -/
def execGtimeUntil (s : State) : Out :=
  .next (judge .gtimeUntil [] (active s) (fun s =>
    let t := (kRead s s.cur.ext.sys.a.toNat).toNat
    if active s = 0 || t ≤ gtime s (grpDie s s.cur.gid) then done s else drew (stallOn (.gtimeUntil t) s)) s)
/-- GTIME_UNTIL_REACHED (R341). -/
def execGtimeUntilReached (s : State) : Out :=
  let g := s.ev.x
  .next (match (grp s g).stall with
    | some ⟨.gtimeUntil t, _, _⟩ => if t ≤ gtime s (grpDie s g) then endStall g s else s
    | _ => s)
/-- RMAP (R342). -/
def execRmap (s : State) : Out := .next (toK .rmap (fun s => s.map.version * 2 ^ 32 + (part s (grp s s.cur.gid).part).acked) s)
/-- RMACK (R342, R475). -/
def execRmack (s : State) : Out :=
  .next (judge .rmack [] (active s) (fun s =>
    let v := bits (kRead s s.cur.ext.sys.a.toNat) 31 0
    if active s = 0 || v ≠ s.map.version then done s
    else done (modPart (grp s s.cur.gid).part (fun x => { x with acked := v, ackDue := none, staleVdies := [] }) s)) s)

/-! ### Dies -/

/-- The dies one usable link away from some dies (R13, R14). [log 61, DEDUCED.] -/
def neighbours (s : State) (ds : List Nat) : List Nat :=
  ((List.range 10).flatMap (fun i =>
    let e := linkEnds i
    if !entryUsable s (kindBase 5 + i) then [] else (if ds.contains e.1 then [e.2] else []) ++ (if ds.contains e.2 then [e.1] else []))).eraseDups
/-- Links on the shortest route over usable links, within `n` more; 7 when there is none (R15). [log 61, DEDUCED.] -/
def hops (s : State) (goal : Nat) : Nat → Nat → List Nat → Nat
  | 0, _, _ => 7
  | n + 1, d, ds => if ds.contains goal then d else hops s goal n (d + 1) (ds ++ neighbours s ds)
/-- A word that names virtual dies: class 0x01, code 0x15, when one is not valid (R96, R343); with no active lane only a uniform operand
is there to be judged (R495). -/
def onDies (i : Instr) (two : Bool) (v : State → Nat → Nat → Nat) (s0 : State) : State :=
  judge i [] (active s0) (fun s =>
    let p := (grp s s.cur.gid).part
    let f := s.cur.ext.sys
    let a := vdt s p (srcBits s (someLane s (active s)) f.a f.ak 32 % 8)
    let b := if two then vdt s p (srcBits s (someLane s (active s)) f.b f.bk 32 % 8) else some 0
    let judged := fun (x : Byte) (k : BitVec 2) => active s ≠ 0 || !laneVarying x k
    match a, b with
    | some x, some y => if active s = 0 then done s else done (kPut s.cur.gid f.d.toNat (.ofNat 64 (v s x y)) s)
    | none, _ => if judged f.a f.ak then stopAll 1 0x15 0 (active s) s else if b.isNone && judged f.b f.bk then stopAll 1 0x15 0 (active s) s else done s
    | _, none => if judged f.b f.bk then stopAll 1 0x15 0 (active s) s else done s) s0
/-- DIEHOP (R96, R343). [log 61, DEDUCED.] -/
def execDiehop (s : State) : Out := .next (onDies .diehop true (fun s a b => hops s b 8 0 [a]) s)
/-- VDIE (R96, R343). -/
def execVdie (s : State) : Out := .next (onDies .vdie false (fun _ a _ => bit (Config.isWDie a)) s)

/-! ### Counter banks -/

/-- CBCLAIM (R344). A bank that the context does not hold may be claimed by the hypervisor's port at the same time: whether it is, is
free. [log 60, DESIGN CHOICE.] -/
def execCbclaim (s : State) : Out :=
  .next (judge .cbclaim [] (active s) (fun s =>
    let g := s.cur.gid
    let p := (grp s g).part
    let f := s.cur.ext.sys
    let b := bits (kRead s f.a.toNat) 3 0
    let held := (part s p).banks.get 0 b = 1
    let busy := !held && draw s b % 2 = 1
    if active s = 0 then done s
    else done (kPut g f.d.toNat (.ofNat 64 (bit busy)) (if busy then s else modPart p (fun x => { x with banks := x.banks.put b 1 }) s))) s)
/-- CBREL (R344). -/
def execCbrel (s : State) : Out :=
  .next (judge .cbrel [] (active s) (fun s =>
    let b := bits (kRead s s.cur.ext.sys.a.toNat) 3 0
    let p := (grp s s.cur.gid).part
    done (if active s = 0 || (part s p).banks.get 0 b ≠ 1 then s else modPart p (fun x => { x with banks := x.banks.put b 0 }) s)) s)
/-- A counter of a bank; a bank of an invalid virtual die reads 0 (R368). -/
def bankCounter (s : State) (p b i : Nat) : Nat := if (vdt s p (b % 8)).isNone then 0 else (part s p).ctr.get 0 (b * 64 + i)
/-- The link counters of a memory-side bank, 20 to 23 (R368), where they are read: the spec does not say what travels on a link for an
access, so each advances by a free amount. [log 16, DESIGN CHOICE.] -/
def linkBytes (p b : Nat) (s : State) : State :=
  if b < 8 || (vdt s p (b % 8)).isNone then s
  else drew (modPart p (fun x => { x with ctr := [20, 21, 22, 23].foldl (fun t i =>
    t.put (b * 64 + i) (min (t.get 0 (b * 64 + i) + draw s i) (2 ^ 64 - 1))) x.ctr }) s)
/-- CBREAD (R344). Class 0x01, code 0x16, on a bank that the context does not hold. [log 16, DESIGN CHOICE; log 46, DEDUCED.] -/
def execCbread (s : State) : Out :=
  .next (judge .cbread [] (active s) (fun s =>
    let g := s.cur.gid
    let p := (grp s g).part
    let f := s.cur.ext.sys
    let b := bits (kRead s f.a.toNat) 3 0
    let i := bits (kRead s f.b.toNat) 5 0
    if (part s p).banks.get 0 b ≠ 1 then stopAll 1 0x16 0 (active s) s
    else if active s = 0 then done s
    else
      let s := linkBytes p b s
      let v := bankCounter s p b i
      done (addPend g (active s) [.k f.d.toNat] (.uniform f.d.toNat (some (.ofNat 64 v)) [] 0) none s)) s)

/-! ### Slice ratios -/

/-- The ratio that a slice is to run at: the largest request, limited by its cluster (R345, R388). -/
def wantRatio (s : State) (c sl : Nat) : Nat :=
  let r := (sliceGroups s c sl).foldl (fun m g => max m (grp s g).clkReq) 0
  min (if r = 0 then 8 else r) (clus s (coreClus c)).ratioLimit
/-- The priority of the node whose team caused a rise of a slice's ratio (R382): that of the groups with the largest request, the first of them
in the arbiter's order; of the slice's groups where none asks. [log 79, DEDUCED.] -/
def ratioPrio (s : State) (c sl : Nat) : Nat :=
  let gs := sliceGroups s c sl
  let top := gs.foldl (fun m g => max m (grp s g).clkReq) 0
  (((gs.filter (fun g => (grp s g).clkReq == top)).map (grpPrio s)).min?).getD 0
/-- A slice takes its ratio; a rise under a reservation waits until the difference is granted (R381). Stalled `clkr` words complete. [log 79, DEDUCED.] -/
def applyRatio (c sl : Nat) (s : State) : State :=
  let x := (core s c).slices.get {} sl
  let r := wantRatio s c sl
  if x.resv ≠ 0 && x.resv < r then askResv c (sliceUnit sl) (r - x.resv) (ratioPrio s c sl) s
  else
    let s := modCore c (fun y => { y with slices := y.slices.put sl { x with ratio := r } })  s
    (sliceGroups s c sl).foldl (fun s g => match (grp s g).stall with
      | some ⟨.clkr k, _, _⟩ => endStall g (kPut g k (.ofNat 64 r) s)
      | _ => s) s
/-- CLKR (R345). The request stands at once; kd receives the ratio once it has been applied. -/
def execClkr (s : State) : Out :=
  .next (judge .clkr [] (active s) (fun s =>
    let g := s.cur.gid
    let gr := grp s g
    let f := s.cur.ext.sys
    let k := bits (kRead s f.a.toNat) 3 0
    if k < 2 || 10 < k then stopAll 1 0x16 0 (active s) s
    else if active s = 0 then done s
    else
      let s := modGrp g (fun x => { x with clkReq := k }) s
      let r := ((core s gr.core).slices.get {} gr.slice).ratio
      if wantRatio s gr.core gr.slice = r then done (kPut g f.d.toNat (.ofNat 64 r) s) else drew (stallOn (.clkr f.d.toNat) s)) s)
/-- CLOCK_RATIO_CHANGE (R388). [log 79, DEDUCED.] -/
def execClockRatioChange (s : State) : Out := .next (applyRatio s.ev.x s.ev.y s)

/-! ### Halt and watch -/

/-- HALT (R346). -/
def execHalt (s : State) : Out :=
  .next (judge .halt [] (active s) (fun s => if active s = 0 then done s else drew (stallOn .halt s)) s)
/-- The place that a `wfw` watches: a word of the module's own number where it lies (R92). -/
def watchPlace (s : State) (p : Nat) (loc : Loc) : Loc :=
  match loc with
  | .remote m a => match ownPlace s p m a .load with
    | some (.ok (_, _, h)) => h.loc
    | _ => loc
  | l => l
/-- A group starts to watch a word (R346). -/
def watch (g : Nat) (loc : Loc) (kb : DWord) (s : State) : State :=
  match loc with
  | .cell k => modLine (lineOf k) (fun x => { x with watch := ⟨g, k, kb, false⟩ :: x.watch.filter (fun w => w.gid != g) }) s
  | _ => s
/-- A group watches a word no longer. -/
def unwatch (g : Nat) (loc : Loc) (s : State) : State :=
  match loc with
  | .cell k => modLine (lineOf k) (fun x => { x with watch := x.watch.filter (fun w => w.gid != g) }) s
  | _ => s
/-- Has a write been applied since issue that left a watched word other than kb (R346)? A change of a register is a write (R379); a word of
another module comes with the event. [log 62, DEDUCED.] -/
def woken (s : State) (g : Nat) (loc : Loc) (kb seen : DWord) (hit : Bool) : Bool :=
  match loc with
  | .cell k => (lineSt s (lineOf k)).watch.any (fun w => w.gid == g && w.key == k && w.hit)
  | .remote _ _ => s.ev.word != kb
  | _ => hit || (watched s g loc != kb.toNat && watched s g loc != seen.toNat)
/-- WFW (R346). The word is judged as a load of 8 bytes; the group stalls until a write leaves the word
other than kb or 1 ms passes. -/
def execWfw (s : State) : Out :=
  .next (judge .wfw [] (active s) (fun s =>
    let g := s.cur.gid
    let f := s.cur.ext.sys
    let l := lowest (active s)
    let va := (kRead s f.a.toNat).toNat
    if active s = 0 then done s
    else
      let acc := [(l, access s g l 3 va 8 .load)]
      onRange acc (fun s => match permitted acc with
        | (_, h) :: _ =>
          let kb := kRead s f.b.toNat
          let loc := watchPlace s (grp s g).part h.loc
          drew (stallOn (.wfw f.d.toNat va loc kb (.ofNat 64 (watched s g loc)) false) (watch g loc kb s))
        | [] => s) s) s)
/-- The word that a `wfw` ends with: at its home, under what the core's own buffer holds of it (R127, R136, R346). -/
def watchRead (s : State) (g : Nat) (loc : Loc) : Nat :=
  match memKey (grp s g).part loc with
  | none => watched s g loc
  | some key => leNat ((List.range 8).map (fun i =>
      ((if (nearAt s g (loc.plus i)).isSome then bufByte s (grp s g).core (key + i) else none)).getD (.ofNat 8 (watched s g loc / 256 ^ i))))
/-- A `wfw` ends with a read of its word, which obeys R108 (R346). -/
def endWatch (g : Nat) (s : State) : State :=
  match (grp s g).stall with
  | some ⟨.wfw k va loc _ _ _, arr, _⟩ =>
    let m := activeOf s arr
    match access s g (lowest m) 3 va 8 .load with
    | .error e => if e.cls = 0 then s else raise arr e.cls e.code e.detail m m 0 false (unstall g (unwatch g loc s))
    | .ok _ => endStall g (kPut g k (.ofNat 64 (watchRead s g loc)) (sawC g (lineC s g loc) (unwatch g loc s)))
  | _ => s
/-- WFW_WAKE (R346). -/
def execWfwWake (s : State) : Out :=
  let g := s.ev.x
  .next (match (grp s g).stall with
    | some ⟨.wfw _ _ loc kb seen hit, _, _⟩ => if woken s g loc kb seen hit then drew (endWatch g s) else s
    | _ => s)
/-- WFW_TIMEOUT (R346). -/
def execWfwTimeout (s : State) : Out :=
  let g := s.ev.x
  .next (match (grp s g).stall with
    | some ⟨.wfw _ _ _ _ _ _, _, since⟩ => if s.time < since + 1000000 then s else drew (endWatch g s)
    | _ => s)

end Sys2Proof.Machine
end

