-- ==== Sys2Proof/Machine/Rings.lean ====
section
/-!
DEFINITION. Rings in a partition's memory (R370), completion records (R374), dirty-page hashes (R375), and the records of waits that no
group makes (R363, R459).
-/
namespace Sys2Proof.Machine

/-- The names of a partition's rings (R371): time series, completion records, hashes, usage records. -/
inductive RingName where
  | ts
  | cr
  | hs
  | mr
  deriving DecidableEq, Repr

/-- A ring of a partition. [log 65, DEDUCED.] -/
def ringOf (s : State) (p : Nat) (r : RingName) : Ring :=
  let o := (part s p).obs
  match r with
  | .ts => o.tsRing
  | .cr => o.crRing
  | .hs => o.hsRing
  | .mr => o.mrRing
def setRing (p : Nat) (r : RingName) (x : Ring) (s : State) : State :=
  modPart p (fun q => { q with obs := match r with
    | .ts => { q.obs with tsRing := x }
    | .cr => { q.obs with crRing := x }
    | .hs => { q.obs with hsRing := x }
    | .mr => { q.obs with mrRing := x } }) s
/-- The base and size in bytes of a ring's register (R371). -/
def ringBase (x : Ring) : Nat × Nat := (bits x.reg 55 16 * 65536, bits x.reg 15 0 * 65536)
/-- Is a ring on (R371)? -/
def ringOn (s : State) (p : Nat) (r : RingName) : Bool := bits (ringOf s p r).reg 15 0 ≠ 0
/-- Has the walker the right to access bytes of a partition's memory, page by page (R108, R370)? -/
def walkerMay (s : State) (p va n : Nat) (acc : Acc) : Bool :=
  [va, va + n - 1].all (fun a => match translate s p (2 ^ 40) a 1 acc with
    | .ok h => (rightCode s p walkerHolder a h.home acc).isNone
    | .error _ => false)
/-- The ring holds fewer records than slots: record n goes to slot n mod slots, else it is lost (R370). A ring that cannot be reached
under the walker's rights loses it too. [log 65, DEDUCED.] -/
def ringPut (p : Nat) (r : RingName) (bytes : List Byte) (s : State) : State :=
  let x := ringOf s p r
  let (base, size) := ringBase x
  let slots := (size - 64) / bytes.length
  let lose := fun (s : State) =>
    let s := setRing p r { x with lost := x.lost + 1 } s
    match (if walkerMay s p base 24 .engineWrite then walkerWrite p (base + 16) (leBytes 8 (x.lost + 1)) s else .error ⟨7, 0, base⟩) with
    | .ok t => t
    | .error _ => s
  if size = 0 then s
  else match (if walkerMay s p base 24 .engineRead then walkerRead s p (base + 8) 8 else none) with
    | none => lose s
    | some rd =>
      if slots ≤ x.wr - leNat rd || !walkerMay s p base 24 .engineWrite || !walkerMay s p (base + 64 + x.wr % slots * bytes.length) bytes.length .engineWrite then lose s
      else match (walkerWrite p (base + 64 + x.wr % slots * bytes.length) bytes s).bind (walkerWrite p base (leBytes 8 (x.wr + 1))) with
        | .ok s => setRing p r { x with wr := x.wr + 1 } s
        | .error _ => lose s

/-- The gtime of a partition's walker: that of its virtual die 0. -/
def walkerTime (s : State) (p : Nat) : Nat := gtime s ((vdt s p 0).getD 0)
/-- For each virtual die of a table, the last multiple of a length that its gtime has reached: what a tick's count starts from (R369). -/
def lastTicks (s : State) (vdt : DWord) (len : Nat) : Tab Nat := (List.range 8).map (fun v => (v, gtime s (bits vdt (8 * v + 2) (8 * v)) / len * len))
/-- An event of the walker (R362). -/
def walkerEvent (p : Nat) (nm : Name) (s : State) : Ante × State := unitEvent s p ((vdt s p 0).getD 0) 0xF1 5 nm
/-- A record of a wait of the walker that ended with an antecedent (R363, R459). -/
def recordParty (p waitKind since : Nat) (nm : Name) (a : Ante) (s : State) : State :=
  let d := (vdt s p 0).getD 0
  let (e, s) := newEvent s p d 0xF1
  let r : ARec := ⟨e, a.event, max (gtime s d) a.time, a.time, nm, waitKind, a.kind, a.name, min (s.time - since) 0xFFFFFFFF⟩
  countAt p d 36 1 (modDie d (fun x => { x with records := (x.records ++ [r]).drop ((x.records.length + 1) - Config.recordStore) }) s)

/-- The granule of an address, when it is homed here in HBM, the capacity tier or a vault (R375). -/
def hashKey (s : State) (p va : Nat) : Option Nat :=
  match translate s p (2 ^ 40) va 1 .load with
  | .ok { loc := .cell k, .. } => if lineTier (lineOf k) < 3 then some k else none
  | _ => none
/-- The hash engine's entries of a completing launch (R375): how many it writes. -/
def hashEntries (p l : Nat) (s : State) : Nat × State :=
  if !ringOn s p .hs then (0, s)
  else ((launch s l).dirty.filterMap (fun q => (hashKey s p (q * 65536)).map (fun k => (q, k)))).foldl (fun (r : Nat × State) q =>
    let s := r.2
    let h := (sha512 (cellBytes s.mem q.2 65536)).take 32
    let e := leBytes 8 (q.1 * 65536) ++ leBytes 4 (launch s l).id ++ leBytes 4 0 ++ h ++ leBytes 8 (gtime s (lineHome (lineOf q.2))) ++ leBytes 8 0
    let t := ringPut p .hs e s
    (r.1 + ((ringOf t p .hs).wr - (ringOf s p .hs).wr), t)) (0, s)
/-- The completion record of a node (R374). -/
def completionRecord (p id kind at_ hashes : Nat) (l : Launch) (s : State) : State :=
  ringPut p .cr (leBytes 4 id ++ [.ofNat 8 kind, 0, 0, 0] ++ leBytes 8 at_ ++ leBytes 8 (walkerTime s p) ++ leBytes 8 l.coreNs ++ leBytes 8 l.dynNj
    ++ leBytes 8 l.leakNj ++ leBytes 8 l.chunks ++ leBytes 4 hashes ++ leBytes 4 0) s

end Sys2Proof.Machine
end

