-- ==== Sys2Proof/Machine/Graph.lean ====
section
/-!
DEFINITION. The graph walker: submission (R402), acceptance (R55 to R59, R480), arrivals (R60 to R65), dispatch (R66, R67, R69), node
completion (R62, R374, R375, R477) and the teardown of a node (R479).
-/
namespace Sys2Proof.Machine

/-! ### Placement on a core (R33, R34) -/

/-- How many teams of a launch an empty core holds (R73). -/
def teamsOnEmpty (r : LaunchRec) : Nat → Nat → SliceRoom → Nat
  | 0, _, _ => 0
  | n + 1, pad, room =>
    if pad < r.pad then 0
    else match placeAll room (budgets r) with
      | some (_, room') => 1 + teamsOnEmpty r n (pad - r.pad) room'
      | none => 0
/-- Is a launch placeable (R34, R94)? -/
def placeable (s : State) (p : Nat) (r : LaunchRec) : Bool := (placeAll emptyRoom (budgets r)).isSome && !(r.priv && npb s p = 0)
/-- Is a die of an affinity class (R57)? -/
def affOk (aff d : Nat) : Bool := aff == 0 || (aff == 1 && !Config.isWDie d) || (aff == 2 && Config.isWDie d)
/-- Cores of a cluster that read live or degraded. -/
def liveCores (s : State) (c : Nat) : List Nat := (clusCores c).filter (coreUsable s)
/-- Clusters of a die. -/
def dieClusters (d : Nat) : List Nat := (List.range (Config.clustersOf d)).map (fun i => d * 16 + i)
/-- Does some cluster on the context's dies of the class have gang-size live cores (R70)? -/
def clusterFor (s : State) (p aff gang : Nat) : Bool :=
  (List.range 8).any (fun i => (vdt s p i).any (fun d => affOk aff d && (dieClusters d).any (fun c => gang ≤ (liveCores s c).length)))
/-- Teams of a co-resident launch that the floor of clusters holds at once: the gangs that fit on distinct cores of one cluster. Degraded cores
are live, and the floor's clusters are the first of the class in state 0 (R73, R396). [log 101, DESIGN CHOICE.] -/
def floorFit (s : State) (p aff : Nat) (r : LaunchRec) : Nat :=
  let x := part s p
  let per := teamsOnEmpty r 8 524288 emptyRoom
  let one := fun (c : Nat) => let n := (liveCores s c).length; if n < r.gang then 0 else n * per / r.gang * r.gang
  let side := fun (w : Bool) (n : Nat) => (((clustersHeld s p).filter (fun c => Config.isWDie (clusDie c) == w && (clus s c).state == 0)).map one).take n |>.sum
  (if aff = 2 then 0 else side false x.floorM) + (if aff = 1 then 0 else side true x.floorW)

/-! ### Acceptance -/

/-- A region declaration from its 8 bytes (R66). -/
def parseDecl (x : Nat) : OpDecl := { base := nbits x 63 24 * 65536, size := nbits x 23 18, access := nbits x 17 16, team := nbits x 15 0 }
/-- Does a declaration break R66 or R67? -/
def declBad (kind t : Nat) (d : OpDecl) : Bool :=
  d.access ≠ 0 && (d.size < 16 || 55 < d.size || d.base % 2 ^ d.size ≠ 0
    || (kind = 0 && d.access = 3 && (2 ^ Nat.log2 t ≠ t || 2 ^ d.size < t * 65536)))
/-- Reserved bits and values of a node descriptor (R57, R58, R63); an object that is not aligned as R58 or R59 states counts among them. [log
100, DESIGN CHOICE.] -/
def nodeBad (b : List Byte) : Bool :=
  let w := fld b 0 8
  let kind := nbits w 63 60
  7 ≤ kind || nbits w 57 56 = 3 || 7 ≤ nbits w 55 53 || nbits w 52 48 ≠ 0 || 9 ≤ nbits w 47 44 || nbits w 31 0 ≠ 0 || fld b 0x14 4 ≠ 0 || fld b 0x30 16 ≠ 0
    || fld b 0x28 8 % 8 ≠ 0 || (kind ≠ 4 && kind ≠ 6 && fld b 0x20 8 ≠ 0) || (kind = 5 && fld b 0x18 8 ≠ 0) || (kind = 3 && nbits w 55 53 = 0)
    || ((kind = 3 || kind = 4) && fld b 0x18 8 % 8 ≠ 0) || (kind = 0 && fld b 0x18 8 % 64 ≠ 0)
/-- A node of a graph, or the code by which the graph is refused (R480 step 3). [log 64, DEDUCED.] -/
def readNode (s : State) (p addr : Nat) : Except Nat Node :=
  match walkerRead s p addr 64 with
  | none => .error 8
  | some b =>
    let w := fld b 0 8
    let kind := nbits w 63 60
    let obj := fld b 0x18 8
    let nops := nbits w 47 44
    let nsucc := nbits w 55 53
    if nodeBad b then .error 2
    else match (if nops = 0 then some [] else walkerRead s p (fld b 0x28 8) (8 * nops)) with
      | none => .error 8
      | some ob =>
        let decls := ((List.range nops).map (fun i => parseDecl (fld ob (8 * i) 8))).filter (fun d => d.access ≠ 0)
        let raw := if kind ≤ 2 then walkerRead s p obj 64 else some []
        let t := (raw.map (fun b => fld b 0x18 4)).getD 1
        let node : Node := { kind := kind, prio := nbits w 59 58, aff := nbits w 57 56, succ := (List.range nsucc).map (fun i => fld b (8 + 2 * i) 2),
                             preds := nbits w 43 32, object := .ofNat 64 obj, value := .ofNat 64 (fld b 0x20 8), decls := decls }
        match raw with
        | none => if decls.any (declBad kind 1) then .error 2 else .error 8
        | some raw =>
          if decls.any (declBad kind t) then .error 2
          else if kind = 0 then match parseLaunch raw with
            | some r => .ok { node with record := r }
            | none => .error 3
          else if kind = 1 then (if nodeCopyBad s p raw (parseCopy raw) || obj % 64 ≠ 0 then .error 7 else .ok { node with raw := raw })
          else if kind = 2 then
            let c := parseColl raw 0 { part := p } 0 0 0 obj
            if (firstCode (collFields raw c)).isSome || c.tok.isSome || c.status || obj % 64 ≠ 0 then .error 7 else .ok { node with raw := raw }
          else .ok node
/-- Body and limit of a while node (R58, R64). -/
def bodyOf (n : Node) : Nat × Nat × Nat := (bits n.value 15 0, bits n.value 31 16, bits n.value 63 32)
/-- Does a node's successor list or while body break R61 or R64? -/
def linksBad (ns : List Node) (i : Nat) : Bool :=
  let n := ns.getD i {}
  let (f, l, _) := bodyOf n
  n.succ.any (fun x => ns.length ≤ x)
    || (n.kind = 4 && (n.succ.length ≠ 1 || l < f || (ns.getD f {}).preds = 0 || ns.length ≤ l || (f ≤ i && i ≤ l) || !((ns.getD l {}).succ.isEmpty)
      || (List.range (l + 1 - f)).any (fun k => ((ns.getD (f + k) {}).succ).any (fun x => x < f || l < x))))
/-- The first node that breaks a test. -/
def firstNode (ns : List Node) (f : Nat → Node → Bool) : Option Nat := ((List.range ns.length).zip ns).findSome? (fun q => if f q.1 q.2 then some q.1 else none)
/-- Is an entry held by the walker, with no move under way but a share of the walker's own, which leaves it every right (R66, R114)? -/
def walkerHolds (s : State) (p : Nat) (d : OpDecl) : Bool :=
  s.tokens.any (fun t => t.part == p && t.base == d.base && t.size == d.size && t.owner == walkerHolder && t.moving.all (fun m => m.1.kind == .share))
/-- Steps 3 to 7 of R480: the nodes, or the code and node index of a refusal. -/
def checkGraph (s : State) (p array count_ : Nat) : Except (Nat × Nat) (List Node) :=
  let rd := (List.range count_).map (fun i => (i, readNode s p (array + 64 * i)))
  match rd.findSome? (fun q => match q.2 with | .error c => some (c, q.1) | .ok _ => none) with
  | some e => .error e
  | none =>
    let ns := rd.filterMap (fun q => q.2.toOption)
    let gl := fun (f : Node → Bool) => firstNode ns (fun _ n => n.kind == 0 && f n)
    match firstNode ns (fun i _ => linksBad ns i) with
    | some i => .error (9, i)
    | none => match gl (fun n => !placeable s p n.record || !clusterFor s p n.aff n.record.gang || (n.record.coRes && 1024 < n.record.t && n.decls.any (fun d => d.access == 1))) with
      | some i => .error (4, i)
      | none => match gl (fun n => n.record.coRes && floorFit s p n.aff n.record < n.record.t) with
        | some i => .error (5, i)
        | none => match firstNode ns (fun _ n => n.decls.any (fun d => !walkerHolds s p d)) with
          | some i => .error (6, i)
          | none => .ok ns

/-- GRAPH_SUBMIT (R402). A GSUB write queues its address, or is dropped and counted; one through VF y (flag) while that VF serves the partition
(R414), and none while the partition is being destroyed (R407). [log 66, DEDUCED.] -/
def execGraphSubmit (s : State) : Out :=
  let p := s.ev.x
  .next (if (part s p).state ≠ .ready || (part s p).erased || (s.ev.flag && !(hostOpen s && vfServes s s.ev.y == some p)) then s
    else if 16 ≤ (part s p).gsub.length then modPart p (fun x => { x with dropped := min (x.dropped + 1) 0xFFFF }) s
    else modPart p (fun x => { x with gsub := x.gsub ++ [.ofNat 64 (bits s.ev.word 55 6 * 64)] }) s)

/-- The first free graph slot of a partition (R55). [log 110, DESIGN CHOICE.] -/
def freeGraph (s : State) (p : Nat) : Option Nat := (List.range 16).find? (fun i => !((part s p).graphs.get {} i).live)
/-- Header fields that break R56. -/
def headerBad (h : List Byte) : Bool :=
  fld h 0 8 % 64 ≠ 0 || fld h 8 2 = 0 || 4096 < fld h 8 2 || fld h 0xC 4 ≠ 0 || fld h 0x10 8 % 4096 ≠ 0 || fld h 0x1C 4 ≠ 0 || fld h 0x28 8 ≠ 0
/-- A graph of a partition, and a node of it. -/
def graphOf (s : State) (p g : Nat) : Graph := (part s p).graphs.get {} g
def nodeOf (s : State) (p g n : Nat) : Node := (graphOf s p g).nodes.getD n {}
/-- The launch id of a node's work (R361). -/
def nodeId (s : State) (p g n : Nat) : Nat := (graphOf s p g).tag * 65536 + n
/-- A graph with no node Ready, Dispatched or Running completes: its done word is stored and its slot is free (R65, R480). -/
def graphCheck (p g : Nat) (s : State) : State :=
  let x := graphOf s p g
  if !x.live || x.nodes.any (fun n => n.state == .ready || n.state == .dispatched || n.state == .running) then s
  else
    let v := match x.firstFailed with
      | none => 1
      | some (n, code) => 3 + code * 2 ^ 8 + n * 2 ^ 32
    let s := walkerStore p x.doneWord.toNat (leBytes 8 v) s
    modPart p (fun y => { y with graphs := y.graphs.put g { x with live := false } }) s
/-- GRAPH_ACCEPT (R55, R480). A graph in which no node is Ready completes at once (R65). [log 66, DEDUCED.] -/
def execGraphAccept (s : State) : Out :=
  let p := s.ev.x
  .next (match (part s p).gsub with
    | [] => s
    | a :: rest =>
      if (part s p).suspended || (part s p).state ≠ .ready || (part s p).erased then s
      else
        let s := modPart p (fun x => { x with gsub := rest }) s
        match walkerRead s p a.toNat 48 with
        | none => s
        | some h =>
          let done := fld h 0x20 8
          let refuse := fun (code idx : Nat) (s : State) => walkerStore p done (leBytes 8 (2 + code * 2 ^ 8 + idx * 2 ^ 32)) s
          if done % 8 ≠ 0 then s
          else if headerBad h then refuse 1 0xFFFFFFFF s
          else match freeGraph s p with
            | none => refuse 0xA 0xFFFFFFFF s
            | some g => match checkGraph s p (fld h 0 8) (fld h 8 2) with
              | .error (c, i) => refuse c i s
              | .ok ns =>
                let ns := ns.map (fun n => if n.preds = 0 then { n with state := .ready, readyAt := walkerTime s p } else n)
                let gr : Graph := { live := true, tag := fld h 0xA 2, nodes := ns, saveArea := .ofNat 64 (fld h 0x10 8), saveSize := fld h 0x18 4,
                                    doneWord := .ofNat 64 done }
                graphCheck p g (modPart p (fun x => { x with graphs := x.graphs.put g gr, accepted := (x.accepted + 1) % 2 ^ 32 }) s))

/-! ### Arrivals -/

/-- What is to be done after a node has ended: an arrival at a node, or the end of a node. -/
inductive Work where
  | arrive (n : Nat) (done : Bool)
  | ended (n : Nat) (done : Bool)
  deriving DecidableEq, Repr

/-- A while node reads its word (R64): its body starts again, or it completes; none when the read faults. A body node that counts no
predecessor gets no arrival and stays Waiting. [log 103, DESIGN CHOICE.] -/
def evalWhile (s : State) (p g w : Nat) : Option (List Work × State) :=
  let n := nodeOf s p g w
  let (f, l, lim) := bodyOf n
  match walkerRead s p n.object.toNat 8 with
  | none => none
  | some b =>
    if leNat b ≠ 0 && (lim = 0 || n.count < lim) then
      let reset := fun (s : State) i => modNode p g i (fun x => { x with state := .waiting, arrivals := 0, doneArrivals := 0, count := 0 }) s
      let s := ((List.range (l + 1 - f)).map (fun i => f + i)).foldl reset s
      some ([.arrive f true], modNode p g w (fun x => { x with state := .running, count := x.count + 1 }) s)
    else some ([.ended w true], s)

/-- A node fails: its graph remembers the first one, with its code (R479, R480). -/
def failNode (p g n code : Nat) (s : State) : State :=
  let s := telemetry (some p) ((vdt s p 0).getD 0) 11 s
  let s := modNode p g n (fun x => { x with failed := true }) s
  modPart p (fun x => { x with graphs := x.graphs.put g { x.graphs.get {} g with firstFailed := ((x.graphs.get {} g).firstFailed.orElse (fun _ => some (n, code))) } }) s
/-- A node is torn down and becomes Ready again with its order keys, or fails at its third time, when it is unreplayable, or when no live core can take it
(R479, R481): what
follows. -/
def tearWork (p g n : Nat) (s : State) : List Work × State :=
  let x := nodeOf s p g n
  let s := telemetry (some p) ((vdt s p 0).getD 0) 10 s
  let s := endShadows x.launch (fun _ => x.kind == 0) true s
  let s := modNode p g n (fun x => { x with kills := x.kills + 1, tear := false }) s
  let noCore := x.kind = 0 && !clusterFor s p x.aff x.record.gang
  if x.unreplayable || 2 ≤ x.kills || noCore then ([.ended n false], failNode p g n (if noCore then 0x22 else if x.unreplayable then 0x21 else 0x20) s)
  else ([], modNode p g n (fun x => { x with state := .ready }) s)

/-- Arrivals and ends run their course (R61, R63, R64). -/
def runWork (p g : Nat) : Nat → List Work → State → State
  | 0, _, s => s
  | _, [], s => s
  | fuel + 1, .arrive n done :: rest, s =>
    let x := nodeOf s p g n
    let arr := x.arrivals + 1
    let dn := x.doneArrivals + bit done
    let s := modNode p g n (fun x => { x with arrivals := arr, doneArrivals := dn }) s
    if x.state ≠ .waiting || arr ≠ x.preds then runWork p g fuel rest s
    else
      let ready := if x.kind = 5 then decide (0 < dn) else decide (dn = arr)
      if ready then runWork p g fuel rest (modNode p g n (fun x => { x with state := .ready, readyAt := walkerTime s p, count := 0 }) s)
      else runWork p g fuel (rest ++ [.ended n false]) s
  | fuel + 1, .ended n done :: rest, s =>
    let x := nodeOf s p g n
    let s := modNode p g n (fun x => { x with state := if done then .complete else .skipped }) s
    let next := x.succ.map (fun m => Work.arrive m done)
    let whiles := ((List.range (graphOf s p g).nodes.length).zip (graphOf s p g).nodes).filterMap (fun q =>
      if q.2.kind = 4 && q.2.state = .running && (bodyOf q.2).2.1 = n then some q.1 else none)
    let r := whiles.foldl (fun (r : List Work × State) w => match evalWhile r.2 p g w with
      | some (l, t) => (r.1 ++ l, t)
      | none => let y := tearWork p g w r.2; (r.1 ++ y.1, y.2)) ([], s)
    runWork p g fuel (rest ++ next ++ r.1) r.2

/-- A list of ends and arrivals, and then the graph's own end. -/
def runGraph (p g : Nat) (l : List Work) (s : State) : State := graphCheck p g (runWork p g (16 * 4096) l s)
/-- A node is torn down (R479). -/
def tearNode (p g n : Nat) (s : State) : State := let r := tearWork p g n s; runGraph p g r.1 r.2

/-! ### Dispatch -/

/-- Parts of one size of a split region become one, pair by pair, where both are back (R67). -/
def mergeParts (p : Nat) (d : OpDecl) (sz : Nat) (s : State) : State :=
  let idle := fun (b : Nat) => s.tokens.any (fun t => t.part == p && t.base == b && t.size == sz && t.owner == walkerHolder && t.moving.isNone && t.sharers.isEmpty && t.waiting.isEmpty)
  (((s.tokens.filter (fun t => t.part == p && t.size == sz && d.base ≤ t.base && t.base < d.base + 2 ^ d.size && t.base % 2 ^ (sz + 1) == 0)).map (fun t => t.base)).filter
    (fun b => idle b && idle (b + 2 ^ sz))).foldl (fun s b => mergeTok p b s) s
/-- The parts of the split declarations of a node come together, smallest first. -/
def mergeDecls (p : Nat) (l : List OpDecl) (s : State) : State :=
  (l.filter (fun d => d.access == 3)).foldl (fun s d => (List.range (d.size - 16)).foldl (fun s i => mergeParts p d (16 + i) s) s) s
/-- A region is split into 2^n parts (R67). -/
def splitParts (p : Nat) (d : OpDecl) : Nat → State → State
  | 0, s => s
  | n + 1, s =>
    let s := splitParts p d n s
    let l := s.tokens.filter (fun t => t.part == p && d.base ≤ t.base && t.base < d.base + 2 ^ d.size && t.size == d.size - n)
    l.foldl (fun s t => splitTok p t.base s) s
/-- Do the free entries that splits of regions into T parts need at each home stand within the quota, all together (R102, R459)? -/
def splitRoom (s : State) (p : Nat) (l : List OpDecl) (t : Nat) : Bool :=
  let home := fun (d : OpDecl) => (tokenBase s p d.base).map (fun x => x.home)
  l.all (fun d => match home d with
    | none => false
    | some h =>
      let need := (l.filter (fun e => home e == some h)).length * (t - 1)
      decide (256 ≤ h) || (tokensOn s p h + need ≤ (part s p).ctx.quota.get 0 (vdieOf s p h)
        && (s.tokens.filter (fun y => y.home == h)).length + need ≤ Config.tokenEntries))

/-- Do two declarations conflict (R66)? -/
def declClash (a b : OpDecl) : Bool := (2 ≤ a.access || 2 ≤ b.access) && a.base < b.base + 2 ^ b.size && b.base < a.base + 2 ^ a.size
/-- The dispatch test of R66. -/
def canDispatch (s : State) (p g n : Nat) : Bool :=
  let x := nodeOf s p g n
  let others := (part s p).graphs.flatMap (fun q => if q.2.live then ((q.2.nodes.filter (fun y => y.state == .dispatched || y.state == .running)).flatMap (fun y => y.decls)) else [])
  x.state == .ready && x.decls.all (walkerHolds s p) && (x.kind != 0 || splitRoom s p (x.decls.filter (fun d => d.access == 3)) x.record.t)
    && !x.decls.any (fun d => others.any (declClash d))
/-- The order of the ready pool (R69). -/
def poolKey (x : Node) (g n : Nat) : Nat := ((x.prio * 2 ^ 64 + x.readyAt) * 16 + g) * 4096 + n
/-- Is a node the first of the pool that may be dispatched (R69)? -/
def firstReady (s : State) (p g n : Nat) : Bool :=
  let mine := poolKey (nodeOf s p g n) g n
  !((part s p).graphs.any (fun q => q.2.live && ((List.range q.2.nodes.length).zip q.2.nodes).any (fun y =>
    y.2.state == .ready && decide (poolKey y.2 q.1 y.1 < mine) && canDispatch s p q.1 y.1)))

/-- The walker lends a region, or a share of it, to a holder (R67). [log 94, DEDUCED.] -/
def walkerLend (p : Nat) (nm : Name) (base : Nat) (share : Bool) (h : Nat) (s : State) : State :=
  let r := walkerEvent p nm s
  tokAsk p base (ownOp r.2 (if share then .share else .lend) walkerHolder h (((tokenBase r.2 p base).map (fun t => t.size)).getD 16) r.1) r.2
/-- May the walker choose a core's engines for a node: its cluster is the partition's, active, and does not leave it (R75, R327, R392)? -/
def engineCore (s : State) (p aff c : Nat) : Bool :=
  (clus s (coreClus c)).holder == some p && (clus s (coreClus c)).draining.isNone && (clus s (coreClus c)).state == 0 && coreUsable s c && affOk aff (coreDie c)
/-- A wait of a dispatch on a token's return makes its record (R459). [log 67, DEDUCED.] -/
def dispatchRecord (p g n : Nat) (s : State) : State :=
  let x := nodeOf s p g n
  let last := x.decls.foldl (fun (b : Option Ante) d => match tokenBase s p d.base with
    | some t => if x.readyAt < t.lastAnte.time && b.all (fun y => decide (y.time < t.lastAnte.time)) then some t.lastAnte else b
    | none => b) none
  match last with
  | some a => recordParty p 14 (x.readyAt - (die s ((vdt s p 0).getD 0)).off) (partyName (nodeId s p g n)) a s
  | none => s

/-- A channel or a collective engine accepts the command of a dispatched node, on the core that the walker has chosen, and the channel is lent
the node's tokens; those of a collective node go to the core's channel 0 (R60, R67, R327). [log 109, DESIGN CHOICE.] -/
def acceptNode (p g n c ch : Nat) (s : State) : State :=
  let x := nodeOf s p g n
  let w : Issuer := { part := p, graph := g, node := n, at_ := s.time }
  let id := s.ids.msg
  let lend := fun (h : Nat) (s : State) => x.decls.foldl (fun s d => walkerLend p (partyName (nodeId s p g n)) d.base (d.access == 1) h s) (modNode p g n (fun y => { y with state := .running, holder := h, dynNj := 0 }) s)
  if !engineCore s p x.aff c then s
  else if x.kind = 1 then
    if 16 ≤ (chan s c ch).queue.length then s
    else
      let s := { s with ids := { s.ids with msg := id + 1 } }
      let s := modCore c (fun y => { y with chans := y.chans.put ch { (y.chans.get {} ch) with queue := (y.chans.get {} ch).queue ++ [{ id := id, who := w, desc := parseCopy x.raw, addr := x.object.toNat }] } }) s
      lend (chanHolder s p c ch) s
  else
    let r := walkerEvent p (partyName (nodeId s p g n)) { s with ids := { s.ids with msg := id + 1 } }
    let q := parseColl x.raw id { w with pushEvent := r.1 } (coreDie c) c 0 x.object.toNat
    let k := (((part s p).collSeq.find? (fun e => e.1 == q.key && e.2.1 == q.rank)).map (fun e => e.2.2)).getD 0
    let s := modPart p (fun y => { y with collSeq := (q.key, q.rank, k + 1) :: y.collSeq.filter (fun e => !(e.1 == q.key && e.2.1 == q.rank)) }) r.2
    lend (chanHolder s p c 0) (acceptColl { q with inst := k } s)
/-- The latest W of the writes to the line, and to the region, of an address: a word of the walker's is released once gtime has passed it
(R62, R132). -/
def wordW (s : State) (p va : Nat) : Nat :=
  max (((tokenCover s p va).map (fun t => t.lastW)).getD 0) (match walkerKeys s p va 1 with
    | .ok [k] => if isFar (lineOf k) then 0 else (lineSt s (lineOf k)).c
    | _ => 0)
/-- A host signal node is complete, and the partition's interrupt raised, once its store has applied and is released; until then it stays
Dispatched (R58, R60, R62). -/
def signalCheck (p g n : Nat) (s : State) : State :=
  if !(walkerMsgs s p).isEmpty || walkerTime s p ≤ wordW s p (nodeOf s p g n).object.toNat + 20 then s
  else runGraph p g [.ended n true] { s with host := { s.host with out := s.host.out ++ [.signal p] } }
/-- A node has been dispatched: its work (R58, R63, R64, R452). -/
def startNode (p g n c ch : Nat) (s : State) : State :=
  let x := nodeOf s p g n
  match x.kind with
  | 0 =>
    if !clusterFor s p x.aff x.record.gang then runGraph p g [.ended n false] (failNode p g n 0x22 s) else
    let s := (x.decls.filter (fun d => d.access == 3)).foldl (fun s d => splitParts p d (Nat.log2 x.record.t) s) s
    let (l, s) := addLaunch { part := p, record := x.record, graph := g, node := n, id := nodeId s p g n, prio := x.prio, readyAt := x.readyAt, aff := x.aff } s
    let s := modNode p g n (fun y => { y with launch := l }) s
    (List.range x.record.t).foldl (fun s i => addTeam l i s) s
  | 1 => acceptNode p g n c ch s
  | 2 => acceptNode p g n c ch s
  | 3 => match walkerRead s p x.object.toNat 8 with
    | none => tearNode p g n s
    | some b =>
      let sel := if leNat b < x.succ.length then leNat b else x.succ.length - 1
      let arrivals := ((List.range x.succ.length).zip x.succ).map (fun q => Work.arrive q.2 (q.1 == sel))
      runGraph p g arrivals (modNode p g n (fun y => { y with state := .complete }) s)
  | 4 => match evalWhile s p g n with
    | none => tearNode p g n s
    | some (l, s) => runGraph p g l s
  | 5 => runGraph p g [.ended n true] s
  | _ =>
    signalCheck p g n (walkerStore p x.object.toNat (leBytes 8 x.value.toNat) s)

/-- NODE_DISPATCH (R58, R60, R63, R64, R66, R67, R69, R327). For a copy or collective node nums holds the core and channel that the walker
chooses; one that is dispatched already stands until an engine accepts its command. -/
def execNodeDispatch (s : State) : Out :=
  let p := s.ev.x
  let g := s.ev.y
  let n := s.ev.z
  let c := s.ev.nums.getD 0 0
  let ch := s.ev.nums.getD 1 0 % 2
  let t := mergeDecls p (nodeOf s p g n).decls s
  let x := nodeOf s p g n
  .next (if (part s p).suspended || !(graphOf s p g).live then s
    else if x.state = .dispatched && (x.kind = 1 || x.kind = 2) then acceptNode p g n c ch s
    else if !canDispatch t p g n || !firstReady t p g n then s
    else startNode p g n c ch (modNode p g n (fun y => { y with state := .dispatched, dispatchAt := walkerTime t p }) (dispatchRecord p g n t)))

/-! ### Completion -/

/-- Does a command of a node still stand in an engine? -/
def nodeBusy (s : State) (p g n : Nat) : Bool :=
  let mine := fun (w : Issuer) => w.gid.isNone && w.part == p && w.graph == g && w.node == n
  s.cores.any (fun c => c.2.chans.any (fun q => q.2.queue.any (fun k => mine k.who))) || s.net.colls.any (fun c => mine c.who)
/-- Does another running engine node read a region on the same channel, so that it still holds the share (R67)? -/
def shareNeeded (s : State) (p g n base : Nat) : Bool :=
  (part s p).graphs.any (fun q => q.2.live && ((List.range q.2.nodes.length).zip q.2.nodes).any (fun y =>
    (q.1 != g || y.1 != n) && y.2.state == .running && (y.2.kind == 1 || y.2.kind == 2) && y.2.holder == (nodeOf s p g n).holder
      && y.2.decls.any (fun d => d.base == base && d.access == 1)))
/-- The tokens that an engine node's channel still holds go back to the walker, but for a share that another node needs (R67). -/
def returnAll (p g n : Nat) (h : Nat) (l : List OpDecl) (s : State) : State :=
  l.foldl (fun s d => match tokenBase s p d.base with
    | none => s
    | some t =>
      let r := walkerEvent p (partyName (nodeId s p g n)) s
      if d.access = 1 then (if t.sharers.contains h && !shareNeeded s p g n d.base then dropShare p d.base h r.1 r.2 else s)
      else if t.owner = h && t.moving.isNone && !(t.waiting.any (fun o => o.settle && o.holder == h)) then
        tokAsk p d.base (ownOp r.2 .ret h 0 t.size r.1) r.2
      else s) s

/-- Has every write of the teams of a launch been acknowledged and its W passed, so that the node's completion releases them (R62, R132)? A
write that was lost is not waited for. -/
def launchQuiet (s : State) (p l : Nat) : Bool :=
  let mine := fun (t : Nat) => s.teams.any (fun q => q.1 == t && q.2.launch == l && q.2.part == p)
  !(s.net.msgs.any (fun m => !m.refused && m.part == p && mine m.team) || s.net.atoms.any (fun a => !a.refused && a.part == p && mine a.team)
    || s.cores.any (fun c => c.2.wcb.any (fun e => e.part == p && mine e.team))
    || s.groups.any (fun q => q.2.part == p && mine q.2.team && (q.2.pend.any storesLate || decide (walkerTime s p ≤ q.2.largestW + 20))))
/-- NODE_COMPLETE (R58, R62, R67, R374, R375, R477). A grid whose teams are complete, an engine node whose command is, or a host signal whose
store is; an engine node that a handler killed is torn down (R479). -/
def execNodeComplete (s : State) : Out :=
  let p := s.ev.x
  let g := s.ev.y
  let n := s.ev.z
  let x := nodeOf s p g n
  .next (if !(graphOf s p g).live || (x.kind > 2 && x.kind ≠ 6) || (x.state ≠ .dispatched && x.state ≠ .running) then s
    else if x.kind = 0 then
      if s.teams.any (fun t => t.2.launch == x.launch && t.2.part == p && t.2.state != .complete) || !launchQuiet s p x.launch then s
      else
        let s1 := mergeDecls p x.decls s
        let lent := fun (d : OpDecl) => s.tokens.any (fun t => t.part == p && t.base == d.base && t.sharers.any (isLost s p))
        if x.decls.any (fun d => if d.access = 1 then lent d else !walkerHolds s1 p d) then s
        else
          let (k, s) := hashEntries p x.launch s1
          let s := completionRecord p (nodeId s p g n) 0 x.dispatchAt k (launch s x.launch) s
          let s := endShadows x.launch (fun _ => true) false s
          runGraph p g [.ended n true] { s with teams := s.teams.filter (fun t => !(t.2.launch == x.launch && t.2.part == p)) }
    else if x.kind = 6 then signalCheck p g n s
    else if x.state ≠ .running then s
    else if nodeBusy s p g n then s
    else
      let s := returnAll p g n x.holder x.decls s
      let back := x.decls.all (fun d => s.tokens.any (fun t => t.part == p && t.base == d.base && t.moving.isNone && t.owner != x.holder
        && (!t.sharers.contains x.holder || shareNeeded s p g n d.base)))
      if !back then s
      else if x.tear then tearNode p g n s
      else runGraph p g [.ended n true] (completionRecord p (nodeId s p g n) x.kind x.dispatchAt 0 { dynNj := x.dynNj } s))

end Sys2Proof.Machine
end

