-- ==== Sys2Proof/Machine/Place.lean ====
section
/-!
DEFINITION. Team placement: the choice of cores for the first pending team, its start and the tokens it is lent (R33 to R37, R67, R70, R71,
R84, R105), and a team's completion (R29, R83, R120, R173, R174).
-/
namespace Sys2Proof.Machine

/-! ### Room on cores -/

/-- What a core has free (R33), and the teams that are to take places on it. -/
structure Room where
  slices : SliceRoom
  slots : Nat
  pad : Nat
  held : List Nat := []
  deriving DecidableEq, Repr

/-- Resident teams of a core. -/
def residentOn (s : State) (c : Nat) : List Nat := keysOf s.teams (fun _ t => t.state == .resident && t.core == c)
/-- A core's free resources (R33); an allocation that a gang keeps counts as taken (R83). -/
def roomOf (s : State) (c : Nat) : Room :=
  let padOf := fun (t : Nat) => (launch s (team s t).launch).record.pad
  let pads := keysOf s.teams (fun _ t => t.core == c && (t.state == .resident || (t.state == .complete && t.padKept)))
  { slices := sliceFree s c, slots := 8 - (residentOn s c).length, pad := 524288 - (pads.map padOf).sum }
/-- Groups of a team that have not exited, in ascending group number. -/
def groupsInOrder (s : State) (t : Nat) : List Nat :=
  (liveGroups s t).mergeSort (fun a b => decide ((grp s a).place ≤ (grp s b).place))
/-- The budgets that a pending team's groups need: of the record, or of the groups that it was saved with (R33, R78). -/
def needs (s : State) (t : Nat) : List Nat :=
  if (team s t).state = .saved then (groupsInOrder s t).map (fun g => (grp s g).budget) else budgets (launch s (team s t).launch).record
/-- A team takes its place in a room: the slices of its groups, and what is left (R33, R34). -/
def seat (s : State) (r : Room) (t : Nat) : Option (List Nat × Room) :=
  let pad := (launch s (team s t).launch).record.pad
  if r.slots = 0 || r.pad < pad then none
  else (placeAll r.slices (needs s t)).map (fun q => (q.1, { slices := q.2, slots := r.slots - 1, pad := r.pad - pad, held := r.held ++ [t] }))
/-- Free group-registers of a room. -/
def freeRegs (r : Room) : Nat := (r.slices.map Prod.snd).sum
/-- The order of cores by virtual die, cluster and core number (R70). -/
def coreRank (s : State) (p c : Nat) : Nat := vdieOf s p (coreDie c) * 64 + c % 64

/-- The core that the walker chooses: the most free group-registers, then the lowest virtual die, cluster and core (R70). -/
def bestCore (s : State) (p : Nat) (l : List (Nat × Room)) : Option (Nat × Room) :=
  l.foldl (fun (b : Option (Nat × Room)) q => match b with
    | none => some q
    | some x => if freeRegs x.2 < freeRegs q.2 || (freeRegs x.2 = freeRegs q.2 && coreRank s p q.1 < coreRank s p x.1) then some q else some x) none
/-- The first `n` cores in the walker's order. [log 69, DEDUCED.] -/
def bestCores (s : State) (p : Nat) : Nat → List (Nat × Room) → List (Nat × Room)
  | 0, _ => []
  | n + 1, l => match bestCore s p l with
    | none => []
    | some q => q :: bestCores s p n (l.filter (fun x => x.1 != q.1))

/-- Are the slots and tiles that saved teams hold free on a core and told apart, and is there room for their queued commands (R174, R180,
R325)? -/
def heldFree (s : State) (c : Nat) (ts : List Nat) : Bool :=
  let slots := ts.flatMap (fun t => (team s t).saved.slots.map Prod.fst)
  let tiles := ts.flatMap (fun t => (team s t).saved.tiles.map Prod.fst)
  let copies := ts.flatMap (fun t => (team s t).saved.copies)
  decide ((core s c).mq.length + (ts.flatMap (fun t => (team s t).saved.mq)).length ≤ 16)
    && (List.range 2).all (fun ch => decide (((core s c).chans.get {} ch).queue.length + (copies.filter (fun q => q.1 == ch)).length ≤ 16))
    && decide (slots.eraseDups.length = slots.length) && slots.all (fun n => ((core s c).slotE.get {} n).holder.isNone)
    && decide (tiles.eraseDups.length = tiles.length) && tiles.all (fun n => ((core s c).tileE.get {} n).holder.isNone)
/-- A gang takes its places: the cluster, then one core for each team in ascending rank (R35, R70). The new rooms. -/
def gangSeat (s : State) (p : Nat) (rooms : List (Nat × Room)) (ts : List Nat) : Option (List (Nat × Nat) × List (Nat × Room)) :=
  let passing := rooms.filter (fun q => ts.all (fun t => (seat s q.2 t).isSome && heldFree s q.1 (q.2.held ++ [t])))
  let clusters := (passing.map (fun q => coreClus q.1)).eraseDups
  let chosen := (clusters.map (fun c => (c, bestCores s p ts.length (passing.filter (fun q => coreClus q.1 == c))))).filter (fun q => q.2.length == ts.length)
  let total := fun (l : List (Nat × Room)) => (l.map (fun q => freeRegs q.2)).sum
  let rank := fun (c : Nat) => vdieOf s p (clusDie c) * 16 + c % 16
  let best := chosen.foldl (fun (b : Option (Nat × List (Nat × Room))) q => match b with
    | none => some q
    | some x => if total x.2 < total q.2 || (total x.2 = total q.2 && rank q.1 < rank x.1) then some q else some x) none
  best.map (fun q =>
    let seats := ts.zip (q.2.map Prod.fst)
    (seats, rooms.map (fun r => match seats.find? (fun x => x.2 == r.1) with
      | some (t, _) => (r.1, ((seat s r.2 t).map Prod.snd).getD r.2)
      | none => r)))
/-- Every gang of a unit takes its places, all at once (R70). -/
def unitSeat (s : State) (p : Nat) : List (Nat × Room) → List (List Nat) → Option (List (Nat × Nat))
  | _, [] => some []
  | rooms, ts :: rest => match gangSeat s p rooms ts with
    | none => none
    | some (l, rooms') => (unitSeat s p rooms' rest).map (fun q => l ++ q)

/-! ### Pending teams -/

/-- Is a team pending (R70)? One with an unresolved level-2 trap is not (R428). -/
def isPending (t : Team) : Bool := (t.state == .waiting || t.state == .saved) && t.goal == 0 && !t.level2
/-- The order of pending teams: the node's priority and keys, handler teams behind graph teams of one time, then `%team` (R69, R70, R427). -/
def pendKey (s : State) (t : Nat) : Nat :=
  let tm := team s t
  let l := launch s tm.launch
  let tail := match l.handler with
    | some tid => 2 ^ 70 + tid.toNat
    | none => (l.graph * 4096 + l.node) * 2 ^ 32 + tm.index
  (l.prio * 2 ^ 70 + l.readyAt) * 2 ^ 72 + tail
/-- The pending teams of a partition in pool order. -/
def pendingTeams (s : State) (p : Nat) : List Nat :=
  (keysOf s.teams (fun _ t => t.part == p && isPending t)).mergeSort (fun a b => decide (pendKey s a ≤ pendKey s b))
/-- The teams that are placed with a team: its gang, or every team of a co-resident grid, gang by gang (R35, R70). -/
def unitOf (s : State) (t : Nat) : List (List Nat) :=
  let g := (launch s (team s t).launch).record.gang
  let l := (together s t).mergeSort (fun a b => decide ((team s a).index ≤ (team s b).index))
  ((l.map (fun x => (team s x).index / g)).eraseDups).map (fun i => l.filter (fun x => (team s x).index / g == i))
/-- A blocking team keeps the cores of its class from teams of equal or lower priority; of two blocking teams the first in pool order goes
first (R71). -/
def heldOff (s : State) (unit_ : List Nat) (t d : Nat) : Bool :=
  s.teams.any (fun u => isPending u.2 && u.2.blocking && u.2.part == (team s t).part && !unit_.contains u.1 && affOk (launch s u.2.launch).aff d
    && decide ((launch s u.2.launch).prio ≤ (launch s (team s t).launch).prio) && (!(team s t).blocking || decide (pendKey s u.1 < pendKey s t)))
/-- The eligible cores of a unit (R70, R75, R394). -/
def eligible (s : State) (p : Nat) (unit_ : List Nat) (t : Nat) : List Nat :=
  let l := launch s (team s t).launch
  ((clustersHeld s p).filter (fun c => (clus s c).state == 0 && (clus s c).draining.isNone && affOk l.aff (clusDie c) && !heldOff s unit_ t (clusDie c))).flatMap (liveCores s)
/-- Teams of a partition that have been resident and are not complete, killed ones too (R105, R478). -/
def holding (s : State) (p : Nat) : List Nat := keysOf s.teams (fun _ t => t.part == p && t.everResident && t.state != .complete)
/-- The handles that teams hold, and that unsettled losses name (R105, R455). -/
def handlesUsed (s : State) (p : Nat) : List Nat :=
  ((holding s p).filter (fun t => (team s t).state != .waiting)).map (fun t => (team s t).handle)
    ++ ((s.losts.filter (fun l => l.part == p && holderKind l.holder == 1)).map (fun l => l.holder % 2 ^ 21))
/-- Private blocks that no team holds (R84). -/
def freeBlocks (s : State) (p : Nat) : List Nat :=
  let used := s.teams.filterMap (fun t => if t.2.part == p && t.2.state != .complete then t.2.block else none)
  (List.range (npb s p)).filter (fun b => !used.contains b)
/-- The base of the region, or of the part, that a declaration lends to a team of an index of a launch of T teams (R67). -/
def lentBase (d : OpDecl) (T index : Nat) : Nat := if d.access = 3 then d.base + index * 2 ^ (d.size - Nat.log2 T) else d.base
/-- Does the walker hold what it lends to a team of a launch? After a gang kill the loss of the team before it is settled first (R67, R455,
R478). -/
def lendReady (s : State) (p t : Nat) (decls : List OpDecl) : Bool :=
  let l := launch s (team s t).launch
  decls.all (fun d => (d.access == 2 && d.team != (team s t).index)
    || (tokenBase s p (lentBase d l.record.t (team s t).index)).any (fun k => k.owner == walkerHolder))
/-- May teams that have never been resident start now: handles, private blocks, tokens to lend and read shares (R67, R84, R105)? -/
def mayStart (s : State) (p : Nat) (new : List Nat) : Bool :=
  match new with
  | [] => true
  | t :: _ =>
    let l := launch s (team s t).launch
    let decls := if l.handler.isSome then [] else (nodeOf s p l.graph l.node).decls
    let shares := fun (b : Nat) => ((tokenBase s p b).map (fun k => k.sharers.length + (k.waiting.filter (fun o => o.kind == .share)).length)).getD 0
    decide ((holding s p).length + (new.filter (fun x => !(team s x).everResident)).length ≤ 2 ^ 20)
      && decide ((handlesUsed s p).length + new.length ≤ 2 ^ 20) && (!l.record.priv || decide (new.length ≤ (freeBlocks s p).length))
      && new.all (fun t => lendReady s p t decls) && decls.all (fun d => d.access != 1 || decide (shares d.base + new.length ≤ 1024))
/-- Where a unit can be placed now. -/
def unitPlaces (s : State) (p t : Nat) : Option (List (Nat × Nat)) :=
  let u := unitOf s t
  let all := u.flatMap id
  if !all.all (fun x => isPending (team s x)) || !mayStart s p (all.filter (fun x => (team s x).state == .waiting)) then none
  else unitSeat s p ((eligible s p all t).map (fun c => (c, roomOf s c))) u
/-- The first pending team in pool order for which cores pass, and where its unit goes (R70). -/
def nextPlaces (s : State) (p : Nat) : Option (Nat × List (Nat × Nat)) :=
  if (part s p).suspended || (part s p).state ≠ .ready then none
  else (pendingTeams s p).findSome? (fun t => (unitPlaces s p t).map (fun l => (t, l)))

/-! ### Start -/

/-- The handle of a team that becomes resident: any that no such team holds, and that no unsettled loss names (R105, R455, R478).
[log 68, DESIGN CHOICE.] -/
def newHandle (s : State) (p t : Nat) : Nat :=
  let used := handlesUsed s p
  let h0 := draw s t
  ((List.range (used.length + 1)).map (fun i => (h0 + i) % 2 ^ 20)).find? (fun h => !used.contains h) |>.getD 0
/-- The lowest free team slot of a core (R33). -/
def freeSlotNo (s : State) (c : Nat) : Nat :=
  ((List.range 8).find? (fun i => !(residentOn s c).any (fun t => (team s t).slot == i))).getD 0
/-- The tokens of a node's declarations that a team receives (R67). [log 94, DEDUCED.] -/
def lendTeam (t : Nat) (s : State) : State :=
  let tm := team s t
  let l := launch s tm.launch
  let h := teamHolder s t
  if l.handler.isSome then s
  else (nodeOf s tm.part l.graph l.node).decls.foldl (fun s d =>
    if d.access = 2 && d.team ≠ tm.index then s
    else walkerLend tm.part (partyName l.id) (lentBase d l.record.t tm.index) (d.access == 1) h s) s
/-- A team becomes resident on a core for the first time (R28, R34, R37, R67, R84, R105). [log 70, DESIGN CHOICE.] -/
def startTeam (t c : Nat) (s : State) : State :=
  let tm := team s t
  let p := tm.part
  let l := launch s tm.launch
  match seat s (roomOf s c) t with
  | none => s
  | some (slices, _) =>
    let handle := newHandle s p t
    let block := if l.record.priv then (freeBlocks s p).head? else none
    let slot := freeSlotNo s c
    let s := modTeam t (fun x => { x with state := .resident, core := c, slot := slot, handle := handle, block := block, everResident := true,
                                          blocking := false, passedAt := none, placedAt := s.time, residentFrom := s.time, handles := l.handler, action := 0 }) s
    let s := ((List.range slices.length).zip (slices.zip (budgets l.record))).foldl (fun s q =>
      addGroup (freshGroup s t q.1 q.2.1 q.2.2 (decide (l.record.p ≤ q.1)) l.record.entry 32) s) s
    lendTeam t s
/-- A node whose first team is resident is running (R60). -/
def nodeRuns (t : Nat) (s : State) : State :=
  let l := launch s (team s t).launch
  if l.handler.isSome then s
  else modNode l.part l.graph l.node (fun n => if n.state = .dispatched then { n with state := .running } else n) s

/-- The pending teams before a team in pool order have been passed over (R71). [log 69, DEDUCED.] -/
def passOver (p t : Nat) (s : State) : State :=
  let k := pendKey s t
  (pendingTeams s p).foldl (fun s u => if pendKey s u < k then modTeam u (fun x => { x with passedAt := x.passedAt.orElse (fun _ => some s.time) }) s else s) s
/-- TEAM_PLACE (R70). The first pending team that can be placed, with its gang or grid, when it was not saved. -/
def execTeamPlace (s : State) : Out :=
  let p := s.ev.x
  .next (match nextPlaces s p with
    | none => s
    | some (t, l) =>
      if (team s t).state = .saved then s
      else drew (nodeRuns t (l.foldl (fun s q => startTeam q.1 q.2 s) (passOver p t s))))

/-- TEAM_BLOCKING (R71). A team that was passed over 100 µs ago blocks. [log 69, DEDUCED.] -/
def execTeamBlocking (s : State) : Out :=
  let t := s.ev.x
  .next (if isPending (team s t) && (team s t).passedAt.any (fun n => decide (n + 100000 ≤ s.time)) then modTeam t (fun x => { x with blocking := true }) s else s)

/-! ### Completion -/

/-- The time that a team has held its core counts in its launch and in its partition's metering (R373, R374, R376). [log 71, DEDUCED.] -/
def accountTeam (t : Nat) (s : State) : State :=
  let tm := team s t
  if tm.state ≠ .resident then s
  else
    let c := core s tm.core
    let since := fun (counted : Nat) => s.time - max tm.residentFrom counted
    meterAdd tm.part 0 1 (since c.heldAt) (modLaunch tm.launch (fun x => { x with coreNs := x.coreNs + since (c.heldBy.get 0 tm.launch) })
      (modTeam t (fun x => { x with residentFrom := s.time }) (modCore tm.core (fun x => { x with
        slotBy := x.slotBy.put tm.launch (x.slotBy.get 0 tm.launch + since 0), heldBy := x.heldBy.put tm.launch s.time, heldAt := s.time }) s)))
/-- Is an engine command of a group of the team accepted and not complete (R29)? -/
def teamBusy (s : State) (t : Nat) : Bool :=
  let mine := fun (w : Issuer) => w.gid.isSome && w.team == t
  let c := core s (team s t).core
  c.mq.any (fun m => mine m.who) || c.chans.any (fun q => q.2.queue.any (fun k => mine k.who)) || s.net.colls.any (fun k => mine k.who)
/-- The slots of a team and the tiles of its groups become empty and free; the words of its tiles read +0 (R173, R174). -/
def clearHeld (t c : Nat) (s : State) : State :=
  let (a, s) := unitEvent s (team s t).part ((vdt s (team s t).part 0).getD 0) 0xF1 5 (partyName (launch s (team s t).launch).id)
  let slots := keysOf (core s c).slotE (fun _ e => e.holder == some t)
  let tiles := keysOf (core s c).tileE (fun _ e => e.holder.any (fun g => (grp s g).team == t))
  modCore c (fun x => { x with
    slotE := x.slotE.map (fun e => if slots.contains e.1 then (e.1, { freed := a }) else e)
    tileE := x.tileE.map (fun e => if tiles.contains e.1 then (e.1, { freed := a }) else e)
    tileW := x.tileW.filter (fun w => !tiles.contains (w.1 / 8192))
    poison := x.poison.filter (fun q => !slots.any (fun n => q.1 == slotPlace n) && !tiles.any (fun n => q.1 == tilePlace n)) }) s
/-- The scratchpad allocations of a gang are freed with its last member (R83). -/
def freePads (t : Nat) (s : State) : State :=
  let tm := team s t
  let g := (launch s tm.launch).record.gang
  let gang := keysOf s.teams (fun _ x => x.launch == tm.launch && x.part == tm.part && x.index / g == tm.index / g)
  if gang.all (fun x => (team s x).state == .complete) then gang.foldl (fun s x => modTeam x (fun y => { y with padKept := false, pad := [] }) s) s
  else modTeam t (fun x => { x with padKept := true }) s

/-- A team has left its core: the core keeps no token entry on its behalf, and its cluster may drain (R75, R103). -/
def leftCore (c : Nat) (s : State) : State := modClus (coreClus c) (fun x => { x with lastLeft := s.time }) (keepEntries c s)
/-- TEAM_COMPLETE (R29, R83, R120). Once the groups have exited, no deposit is held and no command is open, the team's tokens are settled;
then the team is complete. -/
def execTeamComplete (s : State) : Out :=
  let t := s.ev.x
  let tm := team s t
  .next (if tm.state ≠ .resident || !(liveGroups s t).isEmpty || teamBusy s t
      || (core s tm.core).deposits.any (fun d => d.team == t) || (core s tm.core).formed.any (fun f => f.team == t) then s
    else
      let s := settleTeam tm.part (teamHolder s t) s
      if holderNamed s tm.part (teamHolder s t) then s
      else
        let s := clearHeld t tm.core (accountTeam t s)
        let s := modTeam t (fun x => { x with state := .complete, goal := 0, block := none }) s
        let s := { s with groups := s.groups.map (fun g => if g.2.team == t then (g.1, { g.2 with resident := false }) else g) }
        leftCore tm.core (freePads t s))

end Sys2Proof.Machine
end

