-- ==== Sys2Proof/Machine/Preempt.lean ====
section
/-!
DEFINITION. Stopping teams: pre-emption, gang kills and teardowns (R72, R76 to R78, R428, R478, R479), resumption (R134), the moves of
clusters between partitions and their clearing (R74, R75, R144).
-/
namespace Sys2Proof.Machine

/-! ### Pre-emption points -/

/-- May a stalled word be withdrawn now (R311)? One whose token already moves goes on to its end. [log 74, DEDUCED.] -/
def mayWithdraw (s : State) (g : Nat) (x : Stall) : Bool :=
  match x.kind with
  | .token => s.tokens.any (fun t => t.waiting.any (fun o => o.gid == some g))
  | _ => true
/-- Does a lane's wait let its group stop (R76, R302 to R305, R175, R217)? [log 74, DEDUCED.] -/
def stopWaits (w : LWait) : Bool :=
  match w.kind with
  | .bar _ _ _ => true
  | .role _ _ => true
  | .pkg _ _ _ _ => true
  | .loopBuf _ => true
  | .tile _ => true
  | _ => false
/-- Does a group stand at a pre-emption point, its results in (R76, R311, R421)? [log 74, DEDUCED.] -/
def groupStopped (s : State) (g : Nat) : Bool :=
  let gr := grp s g
  let wl := gr.waits.foldl (fun (m : Mask) w => if stopWaits w then m ||| w.lanes else m) 0
  let atPoint := (List.range 32).all (fun l => (lane s g l).exited || (lane s g l).clause.isNone || wl.getLsbD l)
  gr.exited || !gr.resident || (!gr.pend.any mustArrive && !s.issuing.any (fun a => a.gid == g)
    && (!gr.stops.isEmpty || gr.stall.any (mayWithdraw s g) || (isParked gr && gr.stall.isNone) || (atPoint && gr.stall.isNone)))
/-- Does an engine still run a command of the team (R77)? A failed core runs nothing; a segment that waits at a slot has delivered nothing, and
its command stops before it. [log 111, DEDUCED.] -/
def enginesStopped (s : State) (t : Nat) : Bool :=
  let mine := fun (w : Issuer) => w.gid.isSome && w.team == t
  let c := (team s t).core
  !((core s c).mrun.any (fun r => ((core s c).mq.head?).any (fun m => mine m.who && runGoes s c m r)))
    && (List.range 2).all (fun ch => !(holdsResv s c (1 + ch) && ((chan s c ch).queue.head?).any (fun m => mine m.who)))
    && !s.net.colls.any (fun x => mine x.who && x.started)
/-- Has a team stopped? -/
def teamStopped (s : State) (t : Nat) : Bool :=
  let tm := team s t
  tm.state ≠ .resident || !coreUsable s tm.core || ((liveGroups s t).all (groupStopped s) && enginesStopped s t)

/-! ### Leaving a core -/

/-- A group's stalled word is withdrawn with no effect, to be reissued first on resumption; a push keeps the lanes that had pushed (R76,
R311), and swaps of the table banks go on behind a `tbl.ld` (R273). -/
def withdraw (g : Nat) (s : State) : State :=
  match (grp s g).stall with
  | none => s
  | some x =>
    let c := (grp s g).core
    let s := modCore c (fun y => { y with aacqQ := y.aacqQ.filter (fun q => q.2 != g), claimQ := y.claimQ.filter (fun q => q.2 != g) }) s
    let hit := s.tokens.filter (fun t => t.waiting.any (fun o => o.gid == some g))
    let s := { s with tokens := s.tokens.map (fun t => { t with waiting := t.waiting.filter (fun o => o.gid != some g) }) }
    let s := hit.foldl (fun s t => tokRun t.part t.base s) s
    let (arr, s) := match x.kind with
      | .push _ left _ _ => ({ x.arr with lanes := left, orig := some (x.arr.orig.getD x.arr.lanes) }, finishLanes x.arr (x.arr.lanes &&& ~~~left) s)
      | _ => (x.arr, s)
    let s := modGrp g (fun y => { y with stall := none, withdrawn := y.withdrawn ++ [arr] }) s
    match x.kind with
    | .tblLd _ _ id _ => runSwaps c { s with net := { s.net with far := s.net.far.filter (fun f => f.pend != some id) } }
    | _ => s
/-- The reservations that a team's stop leaves without use are released (R381). -/
def dropResv (t : Nat) (s : State) : State :=
  let c := (team s t).core
  let mine := fun (w : Issuer) => w.gid.isSome && w.team == t
  let s := if ((core s c).mq.head?).any (fun m => mine m.who) then releaseResv c 0 s else s
  let s := (List.range 2).foldl (fun s ch => if ((chan s c ch).queue.head?).any (fun m => mine m.who) then releaseResv c (1 + ch) s else s) s
  let s := if s.net.colls.any (fun x => x.core == c && mine x.who) && !s.net.colls.any (fun x => x.core == c && x.started && !mine x.who) then releaseResv c 3 s
    else s
  (List.range 6).foldl (fun s sl =>
    if (sliceGroups s c sl).any (fun g => (grp s g).team != t) || !((sliceGroups s c sl).any (fun g => (grp s g).team == t)) then s
    else modCore c (fun x => { x with slices := x.slices.put sl { x.slices.get {} sl with resv := 0, idle := 0 } }) (releaseResv c (sliceUnit sl) s)) s
/-- The commands of a team leave the queues of its core (R78); those of the collective engine that have not started stay listed, for they
run nowhere meanwhile. -/
def takeCommands (t : Nat) (s : State) : List MCmd × List (Nat × CopyCmd) × State :=
  let c := (team s t).core
  let mine := fun (w : Issuer) => w.gid.isSome && w.team == t
  let co := core s c
  (co.mq.filter (fun m => mine m.who), co.chans.flatMap (fun q => (q.2.queue.filter (fun k => mine k.who)).map (fun k => (q.1, k))),
   modCore c (fun x => { x with
     mq := x.mq.filter (fun m => !mine m.who)
     mrun := if (x.mq.head?).any (fun m => mine m.who) then none else x.mrun
     chans := x.chans.map (fun q => (q.1, { q.2 with queue := q.2.queue.filter (fun k => !mine k.who) })) }) s)
/-- The deposits and formed groups of a team leave the reorder unit (R78). -/
def takeDeposits (t : Nat) (s : State) : List Deposit × List Formed × State :=
  let c := (team s t).core
  let co := core s c
  (co.deposits.filter (fun d => d.team == t), co.formed.filter (fun f => f.team == t),
   modCore c (fun x => { x with deposits := x.deposits.filter (fun d => d.team != t), formed := x.formed.filter (fun f => f.team != t) }) s)
/-- The slots and tiles that a team holds, with their contents (R78). -/
def heldState (s : State) (t c : Nat) : List (Nat × TileEntry × Tab Word) × List (Nat × SlotEntry × Tab Byte) :=
  let co := core s c
  ((co.tileE.filter (fun e => e.2.holder.any (fun g => (grp s g).team == t))).map (fun e => (e.1, e.2, co.tileW.filter (fun w => w.1 / 8192 == e.1))),
   (co.slotE.filter (fun e => e.2.holder == some t)).map (fun e => (e.1, e.2, co.slotB.filter (fun b => b.1 / 16384 == e.1))))
/-- Bytes that a team's save needs (R78). -/
def saveNeed (s : State) (t : Nat) : Nat :=
  let r := (launch s (team s t).launch).record
  let (tiles, slots) := if (team s t).state = .saved then ((team s t).saved.tiles.length, (team s t).saved.slots.length)
    else let h := heldState s t (team s t).core; (h.1.length, h.2.length)
  let held := if (team s t).state = .saved then ((team s t).saved.deposits, (team s t).saved.formed) else let x := takeDeposits t s; (x.1, x.2.1)
  let deps := held.1.length + (held.2.map (fun f => f.taken.length)).sum
  128 * (budgets r).sum + 2048 * (r.p + r.c) + r.pad + 16384 * slots + 32768 * tiles + 32 * deps + 4096
/-- The walker writes a team's image, encrypted, into its graph's save area and not past its end: where in the area, and what the bytes are,
is free (R56, R78). A handler's team has no graph. [log 72, DESIGN CHOICE.] -/
def saveImage (t : Nat) (s : State) : State :=
  let l := launch s (team s t).launch
  let g := graphOf s (team s t).part l.graph
  let n := min (saveNeed s t) (4096 * g.saveSize)
  if l.handler.isSome then s
  else match walkerWrite (team s t).part (g.saveArea.toNat + draw s t % (4096 * g.saveSize - n + 1)) ((List.range n).map (Config.savedByte (draw s (2 ^ 15 + t)))) s with
    | .ok u => u
    | .error _ => s
/-- Bit 1 of Flags: the walker saved the group while it was stopped (R428). -/
def savedFlag (f : Nat) : Nat := if f / 2 % 2 = 1 then f else f + 2
/-- A team is saved (R76 to R78, R428); what its streams have read ahead is dropped (R215). [log 72, DESIGN CHOICE.] -/
def saveTeam (t : Nat) (s : State) : State :=
  let tm := team s t
  if tm.state ≠ .resident then modTeam t (fun x => { x with goal := 0 }) s
  else
    let c := tm.core
    let s := saveImage t (accountTeam t s)
    let s := (liveGroups s t).foldl (fun s g => withdraw g s) s
    let tids := (liveGroups s t).flatMap (fun g => (grp s g).stops.map (fun st => st.fr.tid))
    let s := { s with traps := s.traps.map (fun x => if tids.contains x.fr.tid then { x with fr := { x.fr with flags := savedFlag x.fr.flags } } else x) }
    let s := dropResv t ((liveGroups s t).foldl (fun s g => endAhead g s) s)
    let (tiles, slots) := heldState s t c
    let (mq, copies, s) := takeCommands t s
    let (deps, formed, s) := takeDeposits t s
    let s := clearHeld t c s
    let s := { s with groups := s.groups.map (fun g => if g.2.team == t then
        (g.1, { g.2 with resident := false, stops := g.2.stops.map (fun st => { st with fr := { st.fr with flags := savedFlag st.fr.flags } }) }) else g) }
    leftCore c <| modTeam t (fun x => { x with
      state := .saved, goal := 0, pendingAt := s.time, blocking := false, passedAt := none
      saved := { tiles := tiles, slots := slots, mq := mq, copies := copies, deposits := deps, formed := formed } }) s

/-! ### Kills -/

/-- The commands of a team that the collective engine has not started are withdrawn from their instances (R329, R478). -/
def dropColls (t : Nat) (s : State) : State :=
  let gone := s.net.colls.filter (fun c => c.who.gid.isSome && c.who.team == t)
  let s := gone.foldl (fun s c => modPart c.who.part (fun x => { x with
    collSeq := x.collSeq.map (fun e => if e.1 == c.key && e.2.1 == c.rank then (e.1, e.2.1, min e.2.2 c.inst) else e) }) s) s
  { s with net := { s.net with colls := s.net.colls.filter (fun c => !(c.who.gid.isSome && c.who.team == t)) } }
/-- A holder is lost (R455, R489 counter 12). -/
def loseHolder (p h d : Nat) (s : State) : State := telemetry (some p) d 12 { s with losts := s.losts ++ [⟨p, h, s.time⟩] }
/-- A stopped team is lost: nothing is saved, its allocation and its unresolved traps are discarded, and it is pending again with its index
(R455, R478). -/
def loseTeam (t : Nat) (s : State) : State :=
  let tm := team s t
  let s := if tm.state = .resident || tm.state = .saved then loseHolder tm.part (teamHolder s t) (coreDie tm.core) s else s
  let s := if tm.state = .resident then
      let s := accountTeam t s
      let s := dropResv t (drainWhere tm.core (fun e => e.team == t) s)
      let s := (liveGroups s t).foldl (fun s g => withdraw g s) s
      let s := (takeCommands t s).2.2
      let s := (takeDeposits t s).2.2
      clearHeld t tm.core s
    else s
  let s := dropColls t s
  let dead := keysOf s.groups (fun _ g => g.team == t)
  let its := fun (x : Trap) => x.gid.any dead.contains || (x.gid.isNone && x.team == some t)
  let s := retryRecords tm.part { s with groups := s.groups.filter (fun g => g.2.team != t), traps := s.traps.filter (fun x => !its x), trapQ := s.trapQ.filter (fun x => !its x.1) }
  (if tm.state = .resident then leftCore tm.core else id) <| modTeam t (fun _ => { part := tm.part, launch := tm.launch, index := tm.index, pendingAt := s.time, everResident := tm.everResident }) s
/-- The shadows of granules that the walker lent to the teams of an index list are discarded (R478). -/
def endTeamShadows (l : Nat) (idx : List Nat) (s : State) : State :=
  let la := launch s l
  let decls := (nodeOf s la.part la.graph la.node).decls
  endShadows l (fun h => match decls[h.decl]? with
    | some d => (d.access == 2 && idx.contains d.team) || (d.access == 3 && idx.contains ((h.va - d.base) / 2 ^ (d.size - Nat.log2 la.record.t)))
    | none => false) true s
/-- A gang is killed once all of its teams have stopped (R478); the third kill of a node fails it (R479). [log 75, DEDUCED.] -/
def killGang (ts : List Nat) (s : State) : State :=
  match ts with
  | [] => s
  | t :: _ =>
    let l := (team s t).launch
    let la := launch s l
    let idx := ts.map (fun x => (team s x).index)
    let d := coreDie (team s t).core
    if la.handler.isNone && 2 ≤ (nodeOf s la.part la.graph la.node).kills then stopTeam t 3 s
    else
      let s := endTeamShadows l idx (ts.foldl (fun s x => loseTeam x s) s)
      let s := telemetry (some la.part) d 9 s
      if la.handler.isSome then s else modNode la.part la.graph la.node (fun n => { n with kills := n.kills + 1 }) s
/-- A launch is torn down once all of its teams have stopped (R479). A handler's launch starts again. [log 75, DEDUCED.] -/
def tearLaunch (l : Nat) (s : State) : State :=
  let la := launch s l
  let ts := keysOf s.teams (fun _ x => x.launch == l && x.part == la.part)
  let s := (ts.filter (fun t => (team s t).state != .complete)).foldl (fun s t => loseTeam t s) s
  if la.handler.isSome then s
  else
    let s := { s with teams := s.teams.filter (fun t => !(t.2.launch == l && t.2.part == la.part)) }
    tearNode la.part la.graph la.node s

/-! ### TEAM_PREEMPT -/

/-- The units of a partition that are to stop and have: teams that stop together, and the hardest goal among them. -/
def stoppedUnit (s : State) (p : Nat) : Option (List Nat × Nat) :=
  (keysOf s.teams (fun _ t => t.part == p && t.goal != 0)).findSome? (fun t =>
    let l := (team s t).launch
    let goal := (team s t).goal
    let ts := if goal = 3 then keysOf s.teams (fun _ x => x.launch == l && x.part == p && x.state != .complete) else together s t
    if ts.all (teamStopped s) then some (ts, ts.foldl (fun m x => max m (team s x).goal) 0) else none)
/-- The state with some teams off their cores, to see what room that leaves (R72). -/
def without (ts : List Nat) (s : State) : State :=
  { s with teams := s.teams.map (fun t => if ts.contains t.1 then (t.1, { t.2 with state := .waiting }) else t)
           groups := s.groups.map (fun g => if ts.contains g.2.team then (g.1, { g.2 with resident := false }) else g) }
/-- Do the saves of the victims fit the save areas of their graphs (R56, R78)? [log 69, DEDUCED.] -/
def saveFits (s : State) (p : Nat) (vs : List Nat) : Bool :=
  (part s p).graphs.all (fun g =>
    let mine := fun (t : Nat) => (launch s (team s t).launch).handler.isNone && (launch s (team s t).launch).graph == g.1
    let all := (vs.filter mine) ++ (keysOf s.teams (fun i t => t.part == p && t.state == .saved && mine i && !vs.contains i))
    (vs.filter mine).isEmpty || decide ((all.map (saveNeed s)).sum ≤ 4096 * g.2.saveSize))
/-- How many of a list of pending teams a core's room seats together (R33, R72). -/
def seatsIn (s : State) (c : Nat) : List Nat → Room → Nat
  | [], _ => 0
  | t :: ts, r => if !heldFree s c (r.held ++ [t]) then seatsIn s c ts r else match seat s r t with
    | none => seatsIn s c ts r
    | some (_, r') => 1 + seatsIn s c ts r'
/-- How many teams of the unit of a pending team a core seats (R33, R72). -/
def seatsOn (s : State) (c t : Nat) : Nat := seatsIn s c ((unitOf s t).flatMap id) (roomOf s c)
/-- The fewest lower-priority teams of a core, lowest priority and most recently placed first, whose stop lets one more pending team in (R72).
[log 69, DEDUCED.] -/
def victimsOn (s : State) (p t c : Nat) : Option (List Nat) :=
  let prio := fun (x : Nat) => (launch s (team s x).launch).prio
  let l := ((residentOn s c).filter (fun x => (team s x).part == p && decide (prio t < prio x) && (team s x).goal == 0)).mergeSort
    (fun a b => decide (prio b < prio a) || (prio a == prio b && decide ((team s b).placedAt ≤ (team s a).placedAt)))
  ((List.range l.length).map (fun n => l.take (n + 1))).findSome? (fun vs =>
    let all := (vs.flatMap (together s)).eraseDups
    let s' := without all s
    if decide (seatsOn s c t < seatsOn s' c t) && saveFits s p all then some all else none)
/-- How many teams of the needs of a pending team a core seats with every team of lower priority off it (R72). -/
def seatsBelow (s : State) (p t c : Nat) : Nat :=
  seatsOn (without ((residentOn s c).filter (fun x => (team s x).part == p && decide ((launch s (team s t).launch).prio < (launch s (team s x).launch).prio))) s) c t
/-- How many gangs of a size cores hold that seat so many teams each, a gang's on distinct cores (R35). -/
def gangsIn (gang : Nat) (l : List Nat) : Nat := ((List.range 33).filter (fun q => gang * q ≤ (l.map (fun m => min m q)).sum)).getLastD 0
/-- The first pending team that cannot be placed and whose place victims can make, with the victims on one core (R72). [log 69, DEDUCED.] -/
def nextVictims (s : State) (p : Nat) : Option (List Nat) :=
  if (part s p).suspended || s.teams.any (fun t => t.2.part == p && t.2.goal == 1) then none
  else (pendingTeams s p).findSome? (fun t =>
    if (unitPlaces s p t).isSome then none
    else
      let all := (unitOf s t).flatMap id
      let gang := (launch s (team s t).launch).record.gang
      if !all.all (fun x => isPending (team s x)) || !mayStart s p (all.filter (fun x => (team s x).state == .waiting)) then none
      else
        let cs := eligible s p all t
        let cand := (cs.filter (fun c => decide (seatsOn s c t < (unitOf s t).length))).filterMap (fun c => (victimsOn s p t c).map (fun v => (c, v)))
        let gangs := fun (k : Nat) => gangsIn gang ((cs.filter (fun c => coreClus c == k)).map (seatsBelow s p t))
        if ((cs.map coreClus).eraseDups.map gangs).sum < (unitOf s t).length then none
        else ((cand.filter (fun q => 0 < gangs (coreClus q.1))).mergeSort (fun a b => decide (coreRank s p a.1 ≤ coreRank s p b.1))).head?.map Prod.snd)

/-- TEAM_PREEMPT (R72, R76 to R78, R428, R475, R478, R479). A unit that is to stop and has stopped is saved, killed or torn down; where none
is, victims are chosen and are to stop. -/
def execTeamPreempt (s : State) : Out :=
  let p := s.ev.x
  .next (if (part s p).erased then s else match stoppedUnit s p with
    | some (ts, 1) => drew (ts.foldl (fun s t => saveTeam t s) s)
    | some (t :: ts, 2) => hostFree (shadowLines s (team s t).launch) (killGang (t :: ts)) s
    | some (t :: _, _) => hostFree (shadowLines s (team s t).launch) (tearLaunch (team s t).launch) s
    | some ([], _) => s
    | none => match nextVictims s p with
      | some vs => vs.foldl (fun s t => stopTeam t 1 s) s
      | none => s)

/-! ### TEAM_RESUME -/

/-- Has the walker's fence of system scope over a group's earlier accesses completed, as timed on a core (R134)? Writes that were declared
unreachable are reported later and do not hold it. [log 73, DEDUCED.] -/
def resumeFence (s : State) (g c : Nat) : Bool :=
  let s' := { s with net := { s.net with msgs := s.net.msgs.filter (fun m => !m.refused), far := s.net.far.filter (fun m => !m.refused),
                                         atoms := s.net.atoms.filter (fun m => !m.refused) } }
  let wcb := s.cores.any (fun q => q.2.wcb.any (fun e => e.gids.contains g))
  !wcb && fenceFirst s' g 7 s.ids.msg && decide (fenceBound s' g 7 < gtime s (coreDie c))
/-- A saved team is restored on a core, its groups as if they had never issued on their new slices (R39, R78, R134, R174).
[log 72, DESIGN CHOICE; log 73, DEDUCED; log 108, DESIGN CHOICE.] -/
def restoreTeam (t c : Nat) (s : State) : State :=
  let tm := team s t
  match seat s (roomOf s c) t with
  | none => s
  | some (slices, _) =>
    let gs := groupsInOrder s t
    let slot := freeSlotNo s c
    let v := tm.saved
    let s := modCore c (fun x => { x with
      tileE := v.tiles.foldl (fun e q => e.put q.1 q.2.1) x.tileE
      tileW := v.tiles.foldl (fun w q => q.2.2.foldl (fun w y => w.put y.1 y.2) (w.filter (fun y => y.1 / 8192 != q.1))) x.tileW
      slotE := v.slots.foldl (fun e q => e.put q.1 q.2.1) x.slotE
      slotB := v.slots.foldl (fun b q => q.2.2.foldl (fun b y => b.put y.1 y.2) (b.filter (fun y => y.1 / 16384 != q.1))) x.slotB
      mq := x.mq ++ v.mq
      chans := v.copies.foldl (fun ch q => ch.put q.1 { (ch.get {} q.1) with queue := (ch.get {} q.1).queue ++ [q.2] }) x.chans
      deposits := x.deposits ++ v.deposits
      formed := x.formed ++ v.formed }) s
    let tids := (v.mq.filterMap (fun m => m.stopTrap)) ++ (v.copies.filterMap (fun m => m.2.stopTrap))
    let s := { s with
      traps := s.traps.map (fun x => if tids.contains x.fr.tid then { x with core := some c } else x)
      net := { s.net with colls := s.net.colls.map (fun x => if x.who.gid.isSome && x.who.team == t then { x with core := c, die := coreDie c } else x) } }
    let s := (gs.zip slices).foldl (fun s q =>
      let s := setFloor q.1 7 s.time (modGrp q.1 (fun x => { x with core := c, slice := q.2, resident := true, lastIssue := 0 }) s)
      let w := (grp s q.1).withdrawn
      { modGrp q.1 (fun x => { x with withdrawn := [] }) s with issuing := s.issuing ++ w }) s
    modTeam t (fun x => { x with state := .resident, core := c, slot := slot, blocking := false, passedAt := none, placedAt := s.time, residentFrom := s.time, saved := {} }) s

/-- TEAM_RESUME (R70, R78, R134). The first pending team that can be placed, when it was saved and its groups' fences have completed. [log 73, DEDUCED.] -/
def execTeamResume (s : State) : Out :=
  let p := s.ev.x
  .next (match nextPlaces s p with
    | none => s
    | some (t, l) =>
      if (team s t).state ≠ .saved || !l.all (fun q => (liveGroups s q.1).all (fun g => resumeFence s g q.2)) then s
      else drew (l.foldl (fun s q => restoreTeam q.1 q.2 s) (passOver p t s)))

/-! ### Clusters that move -/

/-- Core-ns that a partition was delivered over the last 10 ms: since the tenth evaluation before this one, or since it came to be (R74). -/
def deliveredNs (x : Partition) : Nat := x.met.ctr.get 0 0 - x.delivered.getD 9 0
/-- How far a partition stands from its target, in core-ns over 10 ms, which is how targets compare too; its target is in sixteenths of a core-second per second (R74, R404). [log 102, DESIGN
CHOICE.] -/
def shortBy (x : Partition) : Int := (x.service * 625000 : Nat) - (deliveredNs x : Int)
/-- Clusters that a partition holds on dies of a class, not counting one that leaves it. -/
def heldOf (s : State) (p : Nat) (w : Bool) : List Nat :=
  (clustersHeld s p).filter (fun c => Config.isWDie (clusDie c) == w && (clus s c).draining.isNone)
/-- May a cluster leave its partition (R74, R396)? -/
def mayLeave (s : State) (c : Nat) : Bool :=
  match (clus s c).holder with
  | none => false
  | some q =>
    let w := Config.isWDie (clusDie c)
    (clus s c).state == 0 && (clus s c).draining.isNone && decide ((if w then (part s q).floorW else (part s q).floorM) < (heldOf s q w).length)
/-- The clusters that no partition holds and that read live (R74). [log 76, DEDUCED.] -/
def freeClusters (s : State) : List Nat :=
  ((List.range Config.dies).flatMap dieClusters).filter (fun c => (clus s c).holder.isNone && entryUsable s (clusEntry c) && entryUsable s (clusDie c))
/-- The atomic regions of a draining cluster go at once to the partition's first remaining cluster (R144). -/
def migrateAway (p c : Nat) (s : State) : State :=
  let rest := (clustersHeld s p).filter (fun x => x != c && (clus s x).draining.isNone)
  let first := rest.foldl (fun (b : Option Nat) x => match b with
    | none => some x
    | some y => if vdieOf s p (clusDie x) * 16 + x % 16 < vdieOf s p (clusDie y) * 16 + y % 16 then some x else some y) none
  match first with
  | none => s
  | some y => (s.tokens.filter (fun t => t.part == p && t.owner == clusHolder s p c)).foldl (fun s t => migrate t y s) s
/-! ### Limits of a cluster -/

/-- The thermal factor on B, in quarters (R390). -/
def thermFactor (t : Nat) : Nat := if t = 3 then 1 else if t = 2 then 2 else 4
/-- The slice ratio limit (R390). -/
def ratioCap (t : Nat) (headroom : Bool) : Nat :=
  match t with
  | 0 => if headroom then 10 else 8
  | 1 => 8
  | 2 => 6
  | _ => 4
/-- The matrix clock's code in CLPWR (R389, R392). -/
def clockCode (t : Nat) (headroom : Bool) : Nat := if t = 3 then 2 else if t = 0 && headroom then 1 else 0
/-- A cluster takes its limits; a core whose matrix clock changes has its steep controller's offset set to 0 (R187, R389, R390). -/
def setLimits (c : Nat) (headroom : Bool) (s : State) : State :=
  let t := (die s (clusDie c)).therm
  let head := headroom && t = 0
  let clk := clockCode t head
  let s' := modClus c (fun x => { x with headroom := head, ratioLimit := ratioCap t head, matClock := clk, budget := x.epochBudget * thermFactor t / 4 }) s
  (clusCores c).foldl (fun r k => if matrixClock s k = matrixClock s' k then r else clearOffset k r) s'

/-- A cluster's cores as the module leaves them when it clears the cluster (R75, R187, R270). -/
def clearCluster (c : Nat) (s : State) : State :=
  (clusCores c).foldl (fun s k => modCore k (fun x => { x with
    l1 := [], tlb := [], bank := 0, images := [], slotE := [], tileE := [], slotB := [], tileW := [], slices := [], poison := [], entries := [], steep := { x.steep with offset := 0 } }) s) s
/-- A cluster, cleared, joins a partition: its cores' steep controllers start at offset 0, with a window of no products, under the partition's
STEEPCFG (R75, R187, R188, R389). [log 112, DESIGN CHOICE.] -/
def joinCluster (p c : Nat) (s : State) : State :=
  let s := modClus c (fun _ => { holder := some p }) (clearCluster c s)
  setLimits c false ((clusCores c).foldl (fun s k => modCore k (fun x => { x with steep := { cfg := (part s p).steep, start := s.time } }) s) s)
/-- One partition below its target takes a cluster (R74). `lost` are partitions that have lost one in this evaluation. Distances
from targets are compared in core-ns, not in shares of the target. [log 76, DEDUCED; log 102, DESIGN CHOICE.] -/
def serve (p : Nat) (lost : List Nat) (s : State) : List Nat × State :=
  match pendingTeams s p with
  | [] => (lost, s)
  | t :: _ =>
    let aff := (launch s (team s t).launch).aff
    let good := fun (c : Nat) => affOk aff (clusDie c) && (List.range 8).any (fun i => vdt s p i == some (clusDie c))
    if shortBy (part s p) ≤ 0 then (lost, s)
    else match (freeClusters s).find? good with
      | some c => (lost, joinCluster p c s)
      | none =>
        let cand := (keysOf s.clusters (fun c x => good c && x.holder.any (fun q => q != p && !lost.contains q && decide (shortBy (part s q) < 0)))).filter (mayLeave s)
        let best := cand.foldl (fun (b : Option Nat) c => match b with
          | none => some c
          | some y => if shortBy (part s (((clus s c).holder).getD 0)) < shortBy (part s (((clus s y).holder).getD 0)) then some c else some y) none
        match best with
        | none => (lost, s)
        | some c =>
          let q := ((clus s c).holder).getD 0
          (lost ++ [q], migrateAway q c (modClus c (fun x => { x with draining := some p }) s))

/-- SERVICE_EVALUATION (R74). Once in each millisecond of global time; partitions are served in ascending number. [log 76, DEDUCED.] -/
def execServiceEvaluation (s : State) : Out :=
  .next (if s.time / 1000000 ≤ s.power.svc then s
    else
      let s := { s with power := { s.power with svc := s.time / 1000000 } }
      let s := (keysOf s.teams (fun _ t => t.state == .resident)).foldl (fun s t => accountTeam t s) s
      let ps := keysOf s.parts (fun _ x => x.state == .ready)
      let (_, s) := ps.foldl (fun (r : List Nat × State) p => serve p r.1 r.2) ([], s)
      ps.foldl (fun s p => modPart p (fun x => { x with delivered := (x.met.ctr.get 0 0 :: x.delivered).take 10 }) s) s)

/-- Does a core of a cluster still hold something of its partition (R75, R394)? -/
def clusterBusy (s : State) (c : Nat) : Bool :=
  (clusCores c).any (fun k => !(residentOn s k).isEmpty || !(core s k).wcb.isEmpty || !(core s k).mq.isEmpty || (core s k).chans.any (fun q => !q.2.queue.isEmpty)
    || s.net.msgs.any (fun m => m.core == k && !m.refused) || s.net.colls.any (fun x => x.core == k && x.started)
    || s.net.atoms.any (fun a => a.core == k && !a.refused))

end Sys2Proof.Machine
end

