-- ==== Sys2Proof/Machine/Power.lean ====
section
/-!
DEFINITION. Power: current reservations and the capacitor bank (R381 to R384), the power manager's epochs (R385, R386), clocks and thermal
states (R388 to R391), bank losses (R486).
-/
namespace Sys2Proof.Machine

/-! ### The arbiter -/

/-- The order of requests: priority, gtime, core, unit (R382). -/
def resvBefore (a b : Resv) : Bool :=
  let k := fun (r : Resv) => ((r.prio * 2 ^ 70 + r.at_) * 2 ^ 10 + r.core) * 16 + r.unit_
  decide (k a < k b)
/-- Current that a cluster has granted (R382). -/
def grantedCu (x : Cluster) : Nat := (x.grants.map (fun r => r.amount)).sum
/-- Requests from the head of the order are granted while they fit the budget and the bank (R382, R384). -/
def grantSome (c : Nat) : List Resv → State → State
  | [], s => s
  | r :: rest, s =>
    let x := clus s c
    let d := clusDie c
    if x.budget < grantedCu x + r.amount || (die s d).cap < 256 + r.amount then s
    else
      let s := modClus c (fun x => { x with
        requests := x.requests.filter (fun q => q != r)
        grants := x.grants ++ [r]
        maxHeld := max x.maxHeld (grantedCu x + r.amount) }) s
      let s := modDie d (fun x => { x with cap := x.cap - r.amount, restores := x.restores ++ [(s.time + 20, r.amount)] }) s
      let s := if r.unit_ < 4 then s
        else modCore r.core (fun y =>
          let sl := y.slices.get {} (r.unit_ - 4)
          { y with slices := y.slices.put (r.unit_ - 4) { sl with resv := sl.resv + r.amount, idle := 0 } }) s
      grantSome c rest s
/-- A request takes its place in the arbiter's order (R382). -/
def insertResv (r : Resv) : List Resv → List Resv
  | [] => [r]
  | q :: rest => if resvBefore q r then q :: insertResv r rest else r :: q :: rest
/-- A cluster's requests in the arbiter's order (R382). -/
def inOrder (s : State) (c : Nat) : List Resv := (clus s c).requests.foldr insertResv []
/-- Does the request at the head of a cluster's order fit the budget and the bank (R382, R384)? -/
def canGrant (s : State) (c : Nat) : Bool :=
  (inOrder s c).head?.any (fun r => decide (grantedCu (clus s c) + r.amount ≤ (clus s c).budget) && decide (256 + r.amount ≤ (die s (clusDie c)).cap))
/-- Does a cluster wait on its budget: its head request does not fit it (R382, R385)? -/
def waitsOnBudget (s : State) (c : Nat) : Bool :=
  (inOrder s c).head?.any (fun r => decide ((clus s c).budget < grantedCu (clus s c) + r.amount))
/-- ARBITER_GRANT (R381, R382, R384). The clusters of a die grant in ascending order. -/
def execArbiterGrant (s : State) : Out :=
  let c := s.ev.x
  .next (if (dieClusters (clusDie c)).any (fun k => decide (k < c) && canGrant s k) then s else grantSome c (inOrder s c) s)

/-- CAPACITOR_RESTORE (R384). Amounts granted 20 ns ago come back. -/
def execCapacitorRestore (s : State) : Out :=
  .next (modDie s.ev.x (fun x =>
    let due := x.restores.filter (fun r => decide (r.1 ≤ s.time))
    { x with cap := min 1024 (x.cap + (due.map Prod.snd).sum), restores := x.restores.filter (fun r => !decide (r.1 ≤ s.time)) }) s)
/-- CAPACITOR_BANK_LOW (R486). The bank of a die cannot hold 256 cu: issue on the die waits. -/
def execCapacitorBankLow (s : State) : Out := .next (modDie s.ev.x (fun x => { x with bankLow := true }) s)
/-- CAPACITOR_BANK_RECOVERY (R486). -/
def execCapacitorBankRecovery (s : State) : Out := .next (modDie s.ev.x (fun x => { x with bankLow := false }) s)

/-! ### Epochs -/

/-- A partition's power in the last epoch, in W (R385). -/
def epochPower (x : Partition) : Rat := ((x.energyNj - x.epochNj : Nat) : Rat) / 1000000
/-- A partition's demand (R385). -/
def demand (s : State) (p : Nat) : Rat :=
  let cl := clustersHeld s p
  let m := epochPower (part s p)
  min (if cl.any (fun c => (clus s c).waited) then m * (5 / 4) else m * (11 / 10)) ((1023 : Rat) / 10 * cl.length)
/-- Clusters that the ready partitions of a tier hold. -/
def tierClusters (s : State) (t : Nat) : Nat := ((keysOf s.parts (fun _ x => x.state == .ready && x.tier == t)).map (fun q => (clustersHeld s q).length)).sum
/-- What a partition's floor gives it (R385). [log 77, DEDUCED.] -/
def floorAlloc (s : State) (p : Nat) : Rat :=
  let t := (part s p).tier
  if tierClusters s t = 0 then 0
  else min (demand s p) ((s.power.floors.get 0 t * (clustersHeld s p).length : Nat) / (tierClusters s t : Rat))
/-- A tier takes its share of the surplus (R385): the new allotments and what remains. -/
def giveTier (s : State) (t : Nat) (r : List (Nat × Rat) × Rat) : List (Nat × Rat) × Rat :=
  let mine := fun (p : Nat) => (part s p).tier == t
  let need := (((r.1.filter (fun q => mine q.1)).map (fun q => demand s q.1 - q.2))).sum
  let give := min r.2 need
  (r.1.map (fun q => if mine q.1 && need ≠ 0 then (q.1, q.2 + give * (demand s q.1 - q.2) / need) else q), r.2 - give)
/-- The allotments of an epoch, in W (R385). [log 77, DEDUCED.] -/
def allotments (s : State) : List (Nat × Rat) :=
  let ps := keysOf s.parts (fun _ x => x.state == .ready)
  let base := ps.map (fun p => (p, floorAlloc s p))
  let un : Rat := ((s.host.unattrNj - s.power.unattrEpoch : Nat) : Rat) / 1000000
  let avail : Rat := (s.power.cap : Rat) - un - (base.map Prod.snd).sum
  ((List.range 4).foldl (fun r t => giveTier s t r) (base, avail)).1
/-- A natural number of tenths of a watt. [log 77, DEDUCED.] -/
def tenths (x : Rat) : Nat := (x * 10).floor.toNat
/-- A cluster's budget and headroom grant for an epoch (R386). -/
def epochCluster (c b : Nat) (s : State) : State :=
  let x := clus s c
  let s := modClus c (fun y => { y with epochBudget := b, waited := false, maxHeld := grantedCu y }) s
  setLimits c (decide (12 * x.maxHeld ≤ 10 * b)) s
/-- POWER_EPOCH (R385, R386). Once in each millisecond of global time. -/
def execPowerEpoch (s : State) : Out :=
  .next (if s.time / 1000000 ≤ s.power.epoch then s
    else
      let al := allotments s
      let s := al.foldl (fun s q =>
        let cl := clustersHeld s q.1
        let b := min 1023 (tenths (q.2 / (cl.length : Rat)))
        let s := cl.foldl (fun s c => epochCluster c b s) s
        modPart q.1 (fun x => { x with alloc := tenths q.2, measured := tenths (epochPower x), epochNj := x.energyNj }) s) s
      { s with power := { s.power with epoch := s.time / 1000000, unattrEpoch := s.host.unattrNj } })

/-! ### Heat -/

/-- The entry threshold of a thermal state, in tenths of a degree (R390). -/
def thermEntry (s : State) (t : Nat) : Nat :=
  match t with
  | 0 => 0
  | 1 => 10 * s.power.t1
  | 2 => 10 * s.power.t2
  | _ => 10 * s.power.t3 - 80
/-- The state that a temperature calls for (R391). -/
def thermNext (s : State) (cur temp : Nat) : Nat :=
  let up := if thermEntry s 3 ≤ temp then 3 else if thermEntry s 2 ≤ temp then 2 else if thermEntry s 1 ≤ temp then 1 else 0
  if cur < up then up
  else if 0 < cur && temp + 30 < thermEntry s cur then cur - 1
  else cur
/-- THERMAL_SAMPLE (R390, R391, R488). Each 10 µs a die's highest sensor reading, which is free, gives its state; at T3 the die fails, and
below T1 a die that failed so starts its reset. [log 78, DESIGN CHOICE.] -/
def execThermalSample (s : State) : Out :=
  let d := s.ev.x
  .next (if s.time / 10000 ≤ (die s d).sampled then s
    else
      let temp := draw s (0x7E00 + d) % 2560
      let x := die s d
      let nx := thermNext s x.therm temp
      let change := nx ≠ x.therm && x.thermAt + 1000000 ≤ s.time
      let s := modDie d (fun y => { y with
        temp := temp, sampled := s.time / 10000, therm := if change then nx else y.therm, thermAt := if change then s.time else y.thermAt }) s
      let s := if change then (dieClusters d).foldl (fun s c => setLimits c (clus s c).headroom s) s else s
      let s := if 10 * s.power.t3 ≤ temp && !x.failed then { s with agenda := s.agenda ++ [⟨0, .dieFatalError, { x := d, flag := true }⟩] } else s
      drew (if x.thermalFail && temp < 10 * s.power.t1 then { s with agenda := s.agenda ++ [⟨0, .diereset, { x := d, flag := true }⟩] } else s))

end Sys2Proof.Machine
end

