-- ==== Sys2Proof/Machine/Cluster.lean ====
section
/-!
DEFINITION. Putting a cluster to sleep (R392 to R396): the stores to its block and the events of its states; the clearing of a cluster that
moves (R75).
-/
namespace Sys2Proof.Machine

/-- A cluster enters a state; on entry to state 0 the request reads 0 again (R392). -/
def toState (c n : Nat) (s : State) : State :=
  modClus c (fun x => { x with state := n, since := s.time, quietAt := none, req := if n = 0 then false else x.req, wakeHeld := false }) s
/-- Halted groups of a cluster go on at the next word (R346). [log 80, DEDUCED.] -/
def wakeHalted (c : Nat) (s : State) : State :=
  (keysOf s.groups (fun _ g => g.resident && coreClus g.core == c)).foldl (fun s g => match (grp s g).stall with
    | some ⟨.halt, _, _⟩ => endStall g s
    | _ => s) s

/-- CLQREQ (R393). A draining cluster ignores a request. -/
def execClqreq (s : State) : Out :=
  let c := s.ev.x
  let x := clus s c
  .next (seeBlock c 0x00 <| if bits s.ev.word 0 0 = 1 then
      (if x.state = 0 && x.draining.isNone then modClus c (fun y => { y with req := true }) (toState c 1 s) else s)
    else if x.state = 1 || x.state = 2 then toState c 0 s
    else s)
/-- CLSAVE (R393). -/
def execClsave (s : State) : Out :=
  .next (seeBlock s.ev.x 0x10 <| if bits s.ev.word 0 0 = 1 && (clus s s.ev.x).state = 2 then toState s.ev.x 3 s else s)
/-- CLGATE (R393). -/
def execClgate (s : State) : Out :=
  .next (seeBlock s.ev.x 0x20 <| if bits s.ev.word 0 0 = 1 && (clus s s.ev.x).state = 4 then modClus s.ev.x (fun x => { x with railOff := false }) (toState s.ev.x 5 s) else s)
/-- CLWAKE (R346, R393). Halted groups are released; a wake during a save is held until its end; a wake after a save discards the image. [log 80, DEDUCED.] -/
def execClwake (s : State) : Out :=
  let c := s.ev.x
  .next (seeBlock c 0x28 <| if bits s.ev.word 0 0 = 0 then s
    else match (clus s c).state with
      | 0 => wakeHalted c s
      | 1 => wakeHalted c (toState c 0 s)
      | 2 => toState c 0 s
      | 3 => modClus c (fun x => { x with wakeHeld := true }) s
      | 4 => modClus c (fun x => { x with retained := [] }) (toState c 0 s)
      | 5 => toState c 6 s
      | _ => s)

/-- Do R394's conditions hold for a cluster, its service group's atomic regions having migrated? -/
def quiet (s : State) (p c : Nat) : Bool := !(clusterBusy s c || s.tokens.any (fun t => t.part == p && t.owner == clusHolder s p c))
/-- A cluster that quiesces, with R394's conditions. -/
def quietSince (s : State) (c : Nat) : Option Nat :=
  match (clus s c).state, (clus s c).holder with
  | 1, some p => if quiet (migrateAway p c s) p c then some ((clus s c).quietAt.getD s.time) else none
  | _, _ => none
/-- CLUSTER_QUIESCED (R394). -/
def execClusterQuiesced (s : State) : Out :=
  let c := s.ev.x
  .next (match (clus s c).state, (clus s c).holder with
    | 1, some p =>
      let s := migrateAway p c s
      if !quiet s p c then s
      else toState c 2 ((clusCores c).foldl (fun s k => modCore k (fun x => { x with l1 := [], tlb := [], entries := [] }) s) s)
    | _, _ => s)
/-- CLUSTER_SAVE_END (R393, R395). The image of each core is kept in the base die. -/
def execClusterSaveEnd (s : State) : Out :=
  let c := s.ev.x
  .next (if (clus s c).state ≠ 3 then s
    else if (clus s c).wakeHeld then toState c 0 s
    else
      let img := fun (k : Nat) => (⟨k, (core s k).bank, (core s k).images, (core s k).steep⟩ : Image)
      modClus c (fun x => { x with retained := (clusCores c).map img }) (toState c 4 s))
/-- CLUSTER_RAIL_OFF (R395). Nothing on the cores survives but the image. -/
def execClusterRailOff (s : State) : Out :=
  let c := s.ev.x
  .next (if (clus s c).state ≠ 5 || (clus s c).railOff then s else modClus c (fun x => { x with railOff := true }) (clearCluster c s))
/-- CLUSTER_RESTORE_END (R393, R395). The images are restored; every register file, scratchpad, slot and tile reads 0. -/
def execClusterRestoreEnd (s : State) : Out :=
  let c := s.ev.x
  .next (if (clus s c).state ≠ 6 then s
    else
      let s := clearCluster c s
      let s := (clus s c).retained.foldl (fun s (i : Image) => modCore i.core (fun x => { x with bank := i.bank, images := i.images, steep := i.steep }) s) s
      modClus c (fun x => { x with retained := [], railOff := false }) (toState c 0 s))

/-- CLUSTER_CLEAR (R75). -/
def execClusterClear (s : State) : Out :=
  let c := s.ev.x
  .next (match (clus s c).draining with
    | none => s
    | some q =>
      let s := migrateAway (((clus s c).holder).getD 0) c s
      if clusterBusy s c then s
      else joinCluster q c s)

end Sys2Proof.Machine
end

