-- ==== Sys2Proof/Machine/Observe.lean ====
section
/-!
DEFINITION. What the module records by itself: counter ticks (R369), energy (R373), metering and usage records (R376 to R378), and the
copies of the mismatch histograms (R472, R473).
-/
namespace Sys2Proof.Machine

/-! ### Counter ticks -/

/-- The length of a tick in ns (R369, R371). -/
def tickLen (x : Partition) : Nat := 2 ^ (bits x.obs.tscfg 20 16 - 1)
/-- The 576 bytes of a snapshot (R369). [log 82, DEDUCED.] -/
def snapshot (s : State) (p b tick : Nat) : List Byte :=
  let x := part s p
  let d := (vdt s p (b % 8)).getD 0
  leBytes 8 tick ++ leBytes 8 (gtime s d) ++ [.ofNat 8 b] ++ leBytes 7 0 ++ leBytes 8 x.obs.tsRing.lost ++ leBytes 32 0
    ++ (List.range 64).flatMap (fun i => leBytes 8 (x.ctr.get 0 (b * 64 + i)))
/-- The gtime of the next tick that a virtual die latches (R369). -/
def nextTick (x : Partition) (v : Nat) : Nat := (x.obs.ticks.get 0 v / tickLen x + 1) * tickLen x
/-- COUNTER_TICK (R369). The gtime of a virtual die has reached the next multiple of the tick's length: the die latches the two banks that the
partition has there, and writes those of them that the mask selects and the context holds. [log 16, DESIGN CHOICE; log 82, DEDUCED.] -/
def execCounterTick (s : State) : Out :=
  let p := s.ev.x
  let v := s.ev.y
  let x := part s p
  let n := nextTick x v
  .next (match vdt s p v with
    | none => s
    | some d =>
      if x.state ≠ .ready || gtime s d < n then s
      else
        let s := modPart p (fun y => { y with obs := { y.obs with ticks := y.obs.ticks.put v n } }) s
        let banks := [v, v + 8].filter (fun b => x.obs.tscfg.getLsbD b && x.banks.get 0 b == 1)
        if ringOn s p .ts then banks.foldl (fun s b =>
          let s := linkBytes p b s
          ringPut p .ts (snapshot s p b n) s) s else s)

/-! ### Energy -/

/-- An amount cut in proportion to weights, each share rounded down (R373). [log 77, DEDUCED.] -/
def shares (total : Nat) (w : Tab Nat) : Tab Nat :=
  let sum := (w.map Prod.snd).sum
  w.map (fun q => (q.1, total * q.2 / sum))
/-- Energy that no partition is charged (R373). [log 81, DEDUCED.] -/
def unattribute (n : Nat) (s : State) : State := { s with host := { s.host with unattrNj := s.host.unattrNj + n } }
/-- A partition is charged energy (R373, R376). [log 81, DEDUCED.] -/
def chargePart (p n : Nat) (s : State) : State := meterAdd p 41 1000 n (modPart p (fun x => { x with energyNj := x.energyNj + n }) s)
/-- Launches are charged an amount in proportion to weights; what is left over is unattributed (R373). [log 81, DEDUCED.] -/
def chargeLaunches (total : Nat) (w : Tab Nat) (leak : Bool) (s : State) : State :=
  let l := shares total (w.filter (fun q => q.2 != 0))
  let s := l.foldl (fun s q => chargePart (launch s q.1).part q.2 (modLaunch q.1 (fun x =>
    if leak then { x with leakNj := x.leakNj + q.2 } else { x with dynNj := x.dynNj + q.2 }) s)) s
  unattribute (total - (l.map Prod.snd).sum) s
/-- The energy of one core: dynamic, matrix rail, leakage (R373). -/
def chargeCore (c dyn mat leak : Nat) (s : State) : State :=
  let s := (residentOn s c).foldl (fun s t => accountTeam t s) s
  let x := core s c
  let s := chargeLaunches mat x.chunkBy false (chargeLaunches dyn x.issueBy false s)
  let s := if (x.slotBy.map Prod.snd).sum ≠ 0 then chargeLaunches leak x.slotBy true s
    else match (clus s (coreClus c)).holder with
      | some p => chargePart p leak (modPart p (fun y => { y with idleNj := y.idleNj + leak }) s)
      | none => unattribute leak s
  modCore c (fun y => { y with issueBy := [], chunkBy := [], slotBy := [], heldBy := [] }) s
/-- A command node of a graph, or a launch, is charged energy for bytes that it moved (R373, R374). -/
def chargeMover (p lau n : Nat) (s : State) : State :=
  if lau < nodeLaunch 0 0 then modLaunch lau (fun x => { x with dynNj := x.dynNj + n }) s
  else modNode p ((lau - nodeLaunch 0 0) / 4096) (lau % 4096) (fun x => { x with dynNj := x.dynNj + n }) s
/-- The energy of a die's shared parts: to the partitions that moved bytes, and within one to its launches likewise; every remainder is
unattributed (R373). [log 81, DEDUCED.] -/
def chargeShared (d total : Nat) (s : State) : State :=
  let w := (die s d).bytesBy
  let ps := (w.map (fun q => q.1 / 2 ^ 40)).eraseDups
  let byPart : Tab Nat := ps.map (fun p => (p, ((w.filter (fun q => q.1 / 2 ^ 40 == p)).map Prod.snd).sum))
  let l := shares total byPart
  let s := l.foldl (fun s q =>
    let within := shares q.2 (w.filter (fun y => y.1 / 2 ^ 40 == q.1))
    let sum := (within.map Prod.snd).sum
    within.foldl (fun s y => if y.1 % 2 ^ 40 = 0 then s else chargeMover q.1 (y.1 % 2 ^ 40 - 1) y.2 s) (unattribute (q.2 - sum) (chargePart q.1 sum s))) s
  modDie d (fun x => { x with bytesBy := [] }) (unattribute (total - (l.map Prod.snd).sum) s)
/-- A value that a die has measured in a microsecond, in nJ, free where it is not listed. [log 78, DESIGN CHOICE.] -/
def measuredNj (s : State) (i : Nat) : Nat := s.ev.nums.getD i (draw s (0x7B00 + i))
/-- ENERGY_SAMPLE (R373). Once in each microsecond; the values 3i to 3i + 2 are those of core i, and value 192 is that of the shared parts.
[log 78, DESIGN CHOICE.] -/
def execEnergySample (s : State) : Out :=
  let d := s.ev.x
  let nj := measuredNj s
  .next (if s.time / 1000 ≤ (die s d).energyAt then s
    else
      let s := modDie d (fun x => { x with energyAt := s.time / 1000 }) s
      let s := (dieCores d).foldl (fun s c => let i := c % 64; chargeCore c (nj (3 * i)) (nj (3 * i + 1)) (nj (3 * i + 2)) s) s
      drew (chargeShared d (nj 192) s))

/-! ### Metering -/

/-- METERING_UPDATE (R376). Every millisecond the deltas of the counters are chained into D. [log 83, DEDUCED.] -/
def execMeteringUpdate (s : State) : Out :=
  let p := s.ev.x
  .next (if (part s p).state ≠ .ready || walkerTime s p < (part s p).met.lastBlockAt + 1000000 then s
    else
      let s := (keysOf s.teams (fun _ t => t.part == p && t.state == .resident)).foldl (fun s t => accountTeam t s) s
      let m := (part s p).met
      let block := leBytes 8 m.seq ++ leBytes 8 (walkerTime s p) ++ (List.range 42).flatMap (fun i => leBytes 8 (m.ctr.get 0 i - m.last.get 0 i))
      modPart p (fun x => { x with met := { m with
        seq := m.seq + 1, last := m.ctr, snap := m.ctr, digest := sha512 (m.digest ++ block), chained := m.chained + 1, lastBlockAt := m.lastBlockAt + 1000000 } }) s)

/-- The first 512 bytes of a usage record (R377). -/
def usageBody (s : State) (p : Nat) (final : Bool) (end_ : Nat) : List Byte :=
  let m := (part s p).met
  leBytes 4 1 ++ [.ofNat 8 p, .ofNat 8 (bit final + 2 * bit m.saturated)] ++ leBytes 2 0 ++ leBytes 8 m.recSeq ++ leBytes 8 m.intStart ++ leBytes 8 end_
    ++ leBytes 8 Config.moduleIdentity.toNat ++ leBytes 4 s.map.version ++ leBytes 4 m.chained
    ++ (List.range 42).flatMap (fun i => leBytes 8 (m.snap.get 0 i)) ++ (m.digest ++ leBytes 64 0).take 64 ++ (m.prevHash ++ leBytes 64 0).take 64
/-- A usage record is written to the record channel and to MRRING when that ring is on (R377, R378). -/
def usageRecord (p : Nat) (final : Bool) (end_ : Nat) (s : State) : State :=
  let body := usageBody s p final end_
  let r := body ++ rsaSign 1 body
  let s := if s.host.recSize = 0 then s
    else
      let (wr, lost, s) := hostRing s.host.recAddr.toNat s.host.recSize.toNat s.host.recWr s.host.recLost r s
      { s with host := { s.host with recWr := wr, recLost := lost } }
  let s := if ringOn s p .mr then ringPut p .mr r s else s
  modPart p (fun x => { x with met := { x.met with recSeq := x.met.recSeq + 1, prevHash := sha512 r, intStart := end_, chained := 0 } }) s
/-- USAGE_INTERVAL_END (R377). The update block at the interval's end is in the record. [log 83, DEDUCED.] -/
def execUsageIntervalEnd (s : State) : Out :=
  let p := s.ev.x
  let x := part s p
  let end_ := x.met.intStart + x.obs.interval * 1000000
  .next (if x.state ≠ .ready || walkerTime s p < end_ || x.met.lastBlockAt + 1000000 ≤ end_ then s else usageRecord p false end_ s)

/-! ### Histograms -/

/-- Sub-arrays and lanes of a core whose counts mark them weak (R473): sub-array u as u, lane l as 32 + l. -/
def weakUnits (h : Tab Nat) : List Nat :=
  let kind := fun (base n : Nat) => (List.range 4).flatMap (fun b =>
    let cs := (List.range n).map (fun i => h.get 0 (base + 4 * i + b))
    let med := (cs.mergeSort (fun a b => decide (a ≤ b))).getD (n / 2 - 1) 0
    (List.range n).filter (fun i => 64 ≤ cs.getD i 0 && 8 * med < cs.getD i 0))
  (kind 0 32 ++ (kind 128 256).map (fun l => 32 + l)).eraseDups
/-- One core's histograms are copied; new weak units raise its safe point, and its controller's next window end resets the offset (R472,
R473). -/
def copyHist (c : Nat) (s : State) : State :=
  let h := (core s c).hist
  let weak := (weakUnits h).map (fun u => c * 512 + u)
  let new := weak.any (fun k => !(s.nonvol.weak.any (fun q => q.1 == k)))
  let s := { s with nonvol := { s.nonvol with
    hist := h.foldl (fun t q => t.put (c * 1152 + q.1) q.2) s.nonvol.hist
    weak := weak.foldl (fun t k => t.put k 1) s.nonvol.weak } }
  if new then modCore c (fun x => { x with steep := { x.steep with resetReq := true } }) s else s
/-- Every core's histograms are copied (R472). -/
def copyHists (s : State) : State := (s.cores.map Prod.fst).foldl (fun s c => copyHist c s) s
/-- HISTOGRAM_COPY (R472). Once in each second. [log 83, DEDUCED.] -/
def execHistogramCopy (s : State) : Out :=
  .next (if s.time / 1000000000 ≤ s.nonvol.copied then s
    else { copyHists s with nonvol := { (copyHists s).nonvol with copied := s.time / 1000000000 } })

end Sys2Proof.Machine
end

