-- ==== Sys2Proof/Machine/Degrade.lean ====
section
/-!
DEFINITION. Containment and degradation: raises of the resource map (R418, R474), suspension (R475), rebinding (R476), failures of cores,
dies, links and memories (R474, R481), die resets (R483), time alarms (R458), soft errors (R485, R489), loss of power (R487).
-/
namespace Sys2Proof.Machine

/-! ### Raises -/

/-- Some entries change and the version rises by one, unless it has at this instant already; a context that had nothing to acknowledge has 10 ms; the map pages follow, each update after the one before it (R418, R474, R475). [log 23, DEDUCED.] -/
def raiseMap (l : List (Nat × MapEntry)) (s : State) : State :=
  let put := fun (m : ResMap) => { m with entries := l.foldl (fun t q => t.put q.1 q.2) m.entries }
  if l.all (fun q => (s.map.entries.get {} q.1).state == q.2.state && speedOf q.1 (s.map.entries.get {} q.1) == speedOf q.1 q.2) then s
  else if s.map.updates.getLast?.any (fun u => u.at_ == s.time) then { s with map := put s.map }
  else
  let v := s.map.version + 1
  let begins := (s.map.updates.map MapUpdate.ends).foldl max s.time + Config.mapDelay s.time v 508
  let u : MapUpdate := { version := v, at_ := s.time, begins := begins, ends := begins + Config.mapDelay s.time v 509, old := s.map.entries }
  let m : ResMap := { put s.map with version := v, updates := s.map.updates.filter (fun x => decide (s.time < x.ends)) ++ [u] }
  { s with
    map := m
    parts := s.parts.map (fun q => (q.1, if q.2.state == .ready && q.2.ackDue.isNone then { q.2 with ackDue := some (s.time + 10000000) } else q.2)) }
/-- An entry in a state, at the speed it has. -/
def entryIn (s : State) (n state : Nat) : Nat × MapEntry := (n, { s.map.entries.get {} n with state := state })
/-- Entries of a die's units: the die, its base die, clusters, cores, stacks, channels and ports (R474). -/
def dieUnits (d : Nat) : List Nat :=
  [d, 8 + d] ++ ([3, 4, 6, 7, 8]).flatMap (fun k => (List.range (perDie k d)).map (fun i => kindBase k + unitsBelow k d + i))
/-- Entries of the mesh links of a die. -/
def dieLinks (d : Nat) : List Nat := ((List.range 10).filter (fun i => (linkEnds i).1 == d || (linkEnds i).2 == d)).map (fun i => kindBase 5 + i)
/-- Fused-off units stay absent. -/
def present (l : List Nat) : List Nat := l.filter (fun n => !Config.fusedOff n)

/-- LINK_STATE_CHANGE (R474). Link x fails, or is live at its new speed z. -/
def execLinkStateChange (s : State) : Out :=
  let n := kindBase 5 + s.ev.x % 10
  let st := s.ev.y % 5
  .next (if Config.fusedOff n || (s.map.entries.get {} n).state = 0 || (st ≠ 2 && st ≠ 4) then s
    else raiseMap [(n, { state := st, speed := if s.ev.z = 0 then (s.map.entries.get {} n).speed else some s.ev.z })] s)
/-- MEMORY_UNIT_FAILURE (R474). A stack or channel fails. -/
def execMemoryUnitFailure (s : State) : Out :=
  let n := s.ev.x
  .next (if n < 466 || 490 ≤ n || Config.fusedOff n || entryState s n = 4 then s else raiseMap [entryIn s n 4] s)
/-- PORT_STATE_CHANGE (R474). A UALink or host port fails, or is live after it retrained. -/
def execPortStateChange (s : State) : Out :=
  let n := s.ev.x
  let st := s.ev.y % 5
  .next (if n < 490 || 507 ≤ n || Config.fusedOff n || (st ≠ 2 && st ≠ 4) then s
    else raiseMap [(n, { state := st, speed := if s.ev.z = 0 then (s.map.entries.get {} n).speed else some s.ev.z })] s)
/-- CACHE_CAPACITY_WITHDRAWN (R474). What no longer fits leaves the cache. -/
def execCacheCapacityWithdrawn (s : State) : Out :=
  let n := 8 + s.ev.x % 8
  .next (if entrySpeed s n < 64 then s
    else raiseMap [(n, { s.map.entries.get {} n with speed := some (entrySpeed s n - 64) })]
      (modDie (n - 8) (fun x => { x with msc := x.msc.take ((entrySpeed s n - 64) * 8192) }) s))

/-! ### Suspension -/

/-- MAP_ACK_DEADLINE (R475). A context that has not acknowledged in time is suspended: its teams are to stop and be saved. -/
def execMapAckDeadline (s : State) : Out :=
  let p := s.ev.x
  .next (match (part s p).ackDue with
    | none => s
    | some t =>
      if s.time < t || (part s p).suspended || (part s p).state ≠ .ready then s
      else
        let d := (vdt s p 0).getD 0
        let (e, s) := newEvent s p d 0xF1
        let fr : FRec := { tid := e, cls := 0xE, code := 1, flags := 1, level := 2, ver := s.map.version, name := partyName 0, time := gtime s d }
        let s := modPart p (fun x => { x with suspended := true, ackDue := none }) s
        let s := telemetry (some p) d 13 (deliver2 fr { s with traps := s.traps ++ [{ fr := fr, part := p, susp := true }] })
        (keysOf s.teams (fun _ x => x.part == p && x.state == .resident)).foldl (fun s t => stopTeam t 1 s) s)

/-! ### Cores -/

/-- What was on a core is lost: its teams' gangs are to be killed, its copy channels are lost holders, and the nodes whose commands it ran
are torn down (R455, R474, R478, R479). -/
def loseCore (c : Nat) (s : State) : State :=
  let ts := residentOn s c
  let s := { s with
    groups := s.groups.map (fun g => if ts.contains g.2.team then (g.1, { g.2 with resident := false }) else g)
    issuing := s.issuing.filter (fun a => !ts.contains (grp s a.gid).team) }
  let s := ts.foldl (fun s t => stopTeam t 2 s) s
  let nodes := (((core s c).chans.flatMap (fun q => q.2.queue.map (fun k => k.who))) ++ ((s.net.colls.filter (fun x => x.core == c && x.result == 0)).map (fun x => x.who))).filter
    (fun w => w.gid.isNone)
  let s := { s with net := { s.net with colls := s.net.colls.filter (fun x => !(x.core == c && x.who.gid.isNone && x.result == 0)) } }
  let s := match (clus s (coreClus c)).holder with
    | some p => (List.range 2).foldl (fun s ch => loseHolder p (chanHolder s p c ch) (coreDie c) s) s
    | none => s
  let s := (List.range 10).foldl (fun s u => releaseResv c u s) s
  let s := modCore c (fun x => { hist := x.hist, errTimes := x.errTimes }) s
  nodes.foldl (fun s w => tearNode w.part w.graph w.node s) s
/-- A core degrades, or fails (R474). -/
def failCore (c : Nat) (strainer : Bool) (s : State) : State :=
  let n := coreEntry c
  let st := entryState s n
  if st ≠ 2 && st ≠ 3 then s
  else if strainer && st = 2 then
    let s' := raiseMap [(n, { state := 3, speed := some 2000 })] s
    if matrixClock s c = matrixClock s' c then s' else clearOffset c s'
  else loseCore c (raiseMap [entryIn s n 4] s)
/-- CORE_FAILURE (R474, R486). The flag tells a strainer hard fault. -/
def execCoreFailure (s : State) : Out :=
  .next (let s' := if s.ev.flag then telemetry ((clus s (coreClus s.ev.x)).holder) (coreDie s.ev.x) 8 s else s
    failCore s.ev.x s.ev.flag s')

/-! ### Dies -/

/-- A holder identity after virtual dies f and n − 1 of a partition have changed their numbers (R104, R476). [log 85, DEDUCED.] -/
def swapHolder (f l h : Nat) : Nat :=
  let sw := fun (v : Nat) => if v = f then l else if v = l then f else v
  if holderKind h = 2 then h - h / 128 % 8 * 128 + sw (h / 128 % 8) * 128
  else if holderKind h = 3 then h - h / 32 % 8 * 32 + sw (h / 32 % 8) * 32
  else h
/-- Every holder of a partition's entries is renamed. [log 85, DEDUCED.] -/
def renameHolders (p : Nat) (f : Nat → Nat) (s : State) : State :=
  let op := fun (o : TokOp) => { o with holder := f o.holder, target := f o.target }
  { s with
    cores := s.cores.map (fun c => (c.1, { c.2 with entries := c.2.entries.filter (fun e => e.1 != p) }))
    tokens := s.tokens.map (fun t => if t.part == p then
      { t with owner := f t.owner, outer := f t.outer, inner := f t.inner, sharers := t.sharers.map f, waiting := t.waiting.map op,
               moving := t.moving.map (fun m => (op m.1, m.2)) } else t)
    losts := s.losts.map (fun l => if l.part == p then { l with holder := f l.holder } else l) }
/-- Byte i of a register. -/
def regByteOf (x : DWord) (i : Nat) : Nat := bits x (8 * i + 7) (8 * i)
/-- A register with byte i replaced. -/
def withByte (x : DWord) (i b : Nat) : DWord := .ofNat 64 (x.toNat - regByteOf x i * 2 ^ (8 * i) + b * 2 ^ (8 * i))
/-- A context loses a die and rebinds its table (R476). -/
def rebind (p d : Nat) (s : State) : State :=
  let n := ((List.range 8).filter (fun i => (vdt s p i).isSome)).length
  match (List.range 8).find? (fun i => vdt s p i == some d) with
  | none => s
  | some f =>
    let l := n - 1
    let c := (part s p).ctx
    let drop := fun (r : DWord) => if f = l then withByte r f 0 else withByte (withByte r f (regByteOf r l)) l 0
    let s := renameHolders p (swapHolder f l) s
    modPart p (fun x => { x with
      ctx := { c with vdt := drop c.vdt, vxt := drop c.vxt, quota := (c.quota.put f (c.quota.get 0 l)).drop l, dieMask := c.dieMask - (if c.dieMask.testBit d then 2 ^ d else 0) }
      staleVdies := x.staleVdies ++ [f] }) s
/-- Arrivals that wait in a package barrier are released with status 0x81, and their words say so (R481). -/
def releasePkg (p d : Nat) (s : State) : State :=
  let gs := keysOf s.groups (fun _ g => g.part == p && !g.exited)
  gs.foldl (fun s g => (grp s g).waits.foldl (fun s w => match w.kind with
    | .pkg k loc gen ended =>
      if 2 ^ 32 ≤ gen then s
      else
        let s := match loc with
          | .cell key => if lineHome (lineOf key) = d then s
            else if s.marks.hostLines.contains (lineOf key) then (List.range 4).foldl (fun s i => walkerSend p 0 (key + i) 0xFF s) s
            else (applyAt key (leBytes 4 0xFFFFFFFF) s).2
          | _ => s
        releaseWait g w 11 (ended.getD {}) (kPut g k (.ofNat 64 (gen * 2 ^ 32 + s.map.version % 2 ^ 24 * 2 ^ 8 + 0x81)) s)
    | _ => s) s) s
/-- Collective instances with a rank on a die, or with no live route left between two ranks' dies, end with status 0x81 on each surviving rank
(R481). -/
def endColls (d : Nat) (s : State) : State :=
  let hit := s.net.colls.filter (fun x => x.die == d || s.net.colls.any (fun y =>
    y.who.part == x.who.part && y.key == x.key && y.inst == x.inst && hops s y.die 8 0 [x.die] == 7))
  let inInst := fun (x : CollCmd) => hit.any (sameInst x)
  { s with net := { s.net with colls := s.net.colls.map (fun x => if x.die != d && inInst x then { x with result := 0x81 } else x) } }
/-- Grid nodes that no live core of their class can take fail with code 0x22 (R481). -/
def failNodes (p : Nat) (s : State) : State :=
  (part s p).graphs.foldl (fun s g =>
    if !g.2.live then s
    else (List.range g.2.nodes.length).foldl (fun s n =>
      let x := nodeOf s p g.1 n
      if x.kind ≠ 0 || clusterFor s p x.aff x.record.gang then s
      else match x.state with
        | .ready => runGraph p g.1 [.ended n false] (failNode p g.1 n 0x22 s)
        | .dispatched => (keysOf s.teams (fun _ t => t.launch == x.launch && t.part == p && t.state != .complete)).foldl (fun s t => stopTeam t 3 s) s
        | .running => (keysOf s.teams (fun _ t => t.launch == x.launch && t.part == p && t.state != .complete)).foldl (fun s t => stopTeam t 3 s) s
        | _ => s) s) s
/-- A die leaves service: its holders are lost, its contexts rebind, barriers and collectives end (R476, R481). [log 85, DEDUCED.] -/
def loseDie (d : Nat) (s : State) : State :=
  let ps := keysOf s.parts (fun p x => x.state == .ready && (List.range 8).any (fun i => vdt s p i == some d))
  let s := ps.foldl (fun s p => releasePkg p d s) (endColls d s)
  let s := (dieClusters d).foldl (fun s c => match (clus s c).holder with
    | some p => loseHolder p (clusHolder s p c) d s
    | none => s) s
  let s := (dieCores d).foldl (fun s c => loseCore c s) s
  let s := (dieClusters d).foldl (fun s c => modClus c (fun _ => {}) s) s
  let gone := s.tokens.filter (fun t => t.home == d)
  let s := gone.foldl (fun s t => dropEntry t.part t.base s) { s with tokens := s.tokens.filter (fun t => t.home != d) }
  let s := ps.foldl (fun s p => failNodes p (rebind p d s)) s
  modDie d (fun x => { x with l2 := [], msc := [], records := [], binds := [] }) s
/-- DIE_FATAL_ERROR (R474, R481, R488). The flag tells the cause thermal. -/
def execDieFatalError (s : State) : Out :=
  let d := s.ev.x
  .next (if Config.dies ≤ d || (die s d).failed || entryState s d = 0 then s
    else
      let s := raiseMap ((present (dieUnits d ++ dieLinks d)).map (fun n => entryIn s n 4)) s
      modDie d (fun x => { x with failed := true, thermalFail := s.ev.flag }) (loseDie d s))

/-- Requests that may cross another die: those to another module or to the host, and write-throughs to another die's home (R448, R483). -/
def underWay (s : State) : List Nat :=
  (s.net.far.filter (fun f => !f.refused)).map (fun f => f.id)
    ++ (s.net.msgs.filter (fun m => !m.refused && (leaves m.line || lineHome m.line != coreDie m.core))).map (fun m => m.id)
    ++ (s.net.atoms.filter (fun a => !a.refused && farAtom a)).map (fun a => a.id)
/-- A die's reset starts (R483, R488): its units test, its links fail, and the traffic that it holds drains for 50 µs: which requests those are
is free, and their bounds stop. [log 86, DEDUCED.] -/
def startReset (d : Nat) (s : State) : State :=
  let wasFailed := (die s d).failed
  let l := (present (dieUnits d)).map (fun n => entryIn s n 1) ++ (present (dieLinks d)).map (fun n => entryIn s n 4)
  let s := raiseMap l s
  let s := if wasFailed then s else loseDie d s
  let s := { s with net := { s.net with crossed := s.net.crossed ++ ((underWay s).filter (fun id => decide (Config.freeNat (2 ^ 230 + s.free * 2 ^ 80 + id) % 2 = 1))).map (fun id => (d, id)) } }
  drew (modDie d (fun x => { x with resetAt := some (s.time + 50000), thermalFail := false }) s)
/-- DIE_RESET_DRAIN_END (R472, R483). What the die still holds is refused and resent by its sources with new bounds; then the die resets. [log 86, DEDUCED.] -/
def execDieResetDrainEnd (s : State) : Out :=
  let d := s.ev.x
  .next (match (die s d).resetAt with
    | none => s
    | some t =>
      if s.time < t then s
      else
        let held := fun (id : Nat) => s.net.crossed.contains (d, id)
        let parts := (s.net.far.filter (fun f => held f.id)).map (fun f => f.part) ++ (s.net.msgs.filter (fun m => held m.id)).map (fun m => m.part)
          ++ (s.net.atoms.filter (fun a => held a.id)).map (fun a => a.part)
        let s := parts.foldl (fun s p => telemetry (some p) d 14 s) s
        let s := { s with net := { s.net with
          far := s.net.far.map (fun f => if held f.id then { f with sent := s.time } else f)
          msgs := s.net.msgs.map (fun m => if held m.id then { m with first := s.time, sent := s.time } else m)
          atoms := s.net.atoms.map (fun a => if held a.id then { a with sent := s.time } else a)
          crossed := s.net.crossed.filter (fun q => q.1 != d) } }
        let s := (dieCores d).foldl (fun s c =>
          let s := copyHist c s
          modCore c (fun x => { hist := x.hist }) s) s
        modDie d (fun x => { off := x.off, telemetry := x.telemetry, split := x.split, seqs := x.seqs, sampled := x.sampled, temp := x.temp,
                               energyAt := x.energyAt, keptAt := x.keptAt, nextAt := x.nextAt, thermAt := s.time }) s)

/-- CLOCK_KEEPER_CHECK (R122, R458, R474). Once in each microsecond; nums holds the die's deviation, free where it is not listed, and then 1 or 2
where its counter is to gain or lose 1 ns as time goes on, no two such changes within a microsecond: at most 1 part in 1000, inside the skew bound, and never a step back.
[log 78, DESIGN CHOICE.] -/
def execClockKeeperCheck (s : State) : Out :=
  let d := s.ev.x
  let v := s.ev.nums.getD 0 (draw s (0x7D00 + d))
  let z := s.ev.nums.getD 1 (draw s (0x7D80 + d))
  let x := die s d
  let holders := keysOf s.parts (fun p x => x.state == .ready && (List.range 8).any (fun i => vdt s p i == some d))
  .next (if s.time / 1000 ≤ x.keptAt then s
    else
      let quiet := if 5 < v then s.time else x.quietFrom
      let s := modDie d (fun y => { y with keptAt := s.time / 1000, deviation := v, quietFrom := quiet,
                                             trim := if y.trim.isSome || s.time < y.trimAt + 1000 then y.trim
          else if z = 1 && y.off < Config.skew then some true
          else if z = 2 && 0 < y.off then some false else none }) s
      let s := if 10 < v && !x.alarm then
          let s := if holders.isEmpty then telemetry none d 7 s else holders.foldl (fun s p => telemetry (some p) d 7 s) s
          (dieCores d).foldl (fun s c => modCore c (fun y => { y with l1 := [] }) s) (modDie d (fun y => { y with alarm := true, l2 := [] }) s)
        else s
      drew (if 20 ≤ v && entryState s d = 2 then modDie d (fun y => { y with timeFailed := true }) (raiseMap [entryIn s d 3] s)
      else if (die s d).alarm && v ≤ 5 && quiet + 1000000 ≤ s.time then
        let s := modDie d (fun y => { y with alarm := false, timeFailed := false }) s
        if x.timeFailed && entryState s d = 3 then raiseMap [entryIn s d 2] s else s
      else s))

/-! ### Soft errors and power -/

/-- SOFT_ERROR_POISON (R474, R485). Code y strikes: 1 to 4 the line x; 5 the 128 bytes at offset z of team x's scratchpad; 6 register z of
group x, a vector register of lane nums(0) below 256, else uniform register z − 256 or predicate z − 320; 7 tile-table number z of core x;
8 the line x, whose code is fetched. A second error in registers or operand memory of a core within 1 s fails the core. [log 91, DEDUCED.] -/
def execSoftErrorPoison (s : State) : Out :=
  let x := s.ev.x
  let z := s.ev.z
  let mark := fun (c : Nat) (s : State) =>
    let old := (core s c).errTimes.filter (fun t => decide (s.time < t + 1000000000))
    let s := modCore c (fun y => { y with errTimes := old ++ [s.time] }) s
    if old.isEmpty then s else { s with agenda := s.agenda ++ [⟨0, .coreFailure, { x := c }⟩] }
  let line := fun (code : Nat) => { s with marks := { s.marks with poison := (x, code) :: s.marks.poison.filter (fun q => q.1 != x) } }
  .next (match s.ev.y with
    | 1 => if lineTier x = 0 then line 1 else s
    | 2 => if lineTier x = 1 then line 2 else s
    | 3 => if lineTier x = 2 then line 3 else s
    | 4 => if lineTier x < 2 then line 4 else s
    | 5 => if (team s x).state = .resident then modCore (team s x).core (fun y => { y with poison := y.poison ++ [(x * 2 ^ 19 + z, 5)] }) s else s
    | 6 =>
      if !(grp s x).resident then s
      else
        let r : Nat × Reg := if z < 256 then (s.ev.nums.getD 0 0 % 32, .v z) else if z < 320 then (32, .k (z - 256)) else (s.ev.nums.getD 0 0 % 32, .p (z % 8))
        mark (grp s x).core (modGrp x (fun y => { y with badRegs := r :: y.badRegs }) s)
    | 7 => if 40 ≤ z then s else mark x (modCore x (fun y => { y with poison := y.poison ++ [((if z < 32 then slotPlace z else tilePlace (z - 32)), 7)] }) s)
    | 8 => if lineTier x < 3 then line (1 + lineTier x) else s
    | _ => s)
/-- SOFT_ERROR_CORRECTED (R489). In HBM, the capacity tier, vault SRAM, a cache, or core storage: z 0 to 4. -/
def execSoftErrorCorrected (s : State) : Out :=
  .next (if 5 ≤ s.ev.z then s else telemetry (if s.ev.x = 0xFF then none else some s.ev.x) s.ev.y s.ev.z s)

/-- POWER_LOSS (R487). The histograms are copied and the usage records of the last update blocks written; after this nothing runs. -/
def execPowerLoss (s : State) : Out :=
  let s := copyHists s
  let s := (keysOf s.parts (fun _ x => x.state == .ready)).foldl (fun s p => usageRecord p false (part s p).met.lastBlockAt s) s
  .next { s with power := { s.power with lost := true } }

end Sys2Proof.Machine
end

