-- ==== Sys2Proof/Machine/Mailbox.lean ====
section
/-!
DEFINITION. The hypervisor's mailbox (R403 to R407, R409 to R411, R430, R483, R489, R490): each command reads the block latched at Go, ends
with a status and raises MSI-X vector 0 of PF0; one that ends with a status other than 0 changes nothing else.
-/
namespace Sys2Proof.Machine

/-! ### The command block -/

/-- A field of the latched block. -/
def cmdFld (b : List Byte) (off n : Nat) : Nat := leNat ((b.drop off).take n)
/-- Bytes 0x02 to 0xFF that no row names are 0 (R404). -/
def restZero (b : List Byte) (named : List (Nat × Nat)) : Bool :=
  (List.range 254).all (fun i => named.any (fun q => q.1 ≤ i + 2 && i + 2 < q.1 + q.2) || b.getD (i + 2) 0 == 0)
/-- A command ends (R403). -/
def endCmd (status : Nat) (s : State) : State :=
  { s with host := { s.host with busy := false, status := status, out := s.host.out ++ [.msix 0 0] } }
/-- The command of a code runs when it is the one under way: a status, or no answer yet (R403). -/
def mailbox (code : Nat) (run : List Byte → State → Option (Nat × State)) (s : State) : State :=
  let b := s.host.cmd
  if !s.host.busy || cmdFld b 0 1 ≠ code then s
  else match run b s with
    | none => s
    | some (0, s') => endCmd 0 s'
    | some (st, _) => endCmd st s
/-- A command that acts at once on a ready partition (R403, R404). -/
def onPart (named : List (Nat × Nat)) (run : List Byte → Nat → State → Nat × State) (b : List Byte) (s : State) : Option (Nat × State) :=
  let p := cmdFld b 1 1
  if 32 ≤ p || !restZero b named then some (1, s)
  else if (part s p).state ≠ .ready || (part s p).erased then some (3, s)
  else some (run b p s)
/-- A command that names no partition. -/
def noPart (named : List (Nat × Nat)) (run : List Byte → State → Nat × State) (b : List Byte) (s : State) : Option (Nat × State) :=
  if restZero b named then some (run b s) else some (1, s)

/-! ### Creation -/

/-- The physical dies that a descriptor grants, by virtual number; none when mask and binding disagree (R25, R405). -/
def boundDies (b : List Byte) : Option (List Nat) :=
  let mask := cmdFld b 4 1
  let n := ((List.range 8).filter (fun i => mask.testBit i)).length
  let l := (List.range n).map (fun i => cmdFld b (8 + i) 1)
  if mask = 0 || l.any (fun d => 8 ≤ d || !mask.testBit d) || l.eraseDups.length ≠ n || (List.range (8 - n)).any (fun i => cmdFld b (8 + n + i) 1 ≠ 0xFF) then none
  else some l
/-- Context registers whose reserved bits or values break R94 or R89. The four bits of PLS hold no 16: 10 to 15 are what a write can
name. [log 88, DEDUCED; log 104, DESIGN CHOICE.] -/
def ctxBad (txroot vwin pvwin pvcfg : Nat) : Bool :=
  2 ^ 56 ≤ txroot || txroot % 2 ^ 11 ≠ 0 || nbits txroot 55 55 = 1 || 2 ≤ nbits txroot 43 42 || 2 ^ 56 ≤ vwin || vwin % 2 ^ 32 ≠ 0
    || 2 ^ 56 ≤ pvwin || pvwin % 2 ^ 26 ≠ 0 || 2 ^ 20 ≤ pvcfg || nbits pvcfg 15 12 ≠ 0 || nbits pvcfg 19 16 < 10
/-- Does a descriptor break R405? [log 88, DEDUCED.] -/
def descBad (b : List Byte) (dies : List Nat) : Bool :=
  let n := dies.length
  2 ≤ cmdFld b 2 1 || !restZero b [(2, 1), (4, 1), (8, 11), (0x14, 6), (0x20, 0x68)] || 4 ≤ cmdFld b 0x12 1
    || cmdFld b 0x14 4 < 100 || 60000 < cmdFld b 0x14 4 || cmdFld b 0x68 8 = 0xFFFFFFFFFFFFFFFF || ctxBad (cmdFld b 0x68 8) (cmdFld b 0x70 8) (cmdFld b 0x78 8) (cmdFld b 0x80 8)
    || (List.range 8).any (fun v =>
      let hbm := cmdFld b (0x20 + 2 * v) 2
      let cap := cmdFld b (0x30 + 2 * v) 2
      let vx := cmdFld b (0x40 + v) 1
      let q := cmdFld b (0x48 + 2 * v) 2
      if v < n then 128 < vx || q < 16 || 16384 < q || (cap ≠ 0 && !Config.isWDie (dies.getD v 0)) else hbm ≠ 0 || cap ≠ 0 || vx ≠ 0)
/-- Free frames of a die's tier, ascending, at most `n`. [log 87, DESIGN CHOICE.] -/
def someFrames (s : State) (d tier n : Nat) : List Nat :=
  let used := (die s d).frames.filterMap (fun f => if f.1 = tier then some f.2.1 else none)
  ((List.range (used.length + n)).filter (fun f => !used.contains f && f < tierFrames d tier)).take n
/-- A vault base on a die for `n` units of 4 MiB, disjoint from every other partition's range (R87). [log 87, DESIGN CHOICE.] -/
def vaultSpace (s : State) (p d n : Nat) : Option Nat :=
  let unit_ := 4 * 2 ^ 20
  let taken := s.parts.filterMap (fun q => if q.1 != p && q.2.state == .ready then
      ((List.range 8).find? (fun v => vdt s q.1 v == some d)).map (fun v => (q.2.ctx.vaultBase.get 0 d / unit_, vaultExtent s q.1 v / unit_)) else none)
  let size := (8 - (die s d).split) * 16
  ((List.range (size + 1 - n)).find? (fun b => n ≤ size && taken.all (fun t => b + n ≤ t.1 || t.1 + t.2 ≤ b))).map (fun b => b * unit_)
/-- The frame of a die's HBM that holds the second-level tables of a partition (R93). [log 87, DESIGN CHOICE.] -/
def tableFrame (p d : Nat) : Nat := Config.hbmBytes d / 2 ^ 21 - 1 - p
/-- The die-local page of the second-level table under an index of a top level (R93). [log 87, DESIGN CHOICE.] -/
def tablePage (p d tier i : Nat) : Nat := tableFrame p d * 512 + tier * 256 + min i 255
/-- A second-level entry is written, and the top-level entry that names its table's address (R93). -/
def mapEntry (p d tier i j : Nat) (e : DWord) (s : State) : State :=
  let page := tablePage p d tier i
  { s with s2 := { top := s.s2.top.put (s2Key p d tier * 4096 + i) (.ofNat 64 (page * 4096 + 1)), sec := s.s2.sec.put (secKey d page j) e } }
/-- Stage two of a run of frames from offset 0 of a tier: valid, writable leaves (R93, R406). [log 87, DESIGN CHOICE.] -/
def mapFrames (p d tier : Nat) (fs : List Nat) (s : State) : State :=
  ((List.range fs.length).zip fs).foldl (fun s q => mapEntry p d tier (q.1 / 512) (q.1 % 512) (.ofNat 64 (q.2 * 2 ^ 21 + 7)) s) s
/-- The device entry of the register and power pages, on virtual die 0: a valid, writable leaf that names no frame (R93, R401). -/
def mapDevice (p d : Nat) (s : State) : State := mapEntry p d 0 4095 511 0xF s
/-- The bytes of granted frames and vault ranges are forgotten: what they held cannot be read (R409). They read as what nothing has written.
[log 4, DESIGN CHOICE.] -/
def forget (d tier : Nat) (fs : List Nat) (base size : Nat) (s : State) : State :=
  { s with mem := s.mem.filter (fun c =>
      let off := c.1 % 2 ^ 64
      !((c.1 / 2 ^ 72 == tier && c.1 / 2 ^ 64 % 256 == d && fs.contains (off / 2 ^ 21)) || (c.1 / 2 ^ 72 == 2 && c.1 / 2 ^ 64 % 256 == d && base ≤ off && off < base + size))) }
/-- Memory of one die is granted: frames of HBM and the capacity tier, a vault range; the die's key store takes the partition's two keys
(R406, R408). None when some are short. -/
def grantDie (p v d : Nat) (b : List Byte) (s : State) : Option State :=
  let nh := 32 * cmdFld b (0x20 + 2 * v) 2
  let nc := 128 * cmdFld b (0x30 + 2 * v) 2
  let vx := cmdFld b (0x40 + v) 1
  let fh := someFrames s d 0 nh
  let fc := someFrames s d 1 nc
  let quota := ((s.parts.filter (fun q => q.2.state == .ready)).map (fun q => ((List.range 8).map (fun i => if vdt s q.1 i == some d then q.2.ctx.quota.get 0 i else 0)).sum)).sum
  if fh.length < nh || fc.length < nc || Config.tokenEntries < quota + cmdFld b (0x48 + 2 * v) 2 then none
  else (vaultSpace s p d vx).map (fun base =>
    let s := modDie d (fun x => { x with
      keys := x.keys.filter (fun k => k.1 != p) ++ [(p, Config.partitionKey (2 * s.free) % 2 ^ 256, Config.partitionKey (2 * s.free + 1) % 2 ^ 256)], frames := x.frames ++ fh.map (fun f => (0, f, p)) ++ fc.map (fun f => (1, f, p)) }) s
    let s := forget d 1 fc 0 0 (forget d 0 fh base (vx * 4 * 2 ^ 20) s)
    let s := mapFrames p d 1 fc (mapFrames p d 0 fh s)
    modPart p (fun x => { x with ctx := { x.ctx with vaultBase := x.ctx.vaultBase.put d base, quota := x.ctx.quota.put v (cmdFld b (0x48 + 2 * v) 2) } }) s)
/-- Memory of every granted die, one after the other. -/
def grantAll (p : Nat) (b : List Byte) : List (Nat × Nat) → State → Option State
  | [], s => some s
  | (v, d) :: rest, s => (grantDie p v d b s).bind (grantAll p b rest)
/-- Floor clusters of a class from those that no partition holds, cleared (R75, R406). -/
def takeFloor (p n : Nat) (w : Bool) (dies : List Nat) (s : State) : Option State :=
  let l := ((freeClusters s).filter (fun c => Config.isWDie (clusDie c) == w && dies.contains (clusDie c))).take n
  if l.length < n then none
  else some (l.foldl (fun s c => joinCluster p c s) s)
/-- The new partition's registers, metering and context (R376, R405, R406). -/
def newPart (s : State) (p : Nat) (b : List Byte) (dies : List Nat) : Partition :=
  let now := gtime s (dies.getD 0 0)
  let vd := ((List.range dies.length).zip dies).foldl (fun a q => a + (128 + q.2) * 2 ^ (8 * q.1)) 0
  let q64 := fun (o : Nat) => (BitVec.ofNat 64 (cmdFld b o 8) : DWord)
  { state := .ready
    ctx := { txroot := q64 0x68, vwin := q64 0x70, pvwin := q64 0x78, pvcfg := q64 0x80, vdt := .ofNat 64 vd, vxt := q64 0x40,
             dieMask := cmdFld b 4 1, hostBase := q64 0x58, hostSize := q64 0x60, tdisp := cmdFld b 2 1 = 1, descriptor := b.take 256 }
    acked := s.map.version, service := cmdFld b 0x18 2, floorM := cmdFld b 0x10 1, floorW := cmdFld b 0x11 1, tier := cmdFld b 0x12 1
    obs := { interval := cmdFld b 0x14 4, ticks := lastTicks s (.ofNat 64 vd) (2 ^ 15) }
    met := { intStart := now, lastBlockAt := now,
             digest := sha512 (leBytes 8 Config.moduleIdentity.toNat ++ [.ofNat 8 p] ++ leBytes 8 now) } }
/-- Does CREATE wait for a unit of a granted die that is still testing (R406)? -/
def createWaits (s : State) : Bool := ((boundDies s.host.cmd).getD []).any (fun d => (dieUnits d).any (fun n => entryState s n == 1))
/-- CREATE (R25, R405, R406, R408, R409). It waits until no unit on a granted die is still testing; a die that is fused off or has failed
is out of the field's range. [log 88, DEDUCED.] -/
def execCreate (s : State) : Out :=
  .next (mailbox 1 (fun b s =>
    let p := cmdFld b 1 1
    match boundDies b with
    | none => some (1, s)
    | some dies =>
      if 32 ≤ p || descBad b dies || dies.any (fun d => entryState s d == 0 || entryState s d == 4) then some (1, s)
      else if (part s p).state ≠ .free then some (3, s)
      else if dies.any (fun d => (dieUnits d).any (fun n => entryState s n == 1)) then none
      else
        let s1 := { s with parts := s.parts.put p (newPart s p b dies) }
        let r := (((grantAll p b ((List.range dies.length).zip dies) s1).map (fun s => mapDevice p (dies.getD 0 0) s)).bind
          (takeFloor p (cmdFld b 0x10 1) false dies)).bind (takeFloor p (cmdFld b 0x11 1) true dies)
        match r with
        | none => some (2, s)
        | some s => some (0, drew s)) s)

/-! ### Destruction -/

/-- The lines that caches hold for a partition: of its frames, of its host window, and of modules that it imports. -/
def partLine (s : State) (p line : Nat) : Bool :=
  let d := lineHome line
  let off := line * 128 % 2 ^ 64
  let c := (part s p).ctx
  if isFar line then line * 128 % 2 ^ 72 / 2 ^ 56 == p
  else if lineTier line = 3 then c.hostBase.toNat ≤ off && off < c.hostBase.toNat + c.hostSize.toNat
  else (die s d).frames.any (fun f => f.1 == lineTier line && f.2.1 == off / 2 ^ 21 && f.2.2 == p)
/-- What a core still holds queued goes. -/
def dropQueued (k : Nat) (s : State) : State :=
  modCore k (fun x => { x with wcb := [], mq := [], mrun := none, chans := [], deposits := [], formed := [], aacqQ := [], claimQ := [] }) s
/-- Everything of a partition goes (R407 steps 2 to 5): caches without write-back, keys, tokens, frames, vault space, clusters, VFs, imports. -/
def erasePart (p : Nat) (s : State) : State :=
  let s := usageRecord p true (walkerTime s p) s
  let ts := keysOf s.teams (fun _ t => t.part == p)
  let vs := (List.range 8).filterMap (vdt s p)
  let s := vs.foldl (fun s d => modDie d (fun x => { x with l2 := x.l2.filter (fun c => !partLine s p c.line), msc := x.msc.filter (fun l => !partLine s p l) }) s) s
  let s := (clustersHeld s p).foldl (fun s c => modClus c (fun _ => {}) (clearCluster c ((clusCores c).foldl (fun s k => dropQueued k s) s))) s
  let s := vs.foldl (fun s d => modDie d (fun x => { x with keys := x.keys.filter (fun k => k.1 != p), frames := x.frames.filter (fun f => f.2.2 != p) }) s) s
  let mine := fun (k : Nat) => k / 16 == p
  let table := fun (k : Nat) => k / 2 ^ 18 % 2 ^ 19 == tableFrame p (k / 2 ^ 37)
  { s with
    tokens := s.tokens.filter (fun t => t.part != p)
    net := { s.net with
      msgs := s.net.msgs.filter (fun m => m.part != p)
      atoms := s.net.atoms.filter (fun m => m.part != p)
      far := s.net.far.filter (fun m => m.part != p)
      colls := s.net.colls.filter (fun c => c.who.part != p) }
    marks := { s.marks with shadows := s.marks.shadows.filter (fun h => h.part != p) }
    s2 := { top := s.s2.top.filter (fun q => !mine (q.1 / 4096)), sec := s.s2.sec.filter (fun q => !table q.1) }
    host := { s.host with vfs := s.host.vfs.map (fun v => if v.2.part == some p then (v.1, { v.2 with part := none, state := .unlocked }) else v) }
    traps := s.traps.filter (fun t => t.part != p), trapQ := s.trapQ.filter (fun t => t.1.part != p)
    losts := s.losts.filter (fun l => l.part != p)
    groups := s.groups.filter (fun g => !ts.contains g.2.team)
    teams := s.teams.filter (fun t => t.2.part != p)
    launches := s.launches.filter (fun l => l.2.part != p)
    parts := s.parts.put p {} }
/-- Has everything of a partition stopped (R407 step 1)? -/
def partStopped (s : State) (p : Nat) : Bool :=
  (keysOf s.teams (fun _ t => t.part == p)).all (teamStopped s)
    && !s.net.colls.any (fun c => c.who.part == p && c.started)
    && (clustersHeld s p).all (fun c => (clusCores c).all (fun k => (List.range 2).all (fun ch =>
      !(holdsResv s k (1 + ch) && ((chan s k ch).queue.head?).any (fun m => m.who.part == p)))))
/-- DESTROY (R407). From its start the register page and the VFs are shut; it ends once everything has stopped. -/
def execDestroy (s : State) : Out :=
  let p := cmdFld s.host.cmd 1 1
  .next (if !s.host.busy || cmdFld s.host.cmd 0 1 ≠ 2 then s
    else if 32 ≤ p || !restZero s.host.cmd [] then endCmd 1 s
    else if (part s p).state ≠ .ready then endCmd 3 s
    else if !(part s p).erased then
      let s := modPart p (fun x => { x with erased := true, gsub := [], graphs := [] }) s
      (keysOf s.teams (fun _ t => t.part == p && t.state != .complete)).foldl (fun s t => modTeam t (fun x => { x with goal := 3 }) s) s
    else if partStopped s p then endCmd 0 (erasePart p s)
    else s)

/-! ### VFs, service, power, domain -/

/-- BIND (R399, R404). The VF's decoder is the host's to set: its base and size are free. [log 87, DESIGN CHOICE.] -/
def execBindVf (s : State) : Out :=
  .next (mailbox 3 (onPart [(2, 1), (8, 8)] (fun b p s =>
    let v := cmdFld b 2 1
    let vf := s.host.vfs.get {} v
    if 64 ≤ v || 2 ^ 56 ≤ cmdFld b 8 8 then (1, s)
    else if vf.part.isSome || vf.state ≠ .unlocked then (3, s)
    else
      let nv : Vf := { state := .unlocked, part := some p, win := .ofNat 64 (cmdFld b 8 8), decBase := .ofNat 64 (draw s 1), decSize := 2 ^ 30 + draw s 2 % (2 ^ 40 - 2 ^ 30 + 1) }
      (0, drew { s with host := { s.host with vfs := s.host.vfs.put v nv } }))) s)
/-- UNBIND (R404). -/
def execUnbindVf (s : State) : Out :=
  .next (mailbox 4 (onPart [(2, 1)] (fun b p s =>
    let v := cmdFld b 2 1
    let vf := s.host.vfs.get {} v
    if 64 ≤ v then (1, s)
    else if vf.part ≠ some p || vf.state ≠ .unlocked then (3, s)
    else (0, { s with host := { s.host with vfs := s.host.vfs.put v {} } }))) s)
/-- SETSVC (R74, R404). -/
def execSetsvc (s : State) : Out :=
  .next (mailbox 5 (onPart [(8, 4)] (fun b p s =>
    (0, modPart p (fun x => { x with service := cmdFld b 8 2, floorM := cmdFld b 0xA 1, floorW := cmdFld b 0xB 1 }) s))) s)
/-- SETPOWER (R385, R404). -/
def execSetpower (s : State) : Out :=
  .next (mailbox 6 (onPart [(8, 11)] (fun b p s =>
    let f := (List.range 4).map (fun i => (i, cmdFld b (0xA + 2 * i) 2))
    if cmdFld b 8 2 < (f.map Prod.snd).sum || 4 ≤ cmdFld b 0x12 1 then (1, s)
    else (0, modPart p (fun x => { x with tier := cmdFld b 0x12 1 }) { s with power := { s.power with cap := cmdFld b 8 2, floors := f } }))) s)
/-- SETTHERM (R390, R404). -/
def execSettherm (s : State) : Out :=
  .next (mailbox 7 (noPart [(8, 3)] (fun b s =>
    let t1 := cmdFld b 8 1
    let t2 := cmdFld b 9 1
    let t3 := cmdFld b 0xA 1
    if t1 < 80 || t2 ≤ t1 || t3 ≤ t2 + 8 || 120 < t3 then (1, s) else (0, { s with power := { s.power with t1 := t1, t2 := t2, t3 := t3 } }))) s)
/-- SPLIT (R17, R404, R418). The base die's speed is its cache in MiB, so the map is raised. -/
def execSplitDie (s : State) : Out :=
  .next (mailbox 8 (noPart [(2, 1), (8, 1)] (fun b s =>
    let d := cmdFld b 2 1
    if 8 ≤ d || 8 < cmdFld b 8 1 then (1, s)
    else if s.parts.any (fun q => q.2.state == .ready && (List.range 8).any (fun v => vdt s q.1 v == some d && vaultExtent s q.1 v != 0)) then (3, s)
    else (0, raiseMap [(8 + d, { s.map.entries.get {} (8 + d) with speed := some (64 * cmdFld b 8 1) })] (modDie d (fun x => { x with split := cmdFld b 8 1, msc := x.msc.take (cmdFld b 8 1 * 524288) }) s)))) s)
/-- IMPORT (R404, R411). [log 88, DEDUCED.] -/
def execImportEntry (s : State) : Out :=
  .next (mailbox 9 (onPart [(8, 3)] (fun b p s =>
    let m := cmdFld b 8 1
    let rest := (part s p).imports.filter (fun e => e.1 != m)
    if 32 ≤ cmdFld b 9 1 || 2 ≤ cmdFld b 0xA 1 then (1, s)
    else if cmdFld b 0xA 1 = 0 then (0, modPart p (fun x => { x with imports := rest }) s)
    else if 64 ≤ rest.length then (2, s)
    else (0, modPart p (fun x => { x with imports := rest ++ [(m, cmdFld b 9 1)] }) s))) s)
/-- SETREC (R377, R404). -/
def execSetrec (s : State) : Out :=
  .next (mailbox 0xA (noPart [(8, 16)] (fun b s =>
    (0, { s with host := { s.host with recAddr := .ofNat 64 (cmdFld b 8 8), recSize := .ofNat 64 (cmdFld b 0x10 8), recWr := 0, recLost := 0 } }))) s)
/-- SETDOMAIN (R404, R410). Only while no partition is ready. -/
def execSetdomain (s : State) : Out :=
  .next (mailbox 0xB (noPart [(8, 1), (0x10, 8)] (fun b s =>
    if s.parts.any (fun q => q.2.state == .ready) then (3, s)
    else (0, { s with host := { s.host with module := cmdFld b 8 1, domain := .ofNat 64 (cmdFld b 0x10 8) } }))) s)
/-- SETCTX (R94, R404). Only while the partition holds no resident graph and no VF of it is locked. [log 88, DEDUCED.] -/
def execSetctx (s : State) : Out :=
  .next (mailbox 0xC (onPart [(8, 32)] (fun b p s =>
    if ctxBad (cmdFld b 8 8) (cmdFld b 0x10 8) (cmdFld b 0x18 8) (cmdFld b 0x20 8) then (1, s)
    else if (part s p).graphs.any (fun g => g.2.live) || s.host.vfs.any (fun v => v.2.part == some p && v.2.state != .unlocked) then (3, s)
    else
      let s := modPart p (fun x => { x with ctx := { x.ctx with
        txroot := .ofNat 64 (cmdFld b 8 8), vwin := .ofNat 64 (cmdFld b 0x10 8), pvwin := .ofNat 64 (cmdFld b 0x18 8), pvcfg := .ofNat 64 (cmdFld b 0x20 8) } }) s
      (0, { s with cores := s.cores.map (fun c => (c.1, { c.2 with tlb := c.2.tlb.filter (fun e => e.part != p) })) }))) s)

/-! ### Faults, telemetry, histograms, die resets -/

/-- SETFLT (R430). -/
def execSetflt (s : State) : Out :=
  .next (mailbox 0xD (noPart [(8, 16)] (fun b s =>
    (0, { s with host := { s.host with fltAddr := .ofNat 64 (cmdFld b 8 8), fltSize := .ofNat 64 (cmdFld b 0x10 8), fltWr := 0, fltLost := 0 } }))) s)
/-- RESOLVE (R429, R430). -/
def execResolve (s : State) : Out :=
  .next (mailbox 0xE (noPart [(8, 9)] (fun b s =>
    let tid : DWord := .ofNat 64 (cmdFld b 8 8)
    if 4 ≤ cmdFld b 0x10 1 then (1, s)
    else if !s.traps.any (fun t => t.fr.tid == tid && t.fr.level == 2) then (3, s)
    else (0, resolve tid (cmdFld b 0x10 1) s))) s)
/-- TELREAD (R489). -/
def execTelread (s : State) : Out :=
  .next (mailbox 0xF (noPart [(2, 1), (8, 8)] (fun b s =>
    let p := cmdFld b 1 1
    let d := cmdFld b 2 1
    let a := cmdFld b 8 8
    if 8 ≤ d || a % 256 ≠ 0 || (32 ≤ p && p ≠ 0xFF) then (1, s)
    else if p ≠ 0xFF && (part s p).state ≠ .ready then (3, s)
    else
      let v := fun (i : Nat) => if p = 0xFF then (die s d).telemetry.get 0 i else (part s p).telemetry.get 0 (d * 32 + i)
      (0, hostWrite a ((List.range 32).flatMap (fun i => leBytes 8 (v i))) s))) s)
/-- A mask of the weak units of a core in a range of numbers, little-endian. -/
def weakMask (s : State) (c lo n : Nat) : List Byte :=
  leBytes (n / 8) ((List.range n).foldl (fun a i => a + (if s.nonvol.weak.any (fun q => q.1 == c * 512 + lo + i) then 2 ^ i else 0)) 0)
/-- HISTREAD (R490). -/
def execHistread (s : State) : Out :=
  .next (mailbox 0x10 (noPart [(2, 2), (8, 8)] (fun b s =>
    let d := cmdFld b 2 1
    let c := d * 64 + cmdFld b 3 1
    let a := cmdFld b 8 8
    if 8 ≤ d || 4 * Config.clustersOf d ≤ cmdFld b 3 1 || a % 128 ≠ 0 then (1, s)
    else
      let h := (core s c).hist
      let counts := fun (base n : Nat) => (List.range (4 * n)).flatMap (fun i => leBytes 2 (h.get 0 (base + i)))
      let bytes := counts 0 32 ++ counts 128 256 ++ weakMask s c 0 32 ++ weakMask s c 32 256 ++ leBytes 2 (safePoint s c) ++ leBytes 90 0
      (0, hostWrite a bytes s))) s)
/-- DIERESET (R483, R488). By the mailbox, for a failed or degraded die; with the flag the module starts it itself on die x. -/
def execDiereset (s : State) : Out :=
  .next (if s.ev.flag && (die s s.ev.x).thermalFail && (die s s.ev.x).resetAt.isNone then startReset s.ev.x s
    else mailbox 0x11 (noPart [(2, 1)] (fun b s =>
      let d := cmdFld b 2 1
      if 8 ≤ d then (1, s)
      else if (entryState s d ≠ 4 && entryState s d ≠ 3) || (die s d).resetAt.isSome then (3, s)
      else (0, startReset d s))) s)

end Sys2Proof.Machine
end

