-- ==== Sys2Proof/Machine/Xts.lean ====
section
/-!
DEFINITION. What DRAM and vault SRAM hold of a partition's bytes (R93, R408): AES-256 as its standard defines it, and XTS over lines of 128 bytes.
Memory itself is held as the caches see it, in plaintext.
-/
namespace Sys2Proof.Machine

/-! ### AES-256 -/

/-- The substitution of a byte, in runs of 32. -/
def aesBox0 : List Byte := [0x63, 0x7C, 0x77, 0x7B, 0xF2, 0x6B, 0x6F, 0xC5, 0x30, 0x01, 0x67, 0x2B, 0xFE, 0xD7, 0xAB, 0x76,
  0xCA, 0x82, 0xC9, 0x7D, 0xFA, 0x59, 0x47, 0xF0, 0xAD, 0xD4, 0xA2, 0xAF, 0x9C, 0xA4, 0x72, 0xC0]
def aesBox1 : List Byte := [0xB7, 0xFD, 0x93, 0x26, 0x36, 0x3F, 0xF7, 0xCC, 0x34, 0xA5, 0xE5, 0xF1, 0x71, 0xD8, 0x31, 0x15,
  0x04, 0xC7, 0x23, 0xC3, 0x18, 0x96, 0x05, 0x9A, 0x07, 0x12, 0x80, 0xE2, 0xEB, 0x27, 0xB2, 0x75]
def aesBox2 : List Byte := [0x09, 0x83, 0x2C, 0x1A, 0x1B, 0x6E, 0x5A, 0xA0, 0x52, 0x3B, 0xD6, 0xB3, 0x29, 0xE3, 0x2F, 0x84,
  0x53, 0xD1, 0x00, 0xED, 0x20, 0xFC, 0xB1, 0x5B, 0x6A, 0xCB, 0xBE, 0x39, 0x4A, 0x4C, 0x58, 0xCF]
def aesBox3 : List Byte := [0xD0, 0xEF, 0xAA, 0xFB, 0x43, 0x4D, 0x33, 0x85, 0x45, 0xF9, 0x02, 0x7F, 0x50, 0x3C, 0x9F, 0xA8,
  0x51, 0xA3, 0x40, 0x8F, 0x92, 0x9D, 0x38, 0xF5, 0xBC, 0xB6, 0xDA, 0x21, 0x10, 0xFF, 0xF3, 0xD2]
def aesBox4 : List Byte := [0xCD, 0x0C, 0x13, 0xEC, 0x5F, 0x97, 0x44, 0x17, 0xC4, 0xA7, 0x7E, 0x3D, 0x64, 0x5D, 0x19, 0x73,
  0x60, 0x81, 0x4F, 0xDC, 0x22, 0x2A, 0x90, 0x88, 0x46, 0xEE, 0xB8, 0x14, 0xDE, 0x5E, 0x0B, 0xDB]
def aesBox5 : List Byte := [0xE0, 0x32, 0x3A, 0x0A, 0x49, 0x06, 0x24, 0x5C, 0xC2, 0xD3, 0xAC, 0x62, 0x91, 0x95, 0xE4, 0x79,
  0xE7, 0xC8, 0x37, 0x6D, 0x8D, 0xD5, 0x4E, 0xA9, 0x6C, 0x56, 0xF4, 0xEA, 0x65, 0x7A, 0xAE, 0x08]
def aesBox6 : List Byte := [0xBA, 0x78, 0x25, 0x2E, 0x1C, 0xA6, 0xB4, 0xC6, 0xE8, 0xDD, 0x74, 0x1F, 0x4B, 0xBD, 0x8B, 0x8A,
  0x70, 0x3E, 0xB5, 0x66, 0x48, 0x03, 0xF6, 0x0E, 0x61, 0x35, 0x57, 0xB9, 0x86, 0xC1, 0x1D, 0x9E]
def aesBox7 : List Byte := [0xE1, 0xF8, 0x98, 0x11, 0x69, 0xD9, 0x8E, 0x94, 0x9B, 0x1E, 0x87, 0xE9, 0xCE, 0x55, 0x28, 0xDF,
  0x8C, 0xA1, 0x89, 0x0D, 0xBF, 0xE6, 0x42, 0x68, 0x41, 0x99, 0x2D, 0x0F, 0xB0, 0x54, 0xBB, 0x16]
def aesBox : List Byte := aesBox0 ++ aesBox1 ++ aesBox2 ++ aesBox3 ++ aesBox4 ++ aesBox5 ++ aesBox6 ++ aesBox7
def aesSub (b : Byte) : Byte := aesBox.getD b.toNat 0
/-- Twice a byte in the field of AES. -/
def aesTwice (b : Byte) : Byte := (b <<< 1) ^^^ (if b.getLsbD 7 then 0x1B else 0)
/-- The exclusive or of lists of bytes. -/
def bytesXor (a b : List Byte) : List Byte := (a.zip b).map (fun q => q.1 ^^^ q.2)
/-- Round constants. -/
def aesCon (i : Nat) : Byte := (List.range (i - 1)).foldl (fun b _ => aesTwice b) 1
/-- The key schedule, latest word first: `n` words more, from word `i`. -/
def aesSched : Nat → Nat → List (List Byte) → List (List Byte)
  | 0, _, w => w
  | n + 1, i, w =>
    let t := w.getD 0 []
    let t := if i % 8 = 0 then bytesXor ((t.drop 1 ++ t.take 1).map aesSub) [aesCon (i / 8), 0, 0, 0] else if i % 8 = 4 then t.map aesSub else t
    aesSched n (i + 1) (bytesXor (w.getD 7 []) t :: w)
/-- The 15 round keys of a 32-byte key. -/
def aesKeys (key : List Byte) : List (List Byte) :=
  let w := (aesSched 52 8 ((List.range 8).map (fun i => (key.drop (4 * i)).take 4)).reverse).reverse
  (List.range 15).map (fun r => ((w.drop (4 * r)).take 4).flatMap id)
/-- Rows of the state move left by their number. -/
def aesShift (b : List Byte) : List Byte := (List.range 16).map (fun i => b.getD (4 * ((i / 4 + i % 4) % 4) + i % 4) 0)
/-- The columns of the state are mixed. -/
def aesMix (b : List Byte) : List Byte :=
  (List.range 16).map (fun i =>
    let a := fun (k : Nat) => b.getD (i / 4 * 4 + (i + k) % 4) 0
    aesTwice (a 0) ^^^ (aesTwice (a 1) ^^^ a 1) ^^^ a 2 ^^^ a 3)
/-- The rounds after the first key: the last one mixes no columns. -/
def aesRounds : List (List Byte) → List Byte → List Byte
  | [], b => b
  | [k], b => bytesXor (aesShift (b.map aesSub)) k
  | k :: t, b => aesRounds t (bytesXor (aesMix (aesShift (b.map aesSub))) k)
/-- AES-256 of a block of 16 bytes. -/
def aes256 (key b : List Byte) : List Byte :=
  match aesKeys key with
  | [] => b
  | k :: t => aesRounds t (bytesXor b k)

/-! ### XTS -/

/-- The tweak of the next block: times alpha. -/
def xtsNext (t : Nat) : Nat := (2 * t % 2 ^ 128) ^^^ (if 2 ^ 127 ≤ t then 0x87 else 0)
/-- The blocks of a data unit, from a tweak. -/
def xtsBlocks (key : List Byte) : List (List Byte) → Nat → List Byte
  | [], _ => []
  | b :: r, t => bytesXor (aes256 key (bytesXor b (leBytes 16 t))) (leBytes 16 t) ++ xtsBlocks key r (xtsNext t)
/-- XTS-AES-256 of a data unit of whole blocks, under two keys and a tweak (R408). -/
def xtsSeal (k1 k2 : List Byte) (tweak : Nat) (l : List Byte) : List Byte :=
  xtsBlocks k1 ((List.range (l.length / 16)).map (fun i => (l.drop (16 * i)).take 16)) (leNat (aes256 k2 (leBytes 16 tweak)))

/-! ### A partition's lines -/

/-- The partition that a line of HBM, the capacity tier or the vault is granted to (R406). -/
def lineOwner (s : State) (line : Nat) : Option Nat :=
  let d := lineHome line
  let a := line * 128 % 2 ^ 64
  match lineTier line with
  | 2 => (keysOf s.parts (fun p x => x.state == .ready && (List.range 8).any (fun v => vdt s p v == some d
      && decide (x.ctx.vaultBase.get 0 d ≤ a && a < x.ctx.vaultBase.get 0 d + vaultExtent s p v)))).head?
  | t => if t < 2 then ((die s d).frames.find? (fun f => f.1 == t && f.2.1 == a / 2 ^ 21)).map (fun f => f.2.2) else none
/-- The tweak of a line: its tier, its die and its address there (R408). -/
def lineTweak (line : Nat) : Nat := lineTier line * 2 ^ 43 + lineHome line * 2 ^ 40 + line * 128 % 2 ^ 64 / 128 % 2 ^ 33
/-- A line as DRAM or vault SRAM holds it: sealed under its partition's keys, from the key store of its die (R93, R408). -/
def dramLine (s : State) (line : Nat) : List Byte :=
  let plain := cellBytes s.mem (line * 128) 128
  match (lineOwner s line).bind (fun p => (die s (lineHome line)).keys.find? (fun k => k.1 == p)) with
  | some k => xtsSeal (leBytes 32 k.2.1) (leBytes 32 k.2.2) (lineTweak line) plain
  | none => plain

end Sys2Proof.Machine
end

