-- ==== Sys2Proof/Machine/Attest.lean ====
section
/-!
DEFINITION. Attestation: TDISP requests on a VF (R398, R414) and SPDM requests on PF0 or a VF (R412, R413). Function 0 is PF0, function
1 + v is VF v. Requests reach the module through a usable host port (R415).
-/
namespace Sys2Proof.Machine

/-- An answer to the host. [log 89, PRESUMED.] -/
def answer (o : Output) (s : State) : State := { s with host := { s.host with out := s.host.out ++ [o] } }
/-- An SPDM response or error. The codes are those of the SPDM standard. [log 89, PRESUMED.] -/
def spdmError (s : State) : State := answer (.spdm 0x7F []) s
/-- A request of the host's, once the host port is usable (R415). -/
def fromHost (s t : State) : Out := .next (if hostOpen s then t else s)

/-- LOCK_INTERFACE (R414). A bound, unlocked VF becomes locked with its partition's descriptor. -/
def execLockInterface (s : State) : Out :=
  let v := s.host.vfs.get {} s.ev.x
  fromHost s (if v.part.isSome && v.state = .unlocked then { s with host := { s.host with vfs := s.host.vfs.put s.ev.x { v with state := .locked } } }
    else spdmError s)
/-- START_INTERFACE (R414). -/
def execStartInterface (s : State) : Out :=
  let v := s.host.vfs.get {} s.ev.x
  fromHost s (if v.part.isSome && v.state = .locked then { s with host := { s.host with vfs := s.host.vfs.put s.ev.x { v with state := .run } } }
    else spdmError s)

/-- A measurement of an SPDM responder (R413). -/
def measurement (s : State) (fn i : Nat) : Option (List Byte) :=
  if 1 ≤ i && i ≤ 3 then some (sha512 (Config.measured i))
  else if i = 4 then some (sha512 (leBytes 4 s.map.version ++ (moduleMap s ++ leBytes 8192 0).take 8192))
  else if i = 5 && 1 ≤ fn then ((s.host.vfs.get {} (fn - 1)).part).map (fun p => sha512 ((part s p).ctx.descriptor))
  else none
/-- INTERFACE_REPORT (R414). Partition number, map version, measurement 5. -/
def execInterfaceReport (s : State) : Out :=
  fromHost s (match (s.host.vfs.get {} s.ev.x).part with
    | some p => answer (.spdm 0 ([.ofNat 8 p] ++ leBytes 4 s.map.version ++ (measurement s (1 + s.ev.x) 5).getD [])) s
    | none => spdmError s)

/-- The capabilities that the responder names, by the standard's flags: CERT, CHAL, MEAS with signature, ENCRYPT, MAC, KEY_EX; MUT_AUTH_CAP is 0
(R412). [log 89, PRESUMED.] -/
def spdmFlags : Nat := 0x2 + 0x4 + 0x10 + 0x40 + 0x80 + 0x200
/-- The algorithms that it names, by the standard's bits: RSASSA_4096, SHA_512, measurement hash SHA_512, SECP_384_R1, AES_256_GCM (R412).
[log 89, PRESUMED.] -/
def spdmAlgorithms : List Byte := leBytes 4 0x20 ++ leBytes 4 4 ++ leBytes 4 8 ++ leBytes 2 0x10 ++ leBytes 2 2
/-- What a connection of a version has negotiated, which every signature covers. [log 89, PRESUMED.] -/
def spdmHello (s : State) : List Byte := [.ofNat 8 (s.ev.nums.headD 0x12)] ++ leBytes 4 spdmFlags ++ spdmAlgorithms
/-- Is a request of version 1.2 or 1.3, which nums names, and of a session that stands where the flag says that it is of one (R412)? -/
def spdmServes (s : State) : Bool :=
  (s.ev.nums.headD 0x12 == 0x12 || s.ev.nums.headD 0x12 == 0x13) && (!s.ev.flag || s.host.sessions.contains s.ev.x)
/-- A request is answered where the responder has an answer; in a session under the session's keys (R412). -/
def spdmReply (code : Nat) (data : Option (List Byte)) (s : State) : State :=
  match data with
  | none => spdmError s
  | some d => if !spdmServes s then spdmError s
    else if s.ev.flag then drew (answer (.spdm code (Config.sessionSeal (draw s 1) d)) s) else answer (.spdm code d) s
/-- What a slot that holds a chain gives (R412): slots 2 to 7 are empty. -/
def ofSlot (s : State) (d : List Byte) : Option (List Byte) := if s.ev.y < 2 then some d else none

/-- SPDM_CERT (R412). Slots 0 and 1 hold chains. -/
def execSpdmCert (s : State) : Out := fromHost s (spdmReply 2 (ofSlot s (Config.certificate s.ev.y)) s)
/-- SPDM_CHAL (R412). The challenge is signed with the slot's key. [log 89, PRESUMED.] -/
def execSpdmChal (s : State) : Out :=
  fromHost s (spdmReply 3 (ofSlot s (rsaSign s.ev.y (spdmHello s ++ leBytes 32 s.ev.z ++ sha512 (Config.certificate s.ev.y)))) s)
/-- SPDM_MEAS (R412, R413). [log 89, PRESUMED.] -/
def execSpdmMeas (s : State) : Out :=
  fromHost s (spdmReply 0x60 ((measurement s s.ev.x s.ev.y).map (fun m => m ++ rsaSign 0 (spdmHello s ++ leBytes 32 s.ev.z ++ m))) s)
/-- The module's share of a key exchange on SECP_384_R1: free (R412). -/
def keyShare (s : State) : List Byte := (Config.keyShare (draw s 0) ++ leBytes 96 0).take 96
/-- SPDM_KEY_EX (R412). A session is established. [log 89, PRESUMED.] -/
def execSpdmKeyEx (s : State) : Out :=
  let t := spdmReply 0x64 (ofSlot s (keyShare s ++ rsaSign s.ev.y (spdmHello s ++ leBytes 96 s.ev.z ++ keyShare s))) s
  fromHost s (if spdmServes s && s.ev.y < 2 then drew { t with host := { t.host with sessions := t.host.sessions ++ [s.ev.x] } } else t)

end Sys2Proof.Machine
end

