-- ==== Sys2Proof/Machine/Bringup.lean ====
section
/-!
DEFINITION. Reset and bring-up (R415, R418, R472), and stores to the registers of PF0 and of a partition's register page (R371, R401 to R403).
-/
namespace Sys2Proof.Machine

/-- MODULE_RESET (R362, R415, R418, R472). Every unit tests itself; the histograms resume from non-volatile storage; host memory is not the
module's. Global time goes on (R122). [log 90, DEDUCED.] -/
def execModuleReset (s : State) : Out :=
  let s := copyHists s
  let cs := ((List.range Config.dies).flatMap dieCores).filter (fun c => s.nonvol.hist.any (fun q => q.1 / 1152 == c))
  let cores : Tab Core := cs.map (fun c => (c, { hist := (s.nonvol.hist.filter (fun q => q.1 / 1152 == c)).map (fun q => (q.1 % 1152, q.2)) }))
  .next { State.reset with
    time := s.time, free := s.free, turn := s.turn, nonvol := s.nonvol, cores := cores
    mem := s.mem.filter (fun c => 3 ≤ c.1 / 2 ^ 72)
    dies := (List.range Config.dies).map (fun d => (d, { off := (die s d).off, thermAt := s.time })) }

/-- UNIT_SELF_TEST_PASS (R415, R418, R483). A testing unit reads live, or degraded with the flag; not while its die still drains. -/
def execUnitSelfTestPass (s : State) : Out :=
  let n := s.ev.x
  .next (if 508 ≤ n || entryState s n ≠ 1 || (s.dies.any (fun d => d.2.resetAt.isSome && (dieUnits d.1).contains n)) then s
    else raiseMap [entryIn s n (if s.ev.flag then 3 else 2)] s)

/-! ### Register stores -/

/-- The command of a mailbox code (R404, R430, R483, R489, R490). -/
def mailOp (code : Nat) : Option Instr :=
  match code with
  | 1 => some .create | 2 => some .destroy | 3 => some .bindVf | 4 => some .unbindVf | 5 => some .setsvc | 6 => some .setpower
  | 7 => some .settherm | 8 => some .splitDie | 9 => some .importEntry | 10 => some .setrec | 11 => some .setdomain | 12 => some .setctx
  | 13 => some .setflt | 14 => some .resolve | 15 => some .telread | 16 => some .histread | 17 => some .diereset
  | _ => none
/-- A store to PF0's BAR0 (R401 to R403): the command block, and MBDOOR. -/
def pf0Store (off : Nat) (w : DWord) (s : State) : State :=
  if 0x1000 ≤ off && off < 0x1100 then
    let b := (s.host.block ++ leBytes 256 0).take 256
    let o := (off - 0x1000) / 8 * 8
    { s with host := { s.host with block := b.take o ++ leBytes 8 w.toNat ++ b.drop (o + 8) } }
  else if off = 0 && bits w 0 0 = 1 && !s.host.busy && entryState s 507 = 2 then
    let b := (s.host.block ++ leBytes 256 0).take 256
    let s := { s with host := { s.host with busy := true, goAt := s.time, cmd := b } }
    match mailOp (cmdFld b 0 1) with
    | some op => { s with agenda := s.agenda ++ [⟨0, op, {}⟩] }
    | none => endCmd 1 s
  else s
/-- A ring register (R371). -/
def ringReg (w : DWord) : DWord := .ofNat 64 (bits w 55 0)
/-- A register of a partition's register page takes its RW fields (R371, R402). [log 23, DEDUCED.] -/
def pageStore (p off : Nat) (w : DWord) (s : State) : State :=
  let obs := fun (f : Observe → Observe) => modPart p (fun x => { x with obs := f x.obs }) s
  match off with
  | 0x000 => if 16 ≤ (part s p).gsub.length then modPart p (fun x => { x with dropped := min (x.dropped + 1) 0xFFFF }) s
    else modPart p (fun x => { x with gsub := x.gsub ++ [.ofNat 64 (bits w 55 6 * 64)] }) s
  | 0x100 => obs (fun o => { o with tsRing := { o.tsRing with reg := ringReg w } })
  | 0x108 => obs (fun o => { o with crRing := { o.crRing with reg := ringReg w } })
  | 0x110 => obs (fun o => { o with hsRing := { o.hsRing with reg := ringReg w } })
  | 0x118 => obs (fun o => { o with mrRing := { o.mrRing with reg := ringReg w } })
  | 0x120 =>
    let k := max 10 (min 24 (bits w 20 16))
    obs (fun o => { o with tscfg := .ofNat 64 (k * 2 ^ 16 + bits w 15 0), ticks := lastTicks s (part s p).ctx.vdt (2 ^ (k - 1)) })
  | 0x130 => obs (fun o => { o with dbgTgt := w })
  | 0x138 => obs (fun o => { o with dbgCtl := .ofNat 64 (bits w 12 8 * 2 ^ 8 + (if bits w 5 4 = 3 then 0 else bits w 5 4) * 2 ^ 4 + bits w 3 0) })
  | 0x140 => obs (fun o => { o with dbgBp := o.dbgBp.put 0 (.ofNat 64 (bits w 55 3 * 8)) })
  | 0x148 => obs (fun o => { o with dbgBp := o.dbgBp.put 1 (.ofNat 64 (bits w 55 3 * 8)) })
  | 0x150 => obs (fun o => { o with dbgBp := o.dbgBp.put 2 (.ofNat 64 (bits w 55 3 * 8)) })
  | 0x158 => obs (fun o => { o with dbgBp := o.dbgBp.put 3 (.ofNat 64 (bits w 55 3 * 8)) })
  | _ => s
/-- REGISTER_WRITE (R6, R371, R401 to R403). Page 0 is the register page of partition z, page 1 is PF0's BAR0, page 2 is that of VF z, which
shows the register page of its partition (R414); y is the offset. Reserved bits and read-only fields ignore the store, and so does every page
of a partition that is being destroyed. [log 23, DEDUCED.] -/
def execRegisterWrite (s : State) : Out :=
  .next (if s.ev.x = 1 then (if hostOpen s then pf0Store s.ev.y s.ev.word s else s)
    else match (if s.ev.x = 0 then some s.ev.z else if s.ev.x = 2 then vfServes s s.ev.z else none) with
      | some p => if (part s p).state = .ready && !(part s p).erased then
          seeRegs (fun q page off => q == p && page == 0 && off == s.ev.y) (pageStore p s.ev.y s.ev.word s) else s
      | none => s)

end Sys2Proof.Machine
end

