-- ==== Sys2Proof/Machine/Reorder.lean ====
section
/-!
DEFINITION. The reorder unit: deposits, the forming of continuation groups and their places (R49 to R52, R282 to R284, R315).
-/
namespace Sys2Proof.Machine

/-- Place a formed group where the team has a free place and some slice has room (R51). [log 31, DEDUCED.] -/
def placeFormed (c : Nat) (f : Formed) (s : State) : Option (Nat × State) :=
  let tm := team s f.team
  let r := (launch s tm.launch).record
  let taken := (liveGroups s f.team).map (fun g => (grp s g).place)
  if tm.state ≠ .resident || tm.goal ≠ 0 || tm.core ≠ c then none
  else match (List.range (r.p + r.c)).find? (fun p => !taken.contains p), pickSlice (sliceFree s c) r.cBudget with
  | some p, some sl =>
    let g := freshGroup s f.team p sl r.cBudget true r.cont f.taken.length
    let idx := (List.range f.taken.length).zip f.taken
    let v : Tab Word := idx.flatMap (fun q =>
      [(q.1 * 256, .ofNat 32 q.2.payload.toNat), (q.1 * 256 + 1, .ofNat 32 (q.2.payload.toNat / 2 ^ 32)), (q.1 * 256 + 2, .ofNat 32 f.key)])
    some (p, addGroup { g with cont := true, v := v, deposits := idx.map (fun q => (q.1, q.2.name)) } s)
  | _, _ => none

/-- The unit's entry in the team's q8, which keeps the latest 64 (R315). -/
def pushQ8 (c : Nat) (f : Formed) (place : Nat) (s : State) : State :=
  let tm := team s f.team
  let (a, s) := unitEvent s tm.part (coreDie c) (0x40 + c % 64) 7 (partyName (launch s tm.launch).id)
  let full := 64 ≤ tm.q8.length
  let e : DWord := .ofNat 64 (bit full * 2 ^ 63 + f.key * 2 ^ 32 + f.taken.length * 2 ^ 16 + place)
  modTeam f.team (fun x => { x with q8 := (if full then x.q8.drop 1 else x.q8) ++ [(e, a)] }) s

/-- The unit forms one group of up to 32 from a team and key, in deposit order (R50). Its entries leave the 4096 of the unit at the forming,
also where the group waits for its place (R49). [log 98, DESIGN CHOICE.] -/
def formOne (c t key : Nat) (s : State) : State :=
  let mine := fun (d : Deposit) => d.team == t && d.key == key
  let f : Formed := ⟨t, key, ((core s c).deposits.filter mine).take 32⟩
  if f.taken.isEmpty then s
  else
    let rest := (core s c).deposits.filter (fun d => !mine d) ++ ((core s c).deposits.filter mine).drop 32
    let s := modCore c (fun x => { x with deposits := rest }) s
    let s := countAt (team s t).part (coreDie c) 16 1 s
    if (core s c).formed.any (fun x => x.team == t) then pushQ8 c f 0xFF (modCore c (fun x => { x with formed := x.formed ++ [f] }) s)
    else match placeFormed c f s with
      | some (p, s) => pushQ8 c f p s
      | none => pushQ8 c f 0xFF (modCore c (fun x => { x with formed := x.formed ++ [f] }) s)

/-- Groups from every key a team holds, in ascending key order (R50 case 2). -/
def flushTeam (c t : Nat) (s : State) : State :=
  let n := fun (k : Nat) => ((core s c).deposits.filter (fun d => d.team == t && d.key == k)).length
  let keys := (((core s c).deposits.filter (fun d => d.team == t)).map (fun d => d.key)).eraseDups.mergeSort (fun a b => decide (a ≤ b))
  keys.foldl (fun s k => (List.range ((n k + 31) / 32)).foldl (fun s _ => formOne c t k s) s) s

/-- Teams with deposits at a core. -/
def depositTeams (s : State) (c : Nat) : List Nat := ((core s c).deposits.map (fun d => d.team)).eraseDups

/-- CONTINUATION_GROUP_FORM (R50). Case 1, then case 3, then case 4. A queue pop that waits is no outstanding result in case 3. [log 99,
DESIGN CHOICE.] -/
def execContinuationGroupForm (s : State) : Out :=
  let c := s.ev.x
  let keysOfTeam := fun (s : State) (t : Nat) => (((core s c).deposits.filter (fun d => d.team == t)).map (fun d => d.key)).eraseDups
  let n := fun (s : State) (t k : Nat) => ((core s c).deposits.filter (fun d => d.team == t && d.key == k)).length
  let s := (depositTeams s c).foldl (fun s t => (keysOfTeam s t).foldl (fun s k => if 32 ≤ n s t k then formOne c t k s else s) s) s
  let idle := fun (s : State) (t : Nat) => (liveGroups s t).all (fun g => let x := grp s g; x.cont && isParked x && x.pend.all (fun p => !mustArrive p))
  let s := (depositTeams s c).foldl (fun s t => if idle s t then flushTeam c t s else s) s
  let full := Config.depositEntries ≤ (core s c).deposits.length
  let best := ((depositTeams s c).flatMap (fun t => (keysOfTeam s t).map (fun k => (t, k)))).foldl (fun (b : Option (Nat × Nat)) q => match b with
    | none => some q
    | some p =>
      let rank := fun (q : Nat × Nat) => (q.2, (team s q.1).slot)
      if n s p.1 p.2 < n s q.1 q.2 || (n s p.1 p.2 = n s q.1 q.2 && ((rank q).1 < (rank p).1 || ((rank q).1 = (rank p).1 && (rank q).2 < (rank p).2))) then some q else b) none
  .next (if !full then s else match best with
    | some q => formOne c q.1 q.2 s
    | none => s)

/-- CONTINUATION_GROUP_PLACE (R51). The first formed group that fits takes its place. -/
def execContinuationGroupPlace (s : State) : Out :=
  let c := s.ev.x
  .next (match (core s c).formed.find? (fun f => (placeFormed c f s).isSome) with
    | none => s
    | some f => match placeFormed c f s with
      | some (_, s) =>
        let s := modCore c (fun x => { x with formed := x.formed.erase f }) s
        let (a, s) := unitEvent s (team s f.team).part (coreDie c) (0x40 + c % 64) 7 (partyName (launch s (team s f.team).launch).id)
        roleCheckAll f.team a s
      | none => s)

/-- RODEP (R282). Each active lane deposits its key and payload, then exits; the word waits for enough free entries (R50). -/
def execRodep (f : FR) (s0 : State) : Out :=
  .next (judge (.rodep f) [] (active s0) (fun s =>
    let a := s.cur
    let g := a.gid
    let gr := grp s g
    let m := active s
    if (launch s (team s gr.team).launch).record.cont = 0 then stopAll 1 0x17 0 m s
    else if Config.depositEntries < (core s gr.core).deposits.length + Mask.count m then drew (addWait g a.lanes a.pc .rodep s)
    else
      let run := withStreams 32 64 0 (fun c _ s =>
        let new := (Mask.toList m).map (fun l =>
          (⟨gr.team, srcA c l f.a f.ak 32 % 65536, .ofNat 64 (srcB c l f.b f.bk 64), laneName c.s g l⟩ : Deposit))
        let s := count g 15 new.length (modCore gr.core (fun x => { x with deposits := x.deposits ++ new }) s)
        drew (exitLanes g m (finishLanes a (a.lanes &&& ~~~m) s)))
      if liveLanes s g &&& ~~~m = 0 then orLost run s else run s) s0)

/-- RODEP_ENTRIES_FREE (R50). The first waiting word of a group issues again once the unit has an entry free, and waits again where its deposits
do not fit yet. -/
def execRodepEntriesFree (s : State) : Out :=
  let g := s.ev.x
  .next (match (grp s g).waits.find? (fun w => w.kind == .rodep) with
    | some w =>
      if !canGo s g || Config.depositEntries ≤ (core s (grp s g).core).deposits.length then s
      else reissue { live := true, gid := g, lanes := w.lanes, pc := w.pc } (modGrp g (fun x => { x with waits := x.waits.filter (fun y => y.id != w.id) }) s)
    | none => s)

/-- ROLD (R283). Free entries, the team's entries, and those with the key. A `rold` with no active lane writes nothing. [log 107, DESIGN
CHOICE.] -/
def execRold (f : FR) (s : State) : Out :=
  .next (crossUni (.rold f) 32 f.d (fun c =>
    let gr := grp c.s c.s.cur.gid
    let d := (core c.s gr.core).deposits
    let mine := d.filter (fun x => x.team == gr.team)
    let key := srcA c (someLane c.s (active c.s)) f.a f.ak 32 % 65536
    (Config.depositEntries - d.length) * 2 ^ 32 + mine.length * 2 ^ 16 + (mine.filter (fun x => x.key == key)).length) s)

/-- ROFLUSH (R284). Case 2 of R50 for the issuing team. -/
def execRoflush (s : State) : Out :=
  .next (judge .roflush [] (active s) (fun s =>
    let gr := grp s s.cur.gid
    done (if active s = 0 then s else flushTeam gr.core gr.team s)) s)

end Sys2Proof.Machine
end

