-- ==== Sys2Proof/Machine/Dispatch.lean ====
section
/-!
DEFINITION. The dispatch of every step of the opcode table to its meaning, one arm per constructor.
-/
namespace Sys2Proof.Machine

def exec (i : Instr) (s : State) : Host.Outcome State Fault Refusal :=
  match i with
  | .moduleReset => Sys2Proof.Machine.execModuleReset s
  | .unitSelfTestPass => Sys2Proof.Machine.execUnitSelfTestPass s
  | .issueSelect => Sys2Proof.Machine.execIssueSelect s
  | .clauseEntry => Sys2Proof.Machine.execClauseEntry s
  | .frontierRelease => Sys2Proof.Machine.execFrontierRelease s
  | .variableLatencyWriteback => Sys2Proof.Machine.execVariableLatencyWriteback s
  | .streamReadAhead => Sys2Proof.Machine.execStreamReadAhead s
  | .nop => Sys2Proof.Machine.execNop s
  | .bra f => Sys2Proof.Machine.execBra f s
  | .brxV f => Sys2Proof.Machine.execBrxV f s
  | .brxK f => Sys2Proof.Machine.execBrxK f s
  | .call f => Sys2Proof.Machine.execCall f s
  | .callV f => Sys2Proof.Machine.execCallV f s
  | .callK f => Sys2Proof.Machine.execCallK f s
  | .ret f => Sys2Proof.Machine.execRet f s
  | .exit f => Sys2Proof.Machine.execExit f s
  | .loop f => Sys2Proof.Machine.execLoop f s
  | .loopBufferFree => Sys2Proof.Machine.execLoopBufferFree s
  | .yield => Sys2Proof.Machine.execYield s
  | .elect f => Sys2Proof.Machine.execElect f s
  | .electK f => Sys2Proof.Machine.execElectK f s
  | .add f => Sys2Proof.Machine.execAdd f s
  | .sub f => Sys2Proof.Machine.execSub f s
  | .mulLo f => Sys2Proof.Machine.execMulLo f s
  | .mulHi f => Sys2Proof.Machine.execMulHi f s
  | .madLo f => Sys2Proof.Machine.execMadLo f s
  | .mulWide f => Sys2Proof.Machine.execMulWide f s
  | .abs f => Sys2Proof.Machine.execAbs f s
  | .neg f => Sys2Proof.Machine.execNeg f s
  | .min f => Sys2Proof.Machine.execMin f s
  | .max f => Sys2Proof.Machine.execMax f s
  | .addSat f => Sys2Proof.Machine.execAddSat f s
  | .subSat f => Sys2Proof.Machine.execSubSat f s
  | .div f => Sys2Proof.Machine.execDiv f s
  | .rem f => Sys2Proof.Machine.execRem f s
  | .and f => Sys2Proof.Machine.execAnd f s
  | .or f => Sys2Proof.Machine.execOr f s
  | .xor f => Sys2Proof.Machine.execXor f s
  | .not f => Sys2Proof.Machine.execNot f s
  | .bool3 f => Sys2Proof.Machine.execBool3 f s
  | .shl f => Sys2Proof.Machine.execShl f s
  | .shr f => Sys2Proof.Machine.execShr f s
  | .sar f => Sys2Proof.Machine.execSar f s
  | .fsl f => Sys2Proof.Machine.execFsl f s
  | .fsr f => Sys2Proof.Machine.execFsr f s
  | .popc f => Sys2Proof.Machine.execPopc f s
  | .clz f => Sys2Proof.Machine.execClz f s
  | .ctz f => Sys2Proof.Machine.execCtz f s
  | .brev f => Sys2Proof.Machine.execBrev f s
  | .bfe f => Sys2Proof.Machine.execBfe f s
  | .bfi f => Sys2Proof.Machine.execBfi f s
  | .bsel f => Sys2Proof.Machine.execBsel f s
  | .setp f => Sys2Proof.Machine.execSetp f s
  | .sel f => Sys2Proof.Machine.execSel f s
  | .plop f => Sys2Proof.Machine.execPlop f s
  | .p2v f => Sys2Proof.Machine.execP2v f s
  | .v2p f => Sys2Proof.Machine.execV2p f s
  | .leaExt f => Sys2Proof.Machine.execLeaExt f s
  | .leaSp f => Sys2Proof.Machine.execLeaSp f s
  | .mov f => Sys2Proof.Machine.execMov f s
  | .addImm f => Sys2Proof.Machine.execAddImm f s
  | .subImm f => Sys2Proof.Machine.execSubImm f s
  | .mulLoImm f => Sys2Proof.Machine.execMulLoImm f s
  | .mulHiImm f => Sys2Proof.Machine.execMulHiImm f s
  | .minImm f => Sys2Proof.Machine.execMinImm f s
  | .maxImm f => Sys2Proof.Machine.execMaxImm f s
  | .addSatImm f => Sys2Proof.Machine.execAddSatImm f s
  | .subSatImm f => Sys2Proof.Machine.execSubSatImm f s
  | .divImm f => Sys2Proof.Machine.execDivImm f s
  | .remImm f => Sys2Proof.Machine.execRemImm f s
  | .andImm f => Sys2Proof.Machine.execAndImm f s
  | .orImm f => Sys2Proof.Machine.execOrImm f s
  | .xorImm f => Sys2Proof.Machine.execXorImm f s
  | .shlImm f => Sys2Proof.Machine.execShlImm f s
  | .shrImm f => Sys2Proof.Machine.execShrImm f s
  | .sarImm f => Sys2Proof.Machine.execSarImm f s
  | .movImm f => Sys2Proof.Machine.execMovImm f s
  | .uAdd f => Sys2Proof.Machine.execUAdd f s
  | .uSub f => Sys2Proof.Machine.execUSub f s
  | .uMulLo f => Sys2Proof.Machine.execUMulLo f s
  | .uMulHi f => Sys2Proof.Machine.execUMulHi f s
  | .uMadLo f => Sys2Proof.Machine.execUMadLo f s
  | .uMulWide f => Sys2Proof.Machine.execUMulWide f s
  | .uAbs f => Sys2Proof.Machine.execUAbs f s
  | .uNeg f => Sys2Proof.Machine.execUNeg f s
  | .uMin f => Sys2Proof.Machine.execUMin f s
  | .uMax f => Sys2Proof.Machine.execUMax f s
  | .uAddSat f => Sys2Proof.Machine.execUAddSat f s
  | .uSubSat f => Sys2Proof.Machine.execUSubSat f s
  | .uDiv f => Sys2Proof.Machine.execUDiv f s
  | .uRem f => Sys2Proof.Machine.execURem f s
  | .uAnd f => Sys2Proof.Machine.execUAnd f s
  | .uOr f => Sys2Proof.Machine.execUOr f s
  | .uXor f => Sys2Proof.Machine.execUXor f s
  | .uNot f => Sys2Proof.Machine.execUNot f s
  | .uBool3 f => Sys2Proof.Machine.execUBool3 f s
  | .uShl f => Sys2Proof.Machine.execUShl f s
  | .uShr f => Sys2Proof.Machine.execUShr f s
  | .uSar f => Sys2Proof.Machine.execUSar f s
  | .uFsl f => Sys2Proof.Machine.execUFsl f s
  | .uFsr f => Sys2Proof.Machine.execUFsr f s
  | .uPopc f => Sys2Proof.Machine.execUPopc f s
  | .uClz f => Sys2Proof.Machine.execUClz f s
  | .uCtz f => Sys2Proof.Machine.execUCtz f s
  | .uBrev f => Sys2Proof.Machine.execUBrev f s
  | .uBfe f => Sys2Proof.Machine.execUBfe f s
  | .uBfi f => Sys2Proof.Machine.execUBfi f s
  | .uBsel f => Sys2Proof.Machine.execUBsel f s
  | .usetp f => Sys2Proof.Machine.execUsetp f s
  | .uSel f => Sys2Proof.Machine.execUSel f s
  | .uLeaExt f => Sys2Proof.Machine.execULeaExt f s
  | .uLeaSp f => Sys2Proof.Machine.execULeaSp f s
  | .uMov f => Sys2Proof.Machine.execUMov f s
  | .umov f => Sys2Proof.Machine.execUmov f s
  | .uAddImm f => Sys2Proof.Machine.execUAddImm f s
  | .uSubImm f => Sys2Proof.Machine.execUSubImm f s
  | .uMulLoImm f => Sys2Proof.Machine.execUMulLoImm f s
  | .uMinImm f => Sys2Proof.Machine.execUMinImm f s
  | .uMaxImm f => Sys2Proof.Machine.execUMaxImm f s
  | .uAndImm f => Sys2Proof.Machine.execUAndImm f s
  | .uOrImm f => Sys2Proof.Machine.execUOrImm f s
  | .uXorImm f => Sys2Proof.Machine.execUXorImm f s
  | .uShlImm f => Sys2Proof.Machine.execUShlImm f s
  | .uShrImm f => Sys2Proof.Machine.execUShrImm f s
  | .uSarImm f => Sys2Proof.Machine.execUSarImm f s
  | .uMovImm f => Sys2Proof.Machine.execUMovImm f s
  | .movhi f => Sys2Proof.Machine.execMovhi f s
  | .fadd f => Sys2Proof.Machine.execFadd f s
  | .fsub f => Sys2Proof.Machine.execFsub f s
  | .fmul f => Sys2Proof.Machine.execFmul f s
  | .fma f => Sys2Proof.Machine.execFma f s
  | .fmin f => Sys2Proof.Machine.execFmin f s
  | .fmax f => Sys2Proof.Machine.execFmax f s
  | .minnum f => Sys2Proof.Machine.execMinnum f s
  | .maxnum f => Sys2Proof.Machine.execMaxnum f s
  | .fabs f => Sys2Proof.Machine.execFabs f s
  | .fneg f => Sys2Proof.Machine.execFneg f s
  | .copysign f => Sys2Proof.Machine.execCopysign f s
  | .fsetp f => Sys2Proof.Machine.execFsetp f s
  | .classOp f => Sys2Proof.Machine.execClassOp f s
  | .scale f => Sys2Proof.Machine.execScale f s
  | .frint f => Sys2Proof.Machine.execFrint f s
  | .faddImm f => Sys2Proof.Machine.execFaddImm f s
  | .fsubImm f => Sys2Proof.Machine.execFsubImm f s
  | .fmulImm f => Sys2Proof.Machine.execFmulImm f s
  | .fminImm f => Sys2Proof.Machine.execFminImm f s
  | .fmaxImm f => Sys2Proof.Machine.execFmaxImm f s
  | .minnumImm f => Sys2Proof.Machine.execMinnumImm f s
  | .maxnumImm f => Sys2Proof.Machine.execMaxnumImm f s
  | .cvt f => Sys2Proof.Machine.execCvt f s
  | .cvtSat f => Sys2Proof.Machine.execCvtSat f s
  | .cvtPk f => Sys2Proof.Machine.execCvtPk f s
  | .cvtPkSat f => Sys2Proof.Machine.execCvtPkSat f s
  | .mxcvt f => Sys2Proof.Machine.execMxcvt f s
  | .mxdec f => Sys2Proof.Machine.execMxdec f s
  | .rcp f => Sys2Proof.Machine.execRcp f s
  | .rsq f => Sys2Proof.Machine.execRsq f s
  | .sqrt f => Sys2Proof.Machine.execSqrt f s
  | .ex2 f => Sys2Proof.Machine.execEx2 f s
  | .lg2 f => Sys2Proof.Machine.execLg2 f s
  | .sin f => Sys2Proof.Machine.execSin f s
  | .cos f => Sys2Proof.Machine.execCos f s
  | .tanh f => Sys2Proof.Machine.execTanh f s
  | .tbl f => Sys2Proof.Machine.execTbl f s
  | .tblLd f => Sys2Proof.Machine.execTblLd f s
  | .tblLdReadStart => Sys2Proof.Machine.execTblLdReadStart s
  | .tblLdImageWritten => Sys2Proof.Machine.execTblLdImageWritten s
  | .tblSwap => Sys2Proof.Machine.execTblSwap s
  | .tblTag f => Sys2Proof.Machine.execTblTag f s
  | .shflIdx f => Sys2Proof.Machine.execShflIdx f s
  | .shflUp f => Sys2Proof.Machine.execShflUp f s
  | .shflDown f => Sys2Proof.Machine.execShflDown f s
  | .shflXor f => Sys2Proof.Machine.execShflXor f s
  | .bcast f => Sys2Proof.Machine.execBcast f s
  | .voteAll f => Sys2Proof.Machine.execVoteAll f s
  | .voteAny f => Sys2Proof.Machine.execVoteAny f s
  | .voteBallot f => Sys2Proof.Machine.execVoteBallot f s
  | .voteUni f => Sys2Proof.Machine.execVoteUni f s
  | .matchMask f => Sys2Proof.Machine.execMatchMask f s
  | .matchLead f => Sys2Proof.Machine.execMatchLead f s
  | .matchRank f => Sys2Proof.Machine.execMatchRank f s
  | .matchUni f => Sys2Proof.Machine.execMatchUni f s
  | .reduxAdd f => Sys2Proof.Machine.execReduxAdd f s
  | .reduxMin f => Sys2Proof.Machine.execReduxMin f s
  | .reduxMax f => Sys2Proof.Machine.execReduxMax f s
  | .reduxAnd f => Sys2Proof.Machine.execReduxAnd f s
  | .reduxOr f => Sys2Proof.Machine.execReduxOr f s
  | .reduxXor f => Sys2Proof.Machine.execReduxXor f s
  | .scanAdd f => Sys2Proof.Machine.execScanAdd f s
  | .scanMin f => Sys2Proof.Machine.execScanMin f s
  | .scanMax f => Sys2Proof.Machine.execScanMax f s
  | .scanAnd f => Sys2Proof.Machine.execScanAnd f s
  | .scanOr f => Sys2Proof.Machine.execScanOr f s
  | .scanXor f => Sys2Proof.Machine.execScanXor f s
  | .compress f => Sys2Proof.Machine.execCompress f s
  | .rodep f => Sys2Proof.Machine.execRodep f s
  | .rodepEntriesFree => Sys2Proof.Machine.execRodepEntriesFree s
  | .rold f => Sys2Proof.Machine.execRold f s
  | .roflush => Sys2Proof.Machine.execRoflush s
  | .continuationGroupForm => Sys2Proof.Machine.execContinuationGroupForm s
  | .continuationGroupPlace => Sys2Proof.Machine.execContinuationGroupPlace s
  | .ld f => Sys2Proof.Machine.execLd f s
  | .st f => Sys2Proof.Machine.execSt f s
  | .ldu f => Sys2Proof.Machine.execLdu f s
  | .pfL1 f => Sys2Proof.Machine.execPfL1 f s
  | .pfL2 f => Sys2Proof.Machine.execPfL2 f s
  | .cst f => Sys2Proof.Machine.execCst f s
  | .cstCount f => Sys2Proof.Machine.execCstCount f s
  | .xset f => Sys2Proof.Machine.execXset f s
  | .xpos f => Sys2Proof.Machine.execXpos f s
  | .xget f => Sys2Proof.Machine.execXget f s
  | .xsave f => Sys2Proof.Machine.execXsave f s
  | .xrest f => Sys2Proof.Machine.execXrest f s
  | .atomAdd f => Sys2Proof.Machine.execAtomAdd f s
  | .atomMin f => Sys2Proof.Machine.execAtomMin f s
  | .atomMax f => Sys2Proof.Machine.execAtomMax f s
  | .atomAnd f => Sys2Proof.Machine.execAtomAnd f s
  | .atomOr f => Sys2Proof.Machine.execAtomOr f s
  | .atomXor f => Sys2Proof.Machine.execAtomXor f s
  | .atomExch f => Sys2Proof.Machine.execAtomExch f s
  | .atomCas pd f => Sys2Proof.Machine.execAtomCas pd f s
  | .atomLd f => Sys2Proof.Machine.execAtomLd f s
  | .atomSt f => Sys2Proof.Machine.execAtomSt f s
  | .redAdd f => Sys2Proof.Machine.execRedAdd f s
  | .redMin f => Sys2Proof.Machine.execRedMin f s
  | .redMax f => Sys2Proof.Machine.execRedMax f s
  | .redAnd f => Sys2Proof.Machine.execRedAnd f s
  | .redOr f => Sys2Proof.Machine.execRedOr f s
  | .redXor f => Sys2Proof.Machine.execRedXor f s
  | .atomicApply => Sys2Proof.Machine.execAtomicApply s
  | .atomicWindowEnd => Sys2Proof.Machine.execAtomicWindowEnd s
  | .fence f => Sys2Proof.Machine.execFence f s
  | .fenceComplete => Sys2Proof.Machine.execFenceComplete s
  | .barSync f => Sys2Proof.Machine.execBarSync f s
  | .barArrive f => Sys2Proof.Machine.execBarArrive f s
  | .barRole f => Sys2Proof.Machine.execBarRole f s
  | .barGangSync f => Sys2Proof.Machine.execBarGangSync f s
  | .barGangArrive f => Sys2Proof.Machine.execBarGangArrive f s
  | .barPkg f => Sys2Proof.Machine.execBarPkg f s
  | .pkgBarrierRelease => Sys2Proof.Machine.execPkgBarrierRelease s
  | .tmake f => Sys2Proof.Machine.execTmake f s
  | .tdrop f => Sys2Proof.Machine.execTdrop f s
  | .tlend f => Sys2Proof.Machine.execTlend f s
  | .tret f => Sys2Proof.Machine.execTret f s
  | .tsplit f => Sys2Proof.Machine.execTsplit f s
  | .tmerge f => Sys2Proof.Machine.execTmerge f s
  | .tshare f => Sys2Proof.Machine.execTshare f s
  | .tunshare f => Sys2Proof.Machine.execTunshare f s
  | .tquery f => Sys2Proof.Machine.execTquery f s
  | .tqueryHold f => Sys2Proof.Machine.execTqueryHold f s
  | .tqueryHoldEnd => Sys2Proof.Machine.execTqueryHoldEnd s
  | .tokenMoveEffect => Sys2Proof.Machine.execTokenMoveEffect s
  | .tokenMoveComplete => Sys2Proof.Machine.execTokenMoveComplete s
  | .shareWaitBound => Sys2Proof.Machine.execShareWaitBound s
  | .aacq f => Sys2Proof.Machine.execAacq f s
  | .aacqGrant => Sys2Proof.Machine.execAacqGrant s
  | .arel f => Sys2Proof.Machine.execArel f s
  | .arelComplete => Sys2Proof.Machine.execArelComplete s
  | .ard f => Sys2Proof.Machine.execArd f s
  | .awr f => Sys2Proof.Machine.execAwr f s
  | .aclr f => Sys2Proof.Machine.execAclr f s
  | .qpop f => Sys2Proof.Machine.execQpop f s
  | .queuePopEntry => Sys2Proof.Machine.execQueuePopEntry s
  | .qtry f => Sys2Proof.Machine.execQtry f s
  | .qpush f => Sys2Proof.Machine.execQpush f s
  | .mma f => Sys2Proof.Machine.execMma f s
  | .pushRoomResume => Sys2Proof.Machine.execPushRoomResume s
  | .busyTokenResume => Sys2Proof.Machine.execBusyTokenResume s
  | .cpyLin f => Sys2Proof.Machine.execCpyLin f s
  | .cpySlot f => Sys2Proof.Machine.execCpySlot f s
  | .cpyGth f => Sys2Proof.Machine.execCpyGth f s
  | .cpySct f => Sys2Proof.Machine.execCpySct f s
  | .cpyCsr f => Sys2Proof.Machine.execCpyCsr f s
  | .coll f => Sys2Proof.Machine.execColl f s
  | .slclaim => Sys2Proof.Machine.execSlclaim s
  | .slclaimGrant => Sys2Proof.Machine.execSlclaimGrant s
  | .slrel => Sys2Proof.Machine.execSlrel s
  | .slrelComplete => Sys2Proof.Machine.execSlrelComplete s
  | .twait => Sys2Proof.Machine.execTwait s
  | .cwait => Sys2Proof.Machine.execCwait s
  | .tileWaitEnd => Sys2Proof.Machine.execTileWaitEnd s
  | .stepBegin => Sys2Proof.Machine.execStepBegin s
  | .stepEnd => Sys2Proof.Machine.execStepEnd s
  | .trap => Sys2Proof.Machine.execTrap s
  | .eret => Sys2Proof.Machine.execEret s
  | .srd => Sys2Proof.Machine.execSrd s
  | .swr => Sys2Proof.Machine.execSwr s
  | .xlinv => Sys2Proof.Machine.execXlinv s
  | .xlinvAll => Sys2Proof.Machine.execXlinvAll s
  | .xlinvComplete => Sys2Proof.Machine.execXlinvComplete s
  | .linv => Sys2Proof.Machine.execLinv s
  | .gtime => Sys2Proof.Machine.execGtime s
  | .gtimeUntil => Sys2Proof.Machine.execGtimeUntil s
  | .gtimeUntilReached => Sys2Proof.Machine.execGtimeUntilReached s
  | .rmap => Sys2Proof.Machine.execRmap s
  | .rmack => Sys2Proof.Machine.execRmack s
  | .diehop => Sys2Proof.Machine.execDiehop s
  | .vdie => Sys2Proof.Machine.execVdie s
  | .cbclaim => Sys2Proof.Machine.execCbclaim s
  | .cbrel => Sys2Proof.Machine.execCbrel s
  | .cbread => Sys2Proof.Machine.execCbread s
  | .clkr => Sys2Proof.Machine.execClkr s
  | .halt => Sys2Proof.Machine.execHalt s
  | .wfw => Sys2Proof.Machine.execWfw s
  | .wfwWake => Sys2Proof.Machine.execWfwWake s
  | .wfwTimeout => Sys2Proof.Machine.execWfwTimeout s
  | .wcbDrainTimeout => Sys2Proof.Machine.execWcbDrainTimeout s
  | .writeThroughApply => Sys2Proof.Machine.execWriteThroughApply s
  | .lineFill => Sys2Proof.Machine.execLineFill s
  | .copyLeaseLapse => Sys2Proof.Machine.execCopyLeaseLapse s
  | .hostSnoop => Sys2Proof.Machine.execHostSnoop s
  | .cxlMemRead => Sys2Proof.Machine.execCxlMemRead s
  | .cxlMemWrite => Sys2Proof.Machine.execCxlMemWrite s
  | .remoteRequest => Sys2Proof.Machine.execRemoteRequest s
  | .requestUnreachable => Sys2Proof.Machine.execRequestUnreachable s
  | .graphSubmit => Sys2Proof.Machine.execGraphSubmit s
  | .graphAccept => Sys2Proof.Machine.execGraphAccept s
  | .nodeDispatch => Sys2Proof.Machine.execNodeDispatch s
  | .nodeComplete => Sys2Proof.Machine.execNodeComplete s
  | .teamPlace => Sys2Proof.Machine.execTeamPlace s
  | .teamBlocking => Sys2Proof.Machine.execTeamBlocking s
  | .teamPreempt => Sys2Proof.Machine.execTeamPreempt s
  | .teamResume => Sys2Proof.Machine.execTeamResume s
  | .teamComplete => Sys2Proof.Machine.execTeamComplete s
  | .serviceEvaluation => Sys2Proof.Machine.execServiceEvaluation s
  | .clusterClear => Sys2Proof.Machine.execClusterClear s
  | .slotFillAccept => Sys2Proof.Machine.execSlotFillAccept s
  | .copyComplete => Sys2Proof.Machine.execCopyComplete s
  | .matrixSegmentStart => Sys2Proof.Machine.execMatrixSegmentStart s
  | .segmentJudge => Sys2Proof.Machine.execSegmentJudge s
  | .matrixCommandComplete => Sys2Proof.Machine.execMatrixCommandComplete s
  | .engineFaultStop => Sys2Proof.Machine.execEngineFaultStop s
  | .collectiveStart => Sys2Proof.Machine.execCollectiveStart s
  | .collectiveComplete => Sys2Proof.Machine.execCollectiveComplete s
  | .steepWindowEnd => Sys2Proof.Machine.execSteepWindowEnd s
  | .arbiterGrant => Sys2Proof.Machine.execArbiterGrant s
  | .capacitorRestore => Sys2Proof.Machine.execCapacitorRestore s
  | .powerEpoch => Sys2Proof.Machine.execPowerEpoch s
  | .thermalSample => Sys2Proof.Machine.execThermalSample s
  | .clockRatioChange => Sys2Proof.Machine.execClockRatioChange s
  | .clqreq => Sys2Proof.Machine.execClqreq s
  | .clsave => Sys2Proof.Machine.execClsave s
  | .clgate => Sys2Proof.Machine.execClgate s
  | .clwake => Sys2Proof.Machine.execClwake s
  | .clusterQuiesced => Sys2Proof.Machine.execClusterQuiesced s
  | .clusterSaveEnd => Sys2Proof.Machine.execClusterSaveEnd s
  | .clusterRailOff => Sys2Proof.Machine.execClusterRailOff s
  | .clusterRestoreEnd => Sys2Proof.Machine.execClusterRestoreEnd s
  | .counterTick => Sys2Proof.Machine.execCounterTick s
  | .energySample => Sys2Proof.Machine.execEnergySample s
  | .meteringUpdate => Sys2Proof.Machine.execMeteringUpdate s
  | .usageIntervalEnd => Sys2Proof.Machine.execUsageIntervalEnd s
  | .clockKeeperCheck => Sys2Proof.Machine.execClockKeeperCheck s
  | .histogramCopy => Sys2Proof.Machine.execHistogramCopy s
  | .mapAckDeadline => Sys2Proof.Machine.execMapAckDeadline s
  | .holderLostSettlement => Sys2Proof.Machine.execHolderLostSettlement s
  | .dieFatalError => Sys2Proof.Machine.execDieFatalError s
  | .coreFailure => Sys2Proof.Machine.execCoreFailure s
  | .linkStateChange => Sys2Proof.Machine.execLinkStateChange s
  | .memoryUnitFailure => Sys2Proof.Machine.execMemoryUnitFailure s
  | .portStateChange => Sys2Proof.Machine.execPortStateChange s
  | .cacheCapacityWithdrawn => Sys2Proof.Machine.execCacheCapacityWithdrawn s
  | .softErrorPoison => Sys2Proof.Machine.execSoftErrorPoison s
  | .capacitorBankLow => Sys2Proof.Machine.execCapacitorBankLow s
  | .powerLoss => Sys2Proof.Machine.execPowerLoss s
  | .dieResetDrainEnd => Sys2Proof.Machine.execDieResetDrainEnd s
  | .create => Sys2Proof.Machine.execCreate s
  | .destroy => Sys2Proof.Machine.execDestroy s
  | .bindVf => Sys2Proof.Machine.execBindVf s
  | .unbindVf => Sys2Proof.Machine.execUnbindVf s
  | .setsvc => Sys2Proof.Machine.execSetsvc s
  | .setpower => Sys2Proof.Machine.execSetpower s
  | .settherm => Sys2Proof.Machine.execSettherm s
  | .splitDie => Sys2Proof.Machine.execSplitDie s
  | .importEntry => Sys2Proof.Machine.execImportEntry s
  | .setrec => Sys2Proof.Machine.execSetrec s
  | .setdomain => Sys2Proof.Machine.execSetdomain s
  | .setctx => Sys2Proof.Machine.execSetctx s
  | .setflt => Sys2Proof.Machine.execSetflt s
  | .resolve => Sys2Proof.Machine.execResolve s
  | .telread => Sys2Proof.Machine.execTelread s
  | .histread => Sys2Proof.Machine.execHistread s
  | .diereset => Sys2Proof.Machine.execDiereset s
  | .lockInterface => Sys2Proof.Machine.execLockInterface s
  | .startInterface => Sys2Proof.Machine.execStartInterface s
  | .interfaceReport => Sys2Proof.Machine.execInterfaceReport s
  | .spdmCert => Sys2Proof.Machine.execSpdmCert s
  | .spdmChal => Sys2Proof.Machine.execSpdmChal s
  | .spdmMeas => Sys2Proof.Machine.execSpdmMeas s
  | .spdmKeyEx => Sys2Proof.Machine.execSpdmKeyEx s
  | .registerWrite => Sys2Proof.Machine.execRegisterWrite s
  | .copySegmentEnd => Sys2Proof.Machine.execCopySegmentEnd s
  | .remoteRefusalResponse => Sys2Proof.Machine.execRemoteRefusalResponse s
  | .backInvalidateAnswer => Sys2Proof.Machine.execBackInvalidateAnswer s
  | .capacitorBankRecovery => Sys2Proof.Machine.execCapacitorBankRecovery s
  | .softErrorCorrected => Sys2Proof.Machine.execSoftErrorCorrected s

end Sys2Proof.Machine
end

