-- ==== Sys2Proof/Machine/Time.lean ====
section
/-!
DEFINITION. Time and its bounds: the instants that no step may pass before what the spec bounds by them has happened; and the step that comes
next where none is listed.
-/
namespace Sys2Proof.Machine

/-- The instants that a moving or waiting token operation of an entry bounds: a move completes at its t, its t is fixed once the drain is
done, a window ends after 50 µs, a share wait after 100 µs (R114, R115, R144). -/
def tokenBounds (s : State) (t : Token) : List Nat :=
  (match t.moving with
    | some (op, tm) => if tm ≠ noTime then [max s.time (tm - (die s (tokDie t)).off)] else if regionBusy s t op then [] else [s.time]
    | none => [])
  ++ (if t.atomic then t.winAt.toList.map (fun w => max s.time (w + 50000)) else [])
  ++ (t.waiting.filter (shareWait s t.part t)).map (fun o => max s.time (o.at_ + 100000))
/-- The instants that messages and requests bound: a write-through applies within 2 µs of its first byte (R128), a request without an answer
is given up after 20 µs, unless a die whose reset drains holds it (R448, R483). -/
def netBounds (s : State) : List Nat :=
  (s.net.msgs.filter (fun m => !m.refused && !m.silent && !portShut s m.line && !s.marks.held.any (fun h => h.msg == m.id) && !heldUp s m.id)).map (fun m => m.first + 2000)
  ++ (s.net.far.filter (fun f => !f.refused && !heldUp s f.id)).map (fun f => f.sent + 20000)
  ++ (s.net.msgs.filter (fun m => !m.refused && (m.silent || portShut s m.line) && !heldUp s m.id)).map (fun m => m.sent + 20000)
  ++ (s.net.atoms.filter (fun a => !a.refused && farAtom a && !heldUp s a.id)).map (fun a => a.sent + 20000)
/-- The instants that the walker and the service controller bound: a team that was passed over blocks after 100 µs (R71), each millisecond is
evaluated (R74), a drained cluster is cleared within 40 µs (R75). -/
def walkerBounds (s : State) : List Nat :=
  s.teams.flatMap (fun t => if isPending t.2 && !t.2.blocking then t.2.passedAt.toList.map (fun n => max s.time (n + 100000)) else [])
  ++ [(s.power.svc + 1) * 1000000]
  ++ s.clusters.flatMap (fun c => if c.2.draining.isSome && !clusterBusy s c.1 then [max s.time (c.2.lastLeft + 40000)] else [])
/-- The instants of what comes in periods: of a die's energy samples, its clock keeper's checks and its temperature samples (R122, R373, R390),
of power epochs and copies of histograms (R385, R472), of a partition's ticks, update blocks and usage intervals, and of its time to
acknowledge the map (R369, R376, R377, R475); and of a creation that nothing holds up (R406). -/
def periodBounds (s : State) : List Nat :=
  ((List.range Config.dies).flatMap (fun d => [((die s d).energyAt + 1) * 1000, ((die s d).keptAt + 1) * 1000, ((die s d).sampled + 1) * 10000])
    ++ [(s.power.epoch + 1) * 1000000, (s.nonvol.copied + 1) * 1000000000]
    ++ (if s.host.busy && cmdFld s.host.cmd 0 1 = 1 && !createWaits s then [s.host.goAt + 20000000] else [])
    ++ (s.parts.filter (fun p => p.2.state == .ready)).flatMap (fun p =>
      let x := p.2
      let off := (die s ((vdt s p.1 0).getD 0)).off
      (List.range 8).flatMap (fun v => (vdt s p.1 v).toList.map (fun d => nextTick x v - (die s d).off))
        ++ [x.met.lastBlockAt + 1000000 - off, x.met.intStart + x.obs.interval * 1000000 - off] ++ (if x.suspended then [] else x.ackDue.toList))).map (max s.time)
/-- Does a slice run at a ratio other than its own, with no request for the difference in the way (R381, R388)? [log 79, DEDUCED.] -/
def lags (s : State) (c sl : Nat) : Bool :=
  let x := (core s c).slices.get {} sl
  x.ratio != wantRatio s c sl && !(x.resv != 0 && decide (x.resv < wantRatio s c sl)
    && (clus s (coreClus c)).requests.any (fun r => r.core == c && r.unit_ == sliceUnit sl))
/-- The instants that a cluster's arbiter and its states bound (R382, R394, R395). -/
def clusterBounds (s : State) (c : Nat) : List Nat :=
  let x := clus s c
  (if canGrant s c then [s.time] else [])
  ++ (match x.state with
    | 1 => (quietSince s c).toList.map (fun n => n + 10000)
    | 3 => [x.since + 20000]
    | 5 => if x.railOff then [] else [x.since + 2000]
    | 6 => [x.since + 40000]
    | _ => []).map (max s.time)
/-- The instants by which the spec says that something has happened: an arrival of a special function (R496), a buffer entry's drain (R128),
a steep window (R187), the bound of `wfw` (R346) and of a ratio change (R388), the delivery of a capacitor level (R384), the drain of a reset die (R483), and those
of tokens, messages, the walker, clusters, and what comes in periods. -/
def deadlines (s : State) : List Nat :=
  s.groups.flatMap (fun g => g.2.pend.filterMap (fun p => p.deadline)
    ++ (match g.2.stall with
      | some ⟨.wfw _ _ _ _ _ _, _, since⟩ => [since + 1000000]
      | _ => []))
  ++ s.cores.flatMap (fun c => c.2.wcb.map (fun e => e.first + 1000) ++ (if clocked s c.1 then [max s.time (c.2.steep.start + 1000000)] else [])
    ++ c.2.slices.flatMap (fun x => if lags s c.1 x.1 then x.2.lagAt.toList.map (fun n => max s.time (n + 1000)) else []))
  ++ s.tokens.flatMap (tokenBounds s) ++ netBounds s ++ walkerBounds s ++ periodBounds s ++ s.clusters.flatMap (fun c => clusterBounds s c.1)
  ++ s.dies.flatMap (fun d => d.2.restores.map Prod.fst ++ d.2.resetAt.toList)

/-- What an instant makes of a core: each slice that is not at its ratio notes since when (R388). -/
def notedCore (s : State) (c : Nat) (x : Core) : Core :=
  { x with slices := x.slices.map (fun q => (q.1, { q.2 with lagAt := if lags s c q.1 then some (q.2.lagAt.getD s.time) else none })) }
/-- What an instant makes of a cluster: whether a request waits on its budget (R385), and since when it is quiet (R394). -/
def notedCluster (s : State) (c : Nat) (x : Cluster) : Cluster := { x with waited := x.waited || waitsOnBudget s c, quietAt := quietSince s c }
/-- A die's counter takes the change that its clock keeper has set (R122). -/
def trimmed (now : Nat) (x : Die) : Die :=
  match x.trim with
  | none => x
  | some up => { x with off := if up then x.off + 1 else x.off - 1, trim := none, trimAt := now }
/-- Time goes on to an instant, from one at which nothing more happens (R122); groups that watch registers have seen what changed (R346, R379). -/
def timeTo (now : Nat) (s : State) : State :=
  if now ≤ s.time then s
  else { seeRegs (fun _ _ _ => false) s with
    time := now, dies := s.dies.map (fun d => (d.1, trimmed now d.2))
    clusters := s.clusters.map (fun c => (c.1, notedCluster s c.1 c.2)), cores := s.cores.map (fun c => (c.1, notedCore s c.1 c.2)) }
/-- Time passes, but no instant passes that the spec bounds (log 2). -/
def advance (dt : Nat) (s : State) : State :=
  timeTo (((deadlines s).filter (fun t => decide (s.time ≤ t))).foldl min (s.time + dt)) s

/-! ### What happens next -/

/-- The events by which the module's own work goes on (R53); only the first of them needs more than three arguments. -/
def progressOps : List Instr :=
  [.nodeDispatch, .issueSelect, .clauseEntry, .frontierRelease, .loopBufferFree, .rodepEntriesFree, .continuationGroupForm, .continuationGroupPlace,
   .variableLatencyWriteback, .tblLdReadStart, .tblLdImageWritten, .fenceComplete, .pkgBarrierRelease, .queuePopEntry, .pushRoomResume,
   .busyTokenResume, .aacqGrant, .arelComplete, .slclaimGrant, .slrelComplete, .tileWaitEnd, .xlinvComplete, .gtimeUntilReached, .wfwTimeout]
  ++ [.tqueryHoldEnd, .tokenMoveEffect, .tokenMoveComplete, .shareWaitBound, .holderLostSettlement, .atomicApply, .atomicWindowEnd,
   .wcbDrainTimeout, .writeThroughApply, .requestUnreachable, .hostSnoop, .graphAccept, .nodeComplete, .teamPlace, .teamBlocking,
   .teamPreempt, .teamResume, .teamComplete, .serviceEvaluation, .clusterClear]
  ++ [.slotFillAccept, .copySegmentEnd, .copyComplete, .matrixSegmentStart, .segmentJudge, .matrixCommandComplete, .collectiveStart,
   .collectiveComplete, .steepWindowEnd, .arbiterGrant, .capacitorRestore, .capacitorBankRecovery, .clockRatioChange, .clusterQuiesced, .clusterSaveEnd,
   .clusterRailOff, .clusterRestoreEnd, .dieResetDrainEnd, .counterTick, .energySample, .meteringUpdate, .usageIntervalEnd, .histogramCopy,
   .powerEpoch, .thermalSample, .clockKeeperCheck, .mapAckDeadline, .create, .destroy]
/-- Argument `k` of the event of a number: as numbers grow, the arguments take every combination of values again and again. -/
def turnArg (q k : Nat) : Nat := let m := q.log2.log2; q / 2 ^ (m * k) % 2 ^ m
/-- The event of a turn that brings the module's work on. -/
def progressItem (q : Nat) : Item :=
  let i := turnArg q 0 % progressOps.length
  { dt := 1, op := progressOps.getD i .issueSelect
    ev := { x := turnArg q 1, y := turnArg q 2, z := turnArg q 3, nums := if i = 0 then [turnArg q 4, turnArg q 5] else [] } }
/-- A step as the world outside the module's programs may bring it: only a program's store reaches a cluster block, and of the register pages
the host reaches PF0's and those that a VF shows (R393, R401, R414). -/
def byOutside (op : Instr) (ev : Ev) : Instr × Ev :=
  match op with
  | .clqreq => (.issueSelect, ev)
  | .clsave => (.issueSelect, ev)
  | .clgate => (.issueSelect, ev)
  | .clwake => (.issueSelect, ev)
  | .registerWrite => (op, { ev with x := 1 + ev.x % 2 })
  | .graphSubmit => (op, { ev with flag := true })
  | _ => (op, ev)
/-- The step that happens where nothing is listed: one that nothing fixes, and after every so many of those one by which the module's own
work goes on, so that what R53 promises comes at last. [log 2, DESIGN CHOICE.] -/
def nextItem (s : State) : Item :=
  if s.turn % (Config.fairGap + 1) = Config.fairGap then progressItem (s.turn / (Config.fairGap + 1))
  else
    let ev := Config.nextEv s.free
    let r := byOutside (Config.nextOp s.free) ev
    { dt := Config.nextDelay s.free, op := r.1, ev := r.2 }

end Sys2Proof.Machine
end

