-- ==== Sys2Proof/Machine/Step.lean ====
section
/-!
DEFINITION. The step function: arrivals that have been selected issue first, one word a step; else the next listed step
happens; else one that `nextItem` names (log 1).
-/
namespace Sys2Proof.Machine

/-- One step of the module (R39 to R43, R487). -/
def step (s : State) : Host.Outcome State Fault Refusal :=
  if s.power.lost then .fault .powerLost
  else match s.issuing with
  | a :: rest =>
    match arrive a { s with issuing := rest } with
    | .inl t => .next t
    | .inr (i, t) => exec i t
  | [] =>
    match s.agenda with
    | it :: rest => exec it.op (advance it.dt { s with agenda := rest, ev := it.ev, cur := {} })
    | [] =>
      let it := nextItem s
      exec it.op (advance it.dt { s with free := s.free + 1, turn := s.turn + 1, ev := it.ev, cur := {} })

/-- The virtual address at which `withFetchWord` puts its word. -/
def fetchVa : Nat := 0x100010008

/-- A launch of one team and one group that stands at an address whose bytes are the word, its page mapped on virtual die 0:
what a submitted graph, its placement and its first clause entry leave behind (log 15). -/
def State.withFetchWord (s : State) (nbits w : Nat) : State :=
  let bytes := leBytes (max 16 ((nbits + 7) / 8)) w
  let key := cellKey 0 0 (fetchVa % 2 ^ 16)
  let leaf : DWord := .ofNat 64 (2 ^ 63 + 2 ^ 62 + 3)
  let lanes : Tab Lane := (List.range 32).map (fun l =>
    (l, { pc := .ofNat 64 fetchVa, exited := false, clause := some { hdr := .ofNat 64 (fetchVa - 8), word := .ofNat 64 (15 * 2 ^ 56 + 2 ^ 40) } }))
  { s with
    parts := s.parts.put 0 { part s 0 with state := .ready, ctx := { (part s 0).ctx with vdt := 0x80 } }
    cores := s.cores.put 0 { core s 0 with tlb := ⟨0, fetchVa / 2 ^ 16, leaf, false⟩ :: (core s 0).tlb }
    s2 := { top := s.s2.top.put 0 1, sec := s.s2.sec.put 0 7 }
    launches := s.launches.put 0 { code := cellWrite [] key bytes }
    teams := s.teams.put 0 { state := .resident, everResident := true }
    groups := s.groups.put 0 { budget := 256, resident := true, exited := false, lanes := lanes }
    issuing := { live := true, gid := 0, lanes := 0xFFFFFFFF, pc := .ofNat 64 fetchVa } :: s.issuing }

end Sys2Proof.Machine
end

