-- ==== Sys2Proof/Safety.lean ====
section
/-!
DEFINITION. The terms that the claims use: a sound memory; when a word meets no fault of R439's steps 2 to 5 and 7; and what
a word leaves as it was.
-/
namespace Sys2Proof.Machine

/-- Memory and every team's scratchpad are in canonical form. -/
def State.Canonical (s : State) : Prop := Memory.wf s.mem = true ∧ ∀ t ∈ s.teams, Memory.wf t.2.pad = true

/-! ### Words that nothing stops -/

/-- The registers that a word reads under what governs it (R194, R424). -/
def wordReads (s : State) (i : Instr) : List Reg :=
  (shape s.cur.ext i).rd ++ (if s.cur.hasExt then [Reg.p s.cur.ext.pred.toNat] else [])
    ++ (if s.cur.ext.kind4.toNat = 1 then [Reg.v s.cur.ext.src4.toNat] else [])
/-- The registers that a word writes. -/
def wordWrites (s : State) (i : Instr) : List Reg :=
  (shape s.cur.ext i).wr ++ (if s.cur.ext.kind4.toNat = 1 then [Reg.v s.cur.ext.src4.toNat] else [])
/-- The predicates that decide which lanes a word acts on (R198, R439). -/
def wordGov (s : State) (i : Instr) : List Reg := (shape s.cur.ext i).gov ++ (if s.cur.hasExt then [Reg.p s.cur.ext.pred.toNat] else [])
/-- An arrival issues a word that steps 2 to 4 of R439 do not stop: its encoding is legal, the group's level suffices, no
register that it names is pending for its lanes, and no soft error stands in a register of the group. -/
def ready (i : Instr) (extra : List Nat) (m : Mask) (s : State) : Bool :=
  let g := grp s s.cur.gid
  s.cur.live && (!s.cur.hasExt || (extCodes g.budget s.cur.ext i).isEmpty) && (extra ++ encodingCodes g.budget s.cur.ext i).isEmpty
    && decide ((levelOf i s.cur.ext.sys.num.toNat).1 ≤ g.level)
    && (wordReads s i ++ wordWrites s i).all (fun r => !(pendingFor s s.cur.gid s.cur.lanes m (wordGov s i)).contains r) && g.badRegs.isEmpty
/-- The bound streams of an arrival, for operands of these widths in bits, pass steps 5 and 7 of R439 and no right is on its way
(R214, R441, R450). -/
def streamsOk (wa wb wd : Nat) (s : State) : Bool :=
  !(boundUses s (wa / 8) (wb / 8) (wd / 8)).any (streamBad s) && (firstClass ((streamAccs s wa wb wd).flatMap Prod.snd)).isNone
    && (rightWaits ((streamAccs s wa wb wd).flatMap Prod.snd)).1 == 0
/-- No operand of the arrival stands on a stream (R207). -/
def unbound (s : State) : Bool := s.cur.ext.bindA.isNone && s.cur.ext.bindB.isNone && s.cur.ext.bindD.isNone
/-- Every access of a word is permitted, and none waits for a right that is on its way (R439 step 7, R450). -/
def allPermitted (rs : List (Nat × Except Fail Hit)) : Bool :=
  rs.all (fun r => match r.2 with | .ok _ => true | .error _ => false)

/-! ### What stays -/

/-- Only one group, the counters of partitions and the draw number differ: every byte of memory, scratchpad and cache, every
token, engine, queue of another group and register of another group is as it was. -/
def OnlyGroup (g : Nat) (s t : State) : Prop :=
  t = { s with groups := t.groups, parts := t.parts, free := t.free } ∧ (∀ h, h ≠ g → grp t h = grp s h)
    ∧ ∀ p, part t p = { part s p with ctr := (part t p).ctr }
/-- Of a group only its registers, its lanes' places, its loop buffer, its park and the largest completion time that it has been
returned differ: no queue, barrier wait, fence state, pending write or trap register. -/
def OnlyRegs (g : Nat) (s t : State) : Prop :=
  grp t g = { grp s g with v := (grp t g).v, p := (grp t g).p, k := (grp t g).k, x := (grp t g).x, lanes := (grp t g).lanes,
                           loop := (grp t g).loop, parked := (grp t g).parked, largestC := (grp t g).largestC }
/-- No lane leaves the group, and only lanes of a mask and of the group's loop move (R192, R217). -/
def KeepsLanes (g : Nat) (m : Mask) (s t : State) : Prop :=
  ∀ l, (lane t g l).exited = (lane s g l).exited
    ∧ (m.getLsbD l = false → (grp s g).loop.all (fun b => !b.lanes.getLsbD l) = true → lane t g l = lane s g l)
/-- Every vector register of the group. -/
def KeepsV (g : Nat) (s t : State) : Prop := ∀ l n, vGet t g l n = vGet s g l n
/-- Every predicate of the group. -/
def KeepsP (g : Nat) (s t : State) : Prop := ∀ l n, pGet t g l n = pGet s g l n
/-- Every uniform register of the group but those of a list and the counter of a loop whose pass ends (R217). -/
def KeepsK (g : Nat) (ks : List Nat) (s t : State) : Prop :=
  ∀ n, n ∉ ks → (grp s g).loop.all (fun b => b.k != n) = true → kGet t g n = kGet s g n
/-- The stream registers stand as they were, but that each bound use has advanced its stream by one (R214). -/
def KeepsX (s t : State) : Prop := (grp t s.cur.gid).x = (grp (advanceStreams s.cur s) s.cur.gid).x

/-- What a lane of the arrival receives: its results where it is active, zeros where the zero policy clears it (R208). -/
def received (i : Instr) (out : Nat → LaneOut) (s : State) (l : Nat) : LaneOut :=
  if (active s).getLsbD l then regOut s.cur.ext (out l)
  else if (zeroLanes s).contains l then zeroOut s.cur.ext i else {}
/-- What the last of a list of register writes leaves. -/
def lastOf {α : Type} (n : Nat) (old : α) (l : List (Nat × α)) : α := l.foldl (fun x q => if q.1 = n then q.2 else x) old

/-- Each lane of the arrival that stands in a clause that is no loop clause has moved past the word (R192). -/
def MovesOn (a : Arrival) (s t : State) : Prop :=
  ∀ l, a.lanes.getLsbD l = true → ∀ c, (lane s a.gid l).clause = some c → c.loop = false →
    lane t a.gid l = movedOn a s.time (lane s a.gid l)

/-- What a vector word leaves whose destination is no stream: each lane's result registers and predicates hold what it received
(p0 reads true), the lanes have moved on, and nothing else of the module changes but what `OnlyRegs` names (R192, R208, R210, R224). -/
def VecEffect (i : Instr) (out : Nat → LaneOut) (s t : State) : Prop :=
  let g := s.cur.gid
  OnlyGroup g s t ∧ OnlyRegs g s t ∧ KeepsLanes g s.cur.lanes s t ∧ MovesOn s.cur s t ∧ KeepsK g [] s t ∧ KeepsX s t
    ∧ ((∀ l, ∀ q ∈ (received i out s l).v, q.1 < 256) →
        ∀ l n, l < 32 → n < 256 → vGet t g l n = lastOf n (vGet s g l n) (received i out s l).v)
    ∧ ∀ l n, l < 32 → 0 < n → pGet t g l n = lastOf n (pGet s g l n) (received i out s l).p

/-- What a word leaves that writes one uniform register: kd holds the value, the lanes have moved on, and of the group nothing else
changes (R192, R226). -/
def UniEffect (d : Nat) (x : DWord) (s t : State) : Prop :=
  let g := s.cur.gid
  OnlyGroup g s t ∧ OnlyRegs g s t ∧ KeepsLanes g s.cur.lanes s t ∧ MovesOn s.cur s t ∧ KeepsV g s t ∧ KeepsP g s t
    ∧ (grp t g).x = (grp s g).x ∧ KeepsK g [d] s t ∧ ((grp s g).loop.all (fun b => b.k != d) = true → kGet t g d = x)

/-- The byte that a load of a group finds on its die, if any (R127). -/
def near (s : State) (g key : Nat) : Option Byte := (nearByte s g key).map Prod.fst
/-- Does a place take a group's store: the register page takes none of a level-0 group (R401)? -/
def takesStore (s : State) (g : Nat) (x : Loc) : Bool :=
  match x with
  | .reg _ _ 0 _ => (grp s g).level != 0
  | _ => true
/-- The byte that the last of a list of stores leaves at a place. -/
def lastStored (l : List (Nat × Hit × List Byte)) (x : Loc) : Option Byte :=
  l.foldl (fun o q => match (List.range q.2.2.length).find? (fun i => q.2.1.loc.plus i == x) with
    | some i => q.2.2[i]?
    | none => o) none
/-- The byte that the last of a list of stores of a partition leaves at a line's byte, which lies in memory here or in another module (R124). -/
def lastKept (p : Nat) (l : List (Nat × Hit × List Byte)) (key : Nat) : Option Byte :=
  l.foldl (fun o q => match (List.range q.2.2.length).find? (fun i => memKey p (q.2.1.loc.plus i) == some key) with
    | some i => q.2.2[i]?
    | none => o) none
/-- Stores have left a group: every group of its core reads the last byte stored at a place of memory, be it another module's or a register,
and the byte from before at every other place; scratchpads hold the stored bytes and, elsewhere, those from before; no home has changed yet
(R127, R128). A level-0 group's store to the register page is discarded (R401). -/
def Stored (g : Nat) (l : List (Nat × Hit × List Byte)) (s t : State) : Prop :=
  (∀ h, (grp s h).core = (grp s g).core → ∀ key, near t h key = (lastKept (grp s g).part (l.filter (fun q => takesStore s g q.2.1.loc)) key).orElse (fun _ => near s h key))
    ∧ (∀ i off, cellGet (team t i).pad off = (lastStored l (.pad i off)).getD (cellGet (team s i).pad off)) ∧ t.mem = s.mem
/-- The stores that a bound destination makes: each active lane's result, at the lane's place of the stream, word by word in private space
(R85, R214). -/
def boundStores (wa wb wd : Nat) (out : Nat → LaneOut) (s : State) : List BoundStore :=
  (streamDst s wa wb wd).filterMap (fun d =>
    if (active s).getLsbD d.lane then some ⟨d.lane, d.run.va, d.run.loc, d.bytes (outBytes wd (out d.lane))⟩ else none)
/-- Stores of a bound destination as the places and bytes that `Stored` speaks of. -/
def asStores (l : List BoundStore) : List (Nat × Hit × List Byte) := l.map (fun b => (b.va, { loc := b.loc }, b.bytes))
/-- What a vector word leaves whose destination is a stream: each active lane's result stands at its place of the stream, of the registers
only the fourth source takes a result, the bound streams have advanced by one, the lanes have moved on, and no register of another group
changes (R207, R208, R214, R215). The places are those of `s0`, before the bound sources' lines were fetched. -/
def BoundEffect (wa wb wd : Nat) (i : Instr) (out : Nat → LaneOut) (s0 s t : State) : Prop :=
  let g := s.cur.gid
  Stored g (asStores (boundStores wa wb wd out s0)) s t ∧ (∀ h, h ≠ g → KeepsV h s t ∧ KeepsP h s t ∧ KeepsK h [] s t) ∧ KeepsK g [] s t
    ∧ MovesOn s.cur s t ∧ t.tokens = s.tokens
    ∧ (∀ n, { (grp t g).x.get {} n with ahead := [] } = ({ (grp (advanceStreams s.cur s) g).x.get {} n with ahead := [] } : Stream))
    ∧ ((∀ l, ∀ q ∈ (received i out s l).v, q.1 < 256) →
        ∀ l n, l < 32 → n < 256 → vGet t g l n = lastOf n (vGet s g l n) (received i out s l).v)
    ∧ ∀ l n, l < 32 → 0 < n → pGet t g l n = lastOf n (pGet s g l n) (received i out s l).p

/-- A vector word completes: where nothing stops it, the lines of its bound sources come to the core, and its lanes receive `out` of the
values of its sources, or, where a stream takes its results, store it there. -/
def VecDone (i : Instr) (wa wb wd : Nat) (out : Src → Nat → LaneOut) : Prop :=
  ∀ s, ready i [] (active s) s = true → streamsOk wa wb wd s = true →
    (s.cur.ext.bindD.isNone = true → ∃ t, exec i s = .next t ∧ VecEffect i (out (streamSrc s wa wb wd)) (fetchStreams wa wb wd s) t)
    ∧ (s.cur.ext.bindD.isSome = true → s.Canonical →
        ∃ t, exec i s = .next t ∧ BoundEffect wa wb wd i (out (streamSrc s wa wb wd)) s (fetchStreams wa wb wd s) t)
/-- An integer word of Format R completes with the result of an operation (R224). -/
def IntDone (i : Instr) (f : FR) (wb : Nat) (rt : BitVec 5) (op : IOp) : Prop :=
  VecDone i (tyBits f.ty) wb (tyBits rt) (fun c l =>
    outReg f.d rt (op f.ty f.mo (srcA c l f.a f.ak (tyBits f.ty)) (srcB c l f.b f.bk wb) (srcBits c.s l f.c f.ck (tyBits f.ty))))
/-- An integer word of Format I completes with the result of an operation (R246). -/
def ImmDone (i : Instr) (f : FI) (op : IOp) : Prop :=
  VecDone i (tyBits (immTy f.ty)) (tyBits (immTy f.ty)) (tyBits (immTy f.ty)) (fun c l =>
    outReg f.d (immTy f.ty) (op (immTy f.ty) 0 (srcA c l f.a 0 (tyBits (immTy f.ty))) (immBits (immTy f.ty) f.imm) 0))
/-- A word that writes one uniform register completes with a value (R226). -/
def UniDone (i : Instr) (d : Byte) (val : State → Nat) : Prop :=
  ∀ s, ready i [] s.cur.lanes s = true → ∃ t, exec i s = .next t ∧ UniEffect d.toNat (.ofNat 64 (val s)) s t
/-- A uniform integer word of Format R completes with the result of an operation (R247). -/
def UniIntDone (i : Instr) (f : FR) (rt : BitVec 5) (op : IOp) : Prop :=
  UniDone i f.d (fun s => extTo 64 rt (op f.ty f.mo (uniBits s f.a f.ak (tyBits f.ty)) (uniBits s f.b f.bk (tyBits f.ty))
    (uniBits s f.c f.ck (tyBits f.ty))))
/-- A uniform integer word of Format I completes with the result of an operation (R249). -/
def UniImmDone (i : Instr) (f : FI) (op : IOp) : Prop :=
  UniDone i f.d (fun s => extTo 64 (immTy f.ty) (op (immTy f.ty) 0 (uniBits s f.a 1 (tyBits (immTy f.ty))) (immBits (immTy f.ty) f.imm) 0))

/-- What a vector word of variable latency leaves: its lanes have moved past it, no register has changed yet, and one more write is
pending for its lanes, which holds its destinations, or the stores of its bound destination, until it arrives, within 1 µs (R196, R215,
R496). -/
def LateEffect (wa wb wd : Nat) (i : Instr) (out : Nat → LaneOut) (s0 s t : State) : Prop :=
  let g := s.cur.gid
  (∀ h, h ≠ g → grp t h = grp s h) ∧ t.mem = s.mem ∧ t.teams = s.teams ∧ t.tokens = s.tokens ∧ t.cores = s.cores ∧ t.dies = s.dies
    ∧ KeepsLanes g s.cur.lanes s t ∧ MovesOn s.cur s t ∧ KeepsV g s t ∧ KeepsP g s t ∧ KeepsK g [] s t ∧ KeepsX s t
    ∧ ∃ p vals, (grp t g).pend = (grp s g).pend ++ [p] ∧ p.regs = (shape s.cur.ext i).wr ∧ p.deadline = some (s.time + 1000)
      ∧ p.kind = .values vals (boundStores wa wb wd out s0) ∧ (∀ l, p.lanes.getLsbD l = ((active s).getLsbD l || (zeroLanes s).contains l))
      ∧ ∀ l n x, (l, n, x) ∈ vals ↔ (n, x) ∈ (received i out s l).v
/-- A vector word of variable latency completes. -/
def LateDone (i : Instr) (wa wb wd : Nat) (out : Src → Nat → LaneOut) : Prop :=
  ∀ s, ready i [] (active s) s = true → streamsOk wa wb wd s = true →
    ∃ t, exec i s = .next t ∧ LateEffect wa wb wd i (out (streamSrc s wa wb wd)) s (fetchStreams wa wb wd s) t

/-- What a word leaves that writes predicates of lanes alone: they hold the values given (p0 reads true), the lanes have moved on, and
of the group nothing else changes but a list of uniform registers (R192, R210). -/
def PredEffect (d : Nat) (val : Nat → Bool) (ks : List Nat) (s t : State) : Prop :=
  let g := s.cur.gid
  OnlyGroup g s t ∧ OnlyRegs g s t ∧ KeepsLanes g s.cur.lanes s t ∧ MovesOn s.cur s t ∧ KeepsV g s t ∧ KeepsK g ks s t
    ∧ (grp t g).x = (grp s g).x
    ∧ ∀ l n, l < 32 → 0 < n → pGet t g l n = if n = d ∧ s.cur.lanes.getLsbD l = true then val l else pGet s g l n

/-- What a cross-lane word leaves that writes one uniform register where some lane participates: kd holds the value, else its old one;
the lanes have moved on, a bound source has advanced, and of the group nothing else changes (R278, R280, R283). -/
def CrossEffect (d : Nat) (x : DWord) (s t : State) : Prop :=
  let g := s.cur.gid
  OnlyGroup g s t ∧ OnlyRegs g s t ∧ KeepsLanes g s.cur.lanes s t ∧ MovesOn s.cur s t ∧ KeepsV g s t ∧ KeepsP g s t ∧ KeepsX s t
    ∧ KeepsK g [d] s t ∧ ((grp s g).loop.all (fun b => b.k != d) = true → kGet t g d = if active s = 0 then kGet s g d else x)
/-- A cross-lane word that writes one uniform register completes with a value of its sources. -/
def CrossDone (i : Instr) (wa : Nat) (d : Byte) (val : Src → Nat) : Prop :=
  ∀ s, ready i [] (active s) s = true → streamsOk wa 0 0 s = true →
    ∃ t, exec i s = .next t ∧ CrossEffect d.toNat (.ofNat 64 (val (streamSrc s wa 0 0))) (fetchStreams wa 0 0 s) t
/-- A vector floating-point word of major 0x40 completes: one operation for each half of a packed pair, or for the whole, on operands
whose signs its negations invert (R253, R254). -/
def FpDone (i : Instr) (f : FR) (op : Fmt → Nat → Nat → Nat → Nat → Nat) : Prop :=
  let x2 := f.mo.getLsbD 3
  let w := fpWidth f.ty x2
  VecDone i w w w (fun c l =>
    { v := regsOf f.d.toNat w (halves x2 (op (fmtOf f.ty) c.s.cur.ext.rnd.toNat) (negIf (f.mo.getLsbD 0) f.ty x2 (fpA c l f x2))
        (negIf (f.mo.getLsbD 1) f.ty x2 (fpB c l f x2)) (negIf (f.mo.getLsbD 2) f.ty x2 (fpC c l f x2))) })
/-- A floating-point word with an immediate completes (R261). -/
def FpImmDone (i : Instr) (f : FI) (op : Fmt → Nat → Nat → Nat → Nat) : Prop :=
  VecDone i (tyBits (immTy f.ty)) 0 (tyBits (immTy f.ty)) (fun c l =>
    { v := regsOf f.d.toNat (tyBits (immTy f.ty)) (op (fmtOf (immTy f.ty)) c.s.cur.ext.rnd.toNat (srcA c l f.a 0 (tyBits (immTy f.ty))) (fpImm (immTy f.ty) f.imm)) })
/-- A special function completes with the FP32 function of its operand, widened to FP32 and rounded to its type (R268). -/
def SpecialDone (i : Instr) (f : FR) (fn : Nat) : Prop :=
  LateDone i (tyBits f.ty) 0 (tyBits f.ty) (fun c l =>
    let a := fpA c l f false
    let r := spF32 fn (.ofNat 32 (if f.ty.toNat = 12 then a else pack fmtF32 0 0 false (unpack (fmtOf f.ty) a)))
    { v := [(f.d.toNat, .ofNat 32 (if f.ty.toNat = 12 then r else pack (fmtOf f.ty) 0 0 false (unpack fmtF32 r)))] })

/-! ### The judgement's order and exceptions -/

/-- The lanes S that a word's faults of steps 2 to 6 cover: those that a control word's predicate takes, every issuing lane of a word
without a predicate, else the active lanes (R439). -/
def sOf (i : Instr) (s : State) : Mask :=
  match i with
  | .bra f | .brxV f | .brxK f | .call f | .callV f | .callK f | .ret f | .exit f | .loop f | .elect f | .electK f => takers s f
  | _ =>
    let m := major i
    if m = 0 || m = 7 || (0x38 ≤ m && m ≤ 0x3F) || (0xCB ≤ m && m ≤ 0xD8) then s.cur.lanes else active s
/-- The encoding codes that only a word's place or the target in its register decide (R192, R229, R232, R432). -/
def placeCodes (i : Instr) (s : State) : List Nat :=
  match i with
  | .brxV f | .ret f => badTarget f (vList f.a.toNat 2) (pairTarget f) s
  | .brxK f => badTarget f [.k f.a.toNat] (uniTarget f) s
  | .call _ => notLast s
  | .callV f => notLast s ++ badTarget f (vList f.a.toNat 2) (pairTarget f) s
  | .callK f => notLast s ++ badTarget f [.k f.a.toNat] (uniTarget f) s
  | .loop _ =>
    let w : DWord := match fetchWord s s.cur.gid (s.cur.pc + 8).toNat with
      | .ok w => w
      | .error _ => 0
    if (notLast s).isEmpty && !isLoop w then [0xD] else notLast s
  | _ => []
/-- Every encoding code that the arrival's word breaks, the extension word's first (R439 step 2). -/
def brokenCodes (i : Instr) (s : State) : List Nat :=
  let b := (grp s s.cur.gid).budget
  let ec := if s.cur.hasExt then extCodes b s.cur.ext i else []
  if ec.isEmpty then placeCodes i s ++ encodingCodes b s.cur.ext i else ec

/-- Every byte of memory at its home and of every scratchpad reads as before. -/
def SameBytes (s t : State) : Prop :=
  (∀ k, cellGet t.mem k = cellGet s.mem k) ∧ ∀ i k, cellGet (team t i).pad k = cellGet (team s i).pad k
/-- Every other group is as it was, and of a group no vector register, predicate or uniform register but those of a list (and a running
loop's counter) differs; every byte of memory reads as before. -/
def Framed (g : Nat) (ks : List Nat) (s t : State) : Prop :=
  SameBytes s t ∧ (∀ h, h ≠ g → grp t h = grp s h) ∧ KeepsV g s t ∧ KeepsP g s t ∧ KeepsK g ks s t
/-- The group stalls at the word that has issued: only its stall and the draw number differ, and it neither issues nor enters a clause
(R311). -/
def Stalls (k : StallKind) (s t : State) : Prop :=
  t = { s with groups := t.groups, free := t.free } ∧ (∀ h, h ≠ s.cur.gid → grp t h = grp s h)
    ∧ grp t s.cur.gid = { grp s s.cur.gid with stall := some ⟨k, s.cur, s.time⟩ } ∧ canGo t s.cur.gid = false
/-- A stalled word has completed: the group is stalled no longer, its lanes have moved past the word, and its registers but uniform
registers of a list are as they were (R311). -/
def Resumes (g : Nat) (x : Stall) (ks : List Nat) (s t : State) : Prop :=
  (grp t g).stall = none ∧ KeepsV g s t ∧ KeepsP g s t ∧ KeepsK g ks s t ∧ (∀ h, h ≠ g → grp t h = grp s h)
    ∧ ∀ l, x.arr.lanes.getLsbD l = true → ∀ c, (lane s g l).clause = some c → c.loop = false →
        lane t g l = movedOn x.arr s.time (lane s g l)

/-- The clause at a header as the pass that would begin there uses it (R216, R217). -/
def clauseAt (s : State) (g : Nat) (h w : DWord) : Clause :=
  { hdr := h, word := w, loop := isLoop w, pass := bits (kGet s g (loopReg s g h)) 63 32 }
/-- The tile or slot number that the clause at a header waits on (R217). -/
def tileAt (s : State) (g : Nat) (h w : DWord) : Nat := tileNo w (incWord s g h) (isLoop w) (bits (kGet s g (loopReg s g h)) 63 32)
/-- Conditions 1 to 3 of R194 hold for the lanes that would enter at a header, and the frontier does not hold them (R45): the group may issue,
the pass may begin, the tokens and the tile that the header names are idle and ready, and no register that its words name is pending. -/
def mayPass (s : State) (g : Nat) (h w : DWord) : Prop :=
  canGo s g = true ∧ (team s (grp s g).team).goal = 0 ∧ (part s (grp s g).part).suspended = false ∧ fetchWord s g h.toNat = .ok w
    ∧ entrants s g h w ≠ 0 ∧ passOpen s g h w = true
    ∧ (∀ i, i < 8 → w.toNat.testBit (48 + i) = true → ((grp s g).c.get {} i).busy = false)
    ∧ (bits w 41 41 = 1 → tileAt s g h w < 40 → (tileReady s (grp s g).core (tileAt s g h w)).1 = true)
    ∧ ∀ l, l < 32 → (entrants s g h w).getLsbD l = true → ∀ r ∈ wordRegs Ext.plain (clauseWords s g (clauseAt s g h w)), r ∉ pendingRegs s g (Mask.one l)
/-- The lanes that would enter came by ways that the header admits, no breakpoint stops them, and the header breaks no check (R372, R432,
R436). -/
def soundEntry (s : State) (g : Nat) (h w : DWord) : Prop :=
  (firstPass s g h w = true → wrongWay s g w (entrants s g h w) = 0)
    ∧ (isTarget s g && isArmed s (grp s g).part h && entrants s g h w &&& ~~~(grp s g).passBp != 0) = false
    ∧ headerCode w (incWord s g h) (clauseWords s g (clauseAt s g h w)) (tileAt s g h w) false (firstPass s g h w) = 0
/-- A loop whose count is 0 at its first pass: its lanes pass it by (R217, R232). -/
def skipsLoop (s : State) (g : Nat) (h w : DWord) : Bool := isLoop w && firstPass s g h w && bits (kGet s g (loopReg s g h)) 31 0 == 0
/-- A clause whose words draw on the slice's reservation, which the slice does not hold (R194, R381). -/
def needsResv (s : State) (g : Nat) (h w : DWord) : Bool :=
  (clauseWords s g (clauseAt s g h w)).any (fun q => 0x40 ≤ bits q.2 63 56 && bits q.2 63 56 ≤ 0x8F)
    && ((core s (grp s g).core).slices.get {} (grp s g).slice).resv == 0

/-! ### The reorder unit -/

/-- The entries of one team and key, in deposit order (R49). -/
def entriesOf (dep : List Deposit) (t k : Nat) : List Deposit := dep.filter (fun d => d.team == t && d.key == k)
/-- The teams that a list of entries names, and the keys of one of them, each once. -/
def teamsIn (dep : List Deposit) : List Nat := (dep.map (fun d => d.team)).eraseDups
def keysIn (dep : List Deposit) (t : Nat) : List Nat := ((dep.filter (fun d => d.team == t)).map (fun d => d.key)).eraseDups
/-- The groups that a flush forms for a team: of up to 32 entries from every key that it holds, in ascending key order (R50 case 2). -/
def flushed (dep : List Deposit) (t : Nat) : List Formed :=
  ((keysIn dep t).mergeSort (fun a b => decide (a ≤ b))).flatMap (fun k =>
    (List.range (((entriesOf dep t k).length + 31) / 32)).map (fun i => ⟨t, k, ((entriesOf dep t k).drop (32 * i)).take 32⟩))
/-- The groups that case 1 of R50 forms at once: the first 32 entries of each team and key that holds 32. -/
def filled (dep : List Deposit) : List Formed :=
  (teamsIn dep).flatMap (fun t => ((keysIn dep t).filter (fun k => decide (32 ≤ (entriesOf dep t k).length))).map (fun k =>
    ⟨t, k, (entriesOf dep t k).take 32⟩))
/-- A team of which every group that has not exited is a continuation group parked with no result outstanding (R50 case 3). -/
def teamIdle (s : State) (t : Nat) : Bool :=
  (liveGroups s t).all (fun g => (grp s g).cont && isParked (grp s g) && (grp s g).pend.all (fun p => !mustArrive p))
/-- A team with a group that may still add deposits, or that a write on its way may yet wake (R50 case 3). -/
def depositsOpen (s : State) (t : Nat) : Prop :=
  ∃ g ∈ liveGroups s t, g < s.ids.group ∧ ((grp s g).cont && isParked (grp s g) && (grp s g).pend.all (fun p => !mustArrive p)) = false
/-- A group is the continuation group of a formed group: it runs in the team's place and at its consumer budget from the continuation entry;
lane i holds the i-th entry's payload and the key and bears its name; the lanes above start exited (R51, R52). -/
def ContGroup (u : State) (g : Nat) (f : Formed) : Prop :=
  let l := launch u (team u f.team).launch
  let x := grp u g
  x.team = f.team ∧ x.cont = true ∧ x.consumer = true ∧ x.resident = true ∧ x.exited = false ∧ x.core = (team u f.team).core
    ∧ x.budget = l.record.cBudget ∧ kGet u g 0 = l.record.args ∧ x.stops = [] ∧ x.waits = [] ∧ x.pend = []
    ∧ (∀ i (d : Deposit), f.taken[i]? = some d → (lane u g i).exited = false ∧ (lane u g i).clause = none ∧ (lane u g i).pc = l.record.cont
        ∧ laneName u g i = d.name ∧ vGet u g i 0 = d.payload.setWidth 32 ∧ vGet u g i 1 = (d.payload >>> 32).setWidth 32
        ∧ vGet u g i 2 = .ofNat 32 f.key ∧ ∀ n, 3 ≤ n → n < 256 → vGet u g i n = 0)
    ∧ ∀ i, f.taken.length ≤ i → i < 32 → (lane u g i).exited = true
/-- The reorder unit of a core has formed groups, in this order: their entries have left it, each has become a group of the next number or
waits in the unit, and each has left its key and its number of entries in its team's q8, which keeps the latest 64 (R49 to R52, R315). -/
def FormedAs (c : Nat) (l : List Formed) (s u : State) : Prop :=
  SameBytes s u ∧ (∀ g, g < s.ids.group → grp u g = grp s g)
    ∧ (∀ t k, entriesOf (core u c).deposits t k
        = (entriesOf (core s c).deposits t k).drop (((l.filter (fun f => f.team == t && f.key == k)).map (fun f => f.taken.length)).sum))
    ∧ (∃ placed waiting : List Formed, placed.Sublist l ∧ waiting.Sublist l ∧ placed.length + waiting.length = l.length
        ∧ (core u c).formed = (core s c).formed ++ waiting ∧ u.ids.group = s.ids.group + placed.length
        ∧ ∀ i f, placed[i]? = some f → ContGroup u (s.ids.group + i) f)
    ∧ ∀ t, (launch s (team s t).launch).record.p + (launch s (team s t).launch).record.c ≤ 32 →
        (team s t).q8.length + (l.filter (fun f => f.team == t)).length ≤ 64 →
        let seen := fun (e : DWord × Ante) => (bits e.1 47 32, bits e.1 31 16)
        (team u t).q8.map seen = (team s t).q8.map seen ++ (l.filter (fun f => f.team == t)).map (fun f => (f.key % 2 ^ 16, f.taken.length))

/-! ### Memory -/

/-- Only what caches hold, the horizons of lines, and the counts and metering of bytes moved differ (R124 to R126, R368). -/
def OnlyCaches (s t : State) : Prop := t = { s with cores := t.cores, dies := t.dies, lines := t.lines, parts := t.parts }
/-- Lines have come to the core of a group that read them: besides what `OnlyCaches` names, only the largest completion time that the group
has been returned differs (R130). -/
def Fetched (g : Nat) (s t : State) : Prop :=
  t = { s with cores := t.cores, dies := t.dies, lines := t.lines, parts := t.parts, groups := t.groups }
    ∧ (∀ h, h ≠ g → grp t h = grp s h) ∧ grp t g = { grp s g with largestC := (grp t g).largestC }

/-- Nothing waits at the two neighbours, of a size, of the region at a base (R116). -/
def quietBeside (s : State) (p base size : Nat) : Prop :=
  ∀ y ∈ s.tokens, y.part = p → (y.base = base + 2 ^ size ∨ y.base + 2 ^ size = base) → y.waiting = []
/-- Every group's registers are as they were, but uniform registers of a list in one group. -/
def RegsKept (g : Nat) (ks : List Nat) (s t : State) : Prop :=
  ∀ h, KeepsV h s t ∧ KeepsP h s t ∧ KeepsK h (if h = g then ks else []) s t
/-- The stream registers of a group stand as they were, but for what they have read ahead (R213, R215). -/
def StreamsKept (g : Nat) (s t : State) : Prop :=
  ∀ n, { (grp t g).x.get {} n with ahead := [] } = ({ (grp s g).x.get {} n with ahead := [] } : Stream)
/-- A write-through has been applied at its home, whose line has a horizon `h`: memory holds the bytes of the message, the message is gone, W is no
earlier than the horizon, and it is the line's completion time and acknowledged to the groups that wrote (R130). -/
def Applied (m : Msg) (h : Nat) (s t : State) : Prop :=
  let w := max (gtime s (lineHome m.line)) h
  (∀ key, cellGet t.mem key = if m.line * 128 ≤ key then lastOf (key - m.line * 128) (cellGet s.mem key) m.bytes else cellGet s.mem key)
    ∧ (∀ i, (team t i).pad = (team s i).pad) ∧ t.net.msgs = s.net.msgs.filter (fun x => x.id != m.id) ∧ RegsKept 0 [] s t
    ∧ (m.bytes ≠ [] → (lineSt t m.line).c = w ∧ ∀ g ∈ m.gids, (grp t g).largestW = max (grp s g).largestW w)

/-! ### Pushes -/

/-- May the `i`-th command of a push be accepted after those before it: its token is idle and none of them took it, and the engine's queue and the
group's count of commands have room (R180, R316, R325, R328)? -/
def pushFits (s : State) (arr : Arrival) (blocks : List (Nat × Nat × List Byte)) (i : Nat) : Prop :=
  let x := grp s arr.gid
  let tok := fun (j : Nat) => (blocks[j]?).bind (fun b => pushTok s arr b.1 b.2.2)
  (∀ n, tok i = some n → (ctok s arr.gid n).busy = false ∧ ∀ j, j < i → tok j ≠ some n)
    ∧ (match bits arr.word 63 56 with
      | 0xE1 => (core s x.core).mq.length + i < 16 ∧ x.held1 + i < 16
      | 0xE2 => (chan s x.core (pushChan arr)).queue.length + i < 16
          ∧ ∀ b, blocks[i]? = some b → (parseCopy b.2.2).status = true → x.held3 + ((blocks.take i).filter (fun q => (parseCopy q.2.2).status)).length < 16
      | _ => x.held5 + i < 16)
/-- What the commands of a push's first lanes leave once they are accepted, in ascending order of lane: each stands at the end of its engine's queue
with its block, its token is busy, and it counts among its group's commands; a matrix command holds its tile filling and its slots read; a
fill whose slot no command reads makes the slot filling (R173, R179, R316, R321, R329). -/
def PushedAll (arr : Arrival) (l : List (Nat × Nat × List Byte)) (s t : State) : Prop :=
  let g := arr.gid
  let c := (grp s g).core
  (∀ x, (ctok t g x).busy = ((ctok s g x).busy || l.any (fun b => pushTok s arr b.1 b.2.2 == some x)))
    ∧ (bits arr.word 63 56 = 0xE1 →
        let blk := fun (b : Nat × Nat × List Byte) => parseBlock b.2.2 (clauseMode s g b.1)
        (∃ q, (core t c).mq = (core s c).mq ++ q ∧ q.map (fun (k : MCmd) => (k.block, k.who.lane, k.seg)) = l.map (fun b => (blk b, b.1, 0)))
          ∧ (grp t g).held1 = (grp s g).held1 + l.length
          ∧ (∀ n, (tileEnt t c n).pending = (tileEnt s c n).pending + (l.filter (fun b => (blk b).tile == n)).length)
          ∧ (∀ b ∈ l, (tileEnt t c (blk b).tile).state = .filling)
          ∧ ∀ n, (slotEnt t c n).readers = (slotEnt s c n).readers + (l.filter (fun b => (blockSlots (blk b)).contains n)).length)
    ∧ (bits arr.word 63 56 = 0xE2 →
        let ch := pushChan arr
        (chan t c ch).queue.map (fun k => k.desc) = (chan s c ch).queue.map (fun k => k.desc) ++ l.map (fun b => parseCopy b.2.2)
          ∧ (grp t g).held3 = (grp s g).held3 + (l.filter (fun b => (parseCopy b.2.2).status)).length
          ∧ ((∀ k ∈ (chan s c ch).queue, k.id < s.ids.msg) → ∀ b ∈ l, (parseCopy b.2.2).kind = 1 → (slotEnt s c (parseCopy b.2.2).slot).readers = 0 →
              (slotEnt t c (parseCopy b.2.2).slot).state = .filling))
    ∧ (bits arr.word 63 56 = 0xE3 →
        (∃ q, t.net.colls.map (fun k => { k with last := {} }) = (s.net.colls ++ q).map (fun k => { k with last := {} }) ∧ q.map (fun (k : CollCmd) => (k.op, k.combine, k.ty, k.n, k.key, k.rank, k.m, k.src, k.dst, k.root)) = l.map (fun b =>
            let k := parseColl b.2.2 0 (issuerOf s arr b.1) 0 0 0 0; (k.op, k.combine, k.ty, k.n, k.key, k.rank, k.m, k.src, k.dst, k.root)))
          ∧ (l ≠ [] → ∀ x, t.net.colls.getLast? = some x → ∀ k ∈ t.net.colls, sameInst k x = true → k.last = x.who.pushEvent)
          ∧ (grp t g).held5 = (grp s g).held5 + l.length)
/-- A push whose group's earlier writes are acknowledged and whose blocks are read: the commands of its lanes are accepted in ascending order up to the first that does not
fit; with all accepted the lanes go on, else the group stays stalled with the rest, on the busy token if that is what the next one lacks (R145,
R311, R316). -/
def PushTakes (arr : Arrival) (left : Mask) (blocks : List (Nat × Nat × List Byte)) (mark since : Nat) (s t : State) : Prop :=
  let g := arr.gid
  SameBytes s t ∧ RegsKept 0 [] s t
    ∧ ∀ n, n ≤ blocks.length → (∀ i, i < n → pushFits s arr blocks i) → (n < blocks.length → ¬ pushFits s arr blocks n) →
        PushedAll arr (blocks.take n) s t
        ∧ (n = blocks.length → MovesOn arr s t ∧ (grp t g).stall = none)
        ∧ (n < blocks.length → (∀ l, lane t g l = lane s g l)
            ∧ ∃ b, (grp t g).stall = some ⟨.push b ((blocks.take n).foldl (fun x q => x &&& ~~~(Mask.one q.1)) left) (blocks.drop n) mark, arr, since⟩
                ∧ ∀ x, b = some x → (blocks[n]?).bind (fun q => pushTok s arr q.1 q.2.2) = some x)

/-- The walker has stored bytes: at their homes, where nothing older of its own is on its way, the host caches none of the lines and no shut port
lies between; else they are on
their way, in order; a store that faults leaves memory as it was and makes a record (R56, R148, R452). -/
def WalkerStored (p va : Nat) (l : List Byte) (s t : State) : Prop :=
  match walkerKeys s p va l.length with
  | .error _ => (s.host.fltSize = 0 → t.mem = s.mem) ∧ Output.msix 0 1 ∈ t.host.out
  | .ok ks =>
    let now := walkerMsgs s p = [] ∧ ∀ k ∈ ks, isFar (lineOf k) = false ∧ portShut s (lineOf k) = false ∧ s.marks.hostLines.contains (lineOf k) = false
    (now → s.Canonical → ∀ k, cellGet t.mem k = lastOf k (cellGet s.mem k) (ks.zip l))
      ∧ (¬ now →
        t.mem = s.mem ∧ ∀ (i k : Nat) (b : Byte), ks[i]? = some k → l[i]? = some b → (∀ j, i < j → ks[j]? ≠ some k) →
          ∃ m ∈ t.net.msgs, m.core = walkerCore ∧ m.part = p ∧ m.line = lineOf k ∧ m.bytes.get 0 (k % 128) = b)
/-- An engine has accepted the command of a node on a core: the command stands in the channel's queue or is the die's collective engine's, and the
node is running (R60, R67, R327). -/
def NodeAccepted (p g n c ch : Nat) (w t : State) : Prop :=
  let x := nodeOf w p g n
  t.mem = w.mem ∧ (x.decls = [] → t.groups = w.groups) ∧ (nodeOf t p g n).state = .running
    ∧ (x.kind = 1 → ∃ k, (chan t c ch).queue = (chan w c ch).queue ++ [k] ∧ k.desc = parseCopy x.raw ∧ k.addr = x.object.toNat ∧ k.who.gid = none
        ∧ (k.who.graph, k.who.node) = (g, n))
    ∧ (x.kind = 2 → ∃ k, t.net.colls.map (fun (y : CollCmd) => { y with last := {} }) = (w.net.colls ++ [k]).map (fun (y : CollCmd) => { y with last := {} }) ∧ k.who.gid = none ∧ (k.who.graph, k.who.node) = (g, n) ∧ k.core = c ∧ k.addr = x.object.toNat
        ∧ k.started = false)

/-! ### Fences and atomics -/

/-- A fence of a scope completes as it begins: the accesses before it meet its first condition and its bound has passed (R132). -/
def fenceNow (u : State) (g scope : Nat) : Bool :=
  fenceFirst u g scope u.ids.msg && (decide (scope < 3) || decide (fenceBound u g scope < gtime u (grpDie u g)))
/-- No wait of the group carries a number that is still to be given, no lane of the arrival waits, and the group is not stalled. -/
def waitsOld (s : State) : Prop :=
  (∀ w ∈ (grp s s.cur.gid).waits, w.id < s.ids.msg) ∧ waitingLanes s s.cur.gid &&& s.cur.lanes = 0 ∧ (grp s s.cur.gid).stall = none
/-- The lanes of a wait that stand in a clause that is no loop clause's have moved past its word. -/
def PassedWait (g : Nat) (w : LWait) (s t : State) : Prop :=
  ∀ l, w.lanes.getLsbD l = true → ∀ c, (lane s g l).clause = some c → c.loop = false →
    lane t g l = movedOn { gid := g, lanes := w.lanes, pc := w.pc } s.time (lane s g l)
/-- One more wait of the issuing group, of the arrival's lanes: no lane moves. -/
def WaitsOn (k : WaitKind → Prop) (s t : State) : Prop :=
  ∃ w, (grp t s.cur.gid).waits = (grp s s.cur.gid).waits ++ [w] ∧ w.lanes = s.cur.lanes ∧ w.pc = s.cur.pc ∧ k w.kind
    ∧ ∀ l, lane t s.cur.gid l = lane s s.cur.gid l

/-- An atomic word's access, operation, whether it returns a value, and the predicate it writes (R297). -/
def atomKind : Instr → Option (FM × Nat × Bool × Nat)
  | .atomAdd f => some (f, 0, true, 0)
  | .atomMin f => some (f, 1, true, 0)
  | .atomMax f => some (f, 2, true, 0)
  | .atomAnd f => some (f, 3, true, 0)
  | .atomOr f => some (f, 4, true, 0)
  | .atomXor f => some (f, 5, true, 0)
  | .atomExch f => some (f, 6, true, 0)
  | .atomCas pd f => some (f, 7, true, pd.toNat)
  | .atomLd f => some (f, 8, true, 0)
  | .atomSt f => some (f, 6, false, 0)
  | .redAdd f => some (f, 0, false, 0)
  | .redMin f => some (f, 1, false, 0)
  | .redMax f => some (f, 2, false, 0)
  | .redAnd f => some (f, 3, false, 0)
  | .redOr f => some (f, 4, false, 0)
  | .redXor f => some (f, 5, false, 0)
  | _ => none

end Sys2Proof.Machine
end

