-- ==== Sys2Proof/Certificates/Slice0/Obligations.lean ====
section
/-!
DEFINITION. The statements for the provers: what the words and the events of the module do, as the spec's rules state it.
-/
open Sys2Proof Sys2Proof.Machine

/-! ### The decoder, the step and reset -/

/-- What the module does at a step: with an arrival selected whose word decodes, `step` is `exec` of that instruction with the
arrival made current, the word under an extension word when one stands before it; with nothing selected it is `exec` of the next
listed event after the time that passes before it, and with none listed of an event that nothing fixes (R38, R43, R207).
Where the spec leaves a point open, this follows the model's choice, log 1, 2. -/
def Obligations.StepRunsTheDecodedInstruction : Prop :=
  ∀ s : State, s.power.lost = false →
    (∀ a rest c w i, s.issuing = a :: rest → (lane s a.gid (lowest a.lanes)).clause = some c →
        clauseWord s a.gid c a.pc.toNat = .ok w → bits w 63 56 ≠ 0xFE → decode w = .ok i →
        step s = exec i { s with issuing := rest, cur := { a with live := true, word := w, ext := guardOf w, hasExt := false } })
    ∧ (∀ a rest c w w2 e i, s.issuing = a :: rest → (lane s a.gid (lowest a.lanes)).clause = some c →
        clauseWord s a.gid c a.pc.toNat = .ok w → bits w 63 56 = 0xFE → decodeExt w = .ok e →
        a.pc.toNat + 8 < (nextHeader c).toNat → clauseWord s a.gid c (a.pc.toNat + 8) = .ok w2 → decode w2 = .ok i →
        step s = exec i { s with issuing := rest, cur := { a with live := true, word := w2, ext := e, hasExt := true } })
    ∧ (∀ it rest, s.issuing = [] → s.agenda = it :: rest →
        step s = exec it.op (advance it.dt { s with agenda := rest, ev := it.ev, cur := {} }))
    ∧ (s.issuing = [] → s.agenda = [] →
        let it := nextItem s
        step s = exec it.op (advance it.dt { s with free := s.free + 1, turn := s.turn + 1, ev := it.ev, cur := {} }))

/-- A word of a clause that is no loop clause is the eight bytes at its address, little-endian, as they stood when the launch began,
where the address translates to memory that holds no lost data (R38, R189). -/
def Obligations.FetchReadsTheLaunchsCode : Prop :=
  ∀ (s : State) (g : Nat) (c : Clause) (addr : Nat) (h : Hit) (key : Nat), c.loop = false →
    translate s (grp s g).part (grp s g).core addr 8 .fetch = .ok h → h.loc = .cell key →
    (∀ i, i < 8 → isPoison s (key + i) = false) →
    ∃ w : DWord, clauseWord s g c addr = .ok w
      ∧ ∀ i, i < 8 → BitVec.ofNat 8 (w.toNat / 256 ^ i) = cellGet (launch s (team s (grp s g).team).launch).code (key + i)

/-- Words that the spec writes out decode to the instructions that it says they are (R206, R228, R235, R254, R291, R317, R339). -/
def Obligations.SpecWordsDecode : Prop :=
  decode 0x0000000000000000 = .ok .nop
    ∧ decode 0x0100000700000005 = .ok (.bra { d := 0, a := 0, pred := 3, neg := true, off := 5 })
    ∧ decode 0x2000506070030200 = .ok (.add { d := 5, a := 6, ak := 0, b := 7, bk := 3, c := 0, ck := 0, ty := 2, mo := 0 })
    ∧ decode 0x4030A0B0C0D00C04 = .ok (.fma { d := 10, a := 11, ak := 0, b := 12, bk := 0, c := 13, ck := 0, ty := 12, mo := 4 })
    ∧ decode 0x70203033DCCCCCDC = .ok (.fmulImm { d := 3, a := 3, imm := 0x3DCCCCCD, ty := 0xC })
    ∧ decode 0xCB00000000000005 = .ok (.fence { d := 0, a := 0, b := 0, ak := 0, bk := 0, id := 0, scope := 5 })
    ∧ decode 0xFFFFFFFFFFFFFFFF = .error .permanent

/-- DECODE AND ENCODE AGREE: whatever its fields hold, an instruction that the machine encodes is what the decoder reads from its
word (R189, R199 to R206, R317, R334). -/
def Obligations.DecodeOfEncode : Prop := ∀ (i : Instr) (w : DWord), encode i = some w → decode w = .ok i

/-- No two words are one instruction under one guard: a word that the decoder reads is the word of its instruction under its guard. -/
def Obligations.WordOfDecode : Prop := ∀ (w : DWord) (i : Instr), decode w = .ok i → encodeGuard (guardOf w) i = some w

/-- Every step that the model has a meaning for completes, whatever the state: no word and no event of the table ends in a fault or
a refusal.
Where the spec leaves a point open, this follows the model's choice, log 1. -/
def Obligations.EveryInstructionCompletes : Prop := ∀ (i : Instr) (s : State), ∃ t, exec i s = .next t

/-- What the module holds after reset: no partition, group, team, launch, token or trap exists, no time has passed, memory lists nothing,
every mapped unit tests itself at map version 1, every capacitor bank is full and every slice's ratio is 8
(the values that the spec gives; the others are the model's, log 3, 4, 5). -/
def Obligations.ResetHolds : Prop :=
  State.reset.map.version = 1 ∧ (∀ n, (State.reset.map.entries.get {} n).state = 1)
    ∧ (∀ d, (die State.reset d).cap = 1024 ∧ (die State.reset d).bankLow = false ∧ (die State.reset d).split = 6)
    ∧ (∀ c sl, ((Machine.core State.reset c).slices.get {} sl).ratio = 8) ∧ (∀ p, (part State.reset p).state = .free)
    ∧ (∀ c n, ((Machine.core State.reset c).tileE.get {} n).state = .empty ∧ ((Machine.core State.reset c).slotE.get {} n).state = .empty)
    ∧ (∀ c, (Machine.core State.reset c).bank = 0) ∧ State.reset.power.t1 = 95 ∧ State.reset.power.t2 = 105 ∧ State.reset.power.t3 = 120
    ∧ State.reset.issuing = [] ∧ State.reset.traps = [] ∧ State.reset.tokens = []
    ∧ State.reset.groups = [] ∧ State.reset.teams = [] ∧ State.reset.launches = [] ∧ State.reset.mem = [] ∧ State.reset.time = 0

/-- The memory of reset has the canonical form.
Where the spec leaves a point open, this follows the model's choice, log 4. -/
def Obligations.ResetIsCanonical : Prop := State.reset.Canonical

/-- AN INVARIANT THAT EVERY STEP KEEPS: memory and every team's scratchpad stay in canonical form, so that equal memories are equal
data.
Where the spec leaves a point open, this follows the model's choice, log 4. -/
def Obligations.StepKeepsMemoryCanonical : Prop := ∀ s t : State, s.Canonical → step s = .next t → t.Canonical

/-! ### Integer words -/

/-- An add, subtract, multiply, negate, minimum or maximum of any type is the operation of that width modulo 2^w; the high product is the
floor of the product over 2^w; the saturating forms clamp and never wrap; an absolute value wraps like the rest.
A result is reduced modulo 2^w and then extended: by its sign for a signed type, by zeros else; to 32 bits in a vector register and
to 64 in a uniform register.
Division: by zero the quotient is −1 and the remainder the dividend; the signed overflow gives the dividend and 0; else the quotient
is truncated toward zero and the remainder takes the sign of the dividend. -/
def Obligations.IntegerArithmetic : Prop :=
  (
    ∀ (t : BitVec 5) (mo : Byte) (a b c : Nat), t.toNat ≤ 10 →
      let w := tyBits t
      let x := BitVec.ofNat w a
      let y := BitVec.ofNat w b
      let z := BitVec.ofNat w c
      BitVec.ofInt w (opAdd t mo a b c) = x + y ∧ BitVec.ofInt w (opSub t mo a b c) = x - y
        ∧ BitVec.ofInt w (opMul t mo a b c) = x * y ∧ BitVec.ofInt w (opMad t mo a b c) = x * y + z ∧ BitVec.ofInt w (opNeg t mo a b c) = -x
        ∧ opMulHi t mo a b c = (if t.toNat < 4 then x.toInt * y.toInt / 2 ^ w else (x.toNat * y.toNat / 2 ^ w : Nat))
        ∧ BitVec.ofInt w (opMin t mo a b c) = (if (if t.toNat < 4 then x.sle y else x.ule y) then x else y)
        ∧ BitVec.ofInt w (opMax t mo a b c) = (if (if t.toNat < 4 then x.sle y else x.ule y) then y else x)
        ∧ (t.toNat < 4 → BitVec.ofInt w (opAbs t mo a b c) = (if x.msb then -x else x))
        ∧ (t.toNat < 4 → opAddSat t mo a b c = max (-2 ^ (w - 1)) (min (2 ^ (w - 1) - 1) (x.toInt + y.toInt))
            ∧ opSubSat t mo a b c = max (-2 ^ (w - 1)) (min (2 ^ (w - 1) - 1) (x.toInt - y.toInt)))
        ∧ (4 ≤ t.toNat → opAddSat t mo a b c = min (2 ^ w - 1) ((x.toNat : Int) + y.toNat)
            ∧ opSubSat t mo a b c = max 0 ((x.toNat : Int) - y.toNat)))
  ∧ (
    ∀ (t : BitVec 5) (x : Int), t.toNat ≤ 10 →
      let r := BitVec.ofInt (tyBits t) x
      BitVec.ofNat 64 (extTo 64 t x) = (if t.toNat < 4 then r.signExtend 64 else r.zeroExtend 64)
        ∧ (tyBits t ≤ 32 → BitVec.ofNat 32 (extTo 32 t x) = (if t.toNat < 4 then r.signExtend 32 else r.zeroExtend 32)))
  ∧ (
    ∀ (t : BitVec 5) (mo : Byte) (a b c : Nat), t.toNat < 8 →
      let w := tyBits t
      let x := BitVec.ofNat w a
      let y := BitVec.ofNat w b
      (y = 0 → opDiv t mo a b c = -1 ∧ BitVec.ofInt w (opRem t mo a b c) = x)
        ∧ (y ≠ 0 → BitVec.ofInt w (opDiv t mo a b c) = (if t.toNat < 4 then x.sdiv y else x / y)
            ∧ BitVec.ofInt w (opRem t mo a b c) = (if t.toNat < 4 then x.srem y else x % y)))

/-- Logic acts bit by bit, `bool3` by its truth table; the shifts take their amount whole: an amount of the width or more gives 0, and
an arithmetic shift fills with the sign.
Counts, reversal and bit fields: `popc` counts ones, `clz` and `ctz` zeros up to the first one (the width for 0), `brev` reverses;
`bfe` and `bfi` clamp their position to the width and their length to what is left; `bsel` picks source bytes with their fill. -/
def Obligations.LogicShiftsAndFields : Prop :=
  (
    ∀ (t : BitVec 5) (mo : Byte) (a b c : Nat), t.toNat ≤ 10 → a < 2 ^ tyBits t → b < 2 ^ tyBits t → c < 2 ^ tyBits t →
      let w := tyBits t
      let x := BitVec.ofNat w a
      let y := BitVec.ofNat w b
      BitVec.ofInt w (opAnd t mo a b c) = x &&& y ∧ BitVec.ofInt w (opOr t mo a b c) = x ||| y
        ∧ BitVec.ofInt w (opXor t mo a b c) = x ^^^ y ∧ BitVec.ofInt w (opNot t mo a b c) = ~~~x
        ∧ (∀ i, i < w → (BitVec.ofInt w (opBool3 t mo a b c)).getLsbD i
            = mo.getLsbD ((if a.testBit i then 1 else 0) + (if b.testBit i then 2 else 0) + (if c.testBit i then 4 else 0)))
        ∧ BitVec.ofInt w (opShl t mo a b c) = x <<< b ∧ BitVec.ofInt w (opShr t mo a b c) = x >>> b
        ∧ BitVec.ofInt w (opSar t mo a b c) = x.sshiftRight b
        ∧ (let n := if mo.getLsbD 0 then min c w else c % w
           BitVec.ofInt w (opFsl t mo a b c) = ((x ++ y) <<< n).extractLsb' w w ∧ BitVec.ofInt w (opFsr t mo a b c) = ((x ++ y) >>> n).extractLsb' 0 w))
  ∧ (
    ∀ (t : BitVec 5) (mo : Byte) (a b c : Nat), t.toNat ≤ 10 → a < 2 ^ tyBits t → b < 2 ^ tyBits t →
      let w := tyBits t
      opPopc t mo a b c = ((List.range w).countP (fun i => a.testBit i) : Nat)
        ∧ (a = 0 → opClz t mo a b c = w ∧ opCtz t mo a b c = w)
        ∧ (∀ n, n < w → a.testBit (w - 1 - n) = true → (∀ i, i < n → a.testBit (w - 1 - i) = false) → opClz t mo a b c = n)
        ∧ (∀ n, n < w → a.testBit n = true → (∀ i, i < n → a.testBit i = false) → opCtz t mo a b c = n)
        ∧ (∀ i, i < w → (BitVec.ofInt w (opBrev t mo a b c)).getLsbD i = a.testBit (w - 1 - i))
        ∧ (let pos := min (b % 256) w
           let len := min (b / 256 % 256) (w - pos)
           ∀ i, i < w → (BitVec.ofInt w (opBfe t mo a b c)).getLsbD i
             = if i < len then a.testBit (pos + i) else t.toNat < 4 && 0 < len && a.testBit (pos + len - 1))
        ∧ (let pos := min (c % 256) w
           let len := min (c / 256 % 256) (w - pos)
           ∀ i, i < w → (BitVec.ofInt w (opBfi t mo a b c)).getLsbD i = if pos ≤ i ∧ i < pos + len then a.testBit (i - pos) else b.testBit i)
        ∧ ∀ i, i < 4 → (opBsel t mo a b c) / ((256 ^ i : Nat) : Int) % 256
            = (let k := c / 256 ^ i % 256
               let x : Nat := (if k % 8 < 4 then a / 256 ^ (k % 8) else b / 256 ^ (k % 8 - 4)) % 256
               match k / 64 with
               | 0 => (x : Int)
               | 1 => 0
               | 2 => if 128 ≤ x then 255 else 0
               | _ => 255))

/-- The integer words of majors 0x20 to 0x24 and 0x27 complete: each active lane receives the operation's result of its sources, an
inactive lane keeps its destination or receives zeros, and nothing else of the module changes. -/
def Obligations.IntegerWords : Prop :=
  ∀ f : FR,
    (IntDone (.add f) f (tyBits f.ty) f.ty opAdd ∧ IntDone (.sub f) f (tyBits f.ty) f.ty opSub
      ∧ IntDone (.mulLo f) f (tyBits f.ty) f.ty opMul ∧ IntDone (.mulHi f) f (tyBits f.ty) f.ty opMulHi
      ∧ IntDone (.madLo f) f (tyBits f.ty) f.ty opMad ∧ IntDone (.mulWide f) f (tyBits f.ty) (f.ty + 1) opMul
      ∧ IntDone (.abs f) f (tyBits f.ty) f.ty opAbs ∧ IntDone (.neg f) f (tyBits f.ty) f.ty opNeg
      ∧ IntDone (.min f) f (tyBits f.ty) f.ty opMin ∧ IntDone (.max f) f (tyBits f.ty) f.ty opMax
      ∧ IntDone (.addSat f) f (tyBits f.ty) f.ty opAddSat ∧ IntDone (.subSat f) f (tyBits f.ty) f.ty opSubSat
      ∧ IntDone (.div f) f (tyBits f.ty) f.ty opDiv ∧ IntDone (.rem f) f (tyBits f.ty) f.ty opRem)
    ∧ (IntDone (.and f) f (tyBits f.ty) f.ty opAnd ∧ IntDone (.or f) f (tyBits f.ty) f.ty opOr
      ∧ IntDone (.xor f) f (tyBits f.ty) f.ty opXor ∧ IntDone (.not f) f (tyBits f.ty) f.ty opNot
      ∧ IntDone (.bool3 f) f (tyBits f.ty) f.ty opBool3 ∧ IntDone (.shl f) f (tyBits f.ty) f.ty opShl
      ∧ IntDone (.shr f) f (tyBits f.ty) f.ty opShr ∧ IntDone (.sar f) f (tyBits f.ty) f.ty opSar
      ∧ IntDone (.fsl f) f (tyBits f.ty) f.ty opFsl ∧ IntDone (.fsr f) f (tyBits f.ty) f.ty opFsr)
    ∧ (IntDone (.popc f) f (tyBits f.ty) 6 opPopc ∧ IntDone (.clz f) f (tyBits f.ty) 6 opClz
      ∧ IntDone (.ctz f) f (tyBits f.ty) 6 opCtz ∧ IntDone (.brev f) f (tyBits f.ty) f.ty opBrev
      ∧ IntDone (.bfe f) f (tyBits f.ty) f.ty opBfe ∧ IntDone (.bfi f) f (tyBits f.ty) f.ty opBfi
      ∧ IntDone (.bsel f) f (tyBits f.ty) f.ty opBsel)
    ∧ IntDone (.leaExt f) f (if f.ty.toNat = 7 ∧ f.mo.toNat < 64 then 64 else 32) f.ty
        (fun t mo a b _ => a + (if tyBits t ≤ mo.toNat % 64 then 0 else
          (if t.toNat = 7 ∧ mo.toNat / 64 = 2 then sgn 32 b else if t.toNat = 7 ∧ mo.toNat / 64 = 1 then ((b % 2 ^ 32 : Nat) : Int) else b)
            * 2 ^ (mo.toNat % 64)))
    ∧ IntDone (.leaSp f) f (tyBits f.ty) f.ty opLeaSp ∧ IntDone (.mov f) f (tyBits f.ty) f.ty (fun _ _ a _ _ => a)

/-- The integer words with an immediate (R246) complete with the result of the operation that they repeat.
The uniform integer words (R247 to R249) complete: kd holds the operation's result, extended to 64 bits, and nothing else of the group
but its lanes' places changes.
Where the spec leaves a point open, this follows the model's choice, log 12. -/
def Obligations.ImmediateAndUniformWords : Prop :=
  (
    ∀ f : FI,
      ImmDone (.addImm f) f opAdd ∧ ImmDone (.subImm f) f opSub ∧ ImmDone (.mulLoImm f) f opMul ∧ ImmDone (.mulHiImm f) f opMulHi
        ∧ ImmDone (.minImm f) f opMin ∧ ImmDone (.maxImm f) f opMax ∧ ImmDone (.addSatImm f) f opAddSat ∧ ImmDone (.subSatImm f) f opSubSat
        ∧ ImmDone (.divImm f) f opDiv ∧ ImmDone (.remImm f) f opRem ∧ ImmDone (.andImm f) f opAnd ∧ ImmDone (.orImm f) f opOr
        ∧ ImmDone (.xorImm f) f opXor ∧ ImmDone (.shlImm f) f opShl ∧ ImmDone (.shrImm f) f opShr ∧ ImmDone (.sarImm f) f opSar
        ∧ ImmDone (.movImm f) f (fun _ _ _ b _ => b))
  ∧ (
    (∀ f : FR,
      (UniIntDone (.uAdd f) f f.ty opAdd ∧ UniIntDone (.uSub f) f f.ty opSub ∧ UniIntDone (.uMulLo f) f f.ty opMul
        ∧ UniIntDone (.uMulHi f) f f.ty opMulHi ∧ UniIntDone (.uMadLo f) f f.ty opMad ∧ UniIntDone (.uMulWide f) f (f.ty + 1) opMul
        ∧ UniIntDone (.uAbs f) f f.ty opAbs ∧ UniIntDone (.uNeg f) f f.ty opNeg ∧ UniIntDone (.uMin f) f f.ty opMin
        ∧ UniIntDone (.uMax f) f f.ty opMax ∧ UniIntDone (.uAddSat f) f f.ty opAddSat ∧ UniIntDone (.uSubSat f) f f.ty opSubSat
        ∧ UniIntDone (.uDiv f) f f.ty opDiv ∧ UniIntDone (.uRem f) f f.ty opRem)
      ∧ (UniIntDone (.uAnd f) f f.ty opAnd ∧ UniIntDone (.uOr f) f f.ty opOr ∧ UniIntDone (.uXor f) f f.ty opXor
        ∧ UniIntDone (.uNot f) f f.ty opNot ∧ UniIntDone (.uBool3 f) f f.ty opBool3 ∧ UniIntDone (.uShl f) f f.ty opShl
        ∧ UniIntDone (.uShr f) f f.ty opShr ∧ UniIntDone (.uSar f) f f.ty opSar ∧ UniIntDone (.uFsl f) f f.ty opFsl
        ∧ UniIntDone (.uFsr f) f f.ty opFsr ∧ UniIntDone (.uPopc f) f 6 opPopc ∧ UniIntDone (.uClz f) f 6 opClz
        ∧ UniIntDone (.uCtz f) f 6 opCtz ∧ UniIntDone (.uBrev f) f f.ty opBrev ∧ UniIntDone (.uBfe f) f f.ty opBfe
        ∧ UniIntDone (.uBfi f) f f.ty opBfi ∧ UniIntDone (.uBsel f) f f.ty opBsel)
      ∧ UniIntDone (.uMov f) f f.ty (fun _ _ a _ _ => a) ∧ UniIntDone (.uLeaExt f) f f.ty opLeaExt ∧ UniIntDone (.uLeaSp f) f f.ty opLeaSp
      ∧ UniIntDone (.uSel f) f f.ty (fun _ _ a b c => if c ≠ 0 then a else b)
      ∧ UniDone (.umov f) f.d (fun s => extTo 64 f.ty (srcBits s (lowest s.cur.lanes) f.a f.ak (tyBits f.ty))))
    ∧ ∀ f : FI,
      UniImmDone (.uAddImm f) f opAdd ∧ UniImmDone (.uSubImm f) f opSub ∧ UniImmDone (.uMulLoImm f) f opMul ∧ UniImmDone (.uMinImm f) f opMin
        ∧ UniImmDone (.uMaxImm f) f opMax ∧ UniImmDone (.uAndImm f) f opAnd ∧ UniImmDone (.uOrImm f) f opOr ∧ UniImmDone (.uXorImm f) f opXor
        ∧ UniImmDone (.uShlImm f) f opShl ∧ UniImmDone (.uShrImm f) f opShr ∧ UniImmDone (.uSarImm f) f opSar
        ∧ UniImmDone (.uMovImm f) f (fun _ _ _ b _ => b)
        ∧ UniDone (.movhi f) f.d (fun s => f.imm.toNat * 2 ^ 32 + (kRead s f.d.toNat).toNat % 2 ^ 32))

/-- Compare, select and the predicate file: `setp` writes the comparison of its sources as its type reads them, accumulated into the old
predicate; `sel` picks by a predicate; `plop` looks its three predicates up; `p2v` and `v2p` move them to and from bits; `usetp` compares
once and writes every issuing lane. -/
def Obligations.PredicateWords : Prop :=
  ∀ f : FR,
    (let w := tyBits f.ty
     VecDone (.setp f) w w 0 (fun c l =>
       { p := [(f.d.toNat, accum f.mo (pGet c.s c.s.cur.gid l f.d.toNat)
           (intCond (f.mo.toNat % 16) (readAs f.ty (srcA c l f.a f.ak w)) (readAs f.ty (srcB c l f.b f.bk w))))] })
     ∧ VecDone (.sel f) w w w (fun c l =>
         outReg f.d f.ty (if pGet c.s c.s.cur.gid l f.c.toNat then srcA c l f.a f.ak w else srcB c l f.b f.bk w))
     ∧ ∀ s, ready (.usetp f) [] s.cur.lanes s = true → ∃ t, exec (.usetp f) s = .next t ∧ PredEffect f.d.toNat (fun l =>
         accum f.mo (pGet s s.cur.gid l f.d.toNat) (intCond (f.mo.toNat % 16) (readAs f.ty (uniBits s f.a f.ak w)) (readAs f.ty (uniBits s f.b f.bk w)))) [] s t)
    ∧ VecDone (.plop f) 0 0 0 (fun c l =>
        let p := fun (x : Byte) => pGet c.s c.s.cur.gid l x.toNat
        { p := [(f.d.toNat, f.mo.getLsbD ((if p f.a then 1 else 0) + (if p f.b then 2 else 0) + (if p f.c then 4 else 0)))] })
    ∧ VecDone (.p2v f) 0 0 32 (fun c l => { v := [(f.d.toNat, .ofNat 32 (ofBits 8 (fun i => pGet c.s c.s.cur.gid l i)))] })
    ∧ VecDone (.v2p f) 32 0 0 (fun c l =>
        { p := ((List.range 8).filter (fun i => f.mo.getLsbD i)).map (fun i => (i, (srcA c l f.a f.ak 32).testBit i)) })

/-! ### Floating point, conversions, special functions -/

/-- Every encoding of every format is the rounding of its own value, in every mode, whatever the draw.
Rounding to nearest: where a finite value rounds to a finite encoding, no finite encoding of the format is closer; scaled to
integers, over the least exponent that stands.
Minimum, maximum, comparison and class of encodings: a NaN gives the default NaN to `min` and `max` and is passed by `minnum` and
`maxnum`; the ordered comparisons are false and the unordered ones true on a NaN; −0 lies below +0 for `min` and `max` and equals it for a
comparison; `class` gives one bit of nine. -/
def Obligations.FloatFormats : Prop :=
  (
    ∀ f ∈ [fmtF64, fmtF32, fmtTf32, fmtF16, fmtBf16, fmtE4m3, fmtE5m2, fmtE2m1], ∀ mode draw n : Nat,
      draw < 2 ^ 32 → n < 2 ^ (f.magBits + 1) → unpack f n ≠ .nan → pack f mode draw false (unpack f n) = n)
  ∧ (
    ∀ f ∈ [fmtF64, fmtF32, fmtTf32, fmtF16, fmtBf16, fmtE4m3, fmtE5m2, fmtE2m1],
      ∀ (neg nr ny : Bool) (m mr my y : Nat) (e er ey : Int),
        unpack f (pack f 0 0 false (.fin neg m e)) = .fin nr mr er → unpack f y = .fin ny my ey →
        let lo := min e (1 - (f.bias : Int) - f.mb)
        let v := fvInt neg m * 2 ^ (e - lo).toNat
        (v - fvInt nr mr * 2 ^ (er - lo).toNat).natAbs ≤ (v - fvInt ny my * 2 ^ (ey - lo).toNat).natAbs)
  ∧ (
    ∀ f ∈ [fmtF64, fmtF32, fmtF16, fmtBf16], ∀ a b : Nat, a < 2 ^ (f.magBits + 1) → b < 2 ^ (f.magBits + 1) →
      (∀ big num, fpPick f big num a b = a ∨ fpPick f big num a b = b ∨ fpPick f big num a b = f.nanBits)
        ∧ (unpack f a = .nan → ∀ big, fpPick f big false a b = f.nanBits ∧ fpPick f big false b a = f.nanBits
            ∧ (unpack f b ≠ .nan → fpPick f big true a b = b ∧ fpPick f big true b a = b)
            ∧ (∀ c, c < 6 → fpCond f c a b = false ∧ fpCond f (c + 6) a b = true) ∧ fpCond f 12 a b = false ∧ fpCond f 13 a b = true)
        ∧ (unpack f a ≠ .nan → unpack f b ≠ .nan →
            fpCond f 12 a b = true ∧ fpCond f 13 a b = false ∧ (∀ c, c < 6 → fpCond f (c + 6) a b = fpCond f c a b)
              ∧ fpCond f 1 a b = !fpCond f 0 a b ∧ fpCond f 4 a b = fpCond f 2 b a ∧ fpCond f 5 a b = !fpCond f 2 a b
              ∧ fpCond f 3 a b = !fpCond f 2 b a)
        ∧ fpPick f false false (f.signed true 0) (f.signed false 0) = f.signed true 0
        ∧ fpPick f true false (f.signed true 0) (f.signed false 0) = f.signed false 0 ∧ fpCond f 0 (f.signed true 0) (f.signed false 0) = true
        ∧ ∃ k, k < 9 ∧ fpClass f a = 2 ^ k)

/-- The floating-point words of major 0x40 and their immediate forms complete: one rounding of the exact result, a minimum or maximum by
the order of encodings, a sign operation on bits.
The rest of major 0x41 and the conversions complete: `setp` and `class` on encodings, `scale` and `frint` for each half, `cvt` with
saturation and a generator that only stochastic rounding advances, from one format to itself keeping the operand, `cvt.pk` packing two
results under c, and the block formats. -/
def Obligations.FloatAndConversionWords : Prop :=
  (
    (∀ f : FR,
      FpDone (.fadd f) f (fun t m a b _ => pack t m 0 false (fvAdd m (unpack t a) (unpack t b)))
        ∧ FpDone (.fsub f) f (fun t m a b _ => pack t m 0 false (fvAdd m (unpack t a) (unpack t b).negate))
        ∧ FpDone (.fmul f) f (fun t m a b _ => pack t m 0 false (fvMul (unpack t a) (unpack t b)))
        ∧ FpDone (.fma f) f (fun t m a b c => pack t m 0 false (fvAdd m (fvMul (unpack t a) (unpack t b)) (unpack t c)))
        ∧ FpDone (.fmin f) f (fun t _ a b _ => fpPick t false false a b) ∧ FpDone (.fmax f) f (fun t _ a b _ => fpPick t true false a b)
        ∧ FpDone (.minnum f) f (fun t _ a b _ => fpPick t false true a b) ∧ FpDone (.maxnum f) f (fun t _ a b _ => fpPick t true true a b)
        ∧ FpDone (.fabs f) f (fun t _ a _ _ => a % 2 ^ t.magBits)
        ∧ FpDone (.fneg f) f (fun t _ a _ _ => t.signed (!a.testBit t.magBits) (a % 2 ^ t.magBits))
        ∧ FpDone (.copysign f) f (fun t _ a b _ => t.signed (b.testBit t.magBits) (a % 2 ^ t.magBits)))
    ∧ ∀ f : FI,
      FpImmDone (.faddImm f) f fpAdd ∧ FpImmDone (.fsubImm f) f fpSub ∧ FpImmDone (.fmulImm f) f fpMul
        ∧ FpImmDone (.fminImm f) f (fun t _ a b => fpPick t false false a b) ∧ FpImmDone (.fmaxImm f) f (fun t _ a b => fpPick t true false a b)
        ∧ FpImmDone (.minnumImm f) f (fun t _ a b => fpPick t false true a b)
        ∧ FpImmDone (.maxnumImm f) f (fun t _ a b => fpPick t true true a b))
  ∧ (
    ∀ f : FR,
      (let w := tyBits f.ty
       VecDone (.fsetp f) w w 0 (fun c l =>
         { p := [(f.d.toNat, accum f.mo (pGet c.s c.s.cur.gid l f.d.toNat) (fpCond (fmtOf f.ty) (f.mo.toNat % 16) (fpA c l f false) (fpB c l f false)))] })
       ∧ VecDone (.classOp f) w 0 32 (fun c l => { v := [(f.d.toNat, .ofNat 32 (fpClass (fmtOf f.ty) (fpA c l f false)))] }))
      ∧ (let x2 := f.mo.getLsbD 3
         let w := fpWidth f.ty x2
         VecDone (.scale f) w 32 w (fun c l =>
           { v := regsOf f.d.toNat w (halves x2 (fun a _ _ => fpScale (fmtOf f.ty) c.s.cur.ext.rnd.toNat a (sgn 32 (srcB c l f.b f.bk 32))) (fpA c l f x2) 0 0) })
         ∧ VecDone (.frint f) w 0 w (fun c l =>
           { v := regsOf f.d.toNat w (halves x2 (fun a _ _ => fpRint (fmtOf f.ty) c.s.cur.ext.rnd.toNat a) (fpA c l f x2) 0 0) }))
      ∧ (let out := fun (sat : Bool) (c : Src) (l : Nat) =>
           ({ v := regsOf f.d.toNat (max 32 (tyBits f.ty)) (if srcTy f.mo = f.ty then cvtTo f.ty 0 (nextDraw (genOf c.s l)) false (cvtSrc c l f)
                 else cvtTo f.ty (modeOf c.s) (nextDraw (genOf c.s l)) sat (cvtSrc c l f))
                ++ genOut c.s (nextDraw (genOf c.s l)) } : LaneOut)
         VecDone (.cvt f) (cvtA f) 0 (tyBits f.ty) (out false) ∧ VecDone (.cvtSat f) (cvtA f) 0 (tyBits f.ty) (out true))
      ∧ (let half := fun (sat : Bool) (c : Src) (draw x : Nat) => pack (fmtOf f.ty) (modeOf c.s) draw sat (unpack fmtF32 x)
         let out := fun (sat : Bool) (c : Src) (l : Nat) =>
           let g1 := nextDraw (genOf c.s l)
           let g2 := nextDraw g1
           let x := half sat c g1 (fpA c l { f with ty := 12 } false)
           let y := half sat c g2 (fpB c l { f with ty := 12 } false)
           let z := srcBits c.s l f.c f.ck 32
           let n := if f.ty.toNat = 16 ∨ f.ty.toNat = 17 then z % 65536 * 65536 + y * 256 + x
             else if f.ty.toNat = 18 then z % 2 ^ 24 * 256 + y * 16 + x else y * 65536 + x
           ({ v := (f.d.toNat, .ofNat 32 n) :: genOut c.s g2 } : LaneOut)
         VecDone (.cvtPk f) 32 32 32 (out false) ∧ VecDone (.cvtPkSat f) 32 32 32 (out true))
      ∧ (let elem := if f.ty.toNat = 0x13 then fmtE4m3 else fmtE2m1
         VecDone (.mxcvt f) 32 0 32 (fun c l =>
           let val := fun (j : Nat) => unpack fmtF32 (srcA c j f.a f.ak 32)
           let sc := blockScale (if f.ty.toNat = 0x13 then 8 else 2) ((Mask.toList (active c.s)).map val)
           let e := if sc = 0xFF then 0 else match val l with
             | .fin n m x => pack elem (modeOf c.s) (nextDraw (genOf c.s l)) true (.fin n m (x - ((sc : Int) - 127)))
             | _ => 0
           { v := (f.d.toNat, .ofNat 32 (sc * 256 + e)) :: genOut c.s (nextDraw (genOf c.s l)) }))
      ∧ (let st : BitVec 5 := if f.mo.toNat % 32 = 0x13 then 16 else 18
         VecDone (.mxdec f) (tyBits st) 8 32 (fun c l =>
           let sc := srcB c l f.b f.bk 8
           let x := if sc = 0xFF then FV.nan
             else fvMul (cvtSrc c l { f with mo := .ofNat 8 (f.mo.toNat / 32 * 32 + st.toNat) }) (.fin false 1 ((sc : Int) - 127))
           { v := [(f.d.toNat, .ofNat 32 (pack fmtF32 (modeOf c.s) 0 false x))] })))

/-- The special functions at the operands where the spec fixes their result: NaN in, default NaN out; zeros, infinities, negative
operands of a root or a logarithm, lg2 of 1, and the roots of every even power of two (R350).
The special functions and `tbl` complete as words of variable latency: their results stay pending and no register has changed when
their lanes have moved on (R196, R268, R271).
Where the spec leaves a point open, this follows the model's choice, log 8. -/
def Obligations.SpecialFunctions : Prop :=
  (
    (∀ fn a, fn < 8 → unpack fmtF32 (BitVec.toNat a) = .nan → spF32 fn a = fmtF32.nanBits)
      ∧ (spF32 0 0 = 0x7F800000 ∧ spF32 0 0x80000000 = 0xFF800000 ∧ spF32 0 0x7F800000 = 0 ∧ spF32 0 0xFF800000 = 0x80000000)
      ∧ (spF32 1 0 = 0x7F800000 ∧ spF32 1 0x80000000 = 0xFF800000 ∧ spF32 1 0x7F800000 = 0)
      ∧ (spF32 2 0 = 0 ∧ spF32 2 0x80000000 = 0x80000000 ∧ spF32 2 0x7F800000 = 0x7F800000)
      ∧ (spF32 3 0 = 0x3F800000 ∧ spF32 3 0x80000000 = 0x3F800000 ∧ spF32 3 0x7F800000 = 0x7F800000 ∧ spF32 3 0xFF800000 = 0)
      ∧ (spF32 4 0 = 0xFF800000 ∧ spF32 4 0x80000000 = 0xFF800000 ∧ spF32 4 0x3F800000 = 0 ∧ spF32 4 0x7F800000 = 0x7F800000)
      ∧ (∀ fn a, fn = 1 ∨ fn = 2 ∨ fn = 4 → fmtF32.isNeg (BitVec.toNat a) = true → fmtF32.mag (BitVec.toNat a) ≠ 0 → spF32 fn a = fmtF32.nanBits)
      ∧ (∀ fn, fn = 5 ∨ fn = 6 → spF32 fn 0x7F800000 = fmtF32.nanBits ∧ spF32 fn 0xFF800000 = fmtF32.nanBits)
      ∧ spF32 5 0 = 0 ∧ spF32 6 0 = 0x3F800000 ∧ spF32 7 0 = 0 ∧ spF32 7 0x7F800000 = 0x3F800000 ∧ spF32 7 0xFF800000 = 0xBF800000
      ∧ ∀ (a : Word) (x : Nat) (e m : Int), unpack fmtF32 a.toNat = .fin false x e → (x : Int) = 2 ^ (2 * m - e).toNat → e ≤ 2 * m →
          spF32 1 a = pack fmtF32 0 0 false (.fin false 1 (-m)) ∧ spF32 2 a = pack fmtF32 0 0 false (.fin false 1 m))
  ∧ (
    ∀ f : FR,
      SpecialDone (.rcp f) f 0 ∧ SpecialDone (.rsq f) f 1 ∧ SpecialDone (.sqrt f) f 2 ∧ SpecialDone (.ex2 f) f 3 ∧ SpecialDone (.lg2 f) f 4
        ∧ SpecialDone (.sin f) f 5 ∧ SpecialDone (.cos f) f 6 ∧ SpecialDone (.tanh f) f 7
        ∧ LateDone (.tbl f) 32 0 32 (fun c l =>
            let g := c.s.cur.gid
            let bank := ((lane c.s g l).clause.map (fun x => x.bank)).getD 0
            { v := [(f.d.toNat, .ofNat 32 (tblEval c.s (grp c.s g).core bank (f.mo.toNat % 4) (srcA c l f.a f.ak 32)))] }))

/-! ### Cross-lane words -/

/-- Where a shuffle takes its value: inside its segment by index, by distance down or up (outside the segment unless it wraps), and by
exclusive or (R276).
Shuffles, broadcast, votes and matches complete: over the participating lanes, in ascending order (R275 to R279). -/
def Obligations.ShufflesVotesMatches : Prop :=
  (
    ∀ k l b : Nat, k ≤ 5 → l < 32 →
      let w := 2 ^ k
      shflFrom 0 w false l b = (l / w * w + b % w, true)
        ∧ (shflFrom 1 w false l b).2 = decide (b ≤ l % w) ∧ (b ≤ l % w → (shflFrom 1 w false l b).1 = l - b)
        ∧ (b < 32 → (shflFrom 2 w false l b).2 = decide (l % w + b < w)) ∧ (l % w + b < w → (shflFrom 2 w false l b).1 = l + b)
        ∧ (shflFrom 1 w true l b).1 / w = l / w ∧ ((shflFrom 1 w true l b).1 % w + b) % w = l % w
        ∧ (shflFrom 2 w true l b).1 / w = l / w ∧ (shflFrom 2 w true l b).1 % w = (l % w + b) % w
        ∧ shflFrom 3 w false l b = (l ^^^ (b % w), true))
  ∧ (
    ∀ f : FR,
      (let w := tyBits f.ty
       let shf := fun (op : Nat) (c : Src) (l : Nat) =>
         let q := shflFrom op (32 / 2 ^ (f.mo.toNat % 8)) (f.mo.getLsbD 3) l (srcB c l f.b f.bk 32)
         let ok := q.2 && (active c.s).getLsbD q.1
         ({ v := regsOf f.d.toNat w (if ok then srcA c q.1 f.a f.ak w else srcBits c.s l f.c f.ck w),
            p := if f.mo.getLsbD 4 then [(f.mo.toNat / 32, ok)] else [] } : LaneOut)
       VecDone (.shflIdx f) w 32 w (shf 0) ∧ VecDone (.shflUp f) w 32 w (shf 1) ∧ VecDone (.shflDown f) w 32 w (shf 2)
         ∧ VecDone (.shflXor f) w 32 w (shf 3)
         ∧ VecDone (.bcast f) w 0 w (fun c l =>
             let j := srcBits c.s l f.b f.bk 32 % 32
             { v := regsOf f.d.toNat w (srcA c (if (active c.s).getLsbD j then j else l) f.a f.ak w) }))
      ∧ (let bits := fun (c : Src) => (Mask.toList (active c.s)).map (voteBit f c)
         VecDone (.voteAll f) 32 0 0 (fun c _ => { p := [(f.d.toNat, (bits c).all id)] })
           ∧ VecDone (.voteAny f) 32 0 0 (fun c _ => { p := [(f.d.toNat, (bits c).any id)] })
           ∧ VecDone (.voteUni f) 32 0 0 (fun c _ => { p := [(f.d.toNat, (bits c).all id || !(bits c).any id)] })
           ∧ (f.mo.getLsbD 1 = false → VecDone (.voteBallot f) 32 0 32 (fun c _ => { v := [(f.d.toNat, .ofNat 32 (ballot f c))] }))
           ∧ (f.mo.getLsbD 1 = true → CrossDone (.voteBallot f) 32 f.d (ballot f)))
      ∧ (let w := tyBits f.ty
         VecDone (.matchMask f) w 0 32 (fun c l => { v := [(f.d.toNat, .ofNat 32 ((peers f c l).foldl (fun n j => n + 2 ^ j) 0))] })
           ∧ VecDone (.matchLead f) w 0 32 (fun c l => { v := [(f.d.toNat, .ofNat 32 ((peers f c l).headD l))] })
           ∧ VecDone (.matchRank f) w 0 32 (fun c l => { v := [(f.d.toNat, .ofNat 32 ((peers f c l).filter (fun j => decide (j < l))).length)] })
           ∧ VecDone (.matchUni f) w 0 0 (fun c l => { p := [(f.d.toNat, (peers f c l).length == (Mask.toList (active c.s)).length)] })))

/-- Reductions, scans and compress complete: the running combination of the participating lanes' operands in ascending order, rounded at
each step; the whole, to every participating lane or to kd; an exclusive scan gives the unit first; `compress` packs the participating
lanes' values into the lowest issuing lanes, or, bound to a stream, stores those of active lanes there (R214, R280, R281). -/
def Obligations.ReductionsAndScans : Prop :=
  ∀ f : FR,
    (let red := fun (i : Instr) (op : Comb) =>
       let last := fun (c : Src) => ((running f op c).getLast?.map Prod.snd).getD 0
       (f.mo.getLsbD 0 = false → VecDone i (tyBits f.ty) 0 (tyBits f.ty) (fun c _ => { v := regsOf f.d.toNat (tyBits f.ty) (last c) }))
         ∧ (f.mo.getLsbD 0 = true → CrossDone i (tyBits f.ty) f.d (fun c => if isFp f then last c else extTo 64 f.ty (last c)))
     red (.reduxAdd f) (combAdd f) ∧ red (.reduxMin f) (combMin f) ∧ red (.reduxMax f) (combMax f)
       ∧ red (.reduxAnd f) (fun _ a b => a &&& b) ∧ red (.reduxOr f) (fun _ a b => a ||| b) ∧ red (.reduxXor f) (fun _ a b => a ^^^ b))
    ∧ (let scn := fun (i : Instr) (op : Comb) (unit_ : Nat) =>
         VecDone i (tyBits f.ty) 0 (tyBits f.ty) (fun c l =>
           { v := regsOf f.d.toNat (tyBits f.ty)
               (if f.mo.getLsbD 1 then (((running f op c).filter (fun q => decide (q.1 < l))).getLast?.map Prod.snd).getD unit_
                else Tab.get 0 (running f op c) l) })
       scn (.scanAdd f) (combAdd f) 0 ∧ scn (.scanMin f) (combMin f) (largest f) ∧ scn (.scanMax f) (combMax f) (smallest f)
         ∧ scn (.scanAnd f) (fun _ a b => a &&& b) (2 ^ tyBits f.ty - 1) ∧ scn (.scanOr f) (fun _ a b => a ||| b) 0
         ∧ scn (.scanXor f) (fun _ a b => a ^^^ b) 0)
    ∧ ∀ s, ready (.compress f) [] (active s) s = true → streamsOk (tyBits f.ty) 0 (tyBits f.ty) s = true →
        let w := tyBits f.ty
        let g := s.cur.gid
        let u := fetchStreams w 0 w s
        let pairs := ((Mask.toList s.cur.lanes).zip (Mask.toList (active s))).map (fun q => (q.1, srcA (streamSrc s w 0 w) q.2 f.a f.ak w))
        (s.cur.ext.bindD.isNone = true → f.d.toNat + w / 64 < 256 →
          ∃ t, exec (.compress f) s = .next t ∧ OnlyGroup g u t ∧ OnlyRegs g u t ∧ KeepsLanes g s.cur.lanes s t
            ∧ MovesOn s.cur s t ∧ KeepsP g s t ∧ KeepsK g [] s t ∧ KeepsX s t
            ∧ ∀ l n, l < 32 → n < 256 → vGet t g l n
                = lastOf n (vGet s g l n) (pairs.flatMap (fun q => if q.1 = l then regsOf f.d.toNat w q.2 else [])))
        ∧ (s.cur.ext.bindD.isSome = true → s.Canonical →
          ∃ t, exec (.compress f) s = .next t ∧ MovesOn s.cur s t ∧ t.tokens = s.tokens
            ∧ Stored g (asStores ((streamDst s w 0 w).filterMap (fun d => (pairs.find? (fun q => q.1 == d.lane)).map (fun q =>
                ⟨d.lane, d.run.va, d.run.loc, d.bytes (leBytes (w / 8) q.2)⟩)))) u t
            ∧ (∀ h, KeepsV h s t ∧ KeepsP h s t ∧ KeepsK h [] s t)
            ∧ ∀ n, { (grp t g).x.get {} n with ahead := [] } = ({ (grp (advanceStreams s.cur s) g).x.get {} n with ahead := [] } : Stream))

/-! ### Exceptions -/

/-- The order in which a word's faults of steps 2 to 4 are judged: the lowest code of its encoding, the level, a pending source, a pending
destination; each stops the group with all of S faulted. A `loop` whose following header cannot be fetched stops with the fault of that
fetch first. A word that no arrival issues changes nothing.
Where the spec leaves a point open, this follows the model's choice, log 19, 59, 93. -/
def Obligations.JudgementOrder : Prop :=
  ∀ (i : Instr) (s : State), (encode i).isSome →
    (s.cur.live = false → exec i s = .next s)
    ∧ (s.cur.live = true → ∀ f e, i = .loop f → fetchWord s s.cur.gid (s.cur.pc + 8).toNat = .error e → notLast s = [] →
        exec i s = .next (raise s.cur e.cls e.code (s.cur.pc + 8).toNat (takers s f) (takers s f) 0 false s))
    ∧ (s.cur.live = true → (∀ f, i = .loop f → ∃ w, fetchWord s s.cur.gid (s.cur.pc + 8).toNat = .ok w) →
        (∀ c, (brokenCodes i s).min? = some c → exec i s = .next (raise s.cur 1 c 0 (sOf i s) (sOf i s) 0 false s))
        ∧ (brokenCodes i s = [] →
            let need := levelOf i s.cur.ext.sys.num.toNat
            let pend := pendingFor s s.cur.gid s.cur.lanes (sOf i s) (wordGov s i)
            ((grp s s.cur.gid).level < need.1 → exec i s = .next (raise s.cur 3 need.2 0 (sOf i s) (sOf i s) 0 false s))
            ∧ (need.1 ≤ (grp s s.cur.gid).level → (wordReads s i).any (fun r => pend.contains r) = true →
                exec i s = .next (raise s.cur 2 1 0 (sOf i s) (sOf i s) 0 false s))
            ∧ (need.1 ≤ (grp s s.cur.gid).level → (wordReads s i).any (fun r => pend.contains r) = false →
                (wordWrites s i).any (fun r => pend.contains r) = true →
                exec i s = .next (raise s.cur 2 2 0 (sOf i s) (sOf i s) 0 false s))))

/-- TAKING AN EXCEPTION: the group holds one more stop, whose record names the class and code, the word's address, the detail, the lane masks,
the map version, the level, the name of S's lowest lane and the gtime; none of its registers and lanes changes, nor another group; and
nothing of it issues.
Where the spec leaves a point open, this follows the model's choice, log 59. -/
def Obligations.TrapEntry : Prop :=
  ∀ (a : Arrival) (cls code detail : Nat) (faulted sm done : Mask) (hdr : Bool) (s : State), (grp s a.gid).stops = [] → sm ≠ 0 →
    let t := raise a cls code detail faulted sm done hdr s
    (∃ st, (grp t a.gid).stops = [st] ∧ st.arr = a ∧ st.atHdr = hdr ∧ st.fr.cls = cls ∧ st.fr.code = code ∧ st.fr.detail = .ofNat 64 detail
      ∧ st.fr.pc = a.pc ∧ st.fr.faulted = faulted ∧ st.fr.part = sm ∧ st.fr.done = done ∧ st.fr.ver = s.map.version
      ∧ st.fr.level = (if cls = 6 ∨ cls = 0xE then 2 else 1) ∧ st.fr.flags = 1 ∧ st.fr.name = laneName s a.gid (lowest sm)
      ∧ st.fr.time = gtime s (grpDie s a.gid))
    ∧ (∀ l n, vGet t a.gid l n = vGet s a.gid l n ∧ pGet t a.gid l n = pGet s a.gid l n ∧ kGet t a.gid n = kGet s a.gid n
        ∧ lane t a.gid l = lane s a.gid l)
    ∧ (∀ h, h ≠ a.gid → grp t h = grp s h) ∧ canGo t a.gid = false

/-- Where a trap goes whose group has no write on its way, in a partition with fewer than 64 unresolved traps: a level-1 trap with a handler
is listed, and one handler team waits for a place; without a handler the team is to be killed; a level-2 trap is listed, its team is to
be saved, and the host gets interrupt vector 1. With 64 unresolved traps none is listed, and the stop stays unrecorded.
Where the spec leaves a point open, this follows the model's choice, log 56, 64. -/
def Obligations.TrapDelivery : Prop :=
  ∀ (a : Arrival) (cls code detail : Nat) (faulted sm done : Mask) (s : State), (grp s a.gid).stops = [] → (grp s a.gid).pend.any mustArrive = false →
    s.host.fltSize = 0 →
    let t := raise a cls code detail faulted sm done false s
    let p := (grp s a.gid).part
    let lvl := if cls = 6 ∨ cls = 0xE then 2 else 1
    (lvl = 1 → pendingTraps s p < 64 → ∀ r, handlerRecord s p = some r → cls ≠ 0xF →
        (∃ x, t.traps = s.traps ++ [x] ∧ x.part = p ∧ x.gid = some a.gid ∧ x.fr.cls = cls ∧ x.fr.code = code
          ∧ (launch t (team t s.ids.team).launch).handler = some x.fr.tid)
        ∧ (team t s.ids.team).state = .waiting ∧ (team t s.ids.team).index = 0 ∧ t.ids.team = s.ids.team + 1
        ∧ (launch t (team t s.ids.team).launch).record = { r with t := 1, gang := 1 })
    ∧ (lvl = 1 → pendingTraps s p < 64 → handlerRecord s p = none → cls ≠ 0xF → t.traps = s.traps ∧ t.ids.team = s.ids.team
        ∧ ((grp s a.gid).team ∈ together s (grp s a.gid).team → 2 ≤ (team t (grp s a.gid).team).goal))
    ∧ (64 ≤ pendingTraps s p → t.traps = s.traps ∧ ∃ st, (grp t a.gid).stops = [st] ∧ st.recorded = false)
    ∧ (lvl = 2 → pendingTraps s p < 64 → (∃ x, t.traps = s.traps ++ [x] ∧ x.gid = some a.gid ∧ x.fr.cls = cls ∧ x.fr.level = 2)
        ∧ t.host.out = s.host.out ++ [.msix 0 1] ∧ (team t (grp s a.gid).team).level2 = true)

/-- RETURN FROM AN EXCEPTION: a resolved level-1 trap is no longer listed; with action 0 the group's only stop is gone and the arrival issues
again with the lanes that were not done; with action 1 its lanes have moved past the word and its bound streams have advanced; with action
2 or 3 the group stays stopped and the team is to be killed or torn down with its launch. -/
def Obligations.TrapResolution : Prop :=
  ∀ (s : State) (tr : Trap) (st : Stop) (g act : Nat), s.traps = [tr] → s.trapQ = [] → tr.gid = some g → tr.susp = false → tr.fr.level = 1 → tr.fr.cls ≠ 0xF →
    (∀ h, (grp s h).stops.any (fun x => !x.recorded) = false) → s.groups.all (fun x => x.2.stops.all (fun y => y.recorded)) = true →
    (grp s g).stops = [st] → st.fr = tr.fr → st.atHdr = false → st.late = none → st.lateAtoms = [] → st.arr.gid = g →
    (st.fr.cls ≠ 6 ∧ st.fr.cls ≠ 0xC ∧ st.fr.cls ≠ 0xD) →
    (team s (grp s g).team).state = .resident → (team s (grp s g).team).goal = 0 →
    let t := resolve tr.fr.tid act s
    t.traps = []
      ∧ (act = 0 → st.fr.done = 0 → st.arr.lanes ≠ 0 → (grp t g).stops = []
          ∧ t.issuing = s.issuing ++ [{ st.arr with kBefore := none, orig := some ((st.arr.orig.getD 0) ||| st.fr.part) }])
      ∧ (act = 1 → (grp t g).stops = [] ∧ t.issuing = s.issuing ∧ ∀ l, st.arr.lanes.getLsbD l = true → ∀ c, (lane s g l).clause = some c →
          c.loop = false → lane t g l = movedOn st.arr s.time (lane s g l))
      ∧ (2 ≤ act → (grp t g).stops = [{ st with act := some act }] ∧ canGo t g = false ∧ t.issuing = s.issuing
          ∧ ((grp s g).team ∈ together s (grp s g).team → act ≤ (team t (grp s g).team).goal))

/-- `trap` completes its word, then stops its group with class 0x0C and its number; `eret` of a team that handles a trap begins a fence of
system scope, and when that completes the handled trap is resolved and its trap registers are freed; of a team that handles none, `eret`
only moves its lanes. -/
def Obligations.TrapAndEret : Prop :=
  ∀ s : State,
    let h := fun (u : State) (g : Nat) => team u (grp s g).team
    (ready .trap [] (active s) s = true → active s ≠ 0 → ∃ t, exec .trap s = .next t
        ∧ t = drew (raise s.cur 0xC s.cur.ext.sys.num.toNat s.cur.ext.sys.num.toNat (active s) (active s) 0 false (finish s.cur s)))
    ∧ (ready .eret [] (active s) s = true → active s ≠ 0 → (h s s.cur.gid).handles = none → exec .eret s = .next (done s))
    ∧ (ready .eret [] (active s) s = true → active s ≠ 0 → ∀ tid, (h s s.cur.gid).handles = some tid → (grp s s.cur.gid).lost = [] →
        waitsOld s →
        (fenceNow (drainGroup s.cur.gid s) s.cur.gid 7 = false → ∃ t id begun bound, exec .eret s = .next t ∧ (h t s.cur.gid).handles = some tid
          ∧ (grp t s.cur.gid).stall = some ⟨.eret id begun bound, s.cur, s.time⟩ ∧ t.traps = s.traps ∧ SameBytes s t ∧ RegsKept 0 [] s t
          ∧ ∀ e ∈ (Machine.core t (grp s s.cur.gid).core).wcb, s.cur.gid ∉ e.gids)
        ∧ (fenceNow (drainGroup s.cur.gid s) s.cur.gid 7 = true →
            ∃ u, exec .eret s = .next (drew (resolve tid (h s s.cur.gid).action u)) ∧ (h u s.cur.gid).handles = none
              ∧ (h u s.cur.gid).action = 0 ∧ (grp u s.cur.gid).stall = none ∧ u.traps = s.traps ∧ MovesOn s.cur s u
              ∧ SameBytes s u ∧ RegsKept 0 [] s u))
    ∧ (let g := s.ev.x
       ∀ id begun bound arr since tid, (grp s g).stall = some ⟨.eret id begun bound, arr, since⟩ → (grp s g).lost = [] → (h s g).handles = some tid → arr.gid = g →
        let first : Option (Nat × Nat) := match begun with
          | some b => some (b, bound)
          | none => if fenceFirst s g 7 id then some (s.time, fenceBound s g 7) else none
        (first = none → exec .fenceComplete s = .next s)
        ∧ ∀ b n, first = some (b, n) →
          (gtime s (grpDie s g) ≤ n → ∃ t, exec .fenceComplete s = .next t ∧ Framed g [] s t ∧ (grp t g).stall = some ⟨.eret id (some b) n, arr, since⟩)
          ∧ (n < gtime s (grpDie s g) → ∃ u, exec .fenceComplete s = .next (resolve tid (h s g).action u) ∧ (h u g).handles = none ∧ (h u g).action = 0
              ∧ u.traps = s.traps ∧ SameBytes s u ∧ Resumes g ⟨.eret id begun bound, arr, since⟩ [] s u))

/-! ### Control words -/

/-- Branches and calls complete: a lane that takes the transfer stands at its target header, every other issuing lane at the next word or
header; a taken `call` leaves the address of the header after its clause in its pair; nothing else changes. -/
def Obligations.ControlTransfers : Prop :=
  ∀ (f : FB) (s : State),
    let g := s.cur.gid
    let m := takers s f
    let moved := fun (target : Nat → DWord) (t : State) =>
      OnlyGroup g s t ∧ OnlyRegs g s t ∧ KeepsP g s t ∧ KeepsK g [] s t ∧ (grp t g).x = (grp s g).x
        ∧ (∀ l, l < 32 → m.getLsbD l = true → lane t g l =
            { lane s g l with pc := target l, clause := none, viaLoop := false, viaFall := false, relHere := false, since := s.time })
        ∧ (∀ l, m.getLsbD l = false → s.cur.lanes.getLsbD l = true → ∀ c, (lane s g l).clause = some c → c.loop = false →
            lane t g l = movedOn s.cur s.time (lane s g l))
    let jumps := fun (i : Instr) (target : Nat → DWord) => ready i (placeCodes i s) m s = true →
      ∃ t, exec i s = .next t ∧ moved target t ∧ KeepsV g s t
    let calls := fun (i : Instr) (target : Nat → DWord) => ready i (placeCodes i s) m s = true → f.d.toNat < 255 →
      ∃ t, exec i s = .next t ∧ moved target t
        ∧ ∀ l n, l < 32 → n < 256 → vGet t g l n = if m.getLsbD l = true ∧ n = f.d.toNat then (s.cur.pc + 8).setWidth 32
            else if m.getLsbD l = true ∧ n = f.d.toNat + 1 then ((s.cur.pc + 8) >>> 32).setWidth 32 else vGet s g l n
    jumps (.bra f) (fun _ => BitVec.ofInt 64 ((s.cur.pc.toNat : Int) + 8 * f.off.toInt))
      ∧ jumps (.brxV f) (fun l => .ofNat 64 (vPair s g l f.a.toNat)) ∧ jumps (.brxK f) (fun _ => kRead s f.a.toNat)
      ∧ jumps (.ret f) (fun l => .ofNat 64 (vPair s g l f.a.toNat))
      ∧ calls (.call f) (fun _ => BitVec.ofInt 64 ((s.cur.pc.toNat : Int) + 8 * f.off.toInt))
      ∧ calls (.callV f) (fun l => .ofNat 64 (vPair s g l f.a.toNat)) ∧ calls (.callK f) (fun _ => kRead s f.a.toNat)

/-- The rest of the control words complete: `nop` and `yield` only move their lanes, and `yield` ends its slice's hold; `exit` of some lanes
marks them exited and of the last lanes the group; `loop` sends its taking lanes to the loop clause or lets them wait while the buffer is busy,
and LOOP_BUFFER_FREE lets them go; `elect` marks the lowest participating lane.
Where the spec leaves a point open, this follows the model's choice, log 30, 92. -/
def Obligations.ControlWords : Prop :=
  ∀ s : State,
    let g := s.cur.gid
    (ready .nop [] s.cur.lanes s = true → ∃ t, exec .nop s = .next t ∧ OnlyGroup g s t ∧ OnlyRegs g s t ∧ KeepsLanes g s.cur.lanes s t
        ∧ MovesOn s.cur s t ∧ KeepsV g s t ∧ KeepsP g s t ∧ KeepsK g [] s t)
    ∧ (ready .yield [] s.cur.lanes s = true → ∃ t, exec .yield s = .next t ∧ Framed g [] s t ∧ MovesOn s.cur s t ∧ (grp t g).yielded = true
        ∧ ((Machine.core t (grp s g).core).slices.get {} (grp s g).slice).hold = none)
    ∧ (∀ f, ready (.exit f) [] (takers s f) s = true → (liveLanes s g &&& ~~~(takers s f) = 0 → (grp s g).lost = [] ∧ takers s f ≠ 0) →
        ∃ t, exec (.exit f) s = .next t ∧ SameBytes s t ∧ KeepsV g s t ∧ KeepsP g s t ∧ (∀ l, l < 32 → (takers s f).getLsbD l = true → (lane t g l).exited = true)
          ∧ (liveLanes s g &&& ~~~(takers s f) = 0 → (grp t g).exited = true))
    ∧ (∀ f w, ready (.loop f) [] (takers s f) s = true → fetchWord s g (s.cur.pc + 8).toNat = .ok w → isLoop w = true → notLast s = [] → takers s f ≠ 0 →
        ∃ t, exec (.loop f) s = .next t ∧ Framed g [] s t
          ∧ (∀ l, l < 32 → s.cur.lanes.getLsbD l = true → (takers s f).getLsbD l = false →
              (lane t g l).pc = s.cur.pc + 8 + .ofNat 64 (8 * (clauseCount w + 1)) ∧ (lane t g l).clause = none)
          ∧ ((grp s g).loop = none → ∀ l, l < 32 → (takers s f).getLsbD l = true → (lane t g l).pc = s.cur.pc + 8 ∧ (lane t g l).clause = none
              ∧ (lane t g l).viaLoop = true)
          ∧ ((grp s g).loop.isSome → ∃ w, (grp t g).waits = (grp s g).waits ++ [w] ∧ w.kind = .loopBuf (takers s f) ∧ w.lanes = takers s f))
    ∧ ((grp s s.ev.x).loop.isSome = true → exec .loopBufferFree s = .next s)
    ∧ ((grp s s.ev.x).loop = none → (grp s s.ev.x).waits.Pairwise (fun a b => a.id ≠ b.id ∧ a.lanes &&& b.lanes = 0) →
        let atLoop := fun (w : LWait) => ∃ m, w.kind = .loopBuf m
        ∃ t, exec .loopBufferFree s = .next t ∧ Framed s.ev.x [] s t ∧ (∀ w, w ∈ (grp t s.ev.x).waits ↔ w ∈ (grp s s.ev.x).waits ∧ ¬ atLoop w)
          ∧ ∀ w ∈ (grp s s.ev.x).waits, atLoop w → ∀ l, l < 32 → w.lanes.getLsbD l = true →
              (lane t s.ev.x l).pc = w.pc + 8 ∧ (lane t s.ev.x l).viaLoop = true)
    ∧ (∀ f, ready (.elect f) [] (takers s f) s = true →
        ∃ t, exec (.elect f) s = .next t ∧ PredEffect f.d.toNat (fun l => takers s f != 0 && l == lowest (takers s f)) [] s t)
    ∧ (∀ f, ready (.electK f) [] (takers s f) s = true →
        ∃ t, exec (.electK f) s = .next t ∧ PredEffect f.d.toNat (fun l => takers s f != 0 && l == lowest (takers s f)) [f.a.toNat] s t
          ∧ ((grp s g).loop.all (fun b => b.k != f.a.toNat) = true → kGet t g f.a.toNat = if takers s f = 0 then .allOnes 64 else .ofNat 64 (lowest (takers s f))))

/-! ### Clause entry, issue, activation tables, the reorder unit -/

/-- CLAUSE_ENTRY: lanes that may enter a clause, at any pass of a loop too, stand at its first word, inside it, with the table bank that is
current latched, and a loop's first pass takes the loop buffer; lanes of a loop whose count is 0 stand after it; without the reservation that
the clause needs the slice asks for one and no lane moves; an armed breakpoint stops the group with class 0x0D, and a header that breaks a check
with class 1 and its code, over the lanes that would enter. No register of the group changes. A frontier counter that reaches 64 releases its lane and is 0 again,
by a slice cycle that is counted or by FRONTIER_RELEASE.
ISSUE_SELECT: once the slice's lanes have entered what they may, and steps of the debugger and a hold have ended, the selected group's ready
lanes issue from slots A and B: slot A takes the lowest program counter of the released lanes, or of all when none is released; the slice holds
on to that group and its slot A lanes; a reservation goes once 64 cycles have passed with no entry of vector work; with no group to select nothing issues.
Where the spec leaves a point open, this follows the model's choice, log 28, 30, 31. -/
def Obligations.ClauseEntryAndSelect : Prop :=
  (
    ∀ (s : State) (w : DWord),
      let g := s.ev.x
      let h := s.ev.word
      let m := entrants s g h w
      mayPass s g h w →
      (soundEntry s g h w → skipsLoop s g h w = false → needsResv s g h w = false →
        ∃ t, exec .clauseEntry s = .next t ∧ Framed g [] s t
          ∧ (∀ l, l < 32 → lane t g l = if m.getLsbD l = true then
              { lane s g l with pc := h + (if isLoop w then 16 else 8), waitCtr := 0, held := false, relHere := false,
                                clause := some { clauseAt s g h w with bank := (Machine.core s (grp s g).core).bank },
                                released := (lane s g l).released && (!(bits w 40 40 == 1 && firstPass s g h w) || (lane s g l).relHere) }
              else lane s g l)
          ∧ (grp t g).loop = if isLoop w then some { hdr := h, word := w, k := loopReg s g h, lanes := m, running := true } else (grp s g).loop)
      ∧ (soundEntry s g h w → skipsLoop s g h w = true →
        ∃ t, exec .clauseEntry s = .next t ∧ Framed g [] s t ∧ (grp t g).loop = (grp s g).loop
          ∧ ∀ l, l < 32 → (m.getLsbD l = true → (lane t g l).pc = h + .ofNat 64 (8 * (clauseCount w + 1)) ∧ (lane t g l).clause = none
              ∧ (lane t g l).viaLoop = false ∧ (lane t g l).viaFall = true) ∧ (m.getLsbD l = false → lane t g l = lane s g l))
      ∧ (soundEntry s g h w → skipsLoop s g h w = false → needsResv s g h w = true →
        ∃ t, exec .clauseEntry s = .next t ∧ Framed g [] s t ∧ (∀ l, lane t g l = lane s g l)
          ∧ (clus t (coreClus (grp s g).core)).requests.any (fun r => r.core == (grp s g).core && r.unit_ == sliceUnit (grp s g).slice) = true)
      ∧ (let armed := isTarget s g && isArmed s (grp s g).part h && m &&& ~~~(grp s g).passBp != 0
         let wrong := if firstPass s g h w then wrongWay s g w m else 0
         let code := headerCode w (incWord s g h) (clauseWords s g (clauseAt s g h w)) (tileAt s g h w) (wrong != 0) (firstPass s g h w)
         let u := dropHold (grp s g).core (grp s g).slice s
         let arr : Arrival := { gid := g, lanes := m, pc := h, word := w }
         (armed = true → ∃ n, exec .clauseEntry s = .next (drew (raise arr 0xD n 0 m m 0 true (modGrp g (fun x => { x with passBp := x.passBp ||| m }) u))))
           ∧ (armed = false → code ≠ 0 → exec .clauseEntry s = .next (drew (raise arr 1 code 0 m m 0 true u)))))
  ∧ (
    ∀ s : State,
      (64 ≤ (lane s s.ev.x s.ev.y).waitCtr → ∃ t, exec .frontierRelease s = .next t ∧ Framed s.ev.x [] s t
          ∧ (s.ev.y < 32 → lane t s.ev.x s.ev.y = { lane s s.ev.x s.ev.y with waitCtr := 0, released := true, relHere := true })
          ∧ ∀ l, l ≠ s.ev.y → lane t s.ev.x l = lane s s.ev.x l)
      ∧ ((lane s s.ev.x s.ev.y).waitCtr < 64 → exec .frontierRelease s = .next s)
      ∧ ∀ g m l, l < 32 → lane (frontierCount g m s) g l =
          if m.getLsbD l = true then
            if 63 ≤ (lane s g l).waitCtr then { lane s g l with waitCtr := 0, released := true, relHere := true }
            else { lane s g l with waitCtr := (lane s g l).waitCtr + 1 }
          else lane s g l)
  ∧ (
    ∀ s : State,
      let u := sliceEnter s.ev.x s.ev.y s
      let gs := sliceGroups s s.ev.x s.ev.y
      let pick := selectGroup u s.ev.x s.ev.y (gs.filter (fun g => readyLanes u g != 0))
      let sl := fun (x : State) => (Machine.core x s.ev.x).slices.get {} s.ev.y
      ((∀ g ∈ gs, (grp s g).debugStop = false ∧ (∀ w ∈ (grp s g).waits, ∀ k a, w.kind ≠ .passed k a)
          ∧ ∀ l, l < 32 → (lane s g l).exited = false → (lane s g l).clause.isSome) →
          ∀ g, grp u g = { grp s g with resvWait := (grp u g).resvWait } ∧ (g ∈ gs → (grp u g).resvWait = false))
      ∧ ∃ t, exec .issueSelect s = .next t ∧ t.time = u.time ∧ SameBytes u t
        ∧ (∀ g, grp t g = { grp u g with lastIssue := (grp t g).lastIssue, waits := (grp t g).waits, debugStop := (grp t g).debugStop,
                                         debugMark := (grp t g).debugMark, yielded := (grp t g).yielded })
        ∧ (sl t).resv = (if (sl u).fresh = false ∧ 64 ≤ (sl u).idle + 1 then 0 else (sl u).resv)
        ∧ (pick = none → t.issuing = u.issuing ∧ (sl t).hold = none ∧ ∀ g, (grp t g).waits = (grp u g).waits)
        ∧ ∀ g, pick = some g → t.issuing = arrivalsOf u g (readyLanes u g) ∧ (sl t).hold = some g ∧ (grp t g).lastIssue = (sl u).cycles + 1
          ∧ ∃ a, t.issuing.head? = some a ∧ a.live = true ∧ a.gid = g ∧ a.slotB = false ∧ (sl t).holdLanes = a.lanes
            ∧ (let rel := fun (l : Nat) => l < 32 ∧ (readyLanes u g).getLsbD l = true ∧ (lane u g l).released = true
               ((∃ l, rel l) → ∀ l, rel l → a.pc.toNat ≤ (lane u g l).pc.toNat)
                ∧ ((∀ l, ¬ rel l) → ∀ l, l < 32 → (readyLanes u g).getLsbD l = true → a.pc.toNat ≤ (lane u g l).pc.toNat))
            ∧ ∀ l, l < 32 → (a.lanes.getLsbD l = true ↔ (readyLanes u g).getLsbD l = true ∧ (lane u g l).pc = a.pc))

/-- The activation tables: `tbl.ld` stalls its group with the places of the image's 260 words; its read starts once no lane is inside a clause
that latched the inactive bank, takes each word that lies near the core, and sends requests for words of other modules; words that an event names
arrive from their homes; then the inactive image of its function holds the bytes that arrived, and those that had not are read at their
homes. `tbl.swap` exchanges the banks at once where no load is in flight, else its lanes wait, and the banks change places when the last
load's image is written; `tbl.tag` reads the current image's tag.
Where the spec leaves a point open, this follows the model's choice, log 17. -/
def Obligations.ActivationTables : Prop :=
  (
    ∀ s : State,
      (∀ f, ready (.tblLd f) [] (active s) s = true → active s ≠ 0 →
          let va := (kRead s f.a.toNat).toNat
          allPermitted (rangeAccess s va 2080 .load) = true →
          (∃ t, exec (.tblLd f) s = .next t
            ∧ Stalls (.tblLd (f.mo.toNat % 4) (tblPieces s va) s.ids.msg false) { s with ids := { s.ids with msg := s.ids.msg + 1 } } t)
          ∧ (tblPieces s va).length = 260
          ∧ ∀ i q, (tblPieces s va)[i]? = some q → q.part = i ∧ q.va = va + 8 * i ∧ q.width = 8 ∧ q.got = List.replicate 8 none
              ∧ ∃ h, access s s.cur.gid (lowest (active s)) 3 (va + 32 * (i / 4)) 32 .load = .ok h ∧ q.loc = h.loc.plus (8 * (i % 4)))
      ∧ (∀ fn ps id arr since, (grp s s.ev.x).stall = some ⟨.tblLd fn ps id false, arr, since⟩ →
          (latched s (grp s s.ev.x).core (1 - (Machine.core s (grp s s.ev.x).core).bank) = false →
            ∃ t, exec .tblLdReadStart s = .next t ∧ Framed s.ev.x [] s t
              ∧ (grp t s.ev.x).stall = some ⟨.tblLd fn (ps.map (takeNear s s.ev.x)) id true, arr, since⟩
              ∧ ∀ q ∈ lacking (ps.map (takeNear s s.ev.x)), ∀ m a, q.loc = .remote m a →
                  ∃ f ∈ t.net.far, f.pend = some id ∧ f.module = some m ∧ f.gpa / 128 = a / 128)
          ∧ (latched s (grp s s.ev.x).core (1 - (Machine.core s (grp s s.ev.x).core).bank) = true → exec .tblLdReadStart s = .next s))
      ∧ (∀ fn ps id arr since, (grp s s.ev.x).stall = some ⟨.tblLd fn ps id true, arr, since⟩ → readHeld s s.ev.x ps = false →
          refusedReq s s.ev.x id ps = none →
          let miss := (lacking ps).filter (fun q => s.ev.nums.contains q.part)
          ∃ t, exec .tblLdReadStart s = .next t ∧ Framed s.ev.x [] s t
            ∧ (grp t s.ev.x).stall = some ⟨.tblLd fn (ps.map (fun q =>
                if miss.contains q then fillPiece s s.ev.x (farData s s.ev.x miss) q else q)) id true, arr, since⟩)
      ∧ (∀ fn ps id arr since, (grp s s.ev.x).stall = some ⟨.tblLd fn ps id true, arr, since⟩ →
          (readHeld s s.ev.x ps = true → exec .tblLdReadStart s = .next s ∧ exec .tblLdImageWritten s = .next s)
          ∧ ∀ q, readHeld s s.ev.x ps = false → refusedReq s s.ev.x id ps = some q →
              exec .tblLdReadStart s = .next (loseRequest q.1 q.2 s) ∧ exec .tblLdImageWritten s = .next (loseRequest q.1 q.2 s))
      ∧ (∀ fn ps id arr since, (grp s s.ev.x).stall = some ⟨.tblLd fn ps id true, arr, since⟩ → arr.gid = s.ev.x → fn < 4 →
          readHeld s s.ev.x ps = false → refusedReq s s.ev.x id ps = none → (Machine.core s (grp s s.ev.x).core).bank < 2 → ps.length = 260 → (∀ q ∈ ps, q.width = 8 ∧ q.got.length = 8) →
          let c := (grp s s.ev.x).core
          let new := imgKey (1 - (Machine.core s c).bank) fn 0
          let far := farData s s.ev.x (lacking ps)
          ∃ v, exec .tblLdImageWritten s = .next (drew (runSwaps c v)) ∧ Resumes s.ev.x ⟨.tblLd fn ps id true, arr, since⟩ [] s v ∧ SameBytes s v
            ∧ (Machine.core v c).bank = (Machine.core s c).bank
            ∧ (∀ i q, i < 2080 → ps[i / 8]? = some q → (Machine.core v c).images.get 0 (new + i)
                = (q.got.getD (i % 8) none).getD (arriving s s.ev.x far (q.loc.plus (i % 8))))
            ∧ ∀ n, n < new ∨ new + 2080 ≤ n → (Machine.core v c).images.get 0 n = (Machine.core s c).images.get 0 n)
      ∧ (ready .tblSwap [] (active s) s = true → active s ≠ 0 →
          (tblLoads s (grp s s.cur.gid).core = [] → ∃ t, exec .tblSwap s = .next t ∧ Framed s.cur.gid [] s t ∧ MovesOn s.cur s t
            ∧ (Machine.core t (grp s s.cur.gid).core).bank = 1 - (Machine.core s (grp s s.cur.gid).core).bank)
          ∧ (tblLoads s (grp s s.cur.gid).core ≠ [] → ∃ t, exec .tblSwap s = .next t ∧ Framed s.cur.gid [] s t
            ∧ (Machine.core t (grp s s.cur.gid).core).bank = (Machine.core s (grp s s.cur.gid).core).bank ∧ WaitsOn (· = .tblSwap s.cur.hasExt) s t))
      ∧ ∀ f, ready (.tblTag f) [] (active s) s = true → active s ≠ 0 →
          ∃ t, exec (.tblTag f) s = .next t ∧ UniEffect f.d.toNat
            (.ofNat 64 (imgWord s (grp s s.cur.gid).core (Machine.core s (grp s s.cur.gid).core).bank (f.mo.toNat % 4) 0x10)) s t)
  ∧ (
    ∀ (u : State) (c : Nat),
      let gs := (keysOf u.groups (fun _ g => g.core == c && g.resident)).eraseDups
      let isSwap := fun (w : LWait) => match w.kind with | .tblSwap _ => true | _ => false
      let n := (gs.map (fun g => ((grp u g).waits.filter isSwap).length)).sum
      (tblLoads u c ≠ [] → runSwaps c u = u)
        ∧ (tblLoads u c = [] → (Machine.core u c).bank < 2 →
            (Machine.core (runSwaps c u) c).bank = (if n % 2 = 0 then (Machine.core u c).bank else 1 - (Machine.core u c).bank)
              ∧ (∀ h ∈ gs, ∀ w ∈ (grp (runSwaps c u) h).waits, isSwap w = false)
              ∧ (∀ h ∈ gs, (grp u h).waits.Pairwise (fun a b => a.lanes &&& b.lanes = 0) → ∀ w ∈ (grp u h).waits, ∀ e, w.kind = .tblSwap e →
                  ∀ l, w.lanes.getLsbD l = true → ∀ cl, (lane u h l).clause = some cl → cl.loop = false →
                    lane (runSwaps c u) h l = movedOn { gid := h, lanes := w.lanes, pc := w.pc, hasExt := e } u.time (lane u h l))
              ∧ ∀ h, (h ∉ gs ∨ ∀ w ∈ (grp u h).waits, isSwap w = false) → grp (runSwaps c u) h = grp u h))

/-- Deposits: `rodep` leaves one deposit of each active lane, in ascending order, with its key, payload and name, those lanes have exited and the
others have moved on; its lanes wait while the unit has too few free entries, and issue again from RODEP_ENTRIES_FREE once one is free; without a continuation entry in
the launch it stops with code 0x17; `rold` counts entries; `roflush` forms groups of up to 32 from every key of the team, in ascending key
order, and its own group goes on.
Where the spec leaves a point open, this follows the model's choice, log 98, 107. -/
def Obligations.ReorderDeposits : Prop :=
  ∀ s : State,
    let g := s.cur.gid
    let c := (grp s g).core
    (∀ f, ready (.rodep f) [] (active s) s = true → streamsOk 32 64 0 s = true →
        let dep := (Machine.core s c).deposits
        let cont := (launch s (team s (grp s g).team).launch).record.cont
        (cont ≠ 0 → dep.length + Mask.count (active s) ≤ Config.depositEntries →
          (liveLanes s g &&& ~~~(active s) = 0 → (grp s g).lost = []) →
          ∃ t, exec (.rodep f) s = .next t ∧ SameBytes s t ∧ KeepsV g s t ∧ KeepsP g s t ∧ KeepsK g [] s t
            ∧ (Machine.core t c).deposits = dep ++ (Mask.toList (active s)).map (fun l =>
                ⟨(grp s g).team, srcA (streamSrc s 32 64 0) l f.a f.ak 32 % 65536,
                  .ofNat 64 (srcB (streamSrc s 32 64 0) l f.b f.bk 64), laneName s g l⟩)
            ∧ (∀ l, l < 32 → (active s).getLsbD l = true → (lane t g l).exited = true)
            ∧ (active s ≠ 0 → liveLanes s g &&& ~~~(active s) = 0 → (grp t g).exited = true)
            ∧ ((grp s g).waits = [] → ∀ l, l < 32 → s.cur.lanes.getLsbD l = true → (active s).getLsbD l = false →
                ∀ cl, (lane s g l).clause = some cl → cl.loop = false → lane t g l = movedOn s.cur s.time (lane s g l)))
        ∧ (cont ≠ 0 → Config.depositEntries < dep.length + Mask.count (active s) → ∃ t, exec (.rodep f) s = .next t ∧ Framed g [] s t
            ∧ (Machine.core t c).deposits = dep ∧ WaitsOn (· = .rodep) s t)
        ∧ (cont = 0 → exec (.rodep f) s = .next (raise s.cur 1 0x17 0 (active s) (active s) 0 false s)))
    ∧ (∀ w, (grp s s.ev.x).waits.find? (fun w => w.kind == .rodep) = some w → w.lanes ≠ 0 →
        let free := canGo s s.ev.x && decide ((Machine.core s (grp s s.ev.x).core).deposits.length < Config.depositEntries)
        (free = true → ∃ t, exec .rodepEntriesFree s = .next t ∧ Framed s.ev.x [] s t
          ∧ (grp t s.ev.x).waits = (grp s s.ev.x).waits.filter (fun y => y.id != w.id)
          ∧ ((team s (grp s s.ev.x).team).state = .resident → (team s (grp s s.ev.x).team).goal = 0 →
              t.issuing = s.issuing ++ [{ live := true, gid := s.ev.x, lanes := w.lanes, pc := w.pc }]))
        ∧ (free = false → exec .rodepEntriesFree s = .next s))
    ∧ (∀ f, CrossDone (.rold f) 32 f.d (fun c =>
        let gr := grp c.s c.s.cur.gid
        let d := (Machine.core c.s gr.core).deposits
        let mine := d.filter (fun x => x.team == gr.team)
        let key := srcA c (someLane c.s (active c.s)) f.a f.ak 32 % 65536
        (Config.depositEntries - d.length) * 2 ^ 32 + mine.length * 2 ^ 16 + (mine.filter (fun x => x.key == key)).length))
    ∧ (ready .roflush [] (active s) s = true →
        (active s = 0 → exec .roflush s = .next (done s))
        ∧ (active s ≠ 0 → g < s.ids.group → ∃ u, exec .roflush s = .next (done u) ∧ FormedAs c (flushed (Machine.core s c).deposits (grp s g).team) s u
            ∧ u.cur = s.cur ∧ u.time = s.time))

/-- CONTINUATION_GROUP_FORM: 32 deposits of one team and key form one group, in deposit order; the deposits of a team none of whose groups
could add to them form groups of up to 32, by ascending key; a full buffer forms one group of the team and key with the most entries, ties to the
lower key and then the lower slot. CONTINUATION_GROUP_PLACE: the first formed group whose team has a free place and that fits a slice
becomes a continuation group of the next number in a place that no group of its team holds.
Where the spec leaves a point open, this follows the model's choice, log 31, 98, 99. -/
def Obligations.ContinuationGroups : Prop :=
  ∀ s : State,
    (let dep := (Machine.core s s.ev.x).deposits
     let n := fun (t k : Nat) => (entriesOf dep t k).length
     ((∀ t ∈ teamsIn dep, depositsOpen s t) → dep.length - 32 * (filled dep).length < Config.depositEntries →
        ∃ u, exec .continuationGroupForm s = .next u ∧ FormedAs s.ev.x (filled dep) s u)
     ∧ ((∀ t k, n t k < 32) → (∀ t ∈ teamsIn dep, teamIdle s t = true ∨ depositsOpen s t) →
        (((teamsIn dep).filter (fun t => !teamIdle s t)).flatMap (fun t => dep.filter (fun d => d.team == t))).length < Config.depositEntries →
        ∃ u, exec .continuationGroupForm s = .next u ∧ FormedAs s.ev.x (((teamsIn dep).filter (fun t => teamIdle s t)).flatMap (flushed dep)) s u)
     ∧ ((∀ t k, n t k < 32) → (∀ t ∈ teamsIn dep, depositsOpen s t) → Config.depositEntries ≤ dep.length →
        ∃ u t k, exec .continuationGroupForm s = .next u ∧ FormedAs s.ev.x [⟨t, k, entriesOf dep t k⟩] s u
          ∧ ∀ t' k', n t' k' ≤ n t k ∧ (n t' k' = n t k → k ≤ k' ∧ (k = k' → (team s t).slot ≤ (team s t').slot))))
    ∧ (∀ (f : Formed) p u0, (Machine.core s s.ev.x).formed.find? (fun f => (placeFormed s.ev.x f s).isSome) = some f →
        placeFormed s.ev.x f s = some (p, u0) → f.taken.length ≤ 32 →
        ∃ u, exec .continuationGroupPlace s = .next u ∧ (Machine.core u s.ev.x).formed = (Machine.core s s.ev.x).formed.erase f ∧ SameBytes s u
          ∧ ContGroup u s.ids.group f ∧ (grp u s.ids.group).place = p ∧ u.ids.group = s.ids.group + 1
          ∧ ∀ g ∈ liveGroups s f.team, (grp s g).place ≠ p)
    ∧ ((Machine.core s s.ev.x).formed.all (fun f => (placeFormed s.ev.x f s).isNone) = true → exec .continuationGroupPlace s = .next s)

/-! ### System words -/

/-- Special registers: `srd` leaves a pending write of kd with the register's value; `swr` writes STEEPCFG with its clamps, HVEC aligned, and TRACT
of a team that handles a trap; a read-only register keeps its value.
What `srd` reads: each register of the context by its number, STEEPSTAT from the steep state of the core, the trap registers from the record of the trap that the group's team handles and 0
else (R94, R338, R426).
Where the spec leaves a point open, this follows the model's choice, log 20, 46. -/
def Obligations.SpecialRegisters : Prop :=
  (
    ∀ s : State, active s ≠ 0 →
      let g := s.cur.gid
      let p := (grp s g).part
      let n := s.cur.ext.sys.num.toNat
      let x := kRead s s.cur.ext.sys.a.toNat
      (ready .srd [] (active s) s = true → ∃ t, exec .srd s = .next t ∧ Framed g [] s t ∧ MovesOn s.cur s t
          ∧ ∃ q, (grp t g).pend = (grp s g).pend ++ [q] ∧ q.regs = [.k s.cur.ext.sys.d.toNat] ∧ q.lanes = active s
            ∧ q.kind = .uniform s.cur.ext.sys.d.toNat (some (srValue s g n)) [] 0)
      ∧ (ready .swr [] (active s) s = true → ∃ t, exec .swr s = .next t ∧ Framed g [] s t ∧ MovesOn s.cur s t
          ∧ (part t p).hvec = (if n = 0x20 then .ofNat 64 (bits x 55 6 * 64) else (part s p).hvec)
          ∧ (bits (part t p).steep 47 32 = (if n = 0x10 then bits x 47 32 else bits (part s p).steep 47 32))
          ∧ (n = 0x10 → bits (part t p).steep 28 24 = min (bits x 28 24) 30 ∧ bits (part t p).steep 20 16 = min (max (bits x 20 16) 12) 24
              ∧ bits (part t p).steep 0 0 = bits x 0 0)
          ∧ (n ≠ 0x10 → (part t p).steep = (part s p).steep) ∧ (part t p).ctx = (part s p).ctx
          ∧ (team t (grp s g).team).action = if n = 0x29 ∧ (team s (grp s g).team).handles.isSome then bits x 1 0 else (team s (grp s g).team).action))
  ∧ (
    ∀ (s : State) (g : Nat),
      let p := part s (grp s g).part
      srValue s g 0x00 = p.ctx.txroot ∧ srValue s g 0x01 = p.ctx.vwin ∧ srValue s g 0x02 = p.ctx.pvwin ∧ srValue s g 0x03 = p.ctx.pvcfg
        ∧ srValue s g 0x04 = p.ctx.vdt ∧ srValue s g 0x05 = p.ctx.vxt ∧ srValue s g 0x10 = p.steep ∧ srValue s g 0x20 = p.hvec
        ∧ (let c := (grp s g).core
           let x := srValue s g 0x11
           bits x 60 56 = (Machine.core s c).steep.offset % 32 ∧ bits x 47 32 = safePoint s c % 2 ^ 16 ∧ bits x 31 0 = (Machine.core s c).steep.lastEvents % 2 ^ 32
             ∧ bits x 63 61 = 0 ∧ bits x 55 48 = 0)
        ∧ ((team s (grp s g).team).handles = none → ∀ n, 0x21 ≤ n → n ≤ 0x2A → n ≠ 0x29 → srValue s g n = 0)
        ∧ ∀ r, handled s g = some r → srValue s g 0x21 = r.tid ∧ srValue s g 0x23 = r.pc ∧ srValue s g 0x24 = r.detail
            ∧ (r.cls < 256 → r.code < 256 → r.flags < 256 → r.level < 256 → r.ver < 2 ^ 32 →
                srValue s g 0x22 = .ofNat 64 (r.cls + 2 ^ 8 * r.code + 2 ^ 16 * r.flags + 2 ^ 24 * r.level + 2 ^ 32 * r.ver))
            ∧ srValue s g 0x2A = .ofNat 64 (pendingTraps s (grp s g).part))

/-- Translation maintenance: `xlinv` and `xlinv.all` stall their group; XLINV_COMPLETE first makes the cores of the scope forget what they cached of the
page, or of the whole context, and then lets the group go on once no access translated before is still on its way; `linv` drains the group's
writes to the lines of a range's pages that translate and drops their copies from the core's L1, or from every L1 and the L2 of the die.
Where the spec leaves a point open, this follows the model's choice, log 63. -/
def Obligations.TranslationMaintenance : Prop :=
  ∀ s : State,
    (active s ≠ 0 → ready .xlinv [] (active s) s = true → ∃ t, exec .xlinv s = .next t ∧ Stalls
        (.xlinv (s.cur.ext.sys.mo.toNat % 8) (some ((kRead s s.cur.ext.sys.a.toNat).toNat / 65536)) false s.ids.msg) s t)
    ∧ (active s ≠ 0 → ready .xlinvAll [] (active s) s = true → ∃ t, exec .xlinvAll s = .next t ∧ Stalls
        (.xlinv (s.cur.ext.sys.mo.toNat % 8) none false s.ids.msg) s t)
    ∧ (∀ scope page mark arr since, (grp s s.ev.x).stall = some ⟨.xlinv scope page false mark, arr, since⟩ →
        let own := (Machine.core s (grp s s.ev.x).core).wcb.any (fun e => e.gids.contains s.ev.x && decide (e.first ≤ since)) || !released s s.ev.x mark
        (own = true → exec .xlinvComplete s = .next s)
        ∧ (own = false → ∃ t, exec .xlinvComplete s = .next t ∧ Framed s.ev.x [] s t
          ∧ (grp t s.ev.x).stall = some ⟨.xlinv scope page true s.ids.msg, arr, s.time⟩
          ∧ (∀ c x, x ∈ (Machine.core t c).tlb ↔ x ∈ (Machine.core s c).tlb
              ∧ ¬ (scopeCores (grp s s.ev.x).core scope c = true ∧ x.part = (grp s s.ev.x).part
                ∧ ∀ q, page = some q → (if x.big then q / 32 else q) = x.page))
          ∧ ∀ d, (if scope < 5 then d = coreDie (grp s s.ev.x).core else d < 8) → (die t d).walkFloor = s.time + 1))
    ∧ (∀ scope page mark arr since, (grp s s.ev.x).stall = some ⟨.xlinv scope page true mark, arr, since⟩ → arr.gid = s.ev.x →
        let busy := onTheWay s (grp s s.ev.x).part (scopeCores (grp s s.ev.x).core scope) page mark since
        (busy = true → exec .xlinvComplete s = .next s)
        ∧ (busy = false → ∃ t, exec .xlinvComplete s = .next t ∧ Resumes s.ev.x ⟨.xlinv scope page true mark, arr, since⟩ [] s t ∧ SameBytes s t))
    ∧ (active s ≠ 0 → ready .linv [] (active s) s = true →
        let g := s.cur.gid
        let c := (grp s g).core
        let core_ := s.cur.ext.sys.mo.toNat % 8 = 2
        let rl := rangeLines s (grp s g).part c (kRead s s.cur.ext.sys.a.toNat).toNat (bits (kRead s s.cur.ext.sys.b.toNat) 31 0)
        let out := fun (line : Nat) => rl.all (fun r => decide (line < r.1) || decide (r.2 < line))
        ∃ t, exec .linv s = .next t ∧ SameBytes s t ∧ RegsKept g [] s t ∧ MovesOn s.cur s t
            ∧ (∀ x, (Machine.core t x).l1 = if x = c ∨ (¬ core_ ∧ coreDie x = coreDie c) then (Machine.core s x).l1.filter (fun y => out y.line)
                else (Machine.core s x).l1)
            ∧ (die t (coreDie c)).l2.map (fun y => y.line)
                = ((die s (coreDie c)).l2.map (fun y => y.line)).filter (fun line => decide core_ || out line)
            ∧ ∀ e ∈ (Machine.core t c).wcb, e ∈ (Machine.core s c).wcb ∧ (e.gids.contains g = true → out e.line = true))

/-- Time, the map and the dies: `gtime`, `rmap`, `diehop` and `vdie` write kd; `gtime.until` waits for its time; `rmack` acknowledges the current version
only; a virtual die that is not valid stops the group.
With no active lane a system word changes nothing but its lanes' places (R310).
Where the spec leaves a point open, this follows the model's choice, log 61, 93. -/
def Obligations.TimeMapAndIdleWords : Prop :=
  (
    ∀ s : State, active s ≠ 0 →
      let g := s.cur.gid
      let f := s.cur.ext.sys
      let d := f.d.toNat
      let p := (grp s g).part
      let now := gtime s (grpDie s g)
      (ready .gtime [] (active s) s = true → ∃ t, exec .gtime s = .next t ∧ UniEffect d (.ofNat 64 (s.time + (die s (grpDie s g)).off)) s t)
      ∧ (ready .gtimeUntil [] (active s) s = true →
          ((kRead s f.a.toNat).toNat ≤ now → exec .gtimeUntil s = .next (done s))
          ∧ (now < (kRead s f.a.toNat).toNat → ∃ t, exec .gtimeUntil s = .next t ∧ Stalls (.gtimeUntil (kRead s f.a.toNat).toNat) s t))
      ∧ (∀ x until_, (grp s s.ev.x).stall = some x → x.kind = .gtimeUntil until_ → x.arr.gid = s.ev.x → until_ ≤ gtime s (grpDie s s.ev.x) →
          ∃ t, exec .gtimeUntilReached s = .next t ∧ Resumes s.ev.x x [] s t ∧ SameBytes s t)
      ∧ (ready .rmap [] (active s) s = true → ∃ t, exec .rmap s = .next t ∧ UniEffect d (.ofNat 64 (s.map.version * 2 ^ 32 + (part s p).acked)) s t)
      ∧ (ready .rmack [] (active s) s = true →
          (bits (kRead s f.a.toNat) 31 0 ≠ s.map.version → exec .rmack s = .next (done s))
          ∧ (bits (kRead s f.a.toNat) 31 0 = s.map.version → ∃ t, exec .rmack s = .next t ∧ Framed g [] s t ∧ MovesOn s.cur s t
              ∧ (part t p).acked = s.map.version ∧ (part t p).ackDue = none ∧ t.map = s.map))
      ∧ (ready .diehop [] (active s) s = true →
          let a := vdt s p (srcBits s (someLane s (active s)) f.a f.ak 32 % 8)
          let b := vdt s p (srcBits s (someLane s (active s)) f.b f.bk 32 % 8)
          (∀ x y, a = some x → b = some y → ∃ t, exec .diehop s = .next t ∧ UniEffect d (.ofNat 64 (hops s y 8 0 [x])) s t)
          ∧ (a = none ∨ b = none → exec .diehop s = .next (raise s.cur 1 0x15 0 (active s) (active s) 0 false s)))
      ∧ (ready .vdie [] (active s) s = true →
          let a := vdt s p (srcBits s (someLane s (active s)) f.a f.ak 32 % 8)
          (∀ x, a = some x → ∃ t, exec .vdie s = .next t ∧ UniEffect d (if x = 1 ∨ x = 3 ∨ x = 4 ∨ x = 6 then 1 else 0) s t)
          ∧ (a = none → exec .vdie s = .next (raise s.cur 1 0x15 0 (active s) (active s) 0 false s))))
  ∧ (
    ∀ i ∈ [Instr.trap, .eret, .srd, .swr, .xlinv, .xlinvAll, .linv, .gtime, .gtimeUntil, .rmap, .rmack, .cbclaim, .cbrel, .halt, .wfw, .slclaim,
        .slrel, .twait, .cwait, .stepBegin, .stepEnd],
      ∀ s, ready i [] (active s) s = true → active s = 0 → exec i s = .next (done s))

/-- Counter banks and slice ratios: a claim holds its bank unless the hypervisor has it, a release gives it back, a read of a held bank leaves a pending
write of its counter and of another bank stops the group; `clkr` states its request and completes when the slice runs at the ratio that the
requests of its groups and the cluster's limit give, and CLOCK_RATIO_CHANGE brings the slice there.
`halt` stalls its group; `wfw` waits on a permitted word of 8 bytes, and goes on with the word in kd, at its home under what the core's own buffer holds of it, when a write since has left it other than kb, or after 1 ms;
a word that differed before does not wake it.
Where the spec leaves a point open, this follows the model's choice, log 16, 46, 60, 62, 79. -/
def Obligations.BanksRatiosAndHalts : Prop :=
  (
    ∀ s : State,
      (active s ≠ 0 →
        let g := s.cur.gid
        let f := s.cur.ext.sys
        let p := (grp s g).part
        let b := bits (kRead s f.a.toNat) 3 0
        (ready .cbclaim [] (active s) s = true → ∃ t, exec .cbclaim s = .next t ∧ Framed g [f.d.toNat] s t ∧ MovesOn s.cur s t
            ∧ ∃ x : DWord, ((grp s g).loop.all (fun l => l.k != f.d.toNat) = true → kGet t g f.d.toNat = x)
              ∧ ((x = 0 ∧ (part t p).banks.get 0 b = 1 ∧ ∀ i, i ≠ b → (part t p).banks.get 0 i = (part s p).banks.get 0 i)
                ∨ (x = 1 ∧ (part s p).banks.get 0 b ≠ 1 ∧ t.parts = s.parts)))
        ∧ (ready .cbrel [] (active s) s = true → ∃ t, exec .cbrel s = .next t ∧ Framed g [] s t ∧ MovesOn s.cur s t
            ∧ (part t p).banks.get 0 b = (if (part s p).banks.get 0 b = 1 then 0 else (part s p).banks.get 0 b)
            ∧ ∀ i, i ≠ b → (part t p).banks.get 0 i = (part s p).banks.get 0 i)
        ∧ (ready .cbread [] (active s) s = true →
            ((part s p).banks.get 0 b ≠ 1 → exec .cbread s = .next (raise s.cur 1 0x16 0 (active s) (active s) 0 false s))
            ∧ ((part s p).banks.get 0 b = 1 → ∃ t, exec .cbread s = .next t ∧ Framed g [] s t ∧ MovesOn s.cur s t
                ∧ ∃ q v, (grp t g).pend = (grp s g).pend ++ [q] ∧ q.regs = [.k f.d.toNat] ∧ q.kind = .uniform f.d.toNat (some (.ofNat 64 v)) [] 0
                  ∧ let i := bits (kRead s f.b.toNat) 5 0
                    ((vdt s p (b % 8)).isNone → v = 0)
                    ∧ ((vdt s p (b % 8)).isSome → b < 8 ∨ i < 20 ∨ 23 < i → v = (part s p).ctr.get 0 (b * 64 + i))
                    ∧ ((vdt s p (b % 8)).isSome → 8 ≤ b → 20 ≤ i → i ≤ 23 → min ((part s p).ctr.get 0 (b * 64 + i)) (2 ^ 64 - 1) ≤ v)))
        ∧ (ready .clkr [] (active s) s = true →
            let k := bits (kRead s f.a.toNat) 3 0
            let sl := (Machine.core s (grp s g).core).slices.get {} (grp s g).slice
            (k < 2 ∨ 10 < k → exec .clkr s = .next (raise s.cur 1 0x16 0 (active s) (active s) 0 false s))
            ∧ (2 ≤ k → k ≤ 10 →
                let want := wantRatio (modGrp g (fun x => { x with clkReq := k }) s) (grp s g).core (grp s g).slice
                ∃ t, exec .clkr s = .next t ∧ Framed g [f.d.toNat] s t ∧ (grp t g).clkReq = k
                  ∧ (want = sl.ratio → MovesOn s.cur s t ∧ (grp t g).stall = (grp s g).stall
                      ∧ ((grp s g).loop.all (fun l => l.k != f.d.toNat) = true → kGet t g f.d.toNat = .ofNat 64 sl.ratio))
                  ∧ (want ≠ sl.ratio → (grp t g).stall = some ⟨.clkr f.d.toNat, s.cur, s.time⟩ ∧ canGo t g = false ∧ KeepsK g [] s t
                      ∧ ∀ l, lane t g l = lane s g l))))
      ∧ (let sl := (Machine.core s s.ev.x).slices.get {} s.ev.y
         let want := wantRatio s s.ev.x s.ev.y
         let asks := sl.resv ≠ 0 ∧ sl.resv < want
         (asks → ∃ t, exec .clockRatioChange s = .next t ∧ t = { s with clusters := t.clusters }
            ∧ (clus t (coreClus s.ev.x)).requests.any (fun r => r.core == s.ev.x && r.unit_ == sliceUnit s.ev.y) = true)
         ∧ (¬ asks → (∀ g ∈ sliceGroups s s.ev.x s.ev.y, ∀ x, (grp s g).stall = some x → x.arr.gid = g) →
            ∃ t, exec .clockRatioChange s = .next t ∧ SameBytes s t
              ∧ (Machine.core t s.ev.x).slices.get {} s.ev.y = { sl with ratio := want }
              ∧ (∀ g, (g ∉ sliceGroups s s.ev.x s.ev.y ∨ ∀ k arr since, (grp s g).stall ≠ some ⟨.clkr k, arr, since⟩) → grp t g = grp s g)
              ∧ ∀ g ∈ sliceGroups s s.ev.x s.ev.y, ∀ k arr since, (grp s g).stall = some ⟨.clkr k, arr, since⟩ →
                  (grp t g).stall = none ∧ KeepsV g s t ∧ KeepsP g s t ∧ KeepsK g [k] s t
                    ∧ ((grp s g).loop.all (fun l => l.k != k) = true → kGet t g k = .ofNat 64 want)
                    ∧ ∀ l, arr.lanes.getLsbD l = true → ∀ c, (lane s g l).clause = some c → c.loop = false →
                        lane t g l = movedOn arr s.time (lane s g l))))
  ∧ (
    ∀ s : State,
      (active s ≠ 0 → ready .halt [] (active s) s = true → ∃ t, exec .halt s = .next t ∧ Stalls .halt s t)
      ∧ (active s ≠ 0 → ready .wfw [] (active s) s = true →
          let f := s.cur.ext.sys
          let va := (kRead s f.a.toNat).toNat
          ∀ h, access s s.cur.gid (lowest (active s)) 3 va 8 .load = .ok h →
            let loc := watchPlace s (grp s s.cur.gid).part h.loc
            ∃ t, exec .wfw s = .next t
              ∧ Stalls (.wfw f.d.toNat va loc (kRead s f.b.toNat) (.ofNat 64 (watched s s.cur.gid loc)) false) { s with lines := t.lines } t
              ∧ (∀ n, (lineSt t n).h = (lineSt s n).h ∧ (lineSt t n).c = (lineSt s n).c)
              ∧ (∀ key, loc = .cell key → ∀ w ∈ (lineSt t (lineOf key)).watch, w.gid = s.cur.gid → w = ⟨s.cur.gid, key, kRead s f.b.toNat, false⟩))
      ∧ (∀ key l, ∀ w ∈ (lineSt s (lineOf key)).watch,
          { w with hit := w.hit || (decide (key < w.key + 8) && decide (w.key < key + l.length) && leNat (cellBytes (applyAt key l s).2.mem w.key 8) != w.kb.toNat) }
            ∈ (lineSt (applyAt key l s).2 (lineOf key)).watch)
      ∧ (∀ k va loc kb seen hit arr since, (grp s s.ev.x).stall = some ⟨.wfw k va loc kb seen hit, arr, since⟩ → arr.gid = s.ev.x →
          let m := activeOf s arr
          let ends := fun (i : Instr) =>
            (∀ h, access s s.ev.x (lowest m) 3 va 8 .load = .ok h → ∃ t, exec i s = .next t
              ∧ Resumes s.ev.x ⟨.wfw k va loc kb seen hit, arr, since⟩ [k] s t ∧ SameBytes s t
              ∧ ((grp s s.ev.x).loop.all (fun l => l.k != k) = true → kGet t s.ev.x k = .ofNat 64 (watchRead s s.ev.x loc)))
            ∧ ∀ e, access s s.ev.x (lowest m) 3 va 8 .load = .error e → e.cls ≠ 0 →
                exec i s = .next (drew (raise arr e.cls e.code e.detail m m 0 false (unstall s.ev.x (unwatch s.ev.x loc s))))
          (woken s s.ev.x loc kb seen hit = true → ends .wfwWake) ∧ (woken s s.ev.x loc kb seen hit = false → exec .wfwWake s = .next s)
            ∧ (since + 1000000 ≤ s.time → ends .wfwTimeout) ∧ (s.time < since + 1000000 → exec .wfwTimeout s = .next s)))

/-! ### Memory words -/

/-- `ld` leaves one pending load with a piece for each register of each active lane, at its place and with what lies near its core, and, under the
zero policy, zeros in the inactive lanes; `ldu` loads one value for a uniform register, and with no active lane does nothing. No byte of memory,
scratchpad or cache changes.
`st` stores each register of each active lane at the lane's address, in ascending order of lane, but that 8-byte parts of a wide scratchpad
store may follow later, as pending stores of their own; a compress-store packs its participating lanes
from the lowest one's address, and with a count its uniform register holds their number; prefetches ask for the lines of the permitted lanes and
change nothing else.
Where the spec leaves a point open, this follows the model's choice, log 32, 33, 35. -/
def Obligations.LoadAndStoreWords : Prop :=
  (
    ∀ (s : State) (f : FM),
      let g := s.cur.gid
      (ready (.ld f) [] (active s) s = true → allPermitted (laneAccess s f (elemCount f * elemBytes f.ty) .load) = true →
        ∃ t, exec (.ld f) s = .next t ∧ SameBytes s t ∧ (∀ h, h ≠ g → grp t h = grp s h) ∧ KeepsP g s t ∧ KeepsK g [] s t ∧ MovesOn s.cur s t
          ∧ (∀ c, Machine.core t c = { Machine.core s c with entries := (Machine.core t c).entries }) ∧ t.dies = s.dies ∧ t.tokens = s.tokens
          ∧ (grp t g).x = (grp s g).x
          ∧ ((∀ r ∈ elemRegs f, r.1 < 256) → ∀ l n, l < 32 → n < 256 → vGet t g l n =
              if s.cur.ext.zero = true ∧ s.cur.lanes.getLsbD l = true ∧ (active s).getLsbD l = false ∧ n ∈ (elemRegs f).map Prod.fst then 0 else vGet s g l n)
          ∧ (active s = 0 → (grp t g).pend = (grp s g).pend)
          ∧ (active s ≠ 0 → ∃ q ps, (grp t g).pend = (grp s g).pend ++ [q] ∧ q.kind = .load ps ∧ q.lanes = active s
              ∧ q.regs = (elemRegs f).map (fun r => Reg.v r.1) ∧ (∀ x ∈ ps, (active s).getLsbD x.lane = true)
              ∧ ∀ l h, (active s).getLsbD l = true → access s g l f.space.toNat (effAddr s f l) (elemCount f * elemBytes f.ty) .load = .ok h →
                  ∀ r ∈ elemRegs f, (⟨l, .v r.1, r.2.2, tySigned f.ty, accessVa s f l r.2.1, placeAt s f l h r.2.1 .load,
                    gotPart s g (elemCount f * elemBytes f.ty) (placeAt s f l h r.2.1 .load) r.2.2, r.2.1 / 8⟩ : Piece) ∈ ps))
      ∧ (ready (.ldu f) [] (active s) s = true →
          (active s = 0 → exec (.ldu f) s = .next (done s))
          ∧ ∀ h, active s ≠ 0 → access s g (lowest (active s)) f.space.toNat (effAddr s f (lowest (active s))) (elemBytes f.ty) .load = .ok h →
            ∃ t q, exec (.ldu f) s = .next t ∧ Framed g [] s t ∧ MovesOn s.cur s t ∧ (grp t g).pend = (grp s g).pend ++ [q]
              ∧ q.lanes = active s ∧ q.regs = [.k f.data.toNat]
              ∧ q.kind = .load [⟨lowest (active s), .k f.data.toNat, elemBytes f.ty, tySigned f.ty, accessVa s f (lowest (active s)) 0, h.loc,
                  gotNow s g h.loc (elemBytes f.ty), 0⟩]))
  ∧ (
    ∀ (s : State) (f : FM), s.Canonical →
      let g := s.cur.gid
      (ready (.st f) [] (active s) s = true → allPermitted (laneAccess s f (elemCount f * elemBytes f.ty) .store) = true →
        let ok := permitted (laneAccess s f (elemCount f * elemBytes f.ty) .store)
        (∃ t ps, exec (.st f) s = .next t ∧ Stored g (ok.flatMap (nowParts s f)) s t ∧ RegsKept g [] s t ∧ MovesOn s.cur s t ∧ StreamsKept g s t
            ∧ t.tokens = s.tokens ∧ (grp t g).pend = (grp s g).pend ++ ps
            ∧ ps.map (fun p => (p.lanes, p.regs, p.kind)) = ok.flatMap (fun q => (lateParts s f q).map (fun l =>
                (Mask.one q.1, [], PendKind.values [] (l.map (fun x => ⟨q.1, x.1, x.2.1.loc, x.2.2⟩))))))
          ∧ ∀ q ∈ ok, (q.2.loc.isPad = false ∨ elemCount f * elemBytes f.ty ≤ 8 → lateParts s f q = [] ∧ nowParts s f q = laneStores s f q)
              ∧ (f.space.toNat = 1 → ∀ x, x ∈ laneStores s f q ↔ x ∈ nowParts s f q ∨ ∃ l ∈ lateParts s f q, x ∈ l))
      ∧ (ready (.cst f) [] (active s) s = true → (∃ h, cstRange s f = .ok h) → allPermitted (cstAccess s f) = true →
          ∃ t, exec (.cst f) s = .next t ∧ Stored g (cstStores s f (permitted (cstAccess s f))) s t ∧ RegsKept g [] s t ∧ MovesOn s.cur s t
            ∧ StreamsKept g s t ∧ t.tokens = s.tokens)
      ∧ (ready (.cstCount f) [] (active s) s = true → (∃ h, cstRange s f = .ok h) → allPermitted (cstAccess s f) = true →
          ∃ t, exec (.cstCount f) s = .next t ∧ Stored g (cstStores s f (permitted (cstAccess s f))) s t ∧ MovesOn s.cur s t
            ∧ RegsKept g [f.mo.toNat % 64] s t ∧ StreamsKept g s t ∧ t.tokens = s.tokens
            ∧ ((grp s g).loop.all (fun b => b.k != f.mo.toNat % 64) = true → kGet t g (f.mo.toNat % 64) = .ofNat 64 (Mask.count (cstLanes s))))
      ∧ ∀ i toL2, (i = .pfL1 f ∧ toL2 = false) ∨ (i = .pfL2 f ∧ toL2 = true) → ready i [] (active s) s = true →
          ∃ t l, exec i s = .next t ∧ Framed g [] s t ∧ MovesOn s.cur s t ∧ t.cores = s.cores ∧ t.dies = s.dies ∧ t.agenda = s.agenda ++ l
            ∧ (∀ (x : Item), x ∈ l → x.op = .lineFill ∧ x.ev.x = (grp s g).core ∧ x.ev.y = (grp s g).part ∧ x.ev.flag = toL2)
            ∧ ∀ j h key, (active s).getLsbD j = true → access s g j f.space.toNat (effAddr s f j) 1 .load = .ok h → memKey (grp s g).part h.loc = some key →
                isReg (lineOf key) = false →
                ∃ x ∈ l, x.ev.word = .ofNat 64 (accessVa s f j 0 / 128 * 128))

/-- Stream registers: with no active lane a stream word only moves its lanes; `xset` and `xpos` write one, `xget` reads its fields, `xsave` stores its image of 32 bytes; `xrest` loads the image's four words and
parks its group until they have arrived and the register is written. The unit reads ahead the next vector of the four after the position, where
every lane may read it and no fence or barrier of the group is under way, and changes nothing else.
Where the spec leaves a point open, this follows the model's choice, log 17. -/
def Obligations.StreamWords : Prop :=
  ∀ (s : State) (f : FX),
    let g := s.cur.gid
    let k := fun (r : Byte) => kRead s r.toNat
    let old := fun (n : Nat) => (grp s g).x.get {} n
    let Writes := fun (i : Instr) (x : Stream) => ready i [] (active s) s = true → active s ≠ 0 → ∃ t, exec i s = .next t ∧ Framed g [] s t ∧ MovesOn s.cur s t
      ∧ ∀ n, (grp t g).x.get {} n = if n = f.d.toNat then x else old n
    (∀ i ∈ [Instr.xset f, .xpos f, .xget f, .xsave f, .xrest f], ready i [] (active s) s = true → active s = 0 → exec i s = .next (done s))
    ∧ (Writes (.xset f)
      { base := k f.a, stride := .ofNat 32 (bits (k f.b) 31 0), count := bits (k f.b) 63 32, modulo := bits (k f.c) 31 0, pos := bits (k f.c) 63 32,
        space := f.mo.toNat / 4, width := f.mo.toNat % 4 })
    ∧ (Writes (.xpos f) { old f.d.toNat with pos := bits (k f.a) 31 0, ahead := [] })
    ∧ (ready (.xget f) [] (active s) s = true → active s ≠ 0 → ∃ t, exec (.xget f) s = .next t ∧ UniEffect f.d.toNat (.ofNat 64 (
        let x := old f.a.toNat
        match f.mo.toNat % 4 with
        | 0 => x.base.toNat
        | 1 => x.count * 2 ^ 32 + x.stride.toNat
        | 2 => x.pos * 2 ^ 32 + x.modulo
        | _ => x.space * 4 + x.width)) s t)
    ∧ (ready (.xsave f) [] (active s) s = true → active s ≠ 0 → s.Canonical → ∀ h, access s g (lowest (active s)) 3 (k f.a).toNat 32 .store = .ok h →
        ∃ t, exec (.xsave f) s = .next t ∧ Stored g [((k f.a).toNat, h, streamImage (old f.b.toNat))] s t ∧ RegsKept g [] s t
          ∧ MovesOn s.cur s t ∧ StreamsKept g s t)
    ∧ (ready (.xrest f) [] (active s) s = true → active s ≠ 0 → ∀ h, access s g (lowest (active s)) 3 (k f.a).toNat 32 .load = .ok h →
        ∃ t q, exec (.xrest f) s = .next t ∧ Framed g [] s t ∧ MovesOn s.cur s t ∧ (grp t g).x = (grp s g).x
          ∧ (grp t g).pend = (grp s g).pend ++ [q] ∧ q.lanes = s.cur.lanes ∧ isParked (grp t g) = true ∧ canGo t g = false
          ∧ q.kind = .load ((List.range 4).map (fun i => ⟨lowest (active s), .x f.d.toNat, 8, false, (k f.a).toNat + 8 * i, h.loc.plus (8 * i),
              gotNow s g (h.loc.plus (8 * i)) 8, i⟩)))
    ∧ (let h := s.ev.x
       let st := (grp s h).x.get {} s.ev.y
       let calm := (∀ w ∈ (grp s h).waits, match w.kind with
           | .fence _ _ _ _ | .bar _ _ _ | .role _ _ | .pkg _ _ _ _ | .passed _ _ => False
           | _ => True) ∧ (grp s h).resident = true ∧ ∀ id b n arr since, (grp s h).stall ≠ some ⟨.eret id b n, arr, since⟩
       let may := fun (p : Nat) => ∀ l, (liveLanes s h).getLsbD l = true → ∃ a, access s h l st.space (streamAddr st p l) (2 ^ st.width) .load = .ok a
       (∀ i, i < 4 → (∀ q ∈ st.ahead, q.1 ≠ st.pos + i) → (∀ j, j < i → ∃ q ∈ st.ahead, q.1 = st.pos + j) →
          (st.pos + i < st.count → calm → may (st.pos + i) →
            ∃ t, exec .streamReadAhead s = .next t ∧ Framed h [] s t ∧ StreamsKept h s t
              ∧ (∀ n, n ≠ s.ev.y → (grp t h).x.get {} n = (grp s h).x.get {} n)
              ∧ ∃ l, ((grp t h).x.get {} s.ev.y).ahead = st.ahead ++ l ∧ ∀ e, e ∈ l ↔ ∃ j a, (liveLanes s h).getLsbD j = true
                  ∧ access s h j st.space (streamAddr st (st.pos + i) j) (2 ^ st.width) .load = .ok a
                  ∧ e = (st.pos + i, j, (.ofNat 64 (readNow s h (reach s h j st.space (streamAddr st (st.pos + i) j) (2 ^ st.width) .load a)) : DWord)))
          ∧ (¬ (st.pos + i < st.count ∧ calm ∧ may (st.pos + i)) → exec .streamReadAhead s = .next s))
       ∧ ((∀ i, i < 4 → ∃ q ∈ st.ahead, q.1 = st.pos + i) → exec .streamReadAhead s = .next s))

/-- VARIABLE_LATENCY_WRITEBACK: a result that is complete is written to its registers, in the lanes that it still holds, and is pending no longer: a
load's pieces give the bytes found near, or else the bytes that their homes or other modules answer, to vector registers, a uniform register or a
stream register; while pieces of a load still lack bytes, those that arrived stay with it; a load waits while a port that it needs is shut
or a right is on its way, and one whose request the module refuses loses it. Every other register keeps its value, and no byte
of memory changes, but that the stores of a bound destination enter the buffer or the scratchpad. A group that is stopped may then have its
stop recorded.
Where the spec leaves a point open, this follows the model's choice, log 32. -/
def Obligations.ResultsArrive : Prop :=
  (
    ∀ (s : State) (q : Pend),
      let g := s.ev.x
      let gone := fun (t : State) => ∀ r, r ∈ (grp t g).pend ↔ r ∈ (grp s g).pend ∧ r.id ≠ q.id
      let Ends := fun (t : State) => SameBytes s t ∧ (∀ h, h ≠ g → grp t h = grp s h) ∧ gone t
      let Arrives := fun (t : State) => exec .variableLatencyWriteback s = .next (tryRecord g t)
      let WritesV := fun (vals : List (Nat × Nat × Word)) (t : State) => ∀ l n, l < 32 → n < 256 → vGet t g l n =
        if q.lanes.getLsbD l = true then lastOf n (vGet s g l n) ((vals.filter (fun z => z.1 == l)).map Prod.snd) else vGet s g l n
      let WritesP := fun (pd : Nat) (preds : List (Nat × Bool)) (t : State) => ∀ l n, l < 32 → 0 < n → pGet t g l n =
        if n = pd ∧ q.lanes.getLsbD l = true then lastOf l (pGet s g l n) preds else pGet s g l n
      (grp s g).pend.find? (fun r => r.id == s.ev.y) = some q →
      (∀ vals stores, q.kind = .values vals stores → s.Canonical → (∀ z ∈ vals, z.2.1 < 256) →
          ∃ t, Arrives t ∧ Stored g (asStores stores) s t ∧ (∀ h, h ≠ g → KeepsV h s t ∧ KeepsP h s t ∧ KeepsK h [] s t)
            ∧ KeepsP g s t ∧ KeepsK g [] s t ∧ t.tokens = s.tokens ∧ gone t ∧ WritesV vals t)
      ∧ (∀ vals, q.kind = .values vals [] → (∀ z ∈ vals, z.2.1 < 256) →
          ∃ t, Arrives t ∧ Ends t ∧ KeepsP g s t ∧ KeepsK g [] s t ∧ (grp t g).x = (grp s g).x ∧ WritesV vals t)
      ∧ (∀ k v preds pd, q.kind = .uniform k v preds pd →
          ∃ t, Arrives t ∧ Ends t ∧ KeepsV g s t ∧ (∀ n, kGet t g n = if n = k ∧ q.lanes ≠ 0 then v.getD (kGet s g n) else kGet s g n) ∧ WritesP pd preds t)
      ∧ (∀ vals preds pd left, q.kind = .atomic vals preds pd left → (∀ z ∈ vals, z.2.1 < 256) →
          (left = 0 → ∃ t, Arrives t ∧ Ends t ∧ KeepsK g [] s t ∧ WritesV vals t ∧ WritesP pd preds t)
          ∧ (left ≠ 0 → exec .variableLatencyWriteback s = .next s))
      ∧ (∀ ps, q.kind = .load ps → readHeld s g ps = true → exec .variableLatencyWriteback s = .next s)
      ∧ (∀ ps r, q.kind = .load ps → readHeld s g ps = false → refusedReq s g q.id ps = some r → exec .variableLatencyWriteback s = .next (loseRequest r.1 r.2 s))
      ∧ (∀ ps, q.kind = .load ps → readHeld s g ps = false → refusedReq s g q.id ps = none →
          let sel := fun (x : Piece) => s.ev.nums.isEmpty || s.ev.nums.contains (x.lane + 32 * x.part)
          let far := farData s g ((lacking ps).filter sel)
          let filled := ps.map (fun x => if x.got.all Option.isSome || !sel x then x else fillPiece s g far x)
          let whole := lacking filled = []
          (¬ whole → ∃ t, exec .variableLatencyWriteback s = .next t ∧ SameBytes s t ∧ (∀ h, h ≠ g → grp t h = grp s h) ∧ KeepsV g s t ∧ KeepsP g s t
              ∧ KeepsK g [] s t ∧ (grp t g).pend = (grp s g).pend.map (fun r => if r.id = q.id then { r with kind := .load filled } else r))
          ∧ (whole → (∀ x ∈ ps, ∃ n, x.reg = .v n ∧ n < 256) → ∃ t, Arrives t ∧ Ends t ∧ KeepsP g s t ∧ KeepsK g [] s t ∧ (grp t g).x = (grp s g).x
              ∧ WritesV (filled.filterMap (fun x => match x.reg with
                  | .v m => some (x.lane, m, (.ofNat 32 (pieceValue x) : Word))
                  | _ => none)) t)
          ∧ (∀ x n, whole → ps = [x] → x.reg = .k n → ∃ t, Arrives t ∧ Ends t ∧ KeepsV g s t ∧ KeepsP g s t
              ∧ ∀ m, kGet t g m = if m = n ∧ q.lanes ≠ 0 then .ofNat 64 (pieceValue (filled.headD x)) else kGet s g m)
          ∧ (∀ n, whole → (∀ x ∈ ps, x.reg = .x n) → (∃ x ∈ ps, x.part = 0) → ∃ t, Arrives t ∧ Ends t ∧ KeepsV g s t ∧ KeepsP g s t ∧ KeepsK g [] s t
              ∧ ∀ m, (grp t g).x.get {} m = if m = n ∧ q.lanes ≠ 0 then
                  (let b := fun (o w : Nat) => leNat (((pieceBytes filled).drop o).take w)
                   { base := .ofNat 64 (b 0 8), stride := .ofNat 32 (b 8 4), count := b 0xC 4, pos := b 0x10 4, modulo := b 0x14 4,
                     space := b 0x18 1 / 4 % 4, width := b 0x18 1 % 4 })
                else (grp s g).x.get {} m)))
  ∧ (
    ∀ s : State,
      ((grp s s.ev.x).pend.find? (fun r => r.id == s.ev.y) = none → exec .variableLatencyWriteback s = .next s)
        ∧ ∀ g, (grp s g).stops = [] → tryRecord g s = s)

/-! ### Coherence -/

/-- Write-throughs: an entry of the buffer that times out leaves as a message and its core's groups go on reading its bytes; a message is applied at its
home in the order sent and after older loads of its bytes, and the host is asked for a line that it caches before the write applies; a message to a
register page puts the stores of its registers on the agenda; a write to another module is acknowledged with that module's time, no earlier
than the end of the leases held here; a request that the module itself refuses by R447 is lost. While the port that it needs is shut nothing
applies.
Requests that leave the module: one with no answer within 20 µs, or refused, stops the group whose load waits for it, with class 0x06 and the request's
guest-physical address, over the lanes whose bytes it was to bring, the others being done; a lost write is kept for the next fence of every group that wrote it; before 20 µs nothing happens but that a
write's destination is known to be silent, and nothing while a die's reset drains it.
Where the spec leaves a point open, this follows the model's choice, log 22, 38, 39, 96. -/
def Obligations.WriteThroughsAndLostOnes : Prop :=
  (
    ∀ s : State,
      (∀ e, (Machine.core s s.ev.x).wcb.filter (fun x => x.line == s.ev.y) = [e] →
        ∃ t, ∃ m : Msg, exec .wcbDrainTimeout s = .next t ∧ SameBytes s t ∧ RegsKept 0 [] s t ∧ t.net.msgs = s.net.msgs ++ [m] ∧ m.line = e.line ∧ m.bytes = e.bytes
          ∧ m.gids = e.gids ∧ m.core = s.ev.x ∧ m.sent = s.time ∧ m.first = e.first
          ∧ (Machine.core t s.ev.x).wcb = (Machine.core s s.ev.x).wcb.filter (fun x => x.line != s.ev.y)
          ∧ ∀ g, (grp s g).core = s.ev.x → ∀ key, near t g key = near s g key)
      ∧ (∀ m, s.net.msgs.find? (fun x => x.id == s.ev.x) = some m →
          let held := s.marks.held.any (fun h => h.msg == m.id)
          let may := m.refused = false ∧ portShut s m.line = false ∧ firstMsg s m = some m ∧ held = false ∧ readFirst s m = false
          (¬ may → exec .writeThroughApply s = .next s)
          ∧ (may → isReg m.line = true → s.ev.flag = false → s.marks.hostLines.contains m.line = false → ∃ t, exec .writeThroughApply s = .next t
              ∧ SameBytes s t ∧ RegsKept 0 [] s t ∧ t.net.msgs = s.net.msgs.filter (fun x => x.id != m.id) ∧ t.agenda = (regLine m.line m.bytes s).agenda
              ∧ ∀ g ∈ m.gids, (grp t g).largestW = max (grp s g).largestW (gtime s (lineHome m.line)))
          ∧ (may → isFar m.line = false → isReg m.line = false → s.Canonical → (∀ q ∈ m.bytes, q.1 < 128) →
              (s.marks.hostLines.contains m.line = false → ∃ t, exec .writeThroughApply s = .next t
                ∧ Applied m (if s.ev.flag then max (lineSt s m.line).h (gtime s (lineHome m.line) + 131072) else (lineSt s m.line).h) s t)
              ∧ (s.marks.hostLines.contains m.line = true → ∃ t, exec .writeThroughApply s = .next t ∧ SameBytes s t ∧ t.net = s.net ∧ t.groups = s.groups
                ∧ t.marks.held = s.marks.held ++ [⟨m.line, m.id⟩] ∧ t.marks.asked.contains m.line = true
                ∧ t.host.out = if s.marks.asked.contains m.line then s.host.out else s.host.out ++ [.backInvalidate m.line]))
          ∧ (may → isFar m.line = true → s.marks.hostLines.contains (msgLine s m) = false → m.bytes ≠ [] →
              ((farPlace (m.line * 128)).1 ≠ s.host.module → ownRefusal s m = none → ∃ t, exec .writeThroughApply s = .next t ∧ SameBytes s t ∧ RegsKept 0 [] s t
                ∧ t.net.msgs = s.net.msgs.filter (fun x => x.id != m.id)
                ∧ ∀ g ∈ m.gids, (grp t g).largestW
                    = max (grp s g).largestW (max (max (gtime s 0) (heldExpiry s m.line)) (min s.ev.y (farBound s 0))))
              ∧ ∀ code, ownRefusal s m = some code → code ≠ 0 → exec .writeThroughApply s = .next (loseRequest m.id code s)))
      ∧ (∀ f w, s.net.msgs.all (fun m => m.id != s.ev.x) = true → s.net.far.find? (fun f => f.id == s.ev.x) = some f → f.refused = false → f.write = some w →
          (∀ m, f.module = some m → ownPlace s f.part m f.gpa .engineWrite = none) → linkOpen s = true → f.cmd = none →
          ∃ t, exec .writeThroughApply s = .next t ∧ SameBytes s t ∧ RegsKept 0 [] s t ∧ t.net.far = s.net.far.filter (fun x => x.id != f.id)
            ∧ (grp t f.gid).largestW = max (grp s f.gid).largestW
                (max (max (gtime s 0) (heldExpiry s (lineOf (farKey f.part (f.module.getD 0) f.gpa)))) (min s.ev.y (farBound s 0))))
      ∧ (s.Canonical → ∀ h m, s.marks.held.filter (fun h => h.line == s.ev.x) = [h] → s.net.msgs.find? (fun m => m.id == h.msg) = some m → m.line = s.ev.x →
          isFar m.line = false → isReg m.line = false → (∀ q ∈ m.bytes, q.1 < 128) →
          ∃ t, exec .backInvalidateAnswer s = .next t ∧ Applied m (lineSt s m.line).h s t ∧ t.marks.hostLines = s.marks.hostLines.filter (fun x => x != s.ev.x)
            ∧ t.marks.asked = s.marks.asked.filter (fun x => x != s.ev.x) ∧ t.marks.held.all (fun h => h.line != s.ev.x) = true))
  ∧ (
    ∀ (s : State) (i : Instr) (code : Nat),
      let late := fun (sent : Nat) => i = .requestUnreachable ∧ code = 9 ∧ heldUp s s.ev.x = false ∧ sent + 20000 ≤ s.time
      let refused := fun (host : Prop) => i = .remoteRefusalResponse ∧ code = s.ev.y ∧ (host ∧ hostOpen s = true ∧ code = 0xC ∨ ¬ host ∧ linkOpen s = true ∧ (code = 8 ∨ code = 0xB))
      (heldUp s s.ev.x = true → exec .requestUnreachable s = .next s)
      ∧ (∀ f, s.net.far.find? (fun x => x.id == s.ev.x) = some f → s.net.msgs.all (fun m => m.id != s.ev.x) = true → f.refused = false → f.cmd = none →
          (s.time < f.sent + 20000 → exec .requestUnreachable s = .next s)
          ∧ (late f.sent ∨ refused (f.module = none) →
            (∀ n p, f.pend = some n → (grp s f.gid).pend.find? (fun x => x.id == n) = some p →
                (∀ st ∈ (grp s f.gid).stops, st.lateOf = some p.id → st.recorded = true) →
                let lost := lostLanes p f
                ∃ t st, exec i s = .next t ∧ st ∈ (grp t f.gid).stops ∧ st.late = some (p.part s.ids.msg lost) ∧ st.lateOf = some p.id ∧ st.fr.cls = 6 ∧ st.fr.code = code ∧ st.fr.pc = p.pc
                  ∧ st.fr.detail = .ofNat 64 f.gpa ∧ st.fr.faulted = lost ∧ st.fr.part = p.lanes ∧ st.fr.done = p.lanes &&& ~~~lost
                  ∧ (∀ x ∈ (grp t f.gid).pend, x.id = p.id → x.lanes = p.lanes &&& ~~~lost ∧ x.lanes ≠ 0) ∧ RegsKept 0 [] s t)
            ∧ (f.pend = none → ∃ t, exec i s = .next t ∧ SameBytes s t ∧ RegsKept 0 [] s t
                ∧ (grp t f.gid).lost = (grp s f.gid).lost ++ [(s.ev.x, code, .ofNat 64 f.va)])))
      ∧ ∀ m, s.net.msgs.find? (fun m => m.id == s.ev.x) = some m → s.net.far.all (fun f => f.id != s.ev.x) = true → m.refused = false → leaves m.line = true →
          m.core ≠ walkerCore →
          (s.time < m.sent + 20000 → heldUp s s.ev.x = false → s.ev.flag = true → ∃ t, exec .requestUnreachable s = .next t ∧ t = { s with net := t.net }
              ∧ t.net = { s.net with msgs := t.net.msgs } ∧ t.net.msgs.find? (fun m => m.id == s.ev.x) = some { m with silent := true })
          ∧ (late m.sent ∨ refused (∃ x ∈ s.net.msgs, x.id = s.ev.x ∧ lineTier x.line = 3) → ∃ t, exec i s = .next t ∧ SameBytes s t ∧ RegsKept 0 [] s t
              ∧ (∃ x ∈ t.net.msgs, x = { m with refused := true }) ∧ ∀ g ∈ m.gids, (s.ev.x, code, .ofNat 64 m.va) ∈ (grp t g).lost))

/-- Copies and the host's accesses: a line fill gives a copy of the line with a lease, which raises the line's horizon, through the die's L2 where the home
lies elsewhere, and none where no lease is given; a usable L2 copy serves the L1; a line of another module comes with its bytes; a copy lapses when it is
no longer usable; a snoop is answered once every lease has ended; a host read and a host write act at the home.
Where the spec leaves a point open, this follows the model's choice, log 26, 36, 37, 38. -/
def Obligations.CopiesAndHost : Prop :=
  ∀ s : State,
    (let c := s.ev.x
     let p := s.ev.y
     let d := coreDie c
     let va := s.ev.word.toNat / 128 * 128
     let via := fun (line : Nat) => passesL2 d line
     let l1 := fun (x : Copy) => putCopy Config.l1Lines (copyMerge x (ownBytes s c x.line)) (Machine.core s c).l1
     ((clus s (coreClus c)).holder ≠ some p → exec .lineFill s = .next s)
     ∧ ((clus s (coreClus c)).holder = some p → ∀ h key, translate s p c va 1 .load = .ok h → memKey p h.loc = some key → isReg (lineOf key) = false →
        let line := lineOf key
        let old := if s.ev.flag = true ∨ s.ev.z ≠ 0 ∨ via line = false then none else copyOf s d line 0 (die s d).l2
        (∀ x, old = some x → ∃ t, exec .lineFill s = .next t ∧ SameBytes s t ∧ t.groups = s.groups ∧ t.lines = s.lines
          ∧ (Machine.core t c).l1 = l1 x ∧ (die t d).l2 = (die s d).l2)
        ∧ (old = none → s.ev.flag = true → via line = false → exec .lineFill s = .next s)
        ∧ (old = none → (s.ev.flag = true → via line = true) →
            let Comes := fun (t : State) (cp : Copy) => exec .lineFill s = .next t ∧ SameBytes s t ∧ t.groups = s.groups ∧ cp.line = line ∧ cp.made = s.time
              ∧ (Machine.core t c).l1 = (if s.ev.flag then (Machine.core s c).l1 else l1 cp)
              ∧ (die t d).l2 = (if s.ev.flag ∨ via line = true then putCopy Config.l2Lines cp (die s d).l2 else (die s d).l2)
            (isFar line = false →
              let lost := (List.range 128).any (fun i => isPoison s (line * 128 + i))
              (lost = true ∨ leaseOf s p va h.home = none → exec .lineFill s = .next s)
              ∧ ∀ lease, portShut s line = false → lost = false → leaseOf s p va h.home = some lease → ∃ t cp, Comes t cp ∧ cp.c = (lineSt s line).c
                  ∧ cp.expiry = gtime s (lineHome line) + lease ∧ cp.bytes = lineBytes s d line (fun i => cellGet s.mem (line * 128 + i))
                  ∧ lineSt t line = { lineSt s line with h := max (lineSt s line).h cp.expiry })
            ∧ (isFar line = true → linkOpen s = true → ownPlace s p (farPlace (line * 128)).1 (farPlace (line * 128)).2 .load = none → s.ev.data.length = 128 → ∃ t cp, Comes t cp ∧ cp.expiry ≤ farBound s d
                ∧ cp.bytes = lineBytes s d line (fun i => s.ev.data.getD i 0)))))
    ∧ (∃ t, exec .copyLeaseLapse s = .next t ∧ SameBytes s t ∧ t.groups = s.groups
        ∧ (let d := coreDie s.ev.x
           let keep := fun (x : Copy) => x.line != s.ev.y || usable s d x
           (Machine.core t s.ev.x).l1 = (if s.ev.flag then (Machine.core s s.ev.x).l1 else (Machine.core s s.ev.x).l1.filter keep)
            ∧ (die t d).l2 = (if s.ev.flag then (die s d).l2.filter keep else (die s d).l2)))
    ∧ (lineTier s.ev.x = 3 → (lineSt s s.ev.x).h + 20 < gtime s 0 → ∃ t, exec .hostSnoop s = .next t ∧ t = { s with host := t.host }
        ∧ t.host.out = s.host.out ++ [.snoopDone s.ev.x])
    ∧ (gtime s 0 ≤ (lineSt s s.ev.x).h + 20 → exec .hostSnoop s = .next s)
    ∧ ∀ p, vfServes s s.ev.x = some p →
      ((part s p).erased = true → ∃ t, exec .cxlMemRead s = .next t ∧ t = { s with host := t.host }
          ∧ t.host.out = s.host.out ++ [.readData (List.replicate s.ev.y 0xFF) true])
      ∧ ((part s p).erased = false → ∀ keys : Nat → Nat, (∀ i, i < s.ev.y → ∃ va, cxlByte s s.ev.x p (s.ev.word.toNat + i) .load = some (va, .cell (keys i))) →
          ∃ t, exec .cxlMemRead s = .next t ∧ SameBytes s t ∧ t.groups = s.groups
            ∧ t.host.out = s.host.out ++ [.readData ((List.range s.ev.y).map (fun i => cellGet s.mem (keys i))) ((List.range s.ev.y).any (fun i => isPoison s (keys i)))]
            ∧ (s.ev.flag = true → ∀ i, i < s.ev.y → lineOf (keys i) ∈ t.marks.hostLines) ∧ (s.ev.flag = false → t.marks = s.marks))
      ∧ (s.Canonical → (part s p).erased = false → ∀ keys : Nat → Nat,
          (∀ i, i < s.ev.data.length → isFar (lineOf (keys i)) = false
            ∧ ∃ va, cxlByte s s.ev.x p (s.ev.word.toNat + i) .store = some (va, .cell (keys i))) →
          ∃ t, exec .cxlMemWrite s = .next t ∧ t.groups = s.groups ∧ (∀ i, (team t i).pad = (team s i).pad)
            ∧ ∀ key, cellGet t.mem key = lastOf key (cellGet s.mem key) ((List.range s.ev.data.length).map (fun i => (keys i, s.ev.data.getD i 0))))

/-! ### Fences and barriers -/

/-- `fence`: the group's buffer entries have left; a fence that its accesses already meet lets its lanes go on and raises the group's fill floors, else the lanes
wait at it, and FENCE_COMPLETE lets them go on once the scope's conditions hold and its bound has passed, and does nothing before that.
Where the spec leaves a point open, this follows the model's choice, log 26, 40. -/
def Obligations.Fences : Prop :=
  ∀ s : State,
    (∀ f, ready (.fence f) [] s.cur.lanes s = true → waitsOld s → (f.scope.toNat < 3 ∨ (grp s s.cur.gid).lost = []) →
      let g := s.cur.gid
      let u := drainGroup g s
      ∃ t, exec (.fence f) s = .next t ∧ SameBytes s t ∧ RegsKept 0 [] s t ∧ (∀ e ∈ (Machine.core t (grp s g).core).wcb, g ∉ e.gids)
        ∧ (fenceNow u g f.scope.toNat = true → MovesOn s.cur s t ∧ (grp t g).waits = (grp s g).waits
            ∧ (3 ≤ f.scope.toNat → (grp t g).floorL1 = max (grp s g).floorL1 (s.time + 1) ∧ (grp t g).floorL2 = max (grp s g).floorL2 (s.time + 1))
            ∧ (f.scope.toNat < 3 → (grp t g).floorL1 = (grp s g).floorL1 ∧ (grp t g).floorL2 = (grp s g).floorL2))
        ∧ (fenceNow u g f.scope.toNat = false → WaitsOn (fun k => ∃ b n, k = .fence f.scope.toNat b n .nothing) s t))
    ∧ ∀ w scope begun bound, (grp s s.ev.x).waits.find? (fun w => w.id == s.ev.y) = some w → (grp s s.ev.x).stall = none → (grp s s.ev.x).lost = [] →
        w.kind = .fence scope begun bound .nothing →
        let g := s.ev.x
        let first : Option (Nat × Nat) := match begun with
          | some b => some (b, bound)
          | none => if fenceFirst s g scope w.id then some (s.time, fenceBound s g scope) else none
        (first = none → exec .fenceComplete s = .next s)
        ∧ ∀ b n, first = some (b, n) →
          (scope < 3 ∨ n < gtime s (grpDie s g) → ∃ t, exec .fenceComplete s = .next t ∧ SameBytes s t ∧ RegsKept 0 [] s t ∧ PassedWait g w s t
              ∧ (grp t g).waits = (grp s g).waits.filter (fun x => x.id != w.id)
              ∧ (3 ≤ scope → (grp t g).floorL1 = max (grp s g).floorL1 (b + 1) ∧ (grp t g).floorL2 = max (grp s g).floorL2 (b + 1)))
          ∧ (3 ≤ scope → gtime s (grpDie s g) ≤ n → ∃ t, exec .fenceComplete s = .next t ∧ SameBytes s t ∧ RegsKept 0 [] s t
              ∧ ∃ x ∈ (grp t g).waits, x.id = w.id ∧ x.lanes = w.lanes ∧ x.kind = .fence scope (some b) n .nothing)

/-- Team, gang and role barriers: an arrival, after its fence, is counted; the last one completes the phase, of which every waiter learns, to go on in its
next slice cycle; `arrive` does not wait; an arrival whose fence is not yet met waits for it first; a count that is 0, above 4095 or not the phase's stops with code 0x16.
The package barrier: after its fence an arrival leaves as a request for its word, and its lanes wait; ATOMIC_APPLY counts it in the word's low half, and the
last one advances the generation in its high half; a word that reads 0xFFFFFFFF below releases it with the report 0x81; PKG_BARRIER_RELEASE lets the lanes
go on with their generation in kd once the word's generation is another.
Where the spec leaves a point open, this follows the model's choice, log 42. -/
def Obligations.Barriers : Prop :=
  (
    ∀ (s : State) (i : Instr) (f : FF),
      let g := s.cur.gid
      let u := drainGroup g s
      waitsOld s → (grp s g).lost = [] →
      (∀ gang sync, (i = .barSync f ∧ gang = false ∧ sync = true) ∨ (i = .barArrive f ∧ gang = false ∧ sync = false)
          ∨ (i = .barGangSync f ∧ gang = true ∧ sync = true) ∨ (i = .barGangArrive f ∧ gang = true ∧ sync = false) →
        ready i [] s.cur.lanes s = true →
        let n := barCount s f
        let b := barOf s g gang f.id.toNat
        (n = 0 ∨ 4095 < n ∨ (b.count ≠ 0 ∧ b.expected ≠ n) → exec i s = .next (raise s.cur 1 0x16 0 s.cur.lanes s.cur.lanes 0 false s))
        ∧ (0 < n → n ≤ 4095 → (b.count = 0 ∨ b.expected = n) →
        ∃ t, exec i s = .next t ∧ SameBytes s t ∧ RegsKept 0 [] s t
          ∧ (fenceNow u g f.scope.toNat = false → WaitsOn (fun k => ∃ x y, k = .fence f.scope.toNat x y (.bar gang f.id.toNat n sync)) s t
              ∧ barOf t g gang f.id.toNat = b)
          ∧ (fenceNow u g f.scope.toNat = true → b.count + 1 = n → MovesOn s.cur s t ∧ (barOf t g gang f.id.toNat).count = 0
              ∧ (barOf t g gang f.id.toNat).phase = b.phase + 1
              ∧ (∀ w ∈ (grp t g).waits, ∃ x ∈ (grp s g).waits, w = x ∨ x.kind = .bar gang f.id.toNat b.phase ∧ ∃ a, w = { x with kind := .passed 9 a })
              ∧ ∀ h ∈ barGroups s g gang, (∀ w ∈ (grp t h).waits, w.kind ≠ .bar gang f.id.toNat b.phase)
                  ∧ ∀ x ∈ (grp s h).waits, x.kind = .bar gang f.id.toNat b.phase → ∃ a, { x with kind := .passed 9 a } ∈ (grp t h).waits)
          ∧ (fenceNow u g f.scope.toNat = true → b.count + 1 ≠ n → barOf t g gang f.id.toNat = { b with count := b.count + 1, expected := n }
              ∧ (sync = false → MovesOn s.cur s t ∧ (grp t g).waits = (grp s g).waits)
              ∧ (sync = true → WaitsOn (fun k => k = .bar gang f.id.toNat b.phase) s t))))
      ∧ (i = .barRole f → ready i [] s.cur.lanes s = true →
          let tm := (grp s g).team
          let c := (grp s g).consumer
          let key := bit c * 4 + f.id.toNat
          let b := (team s tm).roleBars.get {} key
          ∃ t, exec i s = .next t ∧ SameBytes s t ∧ RegsKept 0 [] s t
            ∧ (fenceNow u g 1 = false → WaitsOn (fun k => ∃ x y, k = .fence 1 x y (.role f.id.toNat)) s t)
            ∧ (fenceNow u g 1 = true → s.cur.lanes ≠ 0 → (grp s g).exited = false → b.count + Mask.count s.cur.lanes = roleLanes s tm c →
                (∃ w ∈ (grp t g).waits, w.lanes = s.cur.lanes ∧ w.pc = s.cur.pc ∧ ∃ a, w.kind = .passed 10 a)
                ∧ ((team t tm).roleBars.get {} key).count = 0 ∧ ((team t tm).roleBars.get {} key).phase = b.phase + 1
                ∧ ∀ h ∈ liveGroups s tm, (grp s h).consumer = c → (∀ w ∈ (grp t h).waits, w.kind ≠ .role f.id.toNat b.phase)
                    ∧ ∀ x ∈ (grp s h).waits, x.kind = .role f.id.toNat b.phase → ∃ a, { x with kind := .passed 10 a } ∈ (grp t h).waits)
            ∧ (fenceNow u g 1 = true → b.count + Mask.count s.cur.lanes ≠ roleLanes s tm c →
                WaitsOn (fun k => k = .role f.id.toNat b.phase) s t
                ∧ ((team t tm).roleBars.get {} key) = { b with count := b.count + Mask.count s.cur.lanes })))
  ∧ (
    ∀ (s : State) (g : Nat), (grp s g).waits.Pairwise (fun a b => a.id ≠ b.id ∧ a.lanes &&& b.lanes = 0) →
      let t := endPassed g s
      let learned := fun (w : LWait) => ∃ k a, w.kind = .passed k a
      SameBytes s t ∧ RegsKept 0 [] s t ∧ (∀ h, h ≠ g → grp t h = grp s h) ∧ (∀ w, w ∈ (grp t g).waits ↔ w ∈ (grp s g).waits ∧ ¬ learned w)
        ∧ ∀ w ∈ (grp s g).waits, learned w → PassedWait g w s t)
  ∧ (
    ∀ s : State,
      (∀ f h, ready (.barPkg f) [] s.cur.lanes s = true → waitsOld s → (grp s s.cur.gid).lost = [] →
        let g := s.cur.gid
        let n := bits (kRead s f.b.toNat) 31 0
        let va := (kRead s f.a.toNat).toNat
        n ≠ 0 → (launch s (team s (grp s g).team).launch).record.coRes = true → access s g (lowest s.cur.lanes) 3 va 8 .atomic = .ok h →
        ∃ t, exec (.barPkg f) s = .next t ∧ SameBytes s t ∧ RegsKept 0 [] s t
          ∧ (fenceNow (drainGroup g s) g 5 = false → WaitsOn (fun k => ∃ x y, k = .fence 5 x y (.pkg f.d.toNat h.loc va n)) s t ∧ t.net.atoms = s.net.atoms)
          ∧ (fenceNow (drainGroup g s) g 5 = true → WaitsOn (fun k => k = .pkg f.d.toNat h.loc (2 ^ 32) none) s t
              ∧ ∃ a, t.net.atoms = s.net.atoms ++ [a] ∧ a.gid = g ∧ a.op = pkgOp ∧ a.loc = h.loc ∧ a.width = 8 ∧ a.lanes = [⟨0, .ofNat 64 n, 0⟩]))
      ∧ (s.Canonical → ∀ a key w k l n0 e0, s.net.atoms.find? (fun a => a.id == s.ev.x) = some a → a.refused = false → a.op = pkgOp → a.loc = .cell key →
          a.width = 8 → a.lanes.length = 1 →
          atomBehind s a = false → portShut s (lineOf key) = false → atomEarly s a.part a.va (lineHome (lineOf key)) = false → s.marks.hostLines.contains (lineOf key) = false → (grp s a.gid).waits.find? (fun w => some w.id == a.wait_) = some w →
          w.kind = .pkg k l n0 e0 →
          let old := leNat (cellBytes s.mem key 8)
          let gen := old / 2 ^ 32
          ∃ t, exec .atomicApply s = .next t ∧ t.net.atoms = s.net.atoms.filter (fun b => b.id != a.id)
            ∧ (∀ j, j < key ∨ key + 8 ≤ j → cellGet t.mem j = cellGet s.mem j)
            ∧ (old % 2 ^ 32 = 0xFFFFFFFF → t.mem = s.mem ∧ PassedWait a.gid w s t ∧ ((grp s a.gid).loop.all (fun x => x.k != k) = true →
                kGet t a.gid k = .ofNat 64 (gen * 2 ^ 32 + s.map.version % 2 ^ 24 * 256 + 0x81)))
            ∧ (old % 2 ^ 32 ≠ 0xFFFFFFFF → ((a.lanes.head?.map (fun x => x.operand.toNat)).getD 1 = old % 2 ^ 32 + 1 →
                  leNat (cellBytes t.mem key 8) = (gen + 1) % 2 ^ 32 * 2 ^ 32)
                ∧ ((a.lanes.head?.map (fun x => x.operand.toNat)).getD 1 ≠ old % 2 ^ 32 + 1 → leNat (cellBytes t.mem key 8) = gen * 2 ^ 32 + (old % 2 ^ 32 + 1))
                ∧ ∃ x ∈ (grp t a.gid).waits, x.id = w.id ∧ x.lanes = w.lanes ∧ ∃ e, x.kind = .pkg k (.cell key) gen e))
      ∧ ∀ w k key gen ended, (grp s s.ev.x).waits.find? (fun w => w.id == s.ev.y) = some w → w.kind = .pkg k (.cell key) gen ended →
          (pkgWord s (.cell key) / 2 ^ 32 = gen → exec .pkgBarrierRelease s = .next s)
          ∧ (gen < 2 ^ 32 → pkgWord s (.cell key) / 2 ^ 32 ≠ gen →
              ∃ t, exec .pkgBarrierRelease s = .next t ∧ SameBytes s t ∧ RegsKept s.ev.x [k] s t ∧ PassedWait s.ev.x w s t
                ∧ ((grp s s.ev.x).loop.all (fun x => x.k != k) = true → kGet t s.ev.x k = .ofNat 64 (gen * 2 ^ 32))
                ∧ (grp t s.ev.x).waits = (grp s s.ev.x).waits.filter (fun x => x.id != w.id)))

/-! ### Atomics -/

/-- Atomic words (`atomAdd`, `atomMin`, `atomMax`, `atomAnd`, `atomOr`, `atomXor`, `atomExch`, `atomCas`, `atomLd`, `atomSt`, `redAdd`, `redMin`, `redMax`,
`redAnd`, `redOr`, `redXor`): each word of a scratchpad that the lanes name holds the operation's result over them in ascending order, and its other bytes are as they
were; for each other word one combined request leaves; a returning form leaves one pending write that holds what was found in a scratchpad. -/
def Obligations.AtomicWords : Prop :=
  ∀ (s : State) (i : Instr) (f : FM) (op : Nat) (ret : Bool) (pd : Nat), atomKind i = some (f, op, ret, pd) → s.Canonical → ready i [] (active s) s = true →
    let g := s.cur.gid
    let w := tyBits f.ty
    let n := w / 8
    let rs := laneAccess s f n .atomic
    allPermitted rs = true →
    let ws := byWord (permitted rs)
    let run := fun (p : Loc × List Nat) (old : Nat) => atomRun f.ty.toNat op (atomLanes s f op ret p.2) old
    let cleared := fun (l : Nat) => s.cur.ext.zero = true ∧ ret = true ∧ s.cur.lanes.getLsbD l = true ∧ (active s).getLsbD l = false
    ∃ t, exec i s = .next t ∧ t.mem = s.mem ∧ t.tokens = s.tokens ∧ (∀ h, h ≠ g → grp t h = grp s h) ∧ KeepsK g [] s t ∧ MovesOn s.cur s t
      ∧ StreamsKept g s t
      ∧ ((∀ q ∈ regsOf f.data.toNat w 0, q.1 < 256) → ∀ l r, l < 32 → r < 256 →
          (cleared l ∧ r ∈ (regsOf f.data.toNat w 0).map Prod.fst → vGet t g l r = 0)
          ∧ (¬ (cleared l ∧ r ∈ (regsOf f.data.toNat w 0).map Prod.fst) → vGet t g l r = vGet s g l r))
      ∧ (∀ l r, l < 32 → 0 < r → (cleared l ∧ op = 7 ∧ r = pd → pGet t g l r = false) ∧ (¬ (cleared l ∧ op = 7 ∧ r = pd) → pGet t g l r = pGet s g l r))
      ∧ (∀ p ∈ ws, ∀ j o, p.1 = .pad j o → leNat (padBytes t j o n) = (run p (leNat (padBytes s j o n))).2 % 256 ^ n)
      ∧ (∀ j o, (∀ p ∈ ws, ∀ o2, p.1 = .pad j o2 → o < o2 ∨ o2 + n ≤ o) → cellGet (team t j).pad o = cellGet (team s j).pad o)
      ∧ (∃ l, t.net.atoms = s.net.atoms ++ l
          ∧ l.map (fun (a : Atom) => (a.loc, a.lanes)) = (ws.filter (fun p => !inPad p)).map (fun p => (p.1, atomLanes s f op ret p.2))
          ∧ ∀ (a : Atom), a ∈ l → a.gid = g ∧ a.op = op ∧ a.ty = f.ty.toNat ∧ a.width = n ∧ a.pend = if ret then some s.ids.msg else none)
      ∧ (ret = false ∨ active s = 0 → (grp t g).pend = (grp s g).pend)
      ∧ (ret = true → active s ≠ 0 → ∃ q vals preds, (grp t g).pend = (grp s g).pend ++ [q] ∧ q.id = s.ids.msg ∧ q.lanes = active s
          ∧ q.kind = .atomic vals preds pd (ws.filter (fun p => !inPad p)).length
          ∧ ∀ p ∈ ws, ∀ j o, p.1 = .pad j o →
              let o := atomOuts op w f.data.toNat (run p (leNat (padBytes s j o n))).1
              (∀ x ∈ o.1, x ∈ vals) ∧ ∀ x ∈ o.2, x ∈ preds)

/-- ATOMIC_APPLY at a word of this module: the word holds the operation's result over the request's lanes, no other byte of memory changes, the line's
completion time and the group's write time are the gtime at the region's service group, the pending write receives what each lane found, and an open window
counts the request; it waits for an older request of its lanes to a byte of the word, for a port that is shut, for a migration, and for the host
to give back the line. For a word of another module the
pending write receives what that module found. ATOMIC_WINDOW_END moves an atomic region to the cluster that sent most of a window's requests,
where a new window starts, or ends the window.
REMOTE_REQUEST does nothing while no port is usable; a partition that does not import its sender refuses, and R447's codes refuse; it waits while a right is on its way; a read answers with the
bytes at their homes and a lease of their line, a write leaves them there, and an atomic answers with the old value and leaves the new one.
Where the spec leaves a point open, this follows the model's choice, log 18, 41. -/
def Obligations.AtomicsAndRemoteRequests : Prop :=
  (
    ∀ s : State,
      (∀ a key, s.net.atoms.find? (fun a => a.id == s.ev.x) = some a → a.loc = .cell key →
        let home := lineHome (lineOf key)
        let tok := tokenAt s a.part a.va home
        let d := ((tok.bind (fun t => groupClus s a.part t.owner)).map clusDie).getD home
        let older := atomBehind s a || portShut s (lineOf key)
        let early := tok.any (fun t => decide (gtime s d < t.notBefore))
        (older = true ∨ a.refused = true ∨ early = true → exec .atomicApply s = .next s)
        ∧ (older = false → a.refused = false → early = false → a.op ≠ 8 → s.marks.hostLines.contains (lineOf key) = true →
            exec .atomicApply s = .next (askBack (lineOf key) s))
        ∧ (older = false → a.refused = false → early = false → a.op ≠ pkgOp → (a.op ≠ 8 → s.marks.hostLines.contains (lineOf key) = false) →
            s.Canonical →
            let r := atomRun a.ty a.op a.lanes (leNat (cellBytes s.mem key a.width))
            ∃ t, exec .atomicApply s = .next t ∧ RegsKept 0 [] s t ∧ (∀ j, (team t j).pad = (team s j).pad)
              ∧ t.net.atoms = s.net.atoms.filter (fun b => b.id != a.id) ∧ (grp t a.gid).largestW = max (grp s a.gid).largestW (gtime s d)
              ∧ (∀ j, j < key ∨ key + a.width ≤ j → cellGet t.mem j = cellGet s.mem j)
              ∧ (a.op ≠ 8 → leNat (cellBytes t.mem key a.width) = r.2 % 256 ^ a.width ∧ (lineSt t (lineOf key)).c = gtime s d)
              ∧ (a.op = 8 → t.mem = s.mem)
              ∧ (∀ k, tok = some k → t.tokens.map (fun x => x.winCount) = s.tokens.map (fun x =>
                  let c := coreClus a.core
                  if x.part = a.part ∧ x.base = k.base ∧ x.winAt.isSome = true ∧ (clus s c).holder = some a.part
                  then x.winCount.put c (x.winCount.get 0 c + 1) else x.winCount))
              ∧ ∀ pid vals preds pd left q, a.pend = some pid → q ∈ (grp s a.gid).pend → q.id = pid → q.kind = .atomic vals preds pd left →
                  let d := (q.regs.findSome? (fun x => match x with | .v n => some n | _ => none)).getD 0
                  let o := atomOuts a.op (8 * a.width) d r.1
                  { q with kind := .atomic (vals ++ o.1) (preds ++ o.2) pd (left - 1) } ∈ (grp t a.gid).pend))
      ∧ (∀ a m gpa, s.net.atoms.find? (fun a => a.id == s.ev.x) = some a → a.loc = .remote m gpa → ownPlace s a.part m gpa .atomic = none → a.refused = false →
          a.op ≠ pkgOp → atomBehind s a = false → linkOpen s = true →
          ∃ t, exec .atomicApply s = .next t ∧ SameBytes s t ∧ RegsKept 0 [] s t ∧ t.net.atoms = s.net.atoms.filter (fun b => b.id != a.id)
            ∧ (grp t a.gid).largestW = max (grp s a.gid).largestW (min s.ev.y (farBound s (coreDie a.core)))
            ∧ ∀ pid vals preds pd left q, a.pend = some pid → q ∈ (grp s a.gid).pend → q.id = pid → q.kind = .atomic vals preds pd left →
                let d := (q.regs.findSome? (fun x => match x with | .v n => some n | _ => none)).getD 0
                let o := atomOuts a.op (8 * a.width) d (a.lanes.zip (s.ev.nums ++ List.replicate 32 0))
                { q with kind := .atomic (vals ++ o.1) (preds ++ o.2) pd (left - 1) } ∈ (grp t a.gid).pend)
      ∧ ∀ k, s.tokens.find? (fun t => t.part == s.ev.x && t.base == s.ev.y) = some k →
          let total := (k.winCount.map Prod.snd).sum
          let takes := fun (q : Nat × Nat) => groupClus s k.part k.owner != some q.1 && decide (total < 2 * q.2) && decide (256 ≤ q.2)
          let due := k.atomic = true ∧ ∃ w, k.winAt = some w ∧ w + 50000 ≤ s.time
          (¬ due → exec .atomicWindowEnd s = .next s)
          ∧ (due → ∃ t, exec .atomicWindowEnd s = .next t ∧ t = { s with tokens := t.tokens, cores := t.cores }
              ∧ (∀ c, Machine.core t c = { Machine.core s c with entries := (Machine.core t c).entries })
              ∧ (k.winCount.find? takes = none → { k with winAt := none, winCount := [] } ∈ t.tokens)
              ∧ ∀ q, k.winCount.find? takes = some q →
                  { k with owner := clusHolder s k.part q.1, notBefore := max k.lastW (gtime s (clusDie q.1)) + 20, winAt := some s.time, winCount := [] } ∈ t.tokens))
  ∧ (
    ∀ s : State, s.Canonical →
      let q := s.ev.z
      linkOpen s = true →
      let imp := (part s q).state = .ready ∧ (s.ev.x, s.ev.y) ∈ (part s q).imports
      let n := s.ev.nums.headD 0
      let atomic := 5 ≤ s.ev.nums.length
      let acc : Acc := if atomic then .atomic else if s.ev.flag then .store else .load
      let places := requestPlaces s q s.ev.x s.ev.word.toNat (if ¬ atomic ∧ s.ev.flag = true then s.ev.data.length else n) acc
      let caches := fun (ps : List (Nat × Loc)) => (ps.flatMap (fun x => x.2.lines)).any (fun l => s.marks.hostLines.contains l)
      let cells := fun (ps : List (Nat × Loc)) (keys : Nat → Nat) => ∀ (i : Nat) (x : Nat × Loc), ps[i]? = some x → x.2 = .cell (keys i)
      (¬ imp → ∃ t, exec .remoteRequest s = .next t ∧ t = { s with host := t.host } ∧ t.host.out = s.host.out ++ [.remoteReply false [] []])
      ∧ (imp → places = .error 0 → exec .remoteRequest s = .next s)
      ∧ (imp → ∀ e, places = .error e → e ≠ 0 →
          ∃ t, exec .remoteRequest s = .next t ∧ t = { s with host := t.host } ∧ t.host.out = s.host.out ++ [.remoteReply false [] []])
      ∧ (imp → acc = .load → ∀ ps keys, places = .ok ps → cells ps keys →
          ∃ t times, exec .remoteRequest s = .next t ∧ SameBytes s t ∧ t.groups = s.groups
            ∧ t.host.out = s.host.out ++ [.remoteReply true ((List.range n).map (fun i => cellGet s.mem (keys i))) times]
            ∧ ∀ va key, 0 < n → ps = (List.range n).map (fun i => (va + i, .cell (key + i))) → lineOf (key + n - 1) = lineOf key →
                times = [(((leaseOf s q va (lineHome (lineOf key))).map (fun l => gtime s (lineHome (lineOf key)) + l)).getD 0, (lineSt s (lineOf key)).c)]
                  ∧ (lineSt t (lineOf key)).h = max (lineSt s (lineOf key)).h (times.headD (0, 0)).1)
      ∧ (imp → acc = .store ∨ acc = .atomic → ∀ ps, places = .ok ps → caches ps = true → ∃ t, exec .remoteRequest s = .next t ∧ SameBytes s t ∧ t.groups = s.groups
          ∧ ∀ x ∈ ps, ∀ l ∈ x.2.lines, s.marks.hostLines.contains l = true → t.marks.asked.contains l = true)
      ∧ (imp → acc = .store → ∀ ps keys, places = .ok ps → cells ps keys → caches ps = false →
          ∃ t w, exec .remoteRequest s = .next t ∧ t.groups = s.groups
            ∧ (∀ key, cellGet t.mem key = lastOf key (cellGet s.mem key) ((List.range s.ev.data.length).map (fun i => (keys i, s.ev.data.getD i 0))))
            ∧ t.host.out = s.host.out ++ [.remoteReply true [] [(w, 0)]])
      ∧ (imp → ∀ ty op x y more ps va key, s.ev.nums = n :: ty :: op :: x :: y :: more → places = .ok ((va, .cell key) :: ps) → caches ((va, .cell key) :: ps) = false →
          let old := leNat (cellBytes s.mem key n)
          let home := lineHome (lineOf key)
          (atomEarly s q va home = true → exec .remoteRequest s = .next (drew s))
          ∧ (atomEarly s q va home = false →
            ∃ t, exec .remoteRequest s = .next t ∧ t.groups = s.groups ∧ (∀ j, j < key ∨ key + n ≤ j → cellGet t.mem j = cellGet s.mem j)
              ∧ leNat (cellBytes t.mem key n) = (atomRun ty op [⟨0, .ofNat 64 x, .ofNat 64 y⟩] old).2 % 256 ^ n
              ∧ (lineSt t (lineOf key)).c = gtime s (atomDie s q va home)
              ∧ t.host.out = s.host.out ++ [.remoteReply true (leBytes n old) [(gtime s (atomDie s q va home), 0)]]))
      ∧ (imp → ∀ ty op x y more ps va p d page off, s.ev.nums = n :: ty :: op :: x :: y :: more → places = .ok ((va, .reg p d page off) :: ps) →
          caches ((va, .reg p d page off) :: ps) = false →
          let old := leNat ((List.range n).map (fun i => regByte s p page (off + i)))
          ∃ t, exec .remoteRequest s = .next t ∧ SameBytes s t ∧ t.groups = s.groups ∧ t.host.out = s.host.out ++ [.remoteReply true (leBytes n old) []]
            ∧ t.agenda = s.agenda ++ (if op = 8 then [] else (regStore s p page off (.ofNat 64 (atomRun ty op [⟨0, .ofNat 64 x, .ofNat 64 y⟩] old).2)).toList)))
  ∧ ∀ s : State, linkOpen s = false → exec .remoteRequest s = .next s

/-! ### Owner tokens -/

/-- Token words: `tmake` makes an idle entry; the others act on the entry that they name when it is idle and its shares allow it: a lend makes the target the
owner and keeps the lender, a return gives the region to its nearest lender, a share adds a sharer, a drop begins, a split leaves two halves, a merge one
region; a refused operation stops the group with class 0x0A and R453's code, and one that a move or shares hold back waits.
Token events: the oldest waiting operation takes effect once the shares allow it; a move completes at its time, and its group goes on; an operation that shares
hold back for 100 µs is withdrawn, and its group stops with code 0x0C; a held query ends when the team holds the region; an entry without its lost holder passes to
the nearest lender that is not lost, else to the walker, once the lost holder's writes have applied and 20 ns after the latest of them; the atomics of a lost service
group stop their issuers.
Where the spec leaves a point open, this follows the model's choice, log 43, 44, 45. The clauses on one entry's queue are for an entry
whose two neighbours of its size have empty queues, for a `tmerge` ties the queues of its halves together. -/
def Obligations.Tokens : Prop :=
  (
    ∀ (s : State) (f : FT), (grp s s.cur.gid).lost = [] →
      let g := s.cur.gid
      let p := (grp s g).part
      let me := teamHolder s (grp s g).team
      let ka := (kRead s f.a.toNat).toNat
      let target := bits (kRead s f.b.toNat) 23 0
      let Stops := fun (i : Instr) (code : Nat) => ∃ t, ∃ st ∈ (grp t g).stops, exec i s = .next t ∧ st.fr.cls = 0xA ∧ st.fr.code = code
        ∧ st.fr.detail = .ofNat 64 ka ∧ st.fr.pc = s.cur.pc ∧ st.fr.faulted = s.cur.lanes
      (ready (.tmake f) [] s.cur.lanes s = true → (∀ e, translate s p (grp s g).core ka 1 .load = .error e → Stops (.tmake f) 0xA)
          ∧ ∀ h, translate s p (grp s g).core ka 1 .load = .ok h →
          let bad := f.size.toNat < 16 ∨ 55 < f.size.toNat ∨ ka % 2 ^ f.size.toNat ≠ 0 ∨ 2 ^ 56 < ka + 2 ^ f.size.toNat ∨ 12 ≤ f.lease.toNat
            ∨ ∃ x ∈ s.tokens, x.part = p ∧ ka < x.base + 2 ^ x.size ∧ x.base < ka + 2 ^ f.size.toNat
          (bad → Stops (.tmake f) 0xA)
          ∧ (¬ bad → noEntry s p h.home = true → Stops (.tmake f) 0xB)
          ∧ (¬ bad → noEntry s p h.home = false → ∃ t k, exec (.tmake f) s = .next t ∧ SameBytes s t ∧ RegsKept 0 [] s t ∧ MovesOn s.cur s t
              ∧ t.tokens = s.tokens ++ [k] ∧ k.part = p ∧ k.base = ka ∧ k.size = f.size.toNat ∧ k.home = h.home ∧ k.owner = me ∧ k.lease = f.lease.toNat
              ∧ k.pub = f.pub ∧ k.sharers = [] ∧ k.outer = 0 ∧ k.inner = 0 ∧ k.moving = none ∧ k.waiting = []))
      ∧ (∀ i kind, (i = .tlend f ∧ kind = .lend) ∨ (i = .tret f ∧ kind = .ret) ∨ (i = .tshare f ∧ kind = .share) ∨ (i = .tdrop f ∧ kind = .tdrop)
          ∨ (i = .tsplit f ∧ kind = .split) ∨ (i = .tmerge f ∧ kind = .merge) → ready i [] s.cur.lanes s = true →
          let size := if kind = .merge then f.size.toNat - 1 else f.size.toNat
          let op : TokOp := { kind := kind, holder := me, target := target, size := size }
          let badMerge := kind = .merge ∧ (f.size.toNat = 0 ∨ 55 < f.size.toNat ∨ ka % 2 ^ f.size.toNat ≠ 0)
          (tokNamed s p ka size = none ∨ badMerge → Stops i 1)
          ∧ (∀ k, tokenBase s p ka = some k → k.size = size → ¬ badMerge → quietBeside s p ka size → k.moving.isSome = true → ∃ t x, exec i s = .next t ∧ SameBytes s t ∧ RegsKept 0 [] s t
              ∧ (grp t g).stall = some ⟨.token, s.cur, s.time⟩ ∧ tokenBase t p ka = some { k with waiting := k.waiting ++ [x] } ∧ x.kind = kind
              ∧ x.gid = some g ∧ x.holder = me ∧ x.size = size)
          ∧ ∀ k, tokenBase s p ka = some k → k.size = size → ¬ badMerge → quietBeside s p ka size → k.moving = none → k.waiting = [] →
            (∀ c, tokRefusal s p k op = some c → Stops i c)
            ∧ (tokRefusal s p k op = none → shareOk s p k op = false → ∃ t x, exec i s = .next t ∧ SameBytes s t ∧ RegsKept 0 [] s t
                ∧ (grp t g).stall = some ⟨.token, s.cur, s.time⟩ ∧ tokenBase t p ka = some { k with waiting := [x] } ∧ x.kind = kind ∧ x.gid = some g)
            ∧ (tokRefusal s p k op = none → shareOk s p k op = true → ∃ t x, exec i s = .next t ∧ SameBytes s t ∧ RegsKept 0 [] s t
                ∧ tokenBase t p ka = some x ∧ x.base = k.base ∧ x.home = k.home ∧ x.waiting = []
                ∧ (kind ≠ .split → kind ≠ .merge → (grp t g).stall = some ⟨.token, s.cur, s.time⟩ ∧ x.size = k.size ∧ x.moving.isSome = true)
                ∧ (kind = .lend → x.owner = target ∧ x.outer = (if k.outer = 0 then k.owner else k.outer) ∧ x.inner = (if k.outer = 0 then k.inner else k.owner)
                    ∧ x.sharers = if holderKind target = 3 then [me] else k.sharers)
                ∧ (kind = .ret → x.owner = (if k.inner ≠ 0 then k.inner else k.outer) ∧ x.outer = (if k.inner ≠ 0 then k.outer else 0) ∧ x.inner = 0
                    ∧ x.sharers = if holderKind k.owner = 3 then [] else k.sharers)
                ∧ (kind = .share → x.owner = k.owner ∧ x.sharers = k.sharers ++ [target])
                ∧ (kind = .tdrop → x.owner = k.owner ∧ x.sharers = k.sharers)
                ∧ (kind = .split → MovesOn s.cur s t ∧ (grp t g).stall = none ∧ x.size = k.size - 1 ∧ x.owner = k.owner ∧ x.last = k.last
                    ∧ ∃ y ∈ t.tokens, y.part = p ∧ y.base = ka + 2 ^ (k.size - 1) ∧ y.size = k.size - 1 ∧ y.owner = k.owner ∧ y.outer = k.outer ∧ y.inner = k.inner
                        ∧ y.home = k.home ∧ y.lease = k.lease ∧ y.pub = k.pub)
                ∧ (kind = .merge → MovesOn s.cur s t ∧ (grp t g).stall = none ∧ x.size = k.size + 1 ∧ x.owner = k.owner
                    ∧ (∀ b, tokenBase s p (ka + 2 ^ k.size) = some b → x.lastW = max k.lastW b.lastW)
                    ∧ ∀ y ∈ t.tokens, y.part = p → y.base ≠ ka + 2 ^ k.size)))
      ∧ (ready (.tunshare f) [] s.cur.lanes s = true → ∀ k, tokenBase s p ka = some k → k.size = f.size.toNat → k.waiting = [] → quietBeside s p ka k.size →
          (me ∉ k.sharers → Stops (.tunshare f) 2)
          ∧ (me ∈ k.sharers → ∃ t x, exec (.tunshare f) s = .next t ∧ SameBytes s t ∧ RegsKept 0 [] s t ∧ MovesOn s.cur s t ∧ tokenBase t p ka = some x
              ∧ x.sharers = k.sharers.erase me ∧ x.owner = k.owner ∧ x.outer = k.outer ∧ x.inner = k.inner))
      ∧ (let kd := f.d.toNat
          let ws := ((tokenCover s p ka).map entryWords).getD [0, 0, 0, 0]
          (∀ i, i = .tquery f ∨ (i = .tqueryHold f ∧ holdsRegion s g ka = true) → ready i [] s.cur.lanes s = true →
            ∃ t, exec i s = .next t ∧ SameBytes s t ∧ RegsKept g [kd, kd + 1, kd + 2, kd + 3] s t ∧ MovesOn s.cur s t ∧ t.tokens = s.tokens
              ∧ (i = .tqueryHold f → (grp t g).floorL1 = max (grp s g).floorL1 s.time ∧ (grp t g).floorL2 = max (grp s g).floorL2 s.time)
              ∧ ∀ j, j < 4 → (grp s g).loop.all (fun l => l.k != kd + j) = true → kGet t g (kd + j) = ws.getD j 0)
          ∧ (ready (.tqueryHold f) [] s.cur.lanes s = true → holdsRegion s g ka = false → ∃ t, exec (.tqueryHold f) s = .next t ∧ SameBytes s t ∧ RegsKept 0 [] s t
              ∧ (grp t g).stall = some ⟨.hold kd ka, s.cur, s.time⟩ ∧ t.tokens = s.tokens)))
  ∧ (
    ∀ s : State,
      let p := s.ev.x
      let base := s.ev.y
      (∀ k, tokenBase s p base = some k → quietBeside s p base k.size →
        (k.moving.isSome = true ∨ k.waiting = [] → exec .tokenMoveEffect s = .next s)
        ∧ (∀ op rest, k.moving = none → k.waiting = op :: rest →
          (tokRefusal s p k op = none → shareOk s p k op = false → exec .tokenMoveEffect s = .next s)
          ∧ (tokRefusal s p k op = none → shareOk s p k op = true → op.kind ≠ .split → op.kind ≠ .merge → ∃ t x n, exec .tokenMoveEffect s = .next t
              ∧ SameBytes s t ∧ RegsKept 0 [] s t ∧ tokenBase t p base = some { moveEntry op s.time { k with waiting := rest } with moving := some (x, n) }
              ∧ x.kind = op.kind ∧ x.holder = op.holder ∧ x.target = op.target)
          ∧ (∀ c g x, tokRefusal s p k op = some c → rest = [] → op.gid = some g → (grp s g).stall = some x → x.kind = .token → x.arr.gid = g →
              ∃ t, ∃ st ∈ (grp t g).stops, exec .tokenMoveEffect s = .next t ∧ st.fr.cls = 0xA ∧ st.fr.code = c ∧ st.fr.detail = .ofNat 64 base
                ∧ st.fr.pc = x.arr.pc ∧ (grp t g).stall = none ∧ tokenBase t p base = some { k with waiting := [] }))
        ∧ (∀ op tm, k.moving = some (op, tm) →
          (tm ≠ noTime → gtime s (tokDie k) < tm → exec .tokenMoveComplete s = .next s)
          ∧ (tm = noTime → regionBusy s k op = true → ∃ t, exec .tokenMoveComplete s = .next t ∧ t = { s with tokens := t.tokens, cores := t.cores }
              ∧ tokenBase t p base = some k)
          ∧ (tm = noTime → regionBusy s k op = false → ∃ t, exec .tokenMoveComplete s = .next t ∧ t = { s with tokens := t.tokens, cores := t.cores }
              ∧ (∀ c, Machine.core t c = { Machine.core s c with entries := (Machine.core t c).entries }) ∧ tokenBase t p base = some { k with moving := some (op, max op.wct (gtime s (tokDie k)) + 20 + (if (die s (tokDie k)).alarm then 40 else 0)) })
          ∧ (tm ≠ noTime → tm ≤ gtime s (tokDie k) → k.waiting = [] → ∃ t, exec .tokenMoveComplete s = .next t ∧ SameBytes s t ∧ RegsKept 0 [] s t
              ∧ (op.kind ≠ .tdrop → tokenBase t p base = some { k with moving := none, last := op.ev.event, lastAnte := { op.ev with time := tm } })
              ∧ (op.kind = .tdrop → tokenBase t p base = none)
              ∧ ∀ g x, op.gid = some g → (grp s g).stall = some x → x.kind = .token → x.arr.gid = g → (grp t g).stall = none ∧ MovesOn x.arr s t))
        ∧ (∀ op, k.waiting = [op] → shareWait s p k op = false → exec .shareWaitBound s = .next s)
        ∧ (∀ op g x, k.waiting = [op] → op.gid = some g → shareWait s p k op = true → (grp s g).stall = some x → x.kind = .token → x.arr.gid = g →
          (s.time < op.at_ + 100000 → exec .shareWaitBound s = .next s)
          ∧ (op.at_ + 100000 ≤ s.time → ∃ t, ∃ st ∈ (grp t g).stops, exec .shareWaitBound s = .next t ∧ st.fr.cls = 0xA ∧ st.fr.code = 0xC
              ∧ st.fr.detail = .ofNat 64 base ∧ st.fr.pc = x.arr.pc ∧ (grp t g).stall = none ∧ tokenBase t p base = some { k with waiting := [] }))
        ∧ (let named := isLost s p k.owner = true ∨ isLost s p k.outer = true ∨ isLost s p k.inner = true ∨ ∃ h ∈ k.sharers, isLost s p h = true
          let since := ((s.losts.filter (fun l => l.part == p)).map (fun l => l.since)).foldl max 0
          let may := named ∧ k.moving = none ∧ lostBusy s p k = false ∧ k.lastW + 20 ≤ gtime s (tokDie k) ∧ since + 20 ≤ s.time
          let group := (k.atomic && isLost s p k.owner) = true
          (¬ may → exec .holderLostSettlement s = .next s)
          ∧ (may → k.waiting = [] → ∃ t x, exec .holderLostSettlement s = .next t ∧ tokenBase t p base = some x ∧ x.moving = none
              ∧ x.sharers = (if group then [] else k.sharers.filter (fun h => !isLost s p h))
              ∧ x.owner = (if isLost s p k.owner = false then k.owner else if k.inner ≠ 0 ∧ isLost s p k.inner = false then k.inner
                  else if k.outer ≠ 0 ∧ isLost s p k.outer = false then k.outer else walkerHolder)
              ∧ (¬ group → SameBytes s t ∧ RegsKept 0 [] s t)
              ∧ (group → ∀ a ∈ s.net.atoms, k.covers a.part a.va = true → ∃ b ∈ t.net.atoms, b.id = a.id ∧ b.refused = true))))
      ∧ ∀ k va arr since, (grp s s.ev.x).stall = some ⟨.hold k va, arr, since⟩ → arr.gid = s.ev.x →
          (holdsRegion s s.ev.x va = false → exec .tqueryHoldEnd s = .next s)
          ∧ (holdsRegion s s.ev.x va = true → (team s (grp s s.ev.x).team).state = .resident →
              ∃ t, exec .tqueryHoldEnd s = .next t ∧ SameBytes s t ∧ (grp t s.ev.x).stall = none ∧ MovesOn arr s t ∧ RegsKept s.ev.x [k, k + 1, k + 2, k + 3] s t
                ∧ ∀ j, j < 4 → (grp s s.ev.x).loop.all (fun l => l.k != k + j) = true → kGet t s.ev.x (k + j) = (((tokenCover s (grp s s.ev.x).part va).map entryWords).getD [0, 0, 0, 0]).getD j 0))

/-! ### Queues and accumulators -/

/-- Queue words: a pop takes the oldest entry of its queue for kd, or stays pending behind earlier pops; `qtry` takes it or says that none is there; a queue that the group
may not pop, and every push, stops with code 0x11; QUEUE_POP_ENTRY gives the oldest pending pop the entry that has come.
Tile words: a free tile's token passes to the group that asks for it, or to the oldest that waits; a release waits until no command names the tile; a group that
holds the tile reads, writes and clears its words while the tile is not filling, and one that does not hold it stops with code 0x13.
Where the spec leaves a point open, this follows the model's choice, log 46. -/
def Obligations.QueueAndTileWords : Prop :=
  (
    ∀ (s : State) (f : FS),
      let g := s.cur.gid
      let m := active s
      let q := f.num.toNat
      let d := f.d.toNat
      (ready (.qpush f) [] m s = true → exec (.qpush f) s = .next (stopAll 1 0x11 0 m s))
      ∧ (∀ i, i = .qpop f ∨ i = .qtry f → ready i [] m s = true → (popLegal q = false → exec i s = .next (stopAll 1 0x11 0 m s))
          ∧ (popLegal q = true → m = 0 → exec i s = .next (done s)))
      ∧ (ready (.qpop f) [] m s = true → popLegal q = true → m ≠ 0 →
          ∃ t x, exec (.qpop f) s = .next t ∧ Framed g [] s t ∧ MovesOn s.cur s t ∧ (grp t g).pend = (grp s g).pend ++ [x] ∧ x.lanes = m ∧ x.regs = [.k d]
            ∧ (∀ e es, popsWaiting s g q = [] → queueOf s g q = e :: es → x.kind = .uniform d (some e.1) [] 0 ∧ queueOf t g q = es)
            ∧ (popsWaiting s g q ≠ [] ∨ queueOf s g q = [] → x.kind = .pop q d s.time m ∧ queueOf t g q = queueOf s g q))
      ∧ (ready (.qtry f) [] m s = true → popLegal q = true → m ≠ 0 →
          ∃ t x, exec (.qtry f) s = .next t ∧ Framed g [] s t ∧ MovesOn s.cur s t ∧ (grp t g).pend = (grp s g).pend ++ [x] ∧ x.lanes = m
            ∧ (∀ e es, popsWaiting s g q = [] → queueOf s g q = e :: es →
                x.kind = .uniform d (some e.1) ((Mask.toList m).map (fun l => (l, true))) f.c.toNat ∧ queueOf t g q = es)
            ∧ (popsWaiting s g q ≠ [] ∨ queueOf s g q = [] →
                x.kind = .uniform d none ((Mask.toList m).map (fun l => (l, false))) f.c.toNat ∧ queueOf t g q = queueOf s g q))
      ∧ ∀ x q k since m e es, (grp s s.ev.x).pend.find? (fun p => p.id == s.ev.y) = some x → x.kind = .pop q k since m →
          (queueOf s s.ev.x q = [] ∨ (popsWaiting s s.ev.x q).any (fun o => decide (o.2.id < x.id)) = true ∨ (team s (grp s s.ev.x).team).state ≠ .resident →
              exec .queuePopEntry s = .next s)
          ∧ (queueOf s s.ev.x q = e :: es → (popsWaiting s s.ev.x q).any (fun o => decide (o.2.id < x.id)) = false → (team s (grp s s.ev.x).team).state = .resident →
              ∃ t, exec .queuePopEntry s = .next (tryRecord s.ev.x t) ∧ Framed s.ev.x [k] s t ∧ kGet t s.ev.x k = (if x.lanes = 0 then kGet s s.ev.x k else e.1)
                ∧ queueOf t s.ev.x q = es ∧ (grp t s.ev.x).pend = (grp s s.ev.x).pend.filter (fun o => o.id != x.id)))
  ∧ (
    ∀ (s : State) (f : FS),
      let g := s.cur.gid
      let m := active s
      let c := (grp s g).core
      let n := f.num.toNat
      let e := tileEnt s c n
      let word := fun (s : State) (key : Nat) => (Machine.core s c).tileW.get 0 key
      (ready (.aacq f) [] m s = true →
        (m = 0 → exec (.aacq f) s = .next (done s))
        ∧ (m ≠ 0 → e.holder = none → (Machine.core s c).aacqQ.all (fun q => q.1 != n) = true → ∃ t, exec (.aacq f) s = .next t ∧ Framed g [] s t ∧ MovesOn s.cur s t
            ∧ tileEnt t c n = { e with holder := some g })
        ∧ (m ≠ 0 → e.holder ≠ none ∨ (Machine.core s c).aacqQ.any (fun q => q.1 == n) = true → ∃ t, exec (.aacq f) s = .next t ∧ Framed g [] s t
            ∧ (grp t g).stall = some ⟨.aacq n, s.cur, s.time⟩ ∧ (Machine.core t c).aacqQ = (Machine.core s c).aacqQ ++ [(n, g)] ∧ tileEnt t c n = e))
      ∧ (∀ g' k x, (Machine.core s s.ev.x).aacqQ.find? (fun q => q.1 == s.ev.y) = some (k, g') → (grp s g').stall = some x → x.kind = .aacq k → x.arr.gid = g' →
          (grp s g').core = s.ev.x →
          ((tileEnt s s.ev.x s.ev.y).holder ≠ none → exec .aacqGrant s = .next s)
          ∧ ((tileEnt s s.ev.x s.ev.y).holder = none → ∃ t, exec .aacqGrant s = .next t ∧ SameBytes s t ∧ Resumes g' x [] s t
              ∧ tileEnt t s.ev.x s.ev.y = { tileEnt s s.ev.x s.ev.y with holder := some g' }))
      ∧ (∀ i, i = .arel f ∨ i = .ard f ∨ i = .awr f ∨ i = .aclr f → ready i [] m s = true →
          (e.holder ≠ some g → exec i s = .next (stopAll 1 0x13 0 m s)) ∧ (e.holder = some g → m = 0 → exec i s = .next (done s))
          ∧ (i ≠ .arel f → e.holder = some g → m ≠ 0 → tileOpen s c n = false → ∃ t, exec i s = .next t ∧ SameBytes s t ∧ RegsKept 0 [] s t
              ∧ WaitsOn (fun k => k = .tile n) s t))
      ∧ (e.holder = some g → m ≠ 0 →
          (ready (.arel f) [] m s = true →
            (e.pending = 0 → ∃ t, exec (.arel f) s = .next t ∧ Framed g [] s t ∧ MovesOn s.cur s t ∧ (tileEnt t c n).holder = none
                ∧ (tileEnt t c n).state = e.state ∧ (tileEnt t c n).pending = 0)
            ∧ (e.pending ≠ 0 → ∃ t, exec (.arel f) s = .next t ∧ Stalls (.arel n) s t))
          ∧ (tileOpen s c n = true →
            (ready (.ard f) [] m s = true → coreBad s c (tilePlace n) = false → f.d.toNat + cntOf f.mo ≤ 256 →
              ∃ t, exec (.ard f) s = .next t ∧ SameBytes s t ∧ (∀ h, h ≠ g → grp t h = grp s h) ∧ KeepsP g s t ∧ KeepsK g [] s t ∧ MovesOn s.cur s t
                ∧ t.cores = s.cores ∧ ∀ l r, l < 32 → r < 256 → vGet t g l r =
                  if m.getLsbD l = true ∧ f.d.toNat ≤ r ∧ r < f.d.toNat + cntOf f.mo then word s (tileKey n ((tileIdx s f l + (r - f.d.toNat)) % 8192)) else vGet s g l r)
            ∧ (ready (.awr f) [] m s = true → ∃ t, exec (.awr f) s = .next t ∧ Framed g [] s t ∧ MovesOn s.cur s t ∧ tileEnt t c n = { e with state := .ready }
                ∧ ∀ key, word t key = lastOf key (word s key) ((Mask.toList m).flatMap (fun l => (List.range (cntOf f.mo)).map (fun j =>
                    (tileKey n ((tileIdx s f l + j) % 8192), vGet s g l (f.b.toNat + j))))))
            ∧ (ready (.aclr f) [] m s = true → ∃ t, exec (.aclr f) s = .next t ∧ Framed g [] s t ∧ MovesOn s.cur s t ∧ tileEnt t c n = { e with state := .ready }
                ∧ ∀ key, word t key = if key / 8192 = n then 0 else word s key)))
      ∧ ∀ n x, (grp s s.ev.x).stall = some x → x.kind = .arel n → x.arr.gid = s.ev.x →
          let c := (grp s s.ev.x).core
          ((tileEnt s c n).pending ≠ 0 → exec .arelComplete s = .next s)
          ∧ ((tileEnt s c n).pending = 0 → ∃ t, exec .arelComplete s = .next t ∧ SameBytes s t ∧ Resumes s.ev.x x [] s t ∧ (tileEnt t c n).holder = none))

/-! ### Pushes, slots and steps -/

/-- Pushes: a copy from another than the copy-issuing group stops with code 0x12. Once the group's earlier writes are acknowledged the blocks are read: with a refused
block or descriptor the group stops with class 0x09; else each lane's command is accepted in ascending order of lane while its token is idle and there is room, and
the lanes go on once all are; a push that waits for acknowledgements, a token or room goes on when they come, and does nothing before.
Where the spec leaves a point open, this follows the model's choice, log 93. -/
def Obligations.PushWords : Prop :=
  ∀ (s : State) (i : Instr) (f : FS),
    let g := s.cur.gid
    let m := active s
    let addr := fun (l : Nat) => srcBits s l f.a f.ak 32
    let refused := (Mask.toList m).findSome? (fun l => (pushRefusal s s.cur l (addr l)).map (fun c => (c, addr l)))
    let blocks := (Mask.toList m).map (fun l => (l, addr l, blockBytes s (grp s g).team (addr l)))
    let copy := i = .cpyLin f ∨ i = .cpySlot f ∨ i = .cpyGth f ∨ i = .cpySct f ∨ i = .cpyCsr f
    let u := drainGroup g s
    let Stops := fun (arr : Arrival) (k a : Nat) (left : Mask) (t : State) => (grp t arr.gid).stall = none
      ∧ ∃ st ∈ (grp t arr.gid).stops, st.fr.cls = 9 ∧ st.fr.code = k ∧ st.fr.detail = .ofNat 64 a ∧ st.fr.pc = arr.pc ∧ st.fr.faulted = left
    (i = .mma f ∨ i = .coll f ∨ copy → ready i [] m s = true → (copy → (grp s g).place = 0 ∧ (grp s g).cont = false) →
      (m = 0 → exec i s = .next (done s))
      ∧ (m ≠ 0 → (grp s g).lost = [] → (grp s g).stall = none → s.cur.word.toNat / 2 ^ 56 = major i →
          (∀ k a, released u g u.ids.msg = true → refused = some (k, a) → ∃ t, exec i s = .next t ∧ Stops s.cur k a m t)
          ∧ (released u g u.ids.msg = true → refused = none → ∃ t, exec i s = .next t ∧ PushTakes s.cur m blocks u.ids.msg s.time s t)
          ∧ (released u g u.ids.msg = false → ∃ t, exec i s = .next t ∧ SameBytes s t ∧ RegsKept 0 [] s t ∧ (∀ l, lane t g l = lane s g l)
              ∧ (grp t g).stall = some ⟨.push none m ((Mask.toList m).map (fun l => (l, addr l, []))) u.ids.msg, s.cur, s.time⟩)))
    ∧ (copy → ready i [] m s = true → (grp s g).place ≠ 0 ∨ (grp s g).cont = true → exec i s = .next (stopAll 1 0x12 0 m s))
    ∧ (∀ left blocks mark arr since, (grp s s.ev.x).lost = [] → arr.gid = s.ev.x →
        let read := if blocks.any (fun b => !b.2.2.isEmpty) then .ok blocks else readBlocks s arr left blocks
        ((grp s s.ev.x).stall = some ⟨.push none left blocks mark, arr, since⟩ →
          (released s s.ev.x mark = false → exec .pushRoomResume s = .next s)
          ∧ (∀ e, released s s.ev.x mark = true → read = .error e → ∃ t, exec .pushRoomResume s = .next t ∧ Stops arr e.1 e.2 left t)
          ∧ (∀ l, released s s.ev.x mark = true → read = .ok l → ∃ t, exec .pushRoomResume s = .next t ∧ PushTakes arr left l mark since s t))
        ∧ ∀ n, (grp s s.ev.x).stall = some ⟨.push (some n) left blocks mark, arr, since⟩ →
          ((ctok s s.ev.x n).busy = true → exec .busyTokenResume s = .next s)
          ∧ ((ctok s s.ev.x n).busy = false → released s s.ev.x mark = true →
              (∀ e, read = .error e → ∃ t, exec .busyTokenResume s = .next t ∧ Stops arr e.1 e.2 left t)
              ∧ (∀ l, read = .ok l → ∃ t, exec .busyTokenResume s = .next t ∧ PushTakes arr left l mark s.time s t)))

/-- Slots, waits and steps: a free slot passes to the team that claims it, or to the oldest waiting claim; a release waits while the engine reads the slot or fills it; `twait` and `cwait`
wait for what they name; a step opens once, and its end closes it, stores the report and puts its length and count in kd.
Where the spec leaves a point open, this follows the model's choice, log 57, 58. -/
def Obligations.SlotsAndSteps : Prop :=
  ∀ s : State,
    let g := s.cur.gid
    let m := active s
    let c := (grp s g).core
    let me := (grp s g).team
    let n := s.cur.ext.sys.num.toNat
    let e := slotEnt s c n
    (m = 0 → (∀ i, i = .twait ∨ i = .cwait ∨ i = .stepBegin ∨ i = .stepEnd ∨ (i = .slclaim ∧ e.holder ≠ some me) ∨ (i = .slrel ∧ e.holder = some me) →
        ready i [] m s = true → exec i s = .next (done s)))
    ∧ (m ≠ 0 →
      (ready .slclaim [] m s = true →
        (e.holder = some me → exec .slclaim s = .next (stopAll 1 0x14 0 m s))
        ∧ (e.holder = none → e.state = .empty → (Machine.core s c).claimQ.all (fun q => q.1 != n) = true → ∃ t, exec .slclaim s = .next t ∧ Framed g [] s t ∧ MovesOn s.cur s t
            ∧ slotEnt t c n = { e with holder := some me, state := .empty })
        ∧ (e.holder ≠ some me → slotFree s c n = false ∨ (Machine.core s c).claimQ.any (fun q => q.1 == n) = true → ∃ t, exec .slclaim s = .next t ∧ Framed g [] s t
            ∧ (grp t g).stall = some ⟨.slclaim n, s.cur, s.time⟩ ∧ (Machine.core t c).claimQ = (Machine.core s c).claimQ ++ [(n, g)] ∧ slotEnt t c n = e))
      ∧ (ready .slrel [] m s = true →
        (e.holder ≠ some me → exec .slrel s = .next (stopAll 1 0x14 0 m s))
        ∧ (e.holder = some me → slotIdle s c n = true → ∃ t, exec .slrel s = .next t ∧ Framed g [] s t ∧ MovesOn s.cur s t
            ∧ (slotEnt t c n).holder = none ∧ (slotEnt t c n).state = .empty)
        ∧ (e.holder = some me → slotIdle s c n = false → ∃ t, exec .slrel s = .next t ∧ Stalls (.slrel n) s t))
      ∧ (∀ i k, (i = .twait ∧ k = .twait n) ∨ (i = .cwait ∧ k = .cwait n) → ready i [] m s = true →
        ((waitOn s g k).isSome = true → exec i s = .next (done s)) ∧ (waitOn s g k = none → ∃ t, exec i s = .next t ∧ Stalls k s t))
      ∧ (ready .stepBegin [] m s = true →
        let id := bits (kRead s s.cur.ext.sys.a.toNat) 31 0
        let l := grpLaunch s g
        ((launch s l).steps.any (fun q => q.1 == id) = true ∨ 16 ≤ (launch s l).steps.length → exec .stepBegin s = .next (done s))
        ∧ ((launch s l).steps.all (fun q => q.1 != id) = true → (launch s l).steps.length < 16 → ∃ t, exec .stepBegin s = .next t ∧ Framed g [] s t ∧ MovesOn s.cur s t
            ∧ (launch t l).steps = (launch s l).steps ++ [(id, gtime s (grpDie s g))]))
      ∧ (ready .stepEnd [] m s = true →
        let f := s.cur.ext.sys
        let id := bits (kRead s f.a.toNat) 31 0
        let va := (kRead s f.b.toNat).toNat
        let room := bits (kRead s f.c.toNat) 31 0
        let l := grpLaunch s g
        let Gives := fun (t : State) (x : DWord) => (grp s g).loop.all (fun b => b.k != f.d.toNat) = true → kGet t g f.d.toNat = x
        ((launch s l).steps.all (fun q => q.1 != id) = true → ∃ t, exec .stepEnd s = .next t ∧ Framed g [f.d.toNat] s t ∧ MovesOn s.cur s t
            ∧ Gives t 0 ∧ t.launches = s.launches)
        ∧ ∀ t0, (launch s l).steps.find? (fun q => q.1 == id) = some (id, t0) →
          (room < 64 → ∃ t, exec .stepEnd s = .next t ∧ Framed g [f.d.toNat] s t ∧ MovesOn s.cur s t ∧ Gives t 0
              ∧ (launch t l).steps = (launch s l).steps.filter (fun q => q.1 != id))
          ∧ (64 ≤ room → s.Canonical →
              let r := stepReport s id t0 room
              let acc := reportAccess s va (64 + 64 * r.2.1)
              allPermitted acc = true → ∃ t, exec .stepEnd s = .next t ∧ Stored g (reportStores va r.1 acc) s t ∧ RegsKept g [f.d.toNat] s t ∧ MovesOn s.cur s t
                ∧ Gives t (.ofNat 64 (r.2.1 * 2 ^ 32 + (64 + 64 * r.2.1))) ∧ (launch t l).steps = (launch s l).steps.filter (fun q => q.1 != id)
                ∧ r.1.length = 64 + 64 * r.2.1 ∧ 64 + 64 * r.2.1 ≤ room ∧ r.1.take 4 = leBytes 4 id ∧ (r.1.drop 16).take 8 = leBytes 8 t0)))
    ∧ (∀ k g' x, (Machine.core s s.ev.x).claimQ.find? (fun q => q.1 == s.ev.y) = some (k, g') → (grp s g').stall = some x → x.kind = .slclaim k → x.arr.gid = g' →
        (grp s g').core = s.ev.x →
        (slotFree s s.ev.x s.ev.y = false → exec .slclaimGrant s = .next s)
        ∧ (slotFree s s.ev.x s.ev.y = true → ∃ t, exec .slclaimGrant s = .next t ∧ SameBytes s t ∧ Resumes g' x [] s t
            ∧ slotEnt t s.ev.x s.ev.y = { slotEnt s s.ev.x s.ev.y with holder := some (grp s g').team, state := .empty }))
    ∧ ∀ x, (grp s s.ev.x).stall = some x → x.arr.gid = s.ev.x →
        (∀ n, x.kind = .slrel n → (slotIdle s (grp s s.ev.x).core n = false → exec .slrelComplete s = .next s)
          ∧ (slotIdle s (grp s s.ev.x).core n = true → ∃ t, exec .slrelComplete s = .next t ∧ SameBytes s t ∧ Resumes s.ev.x x [] s t
              ∧ (slotEnt t (grp s s.ev.x).core n).holder = none))
        ∧ (waitOn s s.ev.x x.kind = none → exec .tileWaitEnd s = .next s)
        ∧ ((waitOn s s.ev.x x.kind).isSome = true → ∃ t, exec .tileWaitEnd s = .next t ∧ SameBytes s t ∧ Resumes s.ev.x x [] s t)

/-! ### Engines -/

/-- The matrix engine: a segment starts once its first chunk's slots are ready and its reservation is granted, and keeps the tile's words; the slots of each further chunk
drain as the engine reaches it, and one that it has finished reading is left before the segment's end; an unchecked or reference segment writes its
words to the tile and its command goes on to the next segment; an integer segment that the strainer lets pass is the reference, and a floating-point one lies within
R168's bound of it; the segment's chunks are counted, and a window that they fill ends with its last product; after the last segment the command leaves the
queue with its tile, token and completion entry; a steep window moves the offset by one step at most.
Where the spec leaves a point open, this follows the model's choice, log 9, 48, 49, 50, 51, 111. -/
def Obligations.MatrixEngine : Prop :=
  ∀ (s : State),
    let c := s.ev.x
    let word := fun (s : State) (key : Nat) => (Machine.core s c).tileW.get 0 key
    (∀ m rest, (Machine.core s c).mq = m :: rest → (Machine.core s c).mrun = none → m.stopped = false → m.seg < m.block.segs → m.status < 0x40 →
      (team s m.who.team).state = .resident → (team s m.who.team).goal = 0 → (part s m.who.part).suspended = false →
      let q := m.block.segChunks m.seg
      let n := chunksReach s c m 0 s.ev.z
      chunksBad s c m 0 n = false →
      let o := if m.block.mode = 0 ∨ m.hard = true then 0 else (Machine.core s c).steep.offset
      (0 < q.2 → (0 < n ↔ ∀ k ∈ m.block.chunkSlots q.1, k ∉ m.left → (slotEnt s c k).state = .ready ∨ (slotEnt s c k).state = .draining))
      ∧ (n = 0 → exec .matrixSegmentStart s = .next s)
      ∧ (n ≠ 0 → holdsResv s c 0 = false → ∃ t, exec .matrixSegmentStart s = .next t ∧ t = { s with clusters := t.clusters }
          ∧ ∃ r ∈ (clus t (coreClus c)).requests, r.core = c ∧ r.unit_ = 0)
      ∧ (n ≠ 0 → holdsResv s c 0 = true → ∃ t r, exec .matrixSegmentStart s = .next t ∧ t = { s with cores := t.cores } ∧ (Machine.core t c).mrun = some r
          ∧ r.kept = m.block.elems.map (fun e => (e, if m.block.z = true ∧ m.seg = 0 then 0 else word s (tileKey m.block.tile e)))
          ∧ r.attempt = (if m.hard then 3 else 0) ∧ r.offset = o ∧ r.offset0 = o ∧ r.start = s.time ∧ r.seen = n
          ∧ (∀ i, i < n → ∀ k ∈ m.block.chunkSlots (q.1 + i), k ∉ m.left → (slotEnt t c k).state = .draining) ∧ (Machine.core t c).mq = (Machine.core s c).mq))
    ∧ (∀ m rest r, (Machine.core s c).mq = m :: rest → (Machine.core s c).mrun = some r →
      let q := m.block.segChunks m.seg
      let n := chunksReach s c m r.seen s.ev.z
      ∃ t x, exec .matrixSegmentStart s = .next t ∧ SameBytes s t ∧ t.groups = s.groups ∧ (∀ key, word t key = word s key)
        ∧ (Machine.core t c).mq = x :: rest ∧ x.block = m.block ∧ x.seg = m.seg
        ∧ (Machine.core t c).mrun = some (if r.seen < n ∧ chunksBad s c m r.seen n = false then { r with seen := n } else r)
        ∧ (r.seen < n → chunksBad s c m r.seen n = false → ∀ i, r.seen ≤ i → i < n → ∀ k ∈ m.block.chunkSlots (q.1 + i), k ∉ m.left → (slotEnt t c k).state = .draining)
        ∧ (m.block.mode ≠ 1 → ∀ k ∈ m.block.slotsDone m.seg, (∃ i, i < r.seen ∧ i < q.2 ∧ k ∈ m.block.chunkSlots (q.1 + i)) →
            (∀ i, r.seen ≤ i → i < q.2 → k ∉ m.block.chunkSlots (q.1 + i)) → k ∈ x.left))
    ∧ (∀ m rest r, (Machine.core s c).mq = m :: rest → (Machine.core s c).mrun = some r →
      let refs := segRefs s c m r.kept
      let x := (Machine.core s c).steep
      let n := (m.block.segChunks m.seg).2
      let w := 2 ^ bits x.cfg 20 16
      let u := countChunks c m s
      let r' := ((Machine.core u c).mrun).getD r
      let Counts := fun (t : State) => (Machine.core t c).steep.products = (if x.products + n < w then x.products + n else n - (w - x.products))
        ∧ (Machine.core t c).steep.offset = (if x.products + n < w then x.offset else windowOffset { x with products := x.products + (w - x.products) })
      let asks := (clus s (coreClus c)).requests.any (fun q => q.core == c && q.unit_ == 0) || decide (r.seen < (m.block.segChunks m.seg).2)
      let Delivers := fun (t : State) (ws : List (Nat × Word)) =>
        (∀ key, word t key = lastOf key (word s key) (ws.map (fun q => (tileKey m.block.tile q.1, q.2)))) ∧ (Machine.core t c).mrun = none
          ∧ ∃ x, (Machine.core t c).mq = x :: rest ∧ x.seg = m.seg + 1 ∧ x.block = m.block
      (asks = true → exec .segmentJudge s = .next s)
      ∧ (r' = r ∨ (w ≤ x.products + n ∧ m.block.mode ≠ 0 ∧ r.attempt = 0
          ∧ r' = { r with offset := (Machine.core u c).steep.offset, offset0 := (Machine.core u c).steep.offset }))
      ∧ (asks = false → m.block.mode = 0 → ∃ t, exec .segmentJudge s = .next t ∧ SameBytes s t ∧ t.groups = s.groups ∧ Counts t ∧ Delivers t refs)
      ∧ (asks = false → 2 ≤ m.block.mode → ∃ t, exec .segmentJudge s = .next t ∧ SameBytes s t ∧ t.groups = s.groups ∧ Counts t
          ∧ Delivers t (attemptWords u m r' s.ev.flag refs))
      ∧ (asks = false → m.block.mode = 1 → ∃ t, exec .segmentJudge s = .next t ∧ Counts t
          ∧ ((∃ x, (Machine.core t c).mq = x :: rest ∧ x.seg = m.seg + 1) →
              (mInt m.block.aFmt = true → Delivers t refs)
              ∧ (mInt m.block.aFmt = false → (r.kept.map Prod.fst).Nodup → ∀ q ∈ refs,
                  let e := q.1
                  let as_ := rowSum s c m r.kept true (e / 64)
                  let bs := colSum s c m r.kept true (e % 64)
                  let tau := fpMul fmtF64 2 (tolUnit m 0) (min as_ bs)
                  let d := word t (tileKey m.block.tile e)
                  d = q.2 ∨ (dFinite as_ = true ∧ dFinite bs = true ∧ tau % 2 ^ 63 ≠ 0
                    ∧ fvAbove (fvAdd 0 (unpack fmtF32 d.toNat) (unpack fmtF32 q.2.toNat).negate) (unpack fmtF64 tau) = false)))))
    ∧ (∀ m rest, (Machine.core s c).mq = m :: rest → (Machine.core s c).mrun = none → m.stopped = false → (m.block.segs ≤ m.seg ∨ 0x40 ≤ m.status) →
      (team s m.who.team).state = .resident → ∀ g, m.who.gid = some g → ∃ t a, exec .matrixCommandComplete s = .next t ∧ SameBytes s t ∧ (Machine.core t c).mq = rest
        ∧ (tileEnt t c m.block.tile).pending = (tileEnt s c m.block.tile).pending - 1
        ∧ ((tileEnt s c m.block.tile).pending ≤ 1 → (tileEnt t c m.block.tile).state = .ready)
        ∧ queueOf t g 1 = queueOf s g 1 ++ [(.ofNat 64 (m.block.tag * 2 ^ 32 + m.events * 2 ^ 16 + m.block.tile * 2 ^ 8 + m.status), a)]
        ∧ ∀ x, ctok t g x = if m.block.tok = some x then { busy := false, last := a } else ctok s g x)
    ∧ (let x := (Machine.core s c).steep
       let n := bits x.cfg 47 32
       (x.products < 2 ^ bits x.cfg 20 16 → s.time < x.start + 1000000 → exec .steepWindowEnd s = .next s)
       ∧ (2 ^ bits x.cfg 20 16 ≤ x.products ∨ x.start + 1000000 ≤ s.time → ∃ t, exec .steepWindowEnd s = .next t ∧ t = { s with cores := t.cores, free := t.free }
          ∧ (let y := (Machine.core t c).steep
             y.products = 0 ∧ y.events = 0 ∧ y.start = s.time ∧ y.resetReq = false ∧ y.lastEvents = (if x.products = 0 then 0 else x.events)
              ∧ (∀ p, (clus s (coreClus c)).holder = some p → y.cfg = (part s p).steep)
              ∧ (∀ m rest r, (Machine.core s c).mq = m :: rest → (Machine.core s c).mrun = some r → (Machine.core t c).mrun = some r
                  ∨ (m.block.mode ≠ 0 ∧ r.attempt = 0 ∧ (Machine.core t c).mrun = some { r with offset := y.offset, offset0 := y.offset }))
              ∧ (x.resetReq = true ∨ bits x.cfg 0 0 = 0 ∨ n = 0 → y.offset = 0)
              ∧ (x.resetReq = false → bits x.cfg 0 0 = 1 → n ≠ 0 → x.products = 0 → y.offset = x.offset)
              ∧ (x.resetReq = false → bits x.cfg 0 0 = 1 → n ≠ 0 → x.products ≠ 0 →
                  (n * x.products < x.events * 1000000 → y.offset = x.offset - 1)
                  ∧ (2 * x.events * 1000000 ≤ n * x.products → x.events * 1000000 ≤ n * x.products → x.offset < bits x.cfg 28 24 → y.offset = x.offset + 1)
                  ∧ (x.events * 1000000 ≤ n * x.products → n * x.products < 2 * x.events * 1000000 ∨ bits x.cfg 28 24 ≤ x.offset → y.offset = x.offset)))))

/-- Copy commands: a piece of the head command moves its bytes, as they stand when it moves, to its place in memory, in a scratchpad or in the slot, or leaves
as a request to another module; a line that the host caches is asked back first; a segment whose pieces have all moved ends; a walk reads its row range first, and numbers
of an index array that another module holds come before the pieces that they name; a command whose segments have ended completes once its writes are acknowledged and older than 20 ns, with its slot ready, its token idle and its status
entry; a fill is accepted when its slot has no readers.
Where the spec leaves a point open, this follows the model's choice, log 38, 52, 53. -/
def Obligations.CopyEngine : Prop :=
  ∀ s : State, s.Canonical →
    let c := s.ev.x
    let ch := s.ev.y
    (∀ m m' rest, (chan s c ch).queue = m :: rest → (chan (readWalk c ch m s) c ch).queue = m' :: rest →
      let now := fun (i : Instr) => m.ended = false ∧ m.stopped = false ∧ (i = .copySegmentEnd ∧ lastSeg m' = false ∨ i = .copyComplete ∧ lastSeg m' = true)
      let quiet := fun (l : List CopyPiece) => ∀ q ∈ l, ∀ x ∈ pieceLines s c ch m' q, s.marks.hostLines.contains x = false
      (copyRuns s c ch m = false → exec .copySegmentEnd s = .next (drew s))
      ∧ (∀ i, i = .copySegmentEnd ∨ (i = .copyComplete ∧ m.ended = false) → copyRuns s c ch m = true → holdsResv s c (1 + ch) = false →
          ∃ t, exec i s = .next t ∧ t = { s with clusters := t.clusters, free := t.free } ∧ ∃ r ∈ (clus t (coreClus c)).requests, r.core = c ∧ r.unit_ = 1 + ch)
      ∧ (m.desc.kind ≠ 4 → m' = m)
      ∧ (∀ lo hi, m.desc.kind = 4 → m.walk = none → indexAt s c ch m m.desc.firstRow = .ok lo → indexAt s c ch m (m.desc.firstRow + m.desc.rows) = .ok hi →
          m' = { m with walk := some (lo, if hi < lo then 0 else min (hi - lo) m.desc.l), status := if hi < lo then 2 else if m.desc.l < hi - lo then 1 else 0 })
      ∧ (∀ i, i = .copySegmentEnd ∨ (i = .copyComplete ∧ m.ended = false) → copyRuns s c ch m = true → holdsResv s c (1 + ch) = true → farIndices s c ch m ≠ [] →
          let l := farIndices s c ch m
          ∃ t x, exec i s = .next t ∧ SameBytes s t ∧ t.groups = s.groups ∧ (chan t c ch).queue = x :: rest ∧ x.moved = m.moved ∧ x.next = m.next
            ∧ x.index = m.index ++ (List.range l.length).map (fun k => (l.getD k 0, leNat ((List.range 4).map (fun j => s.ev.data.getD (4 * k + j) 0)))))
      ∧ (∀ i l, now i → copyRuns s c ch m = true → holdsResv s c (1 + ch) = true → farIndices s c ch m = [] → (m.desc.kind = 4 → m'.walk.isSome = true) → segPieces s c ch m' = .ok l →
          (∀ q src dst, s.ev.flag = true → l.filter (fun q => s.ev.nums.contains q.id) = [q] → pieceHit s c ch m' q = .ok (src, dst) →
            (quiet [q] → ∃ t, exec i s = .next t ∧ t.groups = s.groups
              ∧ (let byte := fun (j : Nat) => engineByte s m.who (src.getD j (.cell 0)) (s.ev.data.getD j 0)
                 (∀ va key, dst = some (va, .cell key) → (∀ j, j < q.len → cellGet t.mem (key + j) = byte j)
                    ∧ (∀ k, k < key ∨ key + q.len ≤ k → cellGet t.mem k = cellGet s.mem k) ∧ ∀ j, (team t j).pad = (team s j).pad)
                 ∧ (∀ va o off, dst = some (va, .pad o off) → t.mem = s.mem ∧ (∀ j, j < q.len → cellGet (team t o).pad (off + j) = byte j)
                    ∧ ∀ o' k, o' ≠ o ∨ k < off ∨ off + q.len ≤ k → cellGet (team t o').pad k = cellGet (team s o').pad k)
                 ∧ (∀ va n gpa, dst = some (va, .remote n gpa) → SameBytes s t ∧ ∃ f, t.net.far = s.net.far ++ [f] ∧ f.module = some n ∧ f.gpa = gpa
                    ∧ f.cmd = some (c, m.id) ∧ f.sent = s.time ∧ f.write = some ((List.range q.len).map (fun j => (j, byte j))))
                 ∧ (dst = none → SameBytes s t ∧ ∀ k, (Machine.core t c).slotB.get 0 k =
                    if m.desc.slot * 16384 + q.dst ≤ k ∧ k < m.desc.slot * 16384 + q.dst + q.len then byte (k - (m.desc.slot * 16384 + q.dst)) else (Machine.core s c).slotB.get 0 k))
              ∧ ∃ x, (chan t c ch).queue = x :: rest ∧ x.moved = m.moved ++ [q.id] ∧ x.next = m.next)
            ∧ (¬ quiet [q] → ∃ t, exec i s = .next t ∧ SameBytes s t ∧ t.groups = s.groups
                ∧ (∀ x ∈ pieceLines s c ch m' q, s.marks.hostLines.contains x = true → t.marks.asked.contains x = true)
                ∧ ∃ x, (chan t c ch).queue = x :: rest ∧ x.moved = m.moved ∧ x.next = m.next))
          ∧ (s.ev.flag = false → copyFault s c ch m' = none → quiet l →
              let u := (l.foldl (fun (r : Nat × State) q => (r.1 + q.len, movePiece c ch (s.ev.data.drop r.1) q r.2)) (0, readWalk c ch m s)).2
              ∃ t x, exec i s = .next t ∧ t.groups = s.groups ∧ (∀ k, cellGet t.mem k = cellGet u.mem k) ∧ (∀ o k, cellGet (team t o).pad k = cellGet (team u o).pad k)
                ∧ (∀ k, (Machine.core t c).slotB.get 0 k = (Machine.core u c).slotB.get 0 k) ∧ (chan t c ch).queue = x :: rest ∧ x.desc = m.desc ∧ x.status = m'.status
                ∧ (u.net.far.any (fun f => f.cmd == some (c, m.id)) = true → x.next = m.next ∧ x.ended = false ∧ holdsResv t c (1 + ch) = true)
                ∧ (u.net.far.any (fun f => f.cmd == some (c, m.id)) = false → x.next = m.next + (segUnits m').length ∧ x.moved = [] ∧ x.ended = lastSeg m'
                    ∧ holdsResv t c (1 + ch) = false)))
      ∧ (m.stopped = false → m.ended = true →
        let open_ := s.net.far.any (fun f => f.cmd == some (c, m.id)) = true ∨ gtime s (coreDie c) ≤ m.largestW + 20
        (open_ → exec .copyComplete s = .next (drew s))
        ∧ (¬ open_ → ∃ t a, exec .copyComplete s = .next t ∧ SameBytes s t ∧ (chan t c ch).queue = rest
            ∧ (m.desc.kind = 1 → (slotEnt t c m.desc.slot).state = .ready)
            ∧ ∀ g, m.who.gid = some g → (∀ x, ctok t g x = if m.desc.tok = some x then { busy := false, last := a } else ctok s g x)
                ∧ (m.desc.status = true → queueOf t g 3 = queueOf s g 3 ++ [(.ofNat 64 (m.desc.tag * 2 ^ 32 + m.next % 2 ^ 24 * 2 ^ 8 + m.status), a)]))))
    ∧ (let waits := fun (m : CopyCmd) => m.desc.kind == 1 && !m.filling && ((Machine.core s c).slotE.get {} m.desc.slot).readers == 0
       ((chan s c ch).queue.any waits = false → exec .slotFillAccept s = .next s)
       ∧ ∀ m, (chan s c ch).queue.find? waits = some m → (chan s c ch).queue.find? (fun x => x.id == m.id) = some m →
        ∃ t, exec .slotFillAccept s = .next t ∧ t = { s with cores := t.cores } ∧ (slotEnt t c m.desc.slot).state = .filling
          ∧ { m with filling := true } ∈ (chan t c ch).queue
          ∧ ∀ k, (Machine.core t c).slotB.get 0 k = if m.desc.zero = true ∧ k / 16384 = m.desc.slot then 0 else (Machine.core s c).slotB.get 0 k)

/-- Collectives and engine stops: an instance whose ranks are all accepted, agree and hold their reservations starts, and each rank receives R330's result of the sources,
a rank on another module's as it came with the event; a rank's words are written once the host caches none of their lines; it completes 20 ns after its largest
write, once its writes are acknowledged, with its token idle and its result entry, one that has ended early too; an engine command that meets a fault stops
under a trap of class 0x0B with R484's code, whose record waits while 64 traps of the partition are unresolved.
Where the spec leaves a point open, this follows the model's choice, log 38, 52, 54, 55. -/
def Obligations.CollectivesAndStops : Prop :=
  ∀ s : State, s.Canonical →
    (∀ c, collCmd s s.ev.x = some c →
      let l := collInst s c
      let w := collWidth c
      let live := l.filter collLives
      let size := fun (r : Nat) => collSource { c with rank := r } * w
      let far := fun (x : CollCmd) => s.ev.data.drop ((s.ev.nums.map size).sum + ((l.filter (fun (y : CollCmd) => decide (y.rank < x.rank))).map (fun y => collSource y * w)).sum)
      let may := (∀ r, r < c.m → (∃ x ∈ l, x.rank = r) ∨ r ∈ s.ev.nums) ∧ collAgree l = true ∧ (∀ (x : CollCmd), x ∈ l → x.started = false)
        ∧ ∀ (x : CollCmd), x ∈ live → atEngine s x = true ∧ x.stopTrap = none ∧ collRuns s x = true
      (¬ may → exec .collectiveStart s = .next s)
      ∧ (may → (∃ x ∈ live, holdsResv s x.core 3 = false) → ∃ t, exec .collectiveStart s = .next t ∧ t = { s with clusters := t.clusters })
      ∧ (may → (∀ x ∈ live, holdsResv s x.core 3 = true ∧ ∃ b, collRead s x (far x) = .ok b) →
          ∃ t, ∃ srcs : Nat → List Byte, exec .collectiveStart s = .next t ∧ SameBytes s t ∧ t.groups = s.groups
            ∧ (∀ x ∈ live, x.rank < c.m → l.find? (fun y => y.rank == x.rank) = some x → collRead s x (far x) = .ok (srcs x.rank))
            ∧ (∀ r, r < c.m → (∀ x ∈ l, x.rank ≠ r) → srcs r = (s.ev.data.drop ((s.ev.nums.filter (fun q => decide (q < r))).length * size r)).take (size r))
            ∧ ∀ x ∈ live, { x with started := true, out := (collResult x ((List.range c.m).map (fun r => elemsOf w (srcs r)))).flatMap (leBytes w) } ∈ t.net.colls))
    ∧ (∀ c0 c, collCmd s s.ev.x = some c0 → (collInst s c0).find? (fun x => x.rank == s.ev.y) = some c → collCmd s c.id = some c → c.stopTrap = none →
      let inst := collInst s c
      let all := (∀ x ∈ inst, x.started = true ∨ collLives x = false) ∧ c.m ≤ inst.length + s.ev.nums.length
      let open_ := s.net.far.any (fun f => f.cmd == some (2 ^ 20, c.id)) = true ∨ gtime s c.die ≤ c.largestW + 20
      let hit := fun (q : CopyPiece) => engineHit s c.who c.core (collHolder s c) 3 (q.dst % 2 ^ 64) q.len .engineWrite
      let quiet := fun (l : List CopyPiece) => ∀ q ∈ l, ∀ va p, hit q = .ok (va, p) → ∀ x ∈ Loc.lines p, s.marks.hostLines.contains x = false
      let Completes := ∃ t a, exec .collectiveComplete s = .next t ∧ SameBytes s t ∧ t.net.colls = s.net.colls.filter (fun x => x.id != c.id)
        ∧ ∀ g, c.who.gid = some g → (grp t g).held5 = (grp s g).held5 - 1 ∧ (∀ x, ctok t g x = if c.tok = some x then { busy := false, last := a } else ctok s g x)
            ∧ (c.status = true → queueOf t g 5 = queueOf s g 5 ++ [(.ofNat 64 (c.tag * 2 ^ 32 + c.result), a)])
      (collLives c = false → (open_ ∨ ¬ (c.result = 0x81 ∨ all ∨ c.started = true) → exec .collectiveComplete s = .next s)
        ∧ (¬ open_ → c.result = 0x81 ∨ all ∨ c.started = true → Completes))
      ∧ (collLives c = true → c.started = false → exec .collectiveComplete s = .next s)
      ∧ (collLives c = true → c.started = true → s.ev.flag = true → ∀ q va p, (collPieces c).filter (fun q => s.ev.nums.contains q.id) = [q] →
          hit q = .ok (va, p) → c.dst.toNat ≤ q.dst → q.dst - c.dst.toNat + q.len ≤ c.out.length → quiet [q] →
          ∃ t, exec .collectiveComplete s = .next t ∧ t.groups = s.groups ∧ (∃ x, collCmd t c.id = some x ∧ x.moved = c.moved ++ [q.id])
            ∧ (∀ key, p = .cell key → (∀ j, j < q.len → cellGet t.mem (key + j) = c.out.getD (q.dst - c.dst.toNat + j) 0)
                ∧ ∀ k, k < key ∨ key + q.len ≤ k → cellGet t.mem k = cellGet s.mem k)
            ∧ ∀ n gpa, p = .remote n gpa → SameBytes s t ∧ ∃ f, t.net.far = s.net.far ++ [f] ∧ f.module = some n ∧ f.gpa = gpa ∧ f.cmd = some (2 ^ 20, c.id)
                ∧ f.write = some ((List.range q.len).map (fun j => (j, c.out.getD (q.dst - c.dst.toNat + j) 0))))
      ∧ (collLives c = true → c.started = true → s.ev.flag = false → c.written = false → collFault s c = none → quiet (collPieces c) →
          let u := (collPieces c).foldl (fun s q => collMove c.id q s) s
          ∃ t, exec .collectiveComplete s = .next t ∧ t.groups = s.groups ∧ (∀ k, cellGet t.mem k = cellGet u.mem k) ∧ t.net.far = u.net.far
            ∧ ∃ x, collCmd t c.id = some x ∧ x.written = true)
      ∧ (collLives c = true → c.started = true → s.ev.flag = false → c.written = true →
          (open_ → exec .collectiveComplete s = .next s) ∧ (¬ open_ → Completes)))
    ∧ (s.host.fltSize = 0 →
      let Made := fun (t : State) (p : Nat) (r : Trap) => if 64 ≤ pendingTraps s p then (r, (part s p).hvec) ∈ t.trapQ else r ∈ t.traps
      (∀ m rest, s.ev.y = 0 → (Machine.core s s.ev.x).mq = m :: rest → m.stopped = false → m.seg < m.block.segs → m.status < 0x40 →
        (handlerRecord s m.who.part).isSome = true →
        let seen := (((Machine.core s s.ev.x).mrun).map MRun.seen).getD 0
        let bad := chunksBad s s.ev.x m seen (chunksReach s s.ev.x m seen 0)
        (bad = false → exec .engineFaultStop s = .next s)
        ∧ (bad = true → ∃ t x, exec .engineFaultStop s = .next t ∧ t.mem = s.mem ∧ t.groups = s.groups
            ∧ (Machine.core t s.ev.x).mrun = none
            ∧ (∃ (r : Trap), Made t m.who.part r ∧ r.fr.tid = x ∧ r.fr.cls = 0xB ∧ r.fr.code = 0xF ∧ r.fr.detail = .ofNat 64 m.addr ∧ r.fr.pc = m.who.pc)
            ∧ (Machine.core t s.ev.x).mq = { m with stopped := true, stopTrap := some x } :: rest))
      ∧ (∀ ch m rest, s.ev.y = 1 + ch → ch < 2 → (chan s s.ev.x ch).queue = m :: rest → m.stopped = false → m.ended = false →
        (handlerRecord s m.who.part).isSome = true →
        let lost := s.net.far.any (fun f => f.cmd == some (s.ev.x, m.id) && f.refused) || s.ev.flag
        let index := fun (i : Nat) => match indexAt s s.ev.x ch m i with
          | .error f => engineCode f
          | .ok _ => none
        let walkBad := if m.desc.kind = 4 ∧ m.walk = none then (index m.desc.firstRow).orElse (fun _ => index (m.desc.firstRow + m.desc.rows)) else none
        let code := walkBad.orElse (fun _ => if lost then some 6 else (copyFault s s.ev.x ch m).bind engineCode)
        (holdsResv s s.ev.x (1 + ch) = false → lost = false → exec .engineFaultStop s = .next s)
        ∧ (holdsResv s s.ev.x (1 + ch) = true ∨ lost = true →
            (code = none → exec .engineFaultStop s = .next s)
            ∧ ∀ k, code = some k → ∃ t x, exec .engineFaultStop s = .next t ∧ t.mem = s.mem ∧ t.groups = s.groups
              ∧ (∃ (r : Trap), Made t m.who.part r ∧ r.fr.tid = x ∧ r.fr.cls = 0xB ∧ r.fr.code = k ∧ r.fr.detail = .ofNat 64 m.addr)
              ∧ (chan t s.ev.x ch).queue = { m with stopped := true, stopTrap := some x, moved := [], index := [], start := 0 } :: rest))
      ∧ ∀ c, s.ev.y = 3 → collCmd s s.ev.z = some c → c.stopTrap = none → collLives c = true → atEngine s c = true → (handlerRecord s c.who.part).isSome = true →
        let code := if s.net.far.any (fun f => f.cmd == some (2 ^ 20, s.ev.z) && f.refused) || s.ev.flag then some 6
          else if c.started then (if c.written then none else (collFault s c).bind engineCode)
          else match collRead s c [] with
            | .error f => engineCode f
            | .ok _ => none
        (code = none → exec .engineFaultStop s = .next s)
        ∧ ∀ k, code = some k → ∃ t x, exec .engineFaultStop s = .next t ∧ t.mem = s.mem ∧ t.groups = s.groups
          ∧ (∃ (r : Trap), Made t c.who.part r ∧ r.fr.tid = x ∧ r.fr.cls = 0xB ∧ r.fr.code = k ∧ r.fr.detail = .ofNat 64 c.addr)
          ∧ collCmd t s.ev.z = some { c with stopTrap := some x, written := false, moved := [] })

/-! ### Graphs -/

/-- Graphs: a store to GSUB, by a VF that serves the partition if by one, queues its address, or is dropped and counted when 16 wait; the walker takes the oldest and accepts its graph, whose nodes without predecessors
are Ready, or stores the code of R480 in its done word; one in which no node is Ready completes at once; a Ready node that may be dispatched first is dispatched
as its kind says, and a copy or collective node stands dispatched until an engine accepts its command, and a host signal stands so until its store is released; a node that has ended arrives at its successors, and a
torn one is Ready again.
Where the spec leaves a point open, this follows the model's choice, log 64, 66, 101. -/
def Obligations.GraphEvents : Prop :=
  ∀ s : State,
    let p := s.ev.x
    let g := s.ev.y
    let n := s.ev.z
    let next := fun (w : State) (m : Nat) => m ≠ n ∧ (nodeOf w p g m).state = .waiting ∧ (nodeOf w p g m).preds = 1 ∧ (nodeOf w p g m).arrivals = 0 ∧ (nodeOf w p g m).doneArrivals = 0
    let noWhile := fun (w : State) (m : Nat) => ∀ y ∈ (graphOf w p g).nodes, y.kind = 4 → y.state = .running → (bodyOf y).2.1 ≠ m
    let shut := (part s p).state ≠ .ready ∨ (part s p).erased = true
    let other := s.ev.flag = true ∧ (hostOpen s = false ∨ vfServes s s.ev.y ≠ some p)
    (shut → exec .graphSubmit s = .next s ∧ exec .graphAccept s = .next s)
    ∧ (other → exec .graphSubmit s = .next s)
    ∧ (¬ shut → ¬ other →
      (16 ≤ (part s p).gsub.length → ∃ t, exec .graphSubmit s = .next t ∧ t = { s with parts := t.parts } ∧ part t p = { part s p with dropped := min ((part s p).dropped + 1) 0xFFFF })
      ∧ ((part s p).gsub.length < 16 → ∃ t, exec .graphSubmit s = .next t ∧ t = { s with parts := t.parts }
          ∧ part t p = { part s p with gsub := (part s p).gsub ++ [.ofNat 64 (bits s.ev.word 55 6 * 64)] }))
    ∧ ((part s p).gsub = [] ∨ (part s p).suspended = true → exec .graphAccept s = .next s)
    ∧ (∀ a rest, (part s p).gsub = a :: rest → (part s p).suspended = false → ¬ shut →
        let u := modPart p (fun x => { x with gsub := rest }) s
        let Stores := fun (va v : Nat) (t : State) => WalkerStored p va (leBytes 8 v) u t ∧ (part t p).gsub = rest ∧ ∀ k, (graphOf t p k).live = (graphOf s p k).live
        (walkerRead u p a.toNat 48 = none → exec .graphAccept s = .next u)
        ∧ ∀ h, walkerRead u p a.toNat 48 = some h →
          (fld h 0x20 8 % 8 ≠ 0 → exec .graphAccept s = .next u)
          ∧ (fld h 0x20 8 % 8 = 0 →
            let found := if headerBad h then some (1, 0xFFFFFFFF) else match freeGraph u p with
              | none => some (0xA, 0xFFFFFFFF)
              | some _ => match checkGraph u p (fld h 0 8) (fld h 8 2) with
                | .error e => some e
                | .ok _ => none
            (∀ code i, found = some (code, i) → ∃ t, exec .graphAccept s = .next t ∧ Stores (fld h 0x20 8) (2 + code * 2 ^ 8 + i * 2 ^ 32) t ∧ (part t p).accepted = (part s p).accepted)
            ∧ (∀ k ns, headerBad h = false → freeGraph u p = some k → checkGraph u p (fld h 0 8) (fld h 8 2) = .ok ns →
                ((∃ x ∈ ns, x.preds = 0) → ∃ t, exec .graphAccept s = .next t ∧ t = { s with parts := t.parts } ∧ (part t p).gsub = rest
                  ∧ (part t p).accepted = ((part s p).accepted + 1) % 2 ^ 32
                  ∧ (graphOf t p k).live = true ∧ (graphOf t p k).tag = fld h 0xA 2 ∧ (graphOf t p k).doneWord = .ofNat 64 (fld h 0x20 8)
                  ∧ (graphOf t p k).saveArea = .ofNat 64 (fld h 0x10 8) ∧ (graphOf t p k).saveSize = fld h 0x18 4
                  ∧ (graphOf t p k).nodes = ns.map (fun x => if x.preds = 0 then { x with state := .ready, readyAt := walkerTime s p } else x))
                ∧ ((∀ x ∈ ns, x.preds ≠ 0 ∧ x.state = .waiting) → ∃ t, exec .graphAccept s = .next t ∧ Stores (fld h 0x20 8) 1 t
                  ∧ (part t p).accepted = ((part s p).accepted + 1) % 2 ^ 32))))
    ∧ (let u := mergeDecls p (nodeOf s p g n).decls s
      let x := nodeOf s p g n
      let c := s.ev.nums.getD 0 0
      let ch := s.ev.nums.getD 1 0 % 2
      let stands := x.state = .dispatched ∧ (x.kind = 1 ∨ x.kind = 2)
      let may := canDispatch u p g n && firstReady u p g n
      let takes := fun (w : State) => engineCore w p x.aff c = true ∧ (x.kind = 1 → (chan w c ch).queue.length < 16)
      let v := modNode p g n (fun y => { y with state := .dispatched, dispatchAt := walkerTime u p }) (dispatchRecord p g n u)
      ((part s p).suspended = true ∨ (graphOf s p g).live = false → exec .nodeDispatch s = .next s)
      ∧ ((part s p).suspended = false → (graphOf s p g).live = true →
        (stands → (¬ takes s → exec .nodeDispatch s = .next s) ∧ (takes s → ∃ t, exec .nodeDispatch s = .next t ∧ NodeAccepted p g n c ch s t))
        ∧ (¬ stands → may = false → exec .nodeDispatch s = .next s)
        ∧ (¬ stands → may = true →
          (x.kind = 0 → clusterFor v p x.aff x.record.gang = true → ∃ t l b, exec .nodeDispatch s = .next t ∧ (launch t l).record = x.record ∧ (launch t l).part = p
              ∧ (launch t l).id = nodeId t p g n ∧ (launch t l).handler = none ∧ (launch t l).code = t.mem
              ∧ (x.decls.all (fun d => d.access != 3) = true → (nodeOf t p g n).state = .dispatched ∧ (nodeOf t p g n).launch = l ∧ t.mem = v.mem ∧ t.groups = v.groups)
              ∧ ∀ i, i < x.record.t → team t (b + i) = { part := p, launch := l, index := i, pendingAt := t.time })
          ∧ (x.kind = 0 → clusterFor v p x.aff x.record.gang = false → x.succ = [] → noWhile v n → ∃ t, exec .nodeDispatch s = .next t ∧ t.groups = v.groups
              ∧ (nodeOf t p g n).state = .skipped ∧ (nodeOf t p g n).failed = true)
          ∧ (x.kind = 1 ∨ x.kind = 2 → (¬ takes v → exec .nodeDispatch s = .next v) ∧ (takes v → ∃ t, exec .nodeDispatch s = .next t ∧ NodeAccepted p g n c ch v t))
          ∧ (∀ w m, x.kind = 3 → walkerRead v p x.object.toNat 8 = some w → x.succ[min (leNat w) (x.succ.length - 1)]? = some m → x.succ.Nodup → x.succ.length ≤ 6 → (∀ a ∈ x.succ, next v a) →
              (∀ a ∈ x.succ, a ≠ m → noWhile v a ∧ (nodeOf v p g a).succ = []) →
              ∃ t, exec .nodeDispatch s = .next t ∧ t.mem = v.mem ∧ t.groups = v.groups ∧ (nodeOf t p g n).state = .complete
                ∧ (nodeOf t p g m).state = .ready ∧ ∀ a ∈ x.succ, a ≠ m → (nodeOf t p g a).state = .skipped)
          ∧ (x.kind = 3 ∨ x.kind = 4 → walkerRead v p x.object.toNat 8 = none → x.unreplayable = false → x.kills < 2 → ∃ t, exec .nodeDispatch s = .next t ∧ t.groups = v.groups
              ∧ (nodeOf t p g n).state = .ready ∧ (nodeOf t p g n).kills = x.kills + 1)
          ∧ (∀ w, x.kind = 4 → walkerRead v p x.object.toNat 8 = some w →
              let f := (bodyOf x).1
              let l := (bodyOf x).2.1
              let lim := (bodyOf x).2.2
              let again := leNat w ≠ 0 ∧ (lim = 0 ∨ x.count < lim)
              (again → f ≤ l → n < f ∨ l < n → (nodeOf v p g f).preds = 1 → ∃ t, exec .nodeDispatch s = .next t ∧ t.mem = v.mem ∧ t.groups = v.groups
                ∧ (nodeOf t p g n).state = .running ∧ (nodeOf t p g n).count = x.count + 1 ∧ (nodeOf t p g f).state = .ready)
              ∧ (¬ again → ∀ m, x.succ = [m] → next v m → noWhile v n → ∃ t, exec .nodeDispatch s = .next t ∧ t.mem = v.mem ∧ t.groups = v.groups ∧ (nodeOf t p g n).state = .complete
                  ∧ (nodeOf t p g m).state = .ready))
          ∧ (∀ m, x.kind = 5 → x.succ = [m] → next v m → noWhile v n → ∃ t, exec .nodeDispatch s = .next t ∧ t.mem = v.mem ∧ t.groups = v.groups ∧ (nodeOf t p g n).state = .complete
              ∧ (nodeOf t p g m).state = .ready)
          ∧ ∀ m, x.kind = 6 → x.succ = [m] → next v m → noWhile v n → ∃ t, exec .nodeDispatch s = .next t ∧ WalkerStored p x.object.toNat (leBytes 8 x.value.toNat) v t
              ∧ t.groups = v.groups
              ∧ (let w := walkerStore p x.object.toNat (leBytes 8 x.value.toNat) v
                 let open_ := walkerMsgs w p ≠ [] ∨ walkerTime w p ≤ wordW w p x.object.toNat + 20
                 (open_ → t = w ∧ (nodeOf t p g n).state = .dispatched)
                  ∧ (¬ open_ → (∃ l, t.host.out = l ++ [.signal p]) ∧ (nodeOf t p g n).state = .complete ∧ (nodeOf t p g m).state = .ready)))))
    ∧ (let x := nodeOf s p g n
      let open_ := s.teams.any (fun t => t.2.launch == x.launch && t.2.part == p && t.2.state != .complete) || !launchQuiet s p x.launch
      let merged := mergeDecls p x.decls s
      let held := x.decls.any (fun d => if d.access = 1 then s.tokens.any (fun t => t.part == p && t.base == d.base && t.sharers.any (isLost s p)) else !walkerHolds merged p d)
      let u := returnAll p g n x.holder x.decls s
      let back := x.decls.all (fun d => u.tokens.any (fun t => t.part == p && t.base == d.base && t.moving.isNone && t.owner != x.holder
        && (!t.sharers.contains x.holder || shareNeeded u p g n d.base)))
      let Ends := fun (m : Nat) => ∃ t, exec .nodeComplete s = .next t ∧ t.mem = s.mem ∧ (nodeOf t p g n).state = .complete ∧ (nodeOf t p g m).state = .ready
        ∧ (x.decls = [] → t.groups = s.groups) ∧ (x.kind = 0 → ∀ q ∈ t.teams, ¬ (q.2.launch = x.launch ∧ q.2.part = p))
      ((graphOf s p g).live = false ∨ (2 < x.kind ∧ x.kind ≠ 6) ∨ (x.state ≠ .dispatched ∧ x.state ≠ .running) → exec .nodeComplete s = .next s)
      ∧ ((graphOf s p g).live = true →
        (x.kind = 0 → x.state = .running ∨ x.state = .dispatched → (open_ = true ∨ held = true → exec .nodeComplete s = .next s)
          ∧ (open_ = false → held = false → ringOn s p .cr = false → ringOn s p .hs = false → noWhile s n → ∀ m, x.succ = [m] → next s m → Ends m))
        ∧ (x.kind = 6 → x.state = .dispatched ∨ x.state = .running →
          let open_ := walkerMsgs s p ≠ [] ∨ walkerTime s p ≤ wordW s p x.object.toNat + 20
          (open_ → exec .nodeComplete s = .next s)
          ∧ (¬ open_ → noWhile s n → ∀ m, x.succ = [m] → next s m → Ends m ∧ ∃ t, exec .nodeComplete s = .next t ∧ ∃ l, t.host.out = l ++ [.signal p]))
        ∧ (x.kind = 1 ∨ x.kind = 2 → x.state = .dispatched ∨ nodeBusy s p g n = true → exec .nodeComplete s = .next s)
        ∧ (x.kind = 1 ∨ x.kind = 2 → x.state = .running → nodeBusy s p g n = false →
          (back = false → exec .nodeComplete s = .next u)
          ∧ (back = true → x.tear = true → x.unreplayable = false → x.kills < 2 → ∃ t, exec .nodeComplete s = .next t ∧ (nodeOf t p g n).state = .ready
              ∧ (nodeOf t p g n).kills = x.kills + 1)
          ∧ (back = true → x.tear = false → ringOn s p .cr = false → noWhile s n → ∀ m, x.succ = [m] → next s m → Ends m))))

/-! ### Teams -/

/-- Teams start, leave and come back: the first pending team that fits is placed on its core with fresh groups at the entry point, and those before it have been passed over; a team
that was passed over 100 µs ago blocks; a team whose groups have exited settles its tokens, then completes and frees its slots and tiles; a stopped team is saved with
its tiles and slots, its image in its graph's save area, or lost; a saved team comes back with them once its accesses have completed; once per millisecond
partitions below their targets take a free cluster, or one from the partition above its target.
Where the spec leaves a point open, this follows the model's choice, log 68, 69, 70, 71, 72, 73, 76, 102. -/
def Obligations.TeamEvents : Prop :=
  ∀ s : State,
    let p := s.ev.x
    (nextPlaces s p = none → exec .teamPlace s = .next s ∧ exec .teamResume s = .next s)
    ∧ (∀ u l, nextPlaces s p = some (u, l) →
        let Passed := fun (t : State) => ∀ x ∈ pendingTeams s p, pendKey s x < pendKey s u → (∀ q ∈ l, q.1 ≠ x) → (team t x).passedAt = some ((team s x).passedAt.getD s.time)
        ((team s u).state = .saved → exec .teamPlace s = .next s)
        ∧ ((team s u).state ≠ .saved → exec .teamResume s = .next s)
        ∧ (∀ c, (team s u).state = .waiting → l = [(u, c)] →
          let la := launch s (team s u).launch
            ∃ t slices, exec .teamPlace s = .next t ∧ t.mem = s.mem ∧ placeAll (sliceFree s c) (budgets la.record) = some slices ∧ Passed t
              ∧ (la.handler.isSome = true ∨ (nodeOf s (team s u).part la.graph la.node).decls = [] → t.tokens = s.tokens ∧ t.cores = s.cores)
              ∧ (la.handler = none → (nodeOf s la.part la.graph la.node).state = .dispatched → (nodeOf t la.part la.graph la.node).state = .running)
              ∧ (team t u).state = .resident ∧ (team t u).core = c ∧ (team t u).everResident = true ∧ (team t u).blocking = false ∧ (team t u).launch = (team s u).launch ∧ (team t u).handles = la.handler
              ∧ (la.record.priv = false → (team t u).block = none) ∧ (∀ b, (freeBlocks s (team s u).part).head? = some b → la.record.priv = true → (team t u).block = some b)
              ∧ ∀ i, i < (budgets la.record).length →
                  let g := grp t (s.ids.group + i)
                  g.team = u ∧ g.core = c ∧ g.place = i ∧ some g.slice = slices.1[i]? ∧ some g.budget = (budgets la.record)[i]? ∧ g.consumer = decide (la.record.p ≤ i)
                    ∧ g.exited = false ∧ g.resident = true ∧ g.level = (if la.handler.isSome then 1 else 0) ∧ kGet t (s.ids.group + i) 0 = la.record.args
                    ∧ ∀ k, k < 32 → (lane t (s.ids.group + i) k).exited = false ∧ (lane t (s.ids.group + i) k).pc = la.record.entry ∧ (lane t (s.ids.group + i) k).clause = none)
        ∧ ((team s u).state = .saved → (l.any (fun q => (liveGroups s q.1).any (fun g => !resumeFence s g q.2)) = true → exec .teamResume s = .next s))
        ∧ (∀ c, (team s u).state = .saved → l = [(u, c)] → (liveGroups s u).all (fun g => resumeFence s g c) = true →
            ∃ t, exec .teamResume s = .next t ∧ SameBytes s t ∧ RegsKept 0 [] s t ∧ Passed t
                ∧ (team t u).state = .resident ∧ (team t u).core = c ∧ (team t u).saved = {}
                ∧ (∀ g ∈ liveGroups s u, (grp t g).resident = true ∧ (grp t g).core = c ∧ (grp t g).withdrawn = []
                    ∧ (grp t g).floorL1 = max (grp s g).floorL1 (s.time + 1) ∧ (grp t g).floorL2 = max (grp s g).floorL2 (s.time + 1))
                ∧ (∀ n e w, (team s u).saved.tiles = [(n, e, w)] → tileEnt t c n = e) ∧ (∀ n e b, (team s u).saved.slots = [(n, e, b)] → slotEnt t c n = e)
                ∧ (Machine.core t c).mq = (Machine.core s c).mq ++ (team s u).saved.mq ∧ (Machine.core t c).deposits = (Machine.core s c).deposits ++ (team s u).saved.deposits))
    ∧ (let late := isPending (team s p) = true ∧ ∃ n, (team s p).passedAt = some n ∧ n + 100000 ≤ s.time
       (¬ late → exec .teamBlocking s = .next s)
       ∧ (late → ∃ t, exec .teamBlocking s = .next t ∧ t = { s with teams := t.teams } ∧ team t p = { team s p with blocking := true }))
    ∧ (let tm := team s p
      let h := teamHolder s p
      let v := settleTeam tm.part h s
      let open_ := !(liveGroups s p).isEmpty || teamBusy s p || (Machine.core s tm.core).deposits.any (fun d => d.team == p) || (Machine.core s tm.core).formed.any (fun f => f.team == p)
      (open_ = true ∨ tm.state ≠ .resident → exec .teamComplete s = .next s)
      ∧ (open_ = false → tm.state = .resident →
          ((∀ k ∈ s.tokens, k.part = tm.part → k.owner ≠ h ∧ k.outer ≠ h ∧ k.inner ≠ h ∧ h ∉ k.sharers ∧ (∀ o ∈ k.waiting, o.holder ≠ h) ∧ ∀ m, k.moving = some m → m.1.holder ≠ h) →
            v.tokens = s.tokens ∧ holderNamed v tm.part h = false)
          ∧ (holderNamed v tm.part h = true → exec .teamComplete s = .next v)
          ∧ (holderNamed v tm.part h = false → ∃ t, exec .teamComplete s = .next t ∧ t.mem = s.mem ∧ t.tokens = v.tokens ∧ (team t p).state = .complete ∧ (team t p).block = none
            ∧ (∀ n, (slotEnt s tm.core n).holder = some p → (slotEnt t tm.core n).holder = none ∧ (slotEnt t tm.core n).state = .empty)
            ∧ ∀ n g, (tileEnt s tm.core n).holder = some g → (grp s g).team = p → (tileEnt t tm.core n).holder = none ∧ (tileEnt t tm.core n).state = .empty)))
    ∧ ((part s p).erased = true → exec .teamPreempt s = .next s)
    ∧ ((part s p).erased = false →
      (∀ u, let la := launch s (team s u).launch
        let c := (team s u).core
        let area := graphOf s (team s u).part la.graph
        let lines := shadowLines s (team s u).launch
        let quiet := (∀ x ∈ lines, s.marks.hostLines.contains x = false) ∧ s.trapQ = [] ∧ ∀ q ∈ s.groups, q.2.part = (team s u).part → ∀ st ∈ q.2.stops, st.recorded = true
        (stoppedUnit s p = some ([u], 1) → (team s u).state = .resident → (∀ g ∈ liveGroups s u, ∀ k ∈ s.tokens, ∀ o ∈ k.waiting, o.gid ≠ some g) →
          ∃ t, exec .teamPreempt s = .next t ∧ RegsKept 0 [] s t ∧ (∀ i k, cellGet (team t i).pad k = cellGet (team s i).pad k)
            ∧ (la.handler.isSome = true → t.mem = s.mem)
            ∧ (s.Canonical → ∀ k, cellGet t.mem k ≠ cellGet s.mem k →
                ∃ i, i < 4096 * area.saveSize ∧ walkerKeys s (team s u).part (area.saveArea.toNat + i) 1 = .ok [k])
            ∧ t.tokens.map (fun k => { k with lastW := 0 }) = s.tokens.map (fun k => { k with lastW := 0 })
            ∧ (team t u).state = .saved ∧ (team t u).goal = 0 ∧ (team t u).pendingAt = s.time ∧ (team t u).passedAt = none
            ∧ (team t u).saved.tiles = (heldState s u c).1 ∧ (team t u).saved.slots = (heldState s u c).2 ∧ (team t u).saved.mq = (Machine.core s c).mq.filter (fun m => m.who.gid.isSome && m.who.team == u)
            ∧ (team t u).saved.deposits = (Machine.core s c).deposits.filter (fun d => d.team == u)
            ∧ (∀ n, (slotEnt s c n).holder = some u → (slotEnt t c n).holder = none) ∧ (∀ q ∈ t.groups, q.2.team = u → q.2.resident = false)
            ∧ ∀ g ∈ liveGroups s u, StreamsKept g s t ∧ ∀ n, ((grp t g).x.get {} n).ahead = [])
        ∧ (∀ us k, stoppedUnit s p = some (u :: us, k) → k ≠ 1 → (∃ x ∈ lines, s.marks.hostLines.contains x = true) → ∃ t, exec .teamPreempt s = .next t ∧ SameBytes s t
            ∧ t.groups = s.groups ∧ t.teams = s.teams ∧ ∀ x ∈ lines, s.marks.hostLines.contains x = true → t.marks.asked.contains x = true)
        ∧ (stoppedUnit s p = some ([u], 2) → quiet → la.handler.isSome = true ∨ (nodeOf s la.part la.graph la.node).kills < 2 → (team s u).everResident = true → (team s u).state = .resident →
            ∃ t, exec .teamPreempt s = .next t ∧ team t u = { part := (team s u).part, launch := (team s u).launch, index := (team s u).index, pendingAt := s.time, everResident := true }
              ∧ (∀ q ∈ t.groups, q.2.team ≠ u) ∧ ⟨(team s u).part, teamHolder s u, s.time⟩ ∈ t.losts
              ∧ (la.handler = none → (nodeOf t la.part la.graph la.node).kills = (nodeOf s la.part la.graph la.node).kills + 1 ∨ (nodeOf s la.part la.graph la.node) = {}))
        ∧ (stoppedUnit s p = some ([u], 2) → quiet → la.handler = none → 2 ≤ (nodeOf s la.part la.graph la.node).kills → (team s u).state ≠ .complete → ∃ t, exec .teamPreempt s = .next t ∧ SameBytes s t ∧ t.groups = s.groups
            ∧ (team t u).goal = 3)
        ∧ (∀ us, stoppedUnit s p = some (u :: us, 3) → quiet → la.handler = none → ∃ t, exec .teamPreempt s = .next t ∧ ∀ q ∈ t.teams, ¬ (q.2.launch = (team s u).launch ∧ q.2.part = la.part)))
      ∧ (stoppedUnit s p = none → (nextVictims s p = none → exec .teamPreempt s = .next s)
          ∧ ∀ vs, nextVictims s p = some vs → ∃ t, exec .teamPreempt s = .next t ∧ t = { s with teams := t.teams } ∧ ∀ v ∈ vs, ∀ i ∈ together s v, 1 ≤ (team t i).goal))
    ∧ (s.time / 1000000 ≤ s.power.svc → exec .serviceEvaluation s = .next s)
    ∧ (s.power.svc < s.time / 1000000 →
        let w := (keysOf s.teams (fun _ x => x.state == .resident)).foldl (fun s x => accountTeam x s) { s with power := { s.power with svc := s.time / 1000000 } }
        (keysOf w.parts (fun _ x => x.state == .ready) = [] → exec .serviceEvaluation s = .next w)
        ∧ (∀ q u rest, keysOf w.parts (fun _ x => x.state == .ready) = [q] → pendingTeams w q = u :: rest →
          let good := fun (c : Nat) => affOk (launch w (team w u).launch).aff (clusDie c) && (List.range 8).any (fun i => vdt w q i == some (clusDie c))
          (0 < shortBy (part w q) → ∀ c, (freeClusters w).find? good = some c → ∃ t, exec .serviceEvaluation s = .next t ∧ t.mem = s.mem ∧ t.teams = w.teams
              ∧ (let th := (die w (clusDie c)).therm
                 let y : Cluster := { holder := some q }
                 clus t c = { y with ratioLimit := ratioCap th false, matClock := clockCode th false, headroom := false, budget := y.epochBudget * thermFactor th / 4 })
              ∧ (∀ k ∈ clusCores c, (Machine.core t k).steep = { cfg := (part w q).steep, start := s.time }) ∧ ∀ x, x ≠ c → clus t x = clus w x)
          ∧ (shortBy (part w q) ≤ 0 → ∃ t, exec .serviceEvaluation s = .next t ∧ t.clusters = w.clusters ∧ (part t q).delivered.head? = some ((part w q).met.ctr.get 0 0)))
        ∧ ∀ q r u rest, keysOf w.parts (fun _ x => x.state == .ready) = [q, r] → q ≠ r → pendingTeams w q = u :: rest → pendingTeams w r = [] →
          let good := fun (c : Nat) => affOk (launch w (team w u).launch).aff (clusDie c) && (List.range 8).any (fun i => vdt w q i == some (clusDie c))
          (∀ c, (clus w c).holder = none ∨ (clus w c).holder = some q ∨ (clus w c).holder = some r) → 0 < shortBy (part w q) → shortBy (part w r) < 0 →
          (freeClusters w).find? good = none → ∀ c rest, (keysOf w.clusters (fun c x => good c && x.holder == some r)).filter (mayLeave w) = c :: rest →
          ∃ t, exec .serviceEvaluation s = .next t ∧ t.mem = s.mem ∧ t.teams = w.teams ∧ (clus t c).draining = some q ∧ (clus t c).holder = some r)

/-! ### Power and clusters -/

/-- Power: a cluster's arbiter grants the first request of R382's order when budget and capacitor bank allow and no lower cluster of the die can grant, else none; the bank gets an amount back after 20 ns; an epoch gives a partition its floor
share and its part of the surplus, at most its demand, and its clusters their budgets; a die's temperature gives its thermal state and its clusters their limits.
Where the spec leaves a point open, this follows the model's choice, log 77, 78. -/
def Obligations.PowerEvents : Prop :=
  ∀ s : State,
    let c := s.ev.x
    let d := s.ev.x
    (∀ r ∈ (clus s c).requests, (∀ q ∈ (clus s c).requests, q ≠ r → resvBefore r q = true) →
        ((clus s c).budget < grantedCu (clus s c) + r.amount ∨ (die s (clusDie c)).cap < 256 + r.amount → exec .arbiterGrant s = .next s)
        ∧ ((∃ k ∈ dieClusters (clusDie c), k < c ∧ canGrant s k = true) → exec .arbiterGrant s = .next s)
        ∧ (grantedCu (clus s c) + r.amount ≤ (clus s c).budget → 256 + r.amount ≤ (die s (clusDie c)).cap → (clus s c).requests = [r] → (∀ k ∈ dieClusters (clusDie c), k < c → canGrant s k = false) →
            ∃ t, exec .arbiterGrant s = .next t ∧ t = { s with clusters := t.clusters, dies := t.dies, cores := t.cores } ∧ (clus t c).requests = [] ∧ (clus t c).grants = (clus s c).grants ++ [r]
              ∧ (∀ k, k ≠ c → clus t k = clus s k) ∧ (die t (clusDie c)).cap = (die s (clusDie c)).cap - r.amount
              ∧ (die t (clusDie c)).restores = (die s (clusDie c)).restores ++ [(s.time + 20, r.amount)]
              ∧ (r.unit_ < 4 → t.cores = s.cores)
              ∧ (4 ≤ r.unit_ → ((Machine.core t r.core).slices.get {} (r.unit_ - 4)).resv = ((Machine.core s r.core).slices.get {} (r.unit_ - 4)).resv + r.amount)))
    ∧ ((clus s c).requests = [] → exec .arbiterGrant s = .next s)
    ∧ (∃ t, exec .capacitorRestore s = .next t ∧ t = { s with dies := t.dies } ∧ (∀ k, k ≠ d → die t k = die s k)
        ∧ die t d = { die s d with cap := min 1024 ((die s d).cap + (((die s d).restores.filter (fun r => decide (r.1 ≤ s.time))).map Prod.snd).sum),
                                   restores := (die s d).restores.filter (fun r => decide (s.time < r.1)) })
    ∧ (∃ t, exec .capacitorBankLow s = .next t ∧ t = { s with dies := t.dies } ∧ (∀ k, k ≠ d → die t k = die s k) ∧ die t d = { die s d with bankLow := true }
        ∧ ∀ g, coreDie (grp s g).core = d → canGo t g = false)
    ∧ (∃ t, exec .capacitorBankRecovery s = .next t ∧ t = { s with dies := t.dies } ∧ (∀ k, k ≠ d → die t k = die s k) ∧ die t d = { die s d with bankLow := false })
    ∧ (s.time / 1000000 ≤ s.power.epoch → exec .powerEpoch s = .next s)
    ∧ (s.power.epoch < s.time / 1000000 →
        (keysOf s.parts (fun _ x => x.state == .ready) = [] → ∃ t, exec .powerEpoch s = .next t ∧ t = { s with power := t.power } ∧ t.power.epoch = s.time / 1000000)
        ∧ ∀ p, keysOf s.parts (fun _ x => x.state == .ready) = [p] → (part s p).tier < 4 →
          let cl := clustersHeld s p
          let spare : Rat := (s.power.cap : Rat) - (((s.host.unattrNj - s.power.unattrEpoch : Nat) : Rat) / 1000000) - floorAlloc s p
          let need : Rat := demand s p - floorAlloc s p
          let give : Rat := floorAlloc s p + if need = 0 then 0 else min (if (part s p).tier = 0 then spare else max 0 spare) need
          ∃ t, exec .powerEpoch s = .next t ∧ t = { s with power := t.power, parts := t.parts, clusters := t.clusters, cores := t.cores, free := t.free } ∧ t.power.epoch = s.time / 1000000
            ∧ part t p = { part s p with alloc := tenths give, measured := tenths (epochPower (part s p)), epochNj := (part s p).energyNj }
            ∧ ∀ k ∈ cl, (clus t k).epochBudget = min 1023 (tenths (give / (cl.length : Rat))) ∧ (clus t k).waited = false
                ∧ (clus t k).budget = (clus t k).epochBudget * thermFactor (die s (clusDie k)).therm / 4
                ∧ (clus t k).ratioLimit = ratioCap (die s (clusDie k)).therm (clus t k).headroom ∧ (clus t k).matClock = clockCode (die s (clusDie k)).therm (clus t k).headroom)
    ∧ (s.time / 10000 ≤ (die s d).sampled → exec .thermalSample s = .next s)
    ∧ ((die s d).sampled < s.time / 10000 → ∃ t temp, exec .thermalSample s = .next t ∧ t.mem = s.mem ∧ t.groups = s.groups ∧ (die t d).temp = temp
        ∧ (let nx := thermNext s (die s d).therm temp
          let change := nx ≠ (die s d).therm ∧ (die s d).thermAt + 1000000 ≤ s.time
          (change → (die t d).therm = nx ∧ (die t d).thermAt = s.time
            ∧ ∀ k ∈ dieClusters d, (clus t k).budget = (clus s k).epochBudget * thermFactor nx / 4 ∧ (clus t k).ratioLimit = ratioCap nx (clus t k).headroom)
          ∧ (¬ change → (die t d).therm = (die s d).therm ∧ t.clusters = s.clusters))
        ∧ (10 * s.power.t3 ≤ temp → (die s d).failed = false → (⟨0, .dieFatalError, { x := d, flag := true }⟩ : Item) ∈ t.agenda)
        ∧ ((die s d).thermalFail = true → temp < 10 * s.power.t1 → (⟨0, .diereset, { x := d, flag := true }⟩ : Item) ∈ t.agenda))

/-- Clusters sleep and wake as R393 and R394 say: each store to the cluster's block and each event of its states takes it to the state given there, the save keeps and the restore brings back each
core's map image and steep controller, and a cluster that moves is cleared before its new partition holds it.
Where the spec leaves a point open, this follows the model's choice, log 80. -/
def Obligations.ClusterStates : Prop :=
  ∀ s : State,
    let c := s.ev.x
    let x := clus s c
    let one := bits s.ev.word 0 0 = 1
    let goes := fun (i : Instr) (n : Nat) => ∃ t, exec i s = .next t ∧ SameBytes s t ∧ RegsKept 0 [] s t ∧ t.cores = s.cores ∧ (clus t c).state = n ∧ (clus t c).since = s.time
      ∧ (clus t c).holder = x.holder ∧ ∀ k, k ≠ c → clus t k = clus s k
    (∀ k, seeBlock c k s = { s with groups := (seeBlock c k s).groups }
      ∧ ∀ g, ((grp s g).stall.all (fun y => match y.kind with | .wfw _ _ _ _ _ _ => false | _ => true)) = true → grp (seeBlock c k s) g = grp s g)
    ∧ (one → x.state = 0 → x.draining = none → goes .clqreq 1)
    ∧ (¬ one → x.state = 1 ∨ x.state = 2 → goes .clqreq 0)
    ∧ (one → x.state ≠ 0 ∨ x.draining.isSome = true → exec .clqreq s = .next (seeBlock c 0x00 s))
    ∧ (¬ one → x.state ≠ 1 → x.state ≠ 2 → exec .clqreq s = .next (seeBlock c 0x00 s))
    ∧ (one → x.state = 2 → goes .clsave 3) ∧ (¬ one ∨ x.state ≠ 2 → exec .clsave s = .next (seeBlock c 0x10 s))
    ∧ (one → x.state = 4 → goes .clgate 5) ∧ (¬ one ∨ x.state ≠ 4 → exec .clgate s = .next (seeBlock c 0x20 s))
    ∧ (¬ one ∨ 6 ≤ x.state → exec .clwake s = .next (seeBlock c 0x28 s))
    ∧ (one → (x.state = 2 ∨ x.state = 4 → goes .clwake 0) ∧ (x.state = 5 → goes .clwake 6)
        ∧ (x.state = 3 → ∃ t, exec .clwake s = .next t ∧ t = { seeBlock c 0x28 s with clusters := t.clusters } ∧ clus t c = { x with wakeHeld := true })
        ∧ (x.state = 0 ∨ x.state = 1 → ∃ t, exec .clwake s = .next t ∧ SameBytes s t ∧ RegsKept 0 [] s t ∧ (clus t c).state = 0
            ∧ ∀ g y, (grp s g).stall = some y → y.kind = .halt → y.arr.gid = g → (grp s g).resident = true → coreClus (grp s g).core = c → (grp t g).stall = none))
    ∧ (∀ p, x.state = 1 → x.holder = some p →
        let u := migrateAway p c s
        let busy := clusterBusy u c || u.tokens.any (fun t => t.part == p && t.owner == clusHolder u p c)
        (busy = true → exec .clusterQuiesced s = .next u)
        ∧ (busy = false → ∃ t, exec .clusterQuiesced s = .next t ∧ t = { u with cores := t.cores, clusters := t.clusters } ∧ (clus t c).state = 2
            ∧ ∀ k ∈ clusCores c, (Machine.core t k).l1 = [] ∧ (Machine.core t k).tlb = [] ∧ (Machine.core t k).entries = []))
    ∧ (x.state ≠ 1 ∨ x.holder = none → exec .clusterQuiesced s = .next s)
    ∧ (x.state ≠ 3 → exec .clusterSaveEnd s = .next s)
    ∧ (x.state = 3 → (x.wakeHeld = true → goes .clusterSaveEnd 0)
        ∧ (x.wakeHeld = false → goes .clusterSaveEnd 4 ∧ ∀ t, exec .clusterSaveEnd s = .next t →
            (clus t c).retained = (clusCores c).map (fun k => ⟨k, (Machine.core s k).bank, (Machine.core s k).images, (Machine.core s k).steep⟩)))
    ∧ (x.state ≠ 5 ∨ x.railOff = true → exec .clusterRailOff s = .next s)
    ∧ (x.state = 5 → x.railOff = false → ∃ t, exec .clusterRailOff s = .next t ∧ t = { s with cores := t.cores, clusters := t.clusters } ∧ clus t c = { x with railOff := true }
        ∧ ∀ k ∈ clusCores c, (Machine.core t k).images = [] ∧ (Machine.core t k).slotB = [] ∧ (Machine.core t k).tileW = [] ∧ (Machine.core t k).l1 = [])
    ∧ (x.state ≠ 6 → exec .clusterRestoreEnd s = .next s)
    ∧ (x.state = 6 → x.retained.map (fun i => i.core) = clusCores c →
        ∃ t, exec .clusterRestoreEnd s = .next t ∧ t = { s with cores := t.cores, clusters := t.clusters } ∧ (clus t c).state = 0 ∧ (clus t c).retained = [] ∧ (clus t c).railOff = false
          ∧ ∀ i ∈ x.retained, (Machine.core t i.core).bank = i.bank ∧ (Machine.core t i.core).images = i.images ∧ (Machine.core t i.core).steep = i.steep ∧ (Machine.core t i.core).slotE = [] ∧ (Machine.core t i.core).tileW = [])
    ∧ (x.draining = none → exec .clusterClear s = .next s)
    ∧ ∀ q, x.draining = some q →
        let u := migrateAway (x.holder.getD 0) c s
        (clusterBusy u c = true → exec .clusterClear s = .next u)
        ∧ (clusterBusy u c = false → ∃ t, exec .clusterClear s = .next t ∧ t = { u with cores := t.cores, clusters := t.clusters } ∧ (clus t c).holder = some q ∧ (clus t c).draining = none
            ∧ (clus t c).state = 0 ∧ ∀ k ∈ clusCores c, (Machine.core t k).slotE = [] ∧ (Machine.core t k).tileE = [] ∧ (Machine.core t k).tileW = [] ∧ (Machine.core t k).l1 = [] ∧ (Machine.core t k).tlb = [] ∧ (Machine.core t k).bank = 0)

/-! ### Records, containment and degradation -/

/-- What the module records: each virtual die latches each tick once its own counter reaches it, and writes one snapshot for each selected bank that the context holds or counts it lost; energy is charged to what used it and the rest is unattributed; the metering chain takes
one block each millisecond; a usage record holds the block at its interval's end and follows the record before it, signed with PKCS #1 v1.5 over
SHA-512; the histograms are copied each second.
Where the spec leaves a point open, this follows the model's choice, log 16, 65, 71, 81, 82, 83. -/
def Obligations.Observations : Prop :=
  ∀ s : State,
    let p := s.ev.x
    let x := part s p
    let v := s.ev.y
    let tick := nextTick x v
    (x.obs.ticks.get 0 v < tick ∧ tick ≤ x.obs.ticks.get 0 v + tickLen x ∧ tick % tickLen x = 0)
    ∧ (x.state ≠ .ready ∨ vdt s p v = none → exec .counterTick s = .next s)
    ∧ (∀ d, vdt s p v = some d → gtime s d < tick → exec .counterTick s = .next s)
    ∧ (∀ d, x.state = .ready → vdt s p v = some d → tick ≤ gtime s d →
        (ringOn s p .ts = false → ∃ t, exec .counterTick s = .next t ∧ t = { s with parts := t.parts } ∧ (part t p).obs = { x.obs with ticks := x.obs.ticks.put v tick })
        ∧ (ringOn s p .ts = true → ∀ b, [v, v + 8].filter (fun b => x.obs.tscfg.getLsbD b && x.banks.get 0 b == 1) = [b] →
            let u := linkBytes p b (modPart p (fun y => { y with obs := { y.obs with ticks := y.obs.ticks.put v tick } }) s)
            exec .counterTick s = .next (ringPut p .ts (snapshot u p b tick) u)
            ∧ (snapshot u p b tick).length = 576
            ∧ ∀ t, exec .counterTick s = .next t → (part t p).obs.ticks.get 0 v = tick
                ∧ (∀ k, k < 512 → (part t p).ctr.get 0 k = x.ctr.get 0 k)
                ∧ (∀ k, min (x.ctr.get 0 k) (2 ^ 64 - 1) ≤ (part t p).ctr.get 0 k)
                ∧ ((ringOf t p .ts).wr = (ringOf s p .ts).wr + 1 ∧ (ringOf t p .ts).lost = (ringOf s p .ts).lost
                  ∨ (ringOf t p .ts).wr = (ringOf s p .ts).wr ∧ (ringOf t p .ts).lost = (ringOf s p .ts).lost + 1)))
    ∧ (let d := s.ev.x
      (s.time / 1000 ≤ (die s d).energyAt → exec .energySample s = .next s)
      ∧ ((die s d).energyAt < s.time / 1000 → (∀ q ∈ s.teams, (team s q.1).core = q.2.core) → ∃ t, exec .energySample s = .next t ∧ t.mem = s.mem ∧ t.groups = s.groups ∧ t.tokens = s.tokens ∧ (die t d).energyAt = s.time / 1000 ∧ (die t d).bytesBy = []
          ∧ (∀ c ∈ dieCores d, (Machine.core t c).issueBy = [] ∧ (Machine.core t c).chunkBy = [] ∧ (Machine.core t c).slotBy = [] ∧ (Machine.core t c).heldBy = [])
          ∧ ((∀ c ∈ dieCores d, (Machine.core s c).issueBy = [] ∧ (Machine.core s c).chunkBy = [] ∧ (Machine.core s c).slotBy = [] ∧ residentOn s c = [] ∧ (clus s (coreClus c)).holder = none) → (die s d).bytesBy = [] →
              t.parts = s.parts ∧ t.launches = s.launches
              ∧ t.host.unattrNj = s.host.unattrNj + ((dieCores d).map (fun c => measuredNj s (3 * (c % 64)) + measuredNj s (3 * (c % 64) + 1) + measuredNj s (3 * (c % 64) + 2))).sum
                  + measuredNj s 192)))
    ∧ (∀ c l w dyn, (Machine.core s c).issueBy = [(l, w)] → w ≠ 0 → (Machine.core s c).chunkBy = [] → (Machine.core s c).slotBy = [] → residentOn s c = [] → (clus s (coreClus c)).holder = none →
        let t := chargeCore c dyn 0 0 s
        (launch t l).dynNj = (launch s l).dynNj + dyn ∧ (part t (launch s l).part).energyNj = (part s (launch s l).part).energyNj + dyn ∧ t.host.unattrNj = s.host.unattrNj)
    ∧ (x.state ≠ .ready ∨ walkerTime s p < x.met.lastBlockAt + 1000000 → exec .meteringUpdate s = .next s)
    ∧ (x.state = .ready → x.met.lastBlockAt + 1000000 ≤ walkerTime s p →
        let u := (keysOf s.teams (fun _ t => t.part == p && t.state == .resident)).foldl (fun s t => accountTeam t s) s
        let m := (part u p).met
        ∃ t, exec .meteringUpdate s = .next t ∧ t = { u with parts := t.parts }
          ∧ (part t p).met = { m with seq := m.seq + 1, last := m.ctr, snap := m.ctr, chained := m.chained + 1, lastBlockAt := m.lastBlockAt + 1000000,
                                      digest := sha512 (m.digest ++ (leBytes 8 m.seq ++ leBytes 8 (walkerTime u p) ++ (List.range 42).flatMap (fun i => leBytes 8 (m.ctr.get 0 i - m.last.get 0 i)))) })
    ∧ (let end_ := x.met.intStart + x.obs.interval * 1000000
      (x.state ≠ .ready ∨ walkerTime s p < end_ ∨ x.met.lastBlockAt + 1000000 ≤ end_ → exec .usageIntervalEnd s = .next s)
      ∧ (x.state = .ready → end_ ≤ walkerTime s p → end_ < x.met.lastBlockAt + 1000000 →
          let body := usageBody s p false end_
          let r := body ++ rsaSign 1 body
          ∃ t, exec .usageIntervalEnd s = .next t ∧ t.groups = s.groups
            ∧ (part t p).met = { x.met with recSeq := x.met.recSeq + 1, prevHash := sha512 r, intStart := end_, chained := 0 }
            ∧ (s.host.recSize = 0 → ringOn s p .mr = false → t.host = s.host ∧ t.mem = s.mem)))
    ∧ (∀ k l, (rsaSign k l).length = 512 ∧ (pkcs1 l).length = 512
        ∧ (0 < Config.rsaModulus k → Config.rsaModulus k ≤ 2 ^ 4096 →
            beNat (rsaSign k l) = beNat (pkcs1 l) ^ (Config.rsaExponent k % 2 ^ 4096) % Config.rsaModulus k))
    ∧ (s.time / 1000000000 ≤ s.nonvol.copied → exec .histogramCopy s = .next s)
    ∧ (s.nonvol.copied < s.time / 1000000000 → ∃ t, exec .histogramCopy s = .next t ∧ t = { s with nonvol := t.nonvol, cores := t.cores } ∧ t.nonvol.copied = s.time / 1000000000
        ∧ ∀ c y, s.cores = [(c, y)] → (y.hist.map Prod.fst).Nodup → (∀ q ∈ y.hist, t.nonvol.hist.get 0 (c * 1152 + q.1) = q.2)
            ∧ (∀ k ∈ weakUnits y.hist, t.nonvol.weak.get 0 (c * 512 + k) = 1)
            ∧ ((∃ k ∈ weakUnits y.hist, ∀ q ∈ s.nonvol.weak, q.1 ≠ c * 512 + k) → (Machine.core t c).steep.resetReq = true))

/-- Containment and degradation: each instant at which units change raises the resource map by one version and gives every context 10 ms to acknowledge it; a context that does not is suspended under a trap of
class 0x0E; a core or die that fails stops what ran on it; soft errors mark what they struck; input power's loss stops the module.
Where the spec leaves a point open, this follows the model's choice, log 3, 10, 78, 85. -/
def Obligations.Degradation : Prop :=
  ∀ s : State,
    let p := s.ev.x
    let d := s.ev.x
    let bump := if s.map.updates.getLast?.any (fun u => u.at_ == s.time) = true then 0 else 1
    let raised := fun (i : Instr) (n : Nat) (e : MapEntry) => ∃ t, exec i s = .next t ∧ t = { s with map := t.map, parts := t.parts, dies := t.dies }
      ∧ (∀ k, die t k = if i = .cacheCapacityWithdrawn ∧ k + 8 = n then { die s k with msc := (die s k).msc.take (e.speed.getD 0 * 8192) } else die s k)
      ∧ (let same := (s.map.entries.get {} n).state = e.state ∧ speedOf n (s.map.entries.get {} n) = speedOf n e
         (same → t.map = s.map ∧ t.parts = s.parts)
         ∧ (¬ same → t.map.version = s.map.version + bump ∧ (∀ k, t.map.entries.get {} k = if k = n then e else s.map.entries.get {} k)
            ∧ ∀ q, part t q = { part s q with ackDue := if bump = 1 ∧ (part s q).state = .ready ∧ (part s q).ackDue = none then some (s.time + 10000000) else (part s q).ackDue }))
    (let n := 456 + s.ev.x % 10
      let st := s.ev.y % 5
      (Config.fusedOff n = true ∨ (s.map.entries.get {} n).state = 0 ∨ (st ≠ 2 ∧ st ≠ 4) → exec .linkStateChange s = .next s)
      ∧ (Config.fusedOff n = false → (s.map.entries.get {} n).state ≠ 0 → st = 2 ∨ st = 4 →
          raised .linkStateChange n { state := st, speed := if s.ev.z = 0 then (s.map.entries.get {} n).speed else some s.ev.z }))
    ∧ (s.ev.x < 466 ∨ 490 ≤ s.ev.x ∨ Config.fusedOff s.ev.x = true ∨ entryState s s.ev.x = 4 → exec .memoryUnitFailure s = .next s)
    ∧ (s.ev.x < 490 ∨ 507 ≤ s.ev.x ∨ Config.fusedOff s.ev.x = true ∨ (s.ev.y % 5 ≠ 2 ∧ s.ev.y % 5 ≠ 4) → exec .portStateChange s = .next s)
    ∧ (466 ≤ s.ev.x → s.ev.x < 490 → Config.fusedOff s.ev.x = false → entryState s s.ev.x ≠ 4 → raised .memoryUnitFailure s.ev.x { s.map.entries.get {} s.ev.x with state := 4 })
    ∧ (490 ≤ s.ev.x → s.ev.x < 507 → Config.fusedOff s.ev.x = false → s.ev.y % 5 = 2 ∨ s.ev.y % 5 = 4 →
        raised .portStateChange s.ev.x { state := s.ev.y % 5, speed := if s.ev.z = 0 then (s.map.entries.get {} s.ev.x).speed else some s.ev.z })
    ∧ (let n := 8 + s.ev.x % 8
      (64 ≤ entrySpeed s n → raised .cacheCapacityWithdrawn n { s.map.entries.get {} n with speed := some (entrySpeed s n - 64) })
      ∧ (entrySpeed s n < 64 → exec .cacheCapacityWithdrawn s = .next s))
    ∧ ((part s p).ackDue = none ∨ (part s p).suspended = true → exec .mapAckDeadline s = .next s)
    ∧ (∀ t0, (part s p).ackDue = some t0 → (part s p).suspended = false → (part s p).state = .ready → s.host.fltSize = 0 →
        (s.time < t0 → exec .mapAckDeadline s = .next s)
        ∧ (t0 ≤ s.time → ∃ t r, exec .mapAckDeadline s = .next t ∧ t.mem = s.mem ∧ t.groups = s.groups ∧ (part t p).suspended = true ∧ (part t p).ackDue = none
            ∧ t.traps = s.traps ++ [r] ∧ r.fr.cls = 0xE ∧ r.fr.code = 1 ∧ r.fr.level = 2 ∧ r.part = p ∧ r.susp = true ∧ t.host.out = s.host.out ++ [.msix 0 1]
            ∧ ∀ u ∈ keysOf s.teams (fun _ x => x.part == p && x.state == .resident), ∀ i ∈ together s u, 1 ≤ (team t i).goal))
    ∧ (let c := s.ev.x
      let n := coreEntry c
      (s.ev.flag = false → entryState s n ≠ 2 → entryState s n ≠ 3 → exec .coreFailure s = .next s)
      ∧ (s.ev.flag = true → entryState s n = 2 → ∃ t, exec .coreFailure s = .next t ∧ t.mem = s.mem ∧ t.groups = s.groups ∧ t.map.version = s.map.version + bump
          ∧ t.map.entries.get {} n = { state := 3, speed := some 2000 })
      ∧ (s.ev.flag = false → entryState s n = 2 ∨ entryState s n = 3 → (clus s (coreClus c)).holder = none → (Machine.core s c).chans = [] → s.net.colls = [] →
          ∃ t, exec .coreFailure s = .next t ∧ t.mem = s.mem ∧ t.map.version = s.map.version + bump ∧ entryState t n = 4 ∧ core t c = { hist := (Machine.core s c).hist, errTimes := (Machine.core s c).errTimes }
            ∧ (∀ u ∈ residentOn s c, ∀ i ∈ together s u, 2 ≤ (team t i).goal) ∧ ∀ q ∈ t.groups, q.2.team ∈ residentOn s c → q.2.resident = false))
    ∧ (Config.dies ≤ d ∨ (die s d).failed = true ∨ entryState s d = 0 → exec .dieFatalError s = .next s)
    ∧ (d < Config.dies → (die s d).failed = false → entryState s d ≠ 0 → ∃ t, exec .dieFatalError s = .next t ∧ (die t d).failed = true ∧ (die t d).thermalFail = s.ev.flag
        ∧ (die t d).l2 = [] ∧ (die t d).records = []
        ∧ (keysOf s.parts (fun _ x => x.state == .ready) = [] → s.net.colls = [] → s.teams = [] → s.clusters = [] → s.cores = [] →
            t.mem = s.mem ∧ t.map.version ≤ s.map.version + bump
              ∧ ((∃ n ∈ dieUnits d ++ dieLinks d, Config.fusedOff n = false ∧ (s.map.entries.get {} n).state ≠ 4) → t.map.version = s.map.version + bump) ∧ t.tokens = s.tokens.filter (fun k => k.home != d)
            ∧ ∀ n ∈ dieUnits d ++ dieLinks d, Config.fusedOff n = false → (t.map.entries.get {} n).state = 4))
    ∧ ((∀ r, (die s d).resetAt = some r → s.time < r) → exec .dieResetDrainEnd s = .next s)
    ∧ (∀ r, (die s d).resetAt = some r → r ≤ s.time → ∃ t, exec .dieResetDrainEnd s = .next t ∧ t.mem = s.mem ∧ t.groups = s.groups ∧ (die t d).resetAt = none ∧ (die t d).failed = false
        ∧ (die t d).off = (die s d).off ∧ (die t d).l2 = [] ∧ (die t d).split = (die s d).split ∧ (∀ f ∈ t.net.far, s.net.crossed.contains (d, f.id) = true → f.sent = s.time) ∧ (∀ q ∈ t.net.crossed, q ∈ s.net.crossed ∧ q.1 ≠ d)
        ∧ ∀ c ∈ dieCores d, core t c = { hist := (Machine.core s c).hist })
    ∧ (s.time / 1000 ≤ (die s d).keptAt → exec .clockKeeperCheck s = .next s)
    ∧ ((die s d).keptAt < s.time / 1000 → (keysOf s.parts (fun q x => x.state == .ready && (List.range 8).any (fun i => vdt s q i == some d))) = [] →
        let v := s.ev.nums.getD 0 (draw s (0x7D00 + d))
        let z := s.ev.nums.getD 1 (draw s (0x7D80 + d))
        let quiet := if 5 < v then s.time else (die s d).quietFrom
        ∃ t, exec .clockKeeperCheck s = .next t ∧ t.mem = s.mem ∧ t.groups = s.groups ∧ (die t d).deviation = v ∧ (die t d).quietFrom = quiet
          ∧ (die t d).off = (die s d).off ∧ (die t d).trimAt = (die s d).trimAt
          ∧ (die t d).trim = (if (die s d).trim.isSome || s.time < (die s d).trimAt + 1000 then (die s d).trim
              else if z = 1 ∧ (die s d).off < Config.skew then some true else if z = 2 ∧ 0 < (die s d).off then some false else none)
          ∧ (10 < v → (die t d).alarm = true ∧ ((die s d).alarm = false → (die t d).l2 = [] ∧ (die t d).telemetry.get 0 7 = min ((die s d).telemetry.get 0 7 + 1) (2 ^ 64 - 1)))
          ∧ (v ≤ 10 → (die t d).alarm = ((die s d).alarm && !(decide (v ≤ 5) && decide (quiet + 1000000 ≤ s.time))))
          ∧ (20 ≤ v → entryState s d = 2 → entryState t d = 3) ∧ (v < 20 → ((die s d).alarm = false ∨ (die s d).timeFailed = false) → t.map = s.map))
    ∧ (∀ k, 1 ≤ k → k ≤ 4 → s.ev.y = k → (if k < 4 then lineTier s.ev.x + 1 = k else lineTier s.ev.x < 2) →
        ∃ t, exec .softErrorPoison s = .next t ∧ t = { s with marks := t.marks } ∧ ∀ key, lineOf key = s.ev.x → isPoison t key = true ∧ (unitFailed s (lineOf key) = false → poisonCode t key = k))
    ∧ (s.ev.y = 5 → (team s s.ev.x).state = .resident → ∃ t, exec .softErrorPoison s = .next t ∧ t = { s with cores := t.cores }
        ∧ coreBad t (team s s.ev.x).core (s.ev.x * 2 ^ 19 + s.ev.z) = true)
    ∧ (s.ev.y = 7 → s.ev.z < 40 → ∃ t, exec .softErrorPoison s = .next t ∧ t = { s with cores := t.cores, agenda := t.agenda }
        ∧ coreBad t s.ev.x (if s.ev.z < 32 then slotPlace s.ev.z else tilePlace (s.ev.z - 32)) = true)
    ∧ (s.ev.y = 8 → lineTier s.ev.x < 3 → ∃ t, exec .softErrorPoison s = .next t ∧ t = { s with marks := t.marks } ∧ ∀ key, lineOf key = s.ev.x → isPoison t key = true)
    ∧ (s.ev.y = 6 → (grp s s.ev.x).resident = true → s.ev.z < 256 → ∃ t, exec .softErrorPoison s = .next t ∧ t.mem = s.mem
        ∧ (grp t s.ev.x).badRegs = (s.ev.nums.getD 0 0 % 32, .v s.ev.z) :: (grp s s.ev.x).badRegs
        ∧ ((∃ e ∈ (Machine.core s (grp s s.ev.x).core).errTimes, s.time < e + 1000000000) → (⟨0, .coreFailure, { x := (grp s s.ev.x).core }⟩ : Item) ∈ t.agenda))
    ∧ (s.ev.z < 5 → s.ev.x = 0xFF → ∃ t, exec .softErrorCorrected s = .next t ∧ t = { s with dies := t.dies }
        ∧ (die t s.ev.y).telemetry.get 0 s.ev.z = min ((die s s.ev.y).telemetry.get 0 s.ev.z + 1) (2 ^ 64 - 1))
    ∧ (s.ev.z < 5 → s.ev.x ≠ 0xFF → ∃ t, exec .softErrorCorrected s = .next t ∧ t = { s with parts := t.parts }
        ∧ (part t s.ev.x).telemetry.get 0 (s.ev.y * 32 + s.ev.z) = min ((part s s.ev.x).telemetry.get 0 (s.ev.y * 32 + s.ev.z) + 1) (2 ^ 64 - 1))
    ∧ ∃ t, exec .powerLoss s = .next t ∧ t.groups = s.groups ∧ t.power.lost = true ∧ step t = .fault .powerLost

/-- Time: between two steps of the module it goes on by no more than it was asked to, past no instant by which the spec says that something has happened: a write-through
applies within 2 µs, a request without an answer is given up after 20 µs, a token's move completes at its time, a passed-over team blocks after 100 µs, a
millisecond is evaluated, a buffer entry drains in 1 µs, samples, ticks and epochs come in their periods, an arbiter grants at once what it can, a cluster quiesces within
10 µs, saves within 20 µs and wakes within 40 µs. A die's counter never goes back and never leaves its skew bound.
Every event by which the module's own work goes on comes again and again, with all its arguments, among the events that nothing else fixes (R53); a store to a
cluster block never stands among those (R393).
Where the spec leaves a point open, this follows the model's choice, log 2, 69, 76, 78. -/
def Obligations.TimeAdvances : Prop :=
  ∀ (s : State) (dt : Nat),
    let t := advance dt s
    s.time ≤ t.time ∧ t.time ≤ s.time + dt ∧ t = { s with time := t.time, dies := t.dies, clusters := t.clusters, cores := t.cores, groups := t.groups }
    ∧ (∀ g, grp t g = { grp s g with stall := (grp t g).stall }
        ∧ ((grp s g).stall.all (fun y => match y.kind with | .wfw _ _ (.reg _ _ _ _) _ _ _ => false | _ => true) = true → grp t g = grp s g)) ∧ (t.time = s.time → t = s)
    ∧ (s.time < t.time → ∀ c, clus t c = { clus s c with waited := (clus s c).waited || waitsOnBudget s c, quietAt := (clus t c).quietAt }
        ∧ ((clus s c).state ≠ 1 → (clus t c).quietAt = none) ∧ (∀ n, quietSince s c = some n → (clus t c).quietAt = some n))
    ∧ (s.time < t.time → ∀ c, Machine.core t c = { Machine.core s c with slices := (Machine.core t c).slices }
        ∧ ∀ x ∈ (Machine.core s c).slices.map Prod.fst, let a := (Machine.core s c).slices.get {} x
          (Machine.core t c).slices.get {} x = { a with lagAt := if lags s c x then some (a.lagAt.getD s.time) else none })
    ∧ (∀ n ∈ deadlines s, s.time ≤ n → t.time ≤ n)
    ∧ (∀ d, gtime s d ≤ gtime t d ∧ gtime t d ≤ gtime s d + dt + 1
        ∧ ((die s d).off ≤ Config.skew → ((die s d).trim = some true → (die s d).off < Config.skew) → (die t d).off ≤ Config.skew))
    ∧ (∀ a ∈ s.net.atoms, ∀ m g, a.loc = .remote m g → a.refused = false → heldUp s a.id = false → s.time ≤ a.sent + 20000 → t.time ≤ a.sent + 20000)
    ∧ (∀ m ∈ s.net.msgs, m.refused = false → m.silent = false → portShut s m.line = false → (∀ h ∈ s.marks.held, h.msg ≠ m.id) → heldUp s m.id = false → s.time ≤ m.first + 2000 → t.time ≤ m.first + 2000)
    ∧ (∀ f ∈ s.net.far, f.refused = false → heldUp s f.id = false → s.time ≤ f.sent + 20000 → t.time ≤ f.sent + 20000)
    ∧ (∀ c ∈ s.cores, ∀ e ∈ c.2.wcb, s.time ≤ e.first + 1000 → t.time ≤ e.first + 1000)
    ∧ (∀ k ∈ s.tokens, ∀ op tm, k.moving = some (op, tm) → tm ≠ noTime → t.time ≤ max s.time (tm - (die s (tokDie k)).off))
    ∧ (∀ u ∈ s.teams, ∀ n, isPending u.2 = true → u.2.blocking = false → u.2.passedAt = some n → t.time ≤ max s.time (n + 100000))
    ∧ (s.time ≤ (s.power.svc + 1) * 1000000 → t.time ≤ (s.power.svc + 1) * 1000000)
    ∧ (∀ d, d < Config.dies → t.time ≤ max s.time (((die s d).energyAt + 1) * 1000) ∧ t.time ≤ max s.time (((die s d).keptAt + 1) * 1000)
        ∧ t.time ≤ max s.time (((die s d).sampled + 1) * 10000))
    ∧ t.time ≤ max s.time ((s.power.epoch + 1) * 1000000) ∧ t.time ≤ max s.time ((s.nonvol.copied + 1) * 1000000000)
    ∧ (∀ p ∈ s.parts, p.2.state = .ready →
        (∀ v d, v < 8 → vdt s p.1 v = some d → t.time + (die s d).off ≤ max (gtime s d) (max (nextTick p.2 v) (die s d).off))
        ∧ (∀ m, p.2.ackDue = some m → p.2.suspended = false → t.time ≤ max s.time m))
    ∧ (∀ c ∈ s.clusters, (canGrant s c.1 = true → t.time = s.time)
        ∧ (∀ n, (clus s c.1).state = 1 → quietSince s c.1 = some n → t.time ≤ max s.time (n + 10000))
        ∧ ((clus s c.1).state = 3 → t.time ≤ max s.time ((clus s c.1).since + 20000)) ∧ ((clus s c.1).state = 6 → t.time ≤ max s.time ((clus s c.1).since + 40000)))
    ∧ (∀ c ∈ s.clusters, c.2.draining.isSome = true → clusterBusy s c.1 = false → t.time ≤ max s.time (c.2.lastLeft + 40000))
    ∧ (let op := (nextItem s).op
      op ≠ .clqreq ∧ op ≠ .clsave ∧ op ≠ .clgate ∧ op ≠ .clwake)
    ∧ ∀ i x y z u v n, i < progressOps.length → ∃ k, n ≤ k ∧ ∀ s : State, s.turn = k →
        let it := nextItem s
        it.op = progressOps.getD i .nop ∧ it.ev.x = x ∧ it.ev.y = y ∧ it.ev.z = z ∧ (i = 0 → it.ev.nums = [u, v]) ∧ 0 < it.dt

/-! ### The hypervisor -/

/-- The mailbox: a command runs only as the one under way; it ends with a status and MSI-X vector 0 of PF0, and with a status other than 0 changes nothing else; each does what R404 to R411, R430, R483,
R489 and R490 say of it.
Where the spec leaves a point open, this follows the model's choice, log 87, 88. -/
def Obligations.MailboxCommands : Prop :=
  ∀ s : State,
    let b := s.host.cmd
    let p := cmdFld b 1 1
    let q := part s p
    let up := fun (code : Nat) => s.host.busy = true ∧ cmdFld b 0 1 = code
    let ends := fun (i : Instr) (st : Nat) => exec i s = .next { s with host := { s.host with busy := false, status := st, out := s.host.out ++ [.msix 0 0] } }
    let ok := fun (i : Instr) (P : State → Prop) => ∃ t, exec i s = .next t ∧ t.host.busy = false ∧ t.host.status = 0 ∧ t.host.out = s.host.out ++ [.msix 0 0] ∧ t.groups = s.groups ∧ P t
    let bump := if s.map.updates.getLast?.any (fun u => u.at_ == s.time) = true then 0 else 1
    let live := fun (named : List (Nat × Nat)) => p < 32 ∧ restZero b named = true ∧ q.state = .ready ∧ q.erased = false
    let onReady := [(Instr.bindVf, 3, [(2, 1), (8, 8)]), (.unbindVf, 4, [(2, 1)]), (.setsvc, 5, [(8, 4)]), (.setpower, 6, [(8, 11)]), (.importEntry, 9, [(8, 3)]), (.setctx, 12, [(8, 32)])]
    let noPart := [(Instr.settherm, 7, [(8, 3)]), (.splitDie, 8, [(2, 1), (8, 1)]), (.setrec, 10, [(8, 16)]), (.setdomain, 11, [(8, 1), (0x10, 8)]), (.setflt, 13, [(8, 16)]), (.resolve, 14, [(8, 9)]),
      (.telread, 15, [(2, 1), (8, 8)]), (.histread, 16, [(2, 2), (8, 8)])]
    (∀ i code, (i, code) ∈ [(Instr.create, 1), (.destroy, 2), (.diereset, 17)] ++ (onReady ++ noPart).map (fun x => (x.1, x.2.1)) → s.host.busy = false ∨ cmdFld b 0 1 ≠ code → s.ev.flag = false →
        exec i s = .next s)
    ∧ (∀ i code named, (i, code, named) ∈ onReady → up code →
        (32 ≤ p ∨ restZero b named = false → ends i 1) ∧ (p < 32 → restZero b named = true → q.state ≠ .ready ∨ q.erased = true → ends i 3))
    ∧ (∀ i code named, (i, code, named) ∈ noPart → up code → restZero b named = false → ends i 1)
    ∧ (up 1 → (boundDies b = none → ends .create 1)
        ∧ ∀ dies, boundDies b = some dies →
          let dead := dies.any (fun d => entryState s d == 0 || entryState s d == 4)
          (32 ≤ p ∨ descBad b dies = true ∨ dead = true → ends .create 1)
          ∧ (p < 32 → descBad b dies = false → dead = false → q.state ≠ .free → ends .create 3)
          ∧ (p < 32 → descBad b dies = false → dead = false → q.state = .free →
              (dies.any (fun d => (dieUnits d).any (fun n => entryState s n == 1)) = true → exec .create s = .next s)
              ∧ (dies.any (fun d => (dieUnits d).any (fun n => entryState s n == 1)) = false →
                  let u := { s with parts := s.parts.put p (newPart s p b dies) }
                  let r := (((grantAll p b ((List.range dies.length).zip dies) u).map (fun s => mapDevice p (dies.getD 0 0) s)).bind
                    (takeFloor p (cmdFld b 0x10 1) false dies)).bind (takeFloor p (cmdFld b 0x11 1) true dies)
                  (r = none → ends .create 2)
                  ∧ (r.isSome = true → ok .create (fun t => (part t p).state = .ready ∧ (part t p).ctx.txroot = .ofNat 64 (cmdFld b 0x68 8) ∧ (part t p).ctx.dieMask = cmdFld b 4 1
                      ∧ (part t p).service = cmdFld b 0x18 2 ∧ (part t p).tier = cmdFld b 0x12 1 ∧ (part t p).acked = s.map.version ∧ (part t p).ctx.descriptor = b.take 256
                      ∧ (∀ d ∈ dies, d < 8 → ∃ x y, (p, x, y) ∈ (die t d).keys ∧ x < 2 ^ 256 ∧ y < 2 ^ 256)
                      ∧ (∀ i d, dies[i]? = some d → vdt t p i = some d) ∧ ∀ k, k ≠ p → part t k = part s k)))))
    ∧ (up 2 →
        (32 ≤ p ∨ restZero b [] = false → ends .destroy 1)
        ∧ (p < 32 → restZero b [] = true →
          (q.state ≠ .ready → ends .destroy 3)
          ∧ (q.state = .ready → q.erased = false → ∃ t, exec .destroy s = .next t ∧ t = { s with parts := t.parts, teams := t.teams } ∧ (part t p).erased = true ∧ (part t p).graphs = []
              ∧ (part t p).gsub = [] ∧ ∀ u ∈ keysOf s.teams (fun _ x => x.part == p && x.state != .complete), (team t u).goal = 3)
          ∧ (q.state = .ready → q.erased = true → (partStopped s p = false → exec .destroy s = .next s)
              ∧ (partStopped s p = true → ∃ t, exec .destroy s = .next t ∧ t.host.busy = false ∧ t.host.status = 0 ∧ part t p = {} ∧ (∀ i d, vdt s p i = some d → ∀ k ∈ (die t d).keys, k.1 ≠ p) ∧ (∀ k ∈ t.tokens, k.part ≠ p) ∧ (∀ k ∈ t.teams, k.2.part ≠ p)
                  ∧ (∀ k ∈ t.launches, k.2.part ≠ p) ∧ (∀ k ∈ t.traps, k.part ≠ p) ∧ (∀ v ∈ t.host.vfs, v.2.part ≠ some p) ∧ ∀ d tier i, d < 8 → tier < 2 → t.s2.top.get 0 (s2Key p d tier * 4096 + i % 4096) = 0))))
    ∧ (up 3 → live [(2, 1), (8, 8)] →
        let v := cmdFld b 2 1
        let vf := s.host.vfs.get {} v
        (64 ≤ v ∨ 2 ^ 56 ≤ cmdFld b 8 8 → ends .bindVf 1)
        ∧ (v < 64 → cmdFld b 8 8 < 2 ^ 56 → vf.part.isSome = true ∨ vf.state ≠ .unlocked → ends .bindVf 3)
        ∧ (v < 64 → cmdFld b 8 8 < 2 ^ 56 → vf.part = none → vf.state = .unlocked → ok .bindVf (fun t => t.parts = s.parts
            ∧ ∃ x, t.host.vfs = s.host.vfs.put v x ∧ x.part = some p ∧ x.state = .unlocked ∧ x.win = .ofNat 64 (cmdFld b 8 8))))
    ∧ (up 4 → live [(2, 1)] →
        let v := cmdFld b 2 1
        let vf := s.host.vfs.get {} v
        (64 ≤ v → ends .unbindVf 1) ∧ (v < 64 → vf.part ≠ some p ∨ vf.state ≠ .unlocked → ends .unbindVf 3)
        ∧ (v < 64 → vf.part = some p → vf.state = .unlocked → ok .unbindVf (fun t => t.host.vfs = s.host.vfs.put v {} ∧ t.parts = s.parts)))
    ∧ (up 5 → live [(8, 4)] → ok .setsvc (fun t => part t p = { q with service := cmdFld b 8 2, floorM := cmdFld b 0xA 1, floorW := cmdFld b 0xB 1 } ∧ ∀ k, k ≠ p → part t k = part s k))
    ∧ (up 6 → live [(8, 11)] →
        let sum := cmdFld b 0xA 2 + cmdFld b 0xC 2 + cmdFld b 0xE 2 + cmdFld b 0x10 2
        (cmdFld b 8 2 < sum ∨ 4 ≤ cmdFld b 0x12 1 → ends .setpower 1)
        ∧ (sum ≤ cmdFld b 8 2 → cmdFld b 0x12 1 < 4 → ok .setpower (fun t => part t p = { q with tier := cmdFld b 0x12 1 } ∧ t.power.cap = cmdFld b 8 2
            ∧ ∀ i, i < 4 → t.power.floors.get 0 i = cmdFld b (0xA + 2 * i) 2)))
    ∧ (up 7 → restZero b [(8, 3)] = true →
        let legal := 80 ≤ cmdFld b 8 1 ∧ cmdFld b 8 1 < cmdFld b 9 1 ∧ cmdFld b 9 1 + 8 < cmdFld b 0xA 1 ∧ cmdFld b 0xA 1 ≤ 120
        (¬ legal → ends .settherm 1)
        ∧ (legal → ok .settherm (fun t => t.power = { s.power with t1 := cmdFld b 8 1, t2 := cmdFld b 9 1, t3 := cmdFld b 0xA 1 } ∧ t.parts = s.parts)))
    ∧ (up 8 → restZero b [(2, 1), (8, 1)] = true →
        let d := cmdFld b 2 1
        let used := s.parts.any (fun q => q.2.state == .ready && (List.range 8).any (fun v => vdt s q.1 v == some d && vaultExtent s q.1 v != 0))
        (8 ≤ d ∨ 8 < cmdFld b 8 1 → ends .splitDie 1) ∧ (d < 8 → cmdFld b 8 1 ≤ 8 → used = true → ends .splitDie 3)
        ∧ (d < 8 → cmdFld b 8 1 ≤ 8 → used = false → ok .splitDie (fun t => (die t d).split = cmdFld b 8 1 ∧ t.map.version = s.map.version + (if speedOf (8 + d) (s.map.entries.get {} (8 + d)) = 64 * cmdFld b 8 1 then 0 else bump) ∧ entrySpeed t (8 + d) = 64 * cmdFld b 8 1)))
    ∧ (up 9 → live [(8, 3)] →
        let m := cmdFld b 8 1
        let rest := q.imports.filter (fun e => e.1 != m)
        (32 ≤ cmdFld b 9 1 ∨ 2 ≤ cmdFld b 0xA 1 → ends .importEntry 1)
        ∧ (cmdFld b 9 1 < 32 → cmdFld b 0xA 1 = 0 → ok .importEntry (fun t => part t p = { q with imports := rest }))
        ∧ (cmdFld b 9 1 < 32 → cmdFld b 0xA 1 = 1 → (64 ≤ rest.length → ends .importEntry 2)
            ∧ (rest.length < 64 → ok .importEntry (fun t => part t p = { q with imports := rest ++ [(m, cmdFld b 9 1)] }))))
    ∧ (up 10 → restZero b [(8, 16)] = true → ok .setrec (fun t => t.host.recAddr = .ofNat 64 (cmdFld b 8 8) ∧ t.host.recSize = .ofNat 64 (cmdFld b 0x10 8) ∧ t.host.recWr = 0 ∧ t.host.recLost = 0))
    ∧ (up 11 → restZero b [(8, 1), (0x10, 8)] = true →
        (s.parts.any (fun q => q.2.state == .ready) = true → ends .setdomain 3)
        ∧ (s.parts.any (fun q => q.2.state == .ready) = false → ok .setdomain (fun t => t.host.module = cmdFld b 8 1 ∧ t.host.domain = .ofNat 64 (cmdFld b 0x10 8))))
    ∧ (up 12 → live [(8, 32)] →
        let bad := ctxBad (cmdFld b 8 8) (cmdFld b 0x10 8) (cmdFld b 0x18 8) (cmdFld b 0x20 8)
        let held := q.graphs.any (fun g => g.2.live) || s.host.vfs.any (fun v => v.2.part == some p && v.2.state != .unlocked)
        (bad = true → ends .setctx 1) ∧ (bad = false → held = true → ends .setctx 3)
        ∧ (bad = false → held = false → ok .setctx (fun t => (part t p).ctx = { q.ctx with txroot := .ofNat 64 (cmdFld b 8 8), vwin := .ofNat 64 (cmdFld b 0x10 8), pvwin := .ofNat 64 (cmdFld b 0x18 8),
                                                                                            pvcfg := .ofNat 64 (cmdFld b 0x20 8) }
            ∧ ∀ c, ∀ e ∈ (Machine.core t c).tlb, e.part ≠ p)))
    ∧ (up 13 → restZero b [(8, 16)] = true → ok .setflt (fun t => t.host.fltAddr = .ofNat 64 (cmdFld b 8 8) ∧ t.host.fltSize = .ofNat 64 (cmdFld b 0x10 8) ∧ t.host.fltWr = 0 ∧ t.host.fltLost = 0))
    ∧ (up 14 → restZero b [(8, 9)] = true →
        let tid : DWord := .ofNat 64 (cmdFld b 8 8)
        (4 ≤ cmdFld b 0x10 1 → ends .resolve 1)
        ∧ (cmdFld b 0x10 1 < 4 → s.traps.any (fun t => t.fr.tid == tid && t.fr.level == 2) = false → ends .resolve 3)
        ∧ (cmdFld b 0x10 1 < 4 → s.traps.any (fun t => t.fr.tid == tid && t.fr.level == 2) = true → exec .resolve s = .next (endCmd 0 (resolve tid (cmdFld b 0x10 1) s))))
    ∧ (up 15 → restZero b [(2, 1), (8, 8)] = true →
        let d := cmdFld b 2 1
        let a := cmdFld b 8 8
        let bad := decide (8 ≤ d) || decide (a % 256 ≠ 0) || (decide (32 ≤ p) && decide (p ≠ 0xFF))
        (bad = true → ends .telread 1) ∧ (bad = false → p ≠ 0xFF → q.state ≠ .ready → ends .telread 3)
        ∧ (bad = false → p = 0xFF ∨ q.state = .ready → s.Canonical → ok .telread (fun t =>
            ∀ i, i < 32 → cellBytes t.mem (cellKey 3 0 (a + 8 * i)) 8 = leBytes 8 (if p = 0xFF then (die s d).telemetry.get 0 i else q.telemetry.get 0 (d * 32 + i)))))
    ∧ (up 16 → restZero b [(2, 2), (8, 8)] = true →
        let d := cmdFld b 2 1
        let k := cmdFld b 3 1
        let a := cmdFld b 8 8
        (8 ≤ d ∨ 4 * Config.clustersOf d ≤ k ∨ a % 128 ≠ 0 → ends .histread 1)
        ∧ (d < 8 → k < 4 * Config.clustersOf d → a % 128 = 0 → s.Canonical → ok .histread (fun t =>
            (∀ i, i < 128 → cellBytes t.mem (cellKey 3 0 (a + 2 * i)) 2 = leBytes 2 ((Machine.core s (d * 64 + k)).hist.get 0 i))
            ∧ ∀ i, i < 1024 → cellBytes t.mem (cellKey 3 0 (a + 256 + 2 * i)) 2 = leBytes 2 ((Machine.core s (d * 64 + k)).hist.get 0 (128 + i)))))
    ∧ (s.ev.flag = false → up 17 → restZero b [(2, 1)] = true →
        let d := cmdFld b 2 1
        (8 ≤ d → ends .diereset 1) ∧ (d < 8 → (entryState s d ≠ 4 ∧ entryState s d ≠ 3) ∨ (die s d).resetAt.isSome = true → ends .diereset 3)
        ∧ (d < 8 → entryState s d = 4 → (die s d).resetAt = none → (die s d).failed = true → ok .diereset (fun t => (die t d).resetAt = some (s.time + 50000) ∧ t.map.version ≤ s.map.version + bump ∧ (Config.fusedOff d = false → t.map.version = s.map.version + bump)
            ∧ (∀ n ∈ dieUnits d, Config.fusedOff n = false → entryState t n = 1) ∧ ∀ n ∈ dieLinks d, Config.fusedOff n = false → entryState t n = 4)))
    ∧ (s.ev.flag = true → (die s s.ev.x).thermalFail = true → (die s s.ev.x).resetAt = none → (die s s.ev.x).failed = true → ∃ t, exec .diereset s = .next t ∧ t.groups = s.groups
        ∧ (die t s.ev.x).resetAt = some (s.time + 50000) ∧ (die t s.ev.x).thermalFail = false)

/-! ### Attestation, bring-up and registers -/

/-- Attestation and bring-up: through a usable host port a bound VF locks and then runs, and the responder, at version 1.2 or 1.3, signs what it is asked for, in a session under the
session's keys, or errs; module reset leaves the state of reset but for time and non-volatile storage; a unit that
passes its test reads live or degraded; a store to a register takes its RW fields, and MBDOOR latches the block and starts its command.
Where the spec leaves a point open, this follows the model's choice, log 89, 90. -/
def Obligations.AttestationAndBringup : Prop :=
  ∀ s : State,
    let v := s.host.vfs.get {} s.ev.x
    let tells := fun (i : Instr) (code : Nat) (data : List Byte) => exec i s = .next { s with host := { s.host with out := s.host.out ++ [.spdm code data] } }
    let ver := s.ev.nums.headD 0x12
    let served := (ver = 0x12 ∨ ver = 0x13) ∧ (s.ev.flag = true → s.host.sessions.contains s.ev.x = true)
    let replies := fun (i : Instr) (code : Nat) (data : List Byte) => served →
      (s.ev.flag = false → tells i code data)
      ∧ (s.ev.flag = true → ∃ t sealed, exec i s = .next t ∧ t = { s with host := t.host, free := t.free } ∧ t.host = { s.host with out := s.host.out ++ [.spdm code sealed] })
    let errs := fun (i : Instr) => tells i 0x7F []
    let steps := [Instr.lockInterface, .startInterface, .interfaceReport, .spdmCert, .spdmChal, .spdmMeas, .spdmKeyEx]
    (hostOpen s = false → ∀ i ∈ steps, exec i s = .next s)
    ∧ (hostOpen s = true →
      (¬ served → errs .spdmCert ∧ errs .spdmChal ∧ errs .spdmMeas ∧ errs .spdmKeyEx)
      ∧ (v.part.isSome = true → (v.state = .unlocked → ∃ t, exec .lockInterface s = .next t ∧ t = { s with host := t.host } ∧ t.host = { s.host with vfs := s.host.vfs.put s.ev.x { v with state := .locked } })
        ∧ (v.state = .locked → ∃ t, exec .startInterface s = .next t ∧ t = { s with host := t.host } ∧ t.host = { s.host with vfs := s.host.vfs.put s.ev.x { v with state := .run } }))
    ∧ (v.part = none ∨ v.state ≠ .unlocked → errs .lockInterface) ∧ (v.part = none ∨ v.state ≠ .locked → errs .startInterface)
    ∧ (∀ p, v.part = some p → tells .interfaceReport 0 ([.ofNat 8 p] ++ leBytes 4 s.map.version ++ sha512 (part s p).ctx.descriptor))
    ∧ (v.part = none → errs .interfaceReport)
    ∧ (s.ev.y < 2 → replies .spdmCert 2 (Config.certificate s.ev.y) ∧ replies .spdmChal 3 (rsaSign s.ev.y (spdmHello s ++ leBytes 32 s.ev.z ++ sha512 (Config.certificate s.ev.y)))
        ∧ (served → ∃ t share data, exec .spdmKeyEx s = .next t ∧ t = { s with host := t.host, free := t.free } ∧ t.host.sessions = s.host.sessions ++ [s.ev.x]
          ∧ t.host.out = s.host.out ++ [.spdm 0x64 data] ∧ share.length = 96
          ∧ (s.ev.flag = false → data = share ++ rsaSign s.ev.y (spdmHello s ++ leBytes 96 s.ev.z ++ share))))
    ∧ (2 ≤ s.ev.y → errs .spdmCert ∧ errs .spdmChal ∧ errs .spdmKeyEx)
    ∧ (∀ m, (1 ≤ s.ev.y ∧ s.ev.y ≤ 3 ∧ m = sha512 (Config.measured s.ev.y)) ∨ (s.ev.y = 4 ∧ m = sha512 (leBytes 4 s.map.version ++ (moduleMap s ++ leBytes 8192 0).take 8192))
          ∨ (s.ev.y = 5 ∧ 1 ≤ s.ev.x ∧ ∃ p, (s.host.vfs.get {} (s.ev.x - 1)).part = some p ∧ m = sha512 (part s p).ctx.descriptor) →
        replies .spdmMeas 0x60 (m ++ rsaSign 0 (spdmHello s ++ leBytes 32 s.ev.z ++ m)))
    ∧ (s.ev.y = 0 ∨ 6 ≤ s.ev.y ∨ (s.ev.y = 5 ∧ s.ev.x = 0) → errs .spdmMeas))
    ∧ (∃ t, exec .moduleReset s = .next t ∧ t = { State.reset with time := s.time, free := s.free, turn := s.turn, nonvol := t.nonvol, cores := t.cores, mem := t.mem, dies := t.dies }
        ∧ t.map = {} ∧ (∀ d, d < Config.dies → die t d = { off := (die s d).off, thermAt := s.time }) ∧ t.nonvol = (copyHists s).nonvol
        ∧ (∀ c, core t c = { hist := (Machine.core t c).hist })
        ∧ (s.Canonical → ∀ k, cellGet t.mem k = if 3 ≤ k / 2 ^ 72 then cellGet s.mem k else 0))
    ∧ (let n := s.ev.x
      (508 ≤ n ∨ entryState s n ≠ 1 → exec .unitSelfTestPass s = .next s)
      ∧ (n < 508 → entryState s n = 1 → (∀ q ∈ s.dies, q.2.resetAt = none) → ∃ t, exec .unitSelfTestPass s = .next t ∧ t = { s with map := t.map, parts := t.parts }
          ∧ t.map.version = s.map.version + (if s.map.updates.getLast?.any (fun u => u.at_ == s.time) = true then 0 else 1)
          ∧ entryState t n = (if s.ev.flag = true then 3 else 2) ∧ ∀ k, k ≠ n → t.map.entries.get {} k = s.map.entries.get {} k))
    ∧ (let p := s.ev.z
      let w := s.ev.word
      let obs := fun (off : Nat) (o : Observe) => s.ev.y = off → ∃ t, exec .registerWrite s = .next t ∧ t = { s with parts := t.parts, groups := t.groups } ∧ RegsKept 0 [] s t ∧ part t p = { part s p with obs := o }
      s.ev.x = 0 → (part s p).state = .ready →
        ((part s p).erased = true → exec .registerWrite s = .next s)
        ∧ ((part s p).erased = false →
          let o := (part s p).obs
          obs 0x100 { o with tsRing := { o.tsRing with reg := ringReg w } } ∧ obs 0x108 { o with crRing := { o.crRing with reg := ringReg w } }
          ∧ obs 0x110 { o with hsRing := { o.hsRing with reg := ringReg w } } ∧ obs 0x118 { o with mrRing := { o.mrRing with reg := ringReg w } }
          ∧ (let k := max 10 (min 24 (bits w 20 16)); obs 0x120 { o with tscfg := .ofNat 64 (k * 2 ^ 16 + bits w 15 0), ticks := lastTicks s (part s p).ctx.vdt (2 ^ (k - 1)) })
          ∧ obs 0x130 { o with dbgTgt := w }
          ∧ (∀ i, i < 4 → obs (0x140 + 8 * i) { o with dbgBp := o.dbgBp.put i (.ofNat 64 (bits w 55 3 * 8)) })
          ∧ (s.ev.y = 0 → (part s p).gsub.length < 16 → ∃ t, exec .registerWrite s = .next t ∧ (part t p).gsub = (part s p).gsub ++ [.ofNat 64 (bits w 55 6 * 64)])))
    ∧ (let b := (s.host.block ++ leBytes 256 0).take 256
      (s.ev.x = 1 → hostOpen s = false → exec .registerWrite s = .next s)
      ∧ (s.ev.x = 1 → hostOpen s = true →
        (∀ o, o < 32 → s.ev.y = 0x1000 + 8 * o → ∃ t, exec .registerWrite s = .next t ∧ t = { s with host := t.host } ∧ t.host = { s.host with block := t.host.block } ∧ t.host.block.length = 256
            ∧ (∀ i, i < 8 → t.host.block[8 * o + i]? = (leBytes 8 s.ev.word.toNat)[i]?) ∧ ∀ i, i < 256 → i / 8 ≠ o → t.host.block[i]? = b[i]?)
        ∧ (s.ev.y = 0 → bits s.ev.word 0 0 = 1 → s.host.busy = false → entryState s 507 = 2 →
            (mailOp (cmdFld b 0 1) = none → ∃ t, exec .registerWrite s = .next t ∧ t.host.busy = false ∧ t.host.status = 1 ∧ t.host.out = s.host.out ++ [.msix 0 0])
            ∧ ∀ i, mailOp (cmdFld b 0 1) = some i → ∃ t, exec .registerWrite s = .next t ∧ t = { s with host := t.host, agenda := s.agenda ++ [⟨0, i, {}⟩] } ∧ t.host = { s.host with busy := true, goAt := s.time, cmd := b })
        ∧ (s.ev.y = 0 → bits s.ev.word 0 0 = 0 ∨ s.host.busy = true ∨ entryState s 507 ≠ 2 → exec .registerWrite s = .next s)))

/-- What a register read gives the host: MBDOOR reads 0, MBSTAT the last status and Busy, UNATTR the energy in µJ, the command block as last written, the module map,
every other offset of PF0 0; a register of a register page reads its RW fields as last written, its reserved bits 0, a write-only register 0, and a store to a
read-only one leaves it; an unbound VF reads 0, and a VF that serves its partition stores to that register page. After a raise the map shows version B, then the
entries, then version A.
Where the spec leaves a point open, this follows the model's choice, log 23. -/
def Obligations.HostRegisterReads : Prop :=
  ∀ s : State,
    let pf0 := fun (t : State) (off : Nat) => leNat ((List.range 8).map (fun i => pf0Byte t (off + i)))
    let page := fun (t : State) (p off : Nat) => leNat ((List.range 8).map (fun i => regByte t p 0 (off + i)))
    let w := s.ev.word
    let p := s.ev.z
    pf0 s 0 = 0 ∧ pf0 s 8 = s.host.status % 256 * 2 ^ 8 + (if s.host.busy then 1 else 0) ∧ pf0 s 0x10 = s.host.unattrNj / 1000 % 2 ^ 64
    ∧ (∀ off, (0x18 ≤ off ∧ off < 0x1000) ∨ (0x1100 ≤ off ∧ off < 0x2000) ∨ 0x4000 ≤ off → pf0Byte s off = 0)
    ∧ (∀ i, i < 8192 → pf0Byte s (0x2000 + i) = (moduleMap s).getD i 0)
    ∧ (s.ev.x = 1 → hostOpen s = true → ∀ o, o < 32 → s.ev.y = 0x1000 + 8 * o → ∃ t, exec .registerWrite s = .next t ∧ pf0 t s.ev.y = w.toNat
        ∧ ∀ i, i < 256 → i / 8 ≠ o → pf0Byte t (0x1000 + i) = pf0Byte s (0x1000 + i))
    ∧ (s.ev.x = 0 → (part s p).state = .ready → (part s p).erased = false → ∃ t, exec .registerWrite s = .next t
        ∧ (s.ev.y ∈ [0x100, 0x108, 0x110, 0x118] → page t p s.ev.y = w.toNat % 2 ^ 56)
        ∧ (s.ev.y = 0x120 → page t p 0x120 = max 10 (min 24 (w.toNat / 2 ^ 16 % 2 ^ 5)) * 2 ^ 16 + w.toNat % 2 ^ 16)
        ∧ (s.ev.y = 0x130 → page t p 0x130 = w.toNat)
        ∧ (s.ev.y ∈ [0x140, 0x148, 0x150, 0x158] → page t p s.ev.y = w.toNat % 2 ^ 56 / 8 * 8)
        ∧ (s.ev.y ≠ 0 → ∀ off ∈ [0x8, 0x10, 0x128], page t p off = page s p off) ∧ page t p 0 = 0
        ∧ (s.ev.y ≠ 0x120 → ∀ off ∈ [0x100, 0x108, 0x110, 0x118, 0x120, 0x130, 0x138, 0x140, 0x148, 0x150, 0x158], off ≠ s.ev.y → page t p off = page s p off))
    ∧ (s.ev.x = 2 → (vfServes s s.ev.z = none → exec .registerWrite s = .next s)
        ∧ ∀ q, vfServes s s.ev.z = some q → (part s q).state = .ready → (part s q).erased = false → ∃ t, exec .registerWrite s = .next t
          ∧ t = { pageStore q s.ev.y w s with groups := t.groups } ∧ RegsKept 0 [] s t)
    ∧ (∀ v off, (s.host.vfs.get {} v).part = none → vfByte s v off = 0)
    ∧ ∀ l, s.map.updates = [] →
        let m := (raiseMap l s).map
        ∀ n, s.time ≤ n →
          let t := { raiseMap l s with time := n }
          (∃ a b, leNat ((moduleMap t).take 4) = a % 2 ^ 32 ∧ leNat (((moduleMap t).drop 8).take 4) = b % 2 ^ 32 ∧ s.map.version ≤ a ∧ a ≤ b ∧ b ≤ s.map.version + 1
            ∧ (a = m.version → ∀ k, shownEntry t k = m.entries.get {} k) ∧ (b = s.map.version → ∀ k, shownEntry t k = s.map.entries.get {} k))
end

