-- ==== Sys2Proof/Laws/State.lean ====
section
/-!
SUPPORT. Each update of one field of the state leaves every other field: one lemma for each field and update.
-/
namespace Sys2Proof.Machine

@[simp] theorem modGrp_time (g : Nat) (f : Group → Group) (s : State) : (modGrp g f s).time = s.time := rfl
@[simp] theorem modGrp_free (g : Nat) (f : Group → Group) (s : State) : (modGrp g f s).free = s.free := rfl
@[simp] theorem modGrp_turn (g : Nat) (f : Group → Group) (s : State) : (modGrp g f s).turn = s.turn := rfl
@[simp] theorem modGrp_agenda (g : Nat) (f : Group → Group) (s : State) : (modGrp g f s).agenda = s.agenda := rfl
@[simp] theorem modGrp_ev (g : Nat) (f : Group → Group) (s : State) : (modGrp g f s).ev = s.ev := rfl
@[simp] theorem modGrp_issuing (g : Nat) (f : Group → Group) (s : State) : (modGrp g f s).issuing = s.issuing := rfl
@[simp] theorem modGrp_cur (g : Nat) (f : Group → Group) (s : State) : (modGrp g f s).cur = s.cur := rfl
@[simp] theorem modGrp_mem (g : Nat) (f : Group → Group) (s : State) : (modGrp g f s).mem = s.mem := rfl
@[simp] theorem modGrp_lines (g : Nat) (f : Group → Group) (s : State) : (modGrp g f s).lines = s.lines := rfl
@[simp] theorem modGrp_marks (g : Nat) (f : Group → Group) (s : State) : (modGrp g f s).marks = s.marks := rfl
@[simp] theorem modGrp_s2 (g : Nat) (f : Group → Group) (s : State) : (modGrp g f s).s2 = s.s2 := rfl
@[simp] theorem modGrp_tokens (g : Nat) (f : Group → Group) (s : State) : (modGrp g f s).tokens = s.tokens := rfl
@[simp] theorem modGrp_net (g : Nat) (f : Group → Group) (s : State) : (modGrp g f s).net = s.net := rfl
@[simp] theorem modGrp_map (g : Nat) (f : Group → Group) (s : State) : (modGrp g f s).map = s.map := rfl
@[simp] theorem modGrp_host (g : Nat) (f : Group → Group) (s : State) : (modGrp g f s).host = s.host := rfl
@[simp] theorem modGrp_power (g : Nat) (f : Group → Group) (s : State) : (modGrp g f s).power = s.power := rfl
@[simp] theorem modGrp_dies (g : Nat) (f : Group → Group) (s : State) : (modGrp g f s).dies = s.dies := rfl
@[simp] theorem modGrp_clusters (g : Nat) (f : Group → Group) (s : State) : (modGrp g f s).clusters = s.clusters := rfl
@[simp] theorem modGrp_cores (g : Nat) (f : Group → Group) (s : State) : (modGrp g f s).cores = s.cores := rfl
@[simp] theorem modGrp_parts (g : Nat) (f : Group → Group) (s : State) : (modGrp g f s).parts = s.parts := rfl
@[simp] theorem modGrp_launches (g : Nat) (f : Group → Group) (s : State) : (modGrp g f s).launches = s.launches := rfl
@[simp] theorem modGrp_teams (g : Nat) (f : Group → Group) (s : State) : (modGrp g f s).teams = s.teams := rfl
@[simp] theorem modGrp_traps (g : Nat) (f : Group → Group) (s : State) : (modGrp g f s).traps = s.traps := rfl
@[simp] theorem modGrp_losts (g : Nat) (f : Group → Group) (s : State) : (modGrp g f s).losts = s.losts := rfl
@[simp] theorem modGrp_nonvol (g : Nat) (f : Group → Group) (s : State) : (modGrp g f s).nonvol = s.nonvol := rfl
@[simp] theorem modGrp_ids (g : Nat) (f : Group → Group) (s : State) : (modGrp g f s).ids = s.ids := rfl

@[simp] theorem modTeam_time (t : Nat) (f : Team → Team) (s : State) : (modTeam t f s).time = s.time := rfl
@[simp] theorem modTeam_free (t : Nat) (f : Team → Team) (s : State) : (modTeam t f s).free = s.free := rfl
@[simp] theorem modTeam_turn (t : Nat) (f : Team → Team) (s : State) : (modTeam t f s).turn = s.turn := rfl
@[simp] theorem modTeam_agenda (t : Nat) (f : Team → Team) (s : State) : (modTeam t f s).agenda = s.agenda := rfl
@[simp] theorem modTeam_ev (t : Nat) (f : Team → Team) (s : State) : (modTeam t f s).ev = s.ev := rfl
@[simp] theorem modTeam_issuing (t : Nat) (f : Team → Team) (s : State) : (modTeam t f s).issuing = s.issuing := rfl
@[simp] theorem modTeam_cur (t : Nat) (f : Team → Team) (s : State) : (modTeam t f s).cur = s.cur := rfl
@[simp] theorem modTeam_mem (t : Nat) (f : Team → Team) (s : State) : (modTeam t f s).mem = s.mem := rfl
@[simp] theorem modTeam_lines (t : Nat) (f : Team → Team) (s : State) : (modTeam t f s).lines = s.lines := rfl
@[simp] theorem modTeam_marks (t : Nat) (f : Team → Team) (s : State) : (modTeam t f s).marks = s.marks := rfl
@[simp] theorem modTeam_s2 (t : Nat) (f : Team → Team) (s : State) : (modTeam t f s).s2 = s.s2 := rfl
@[simp] theorem modTeam_tokens (t : Nat) (f : Team → Team) (s : State) : (modTeam t f s).tokens = s.tokens := rfl
@[simp] theorem modTeam_net (t : Nat) (f : Team → Team) (s : State) : (modTeam t f s).net = s.net := rfl
@[simp] theorem modTeam_map (t : Nat) (f : Team → Team) (s : State) : (modTeam t f s).map = s.map := rfl
@[simp] theorem modTeam_host (t : Nat) (f : Team → Team) (s : State) : (modTeam t f s).host = s.host := rfl
@[simp] theorem modTeam_power (t : Nat) (f : Team → Team) (s : State) : (modTeam t f s).power = s.power := rfl
@[simp] theorem modTeam_dies (t : Nat) (f : Team → Team) (s : State) : (modTeam t f s).dies = s.dies := rfl
@[simp] theorem modTeam_clusters (t : Nat) (f : Team → Team) (s : State) : (modTeam t f s).clusters = s.clusters := rfl
@[simp] theorem modTeam_cores (t : Nat) (f : Team → Team) (s : State) : (modTeam t f s).cores = s.cores := rfl
@[simp] theorem modTeam_parts (t : Nat) (f : Team → Team) (s : State) : (modTeam t f s).parts = s.parts := rfl
@[simp] theorem modTeam_launches (t : Nat) (f : Team → Team) (s : State) : (modTeam t f s).launches = s.launches := rfl
@[simp] theorem modTeam_groups (t : Nat) (f : Team → Team) (s : State) : (modTeam t f s).groups = s.groups := rfl
@[simp] theorem modTeam_traps (t : Nat) (f : Team → Team) (s : State) : (modTeam t f s).traps = s.traps := rfl
@[simp] theorem modTeam_losts (t : Nat) (f : Team → Team) (s : State) : (modTeam t f s).losts = s.losts := rfl
@[simp] theorem modTeam_nonvol (t : Nat) (f : Team → Team) (s : State) : (modTeam t f s).nonvol = s.nonvol := rfl
@[simp] theorem modTeam_ids (t : Nat) (f : Team → Team) (s : State) : (modTeam t f s).ids = s.ids := rfl

@[simp] theorem modLaunch_time (l : Nat) (f : Launch → Launch) (s : State) : (modLaunch l f s).time = s.time := rfl
@[simp] theorem modLaunch_free (l : Nat) (f : Launch → Launch) (s : State) : (modLaunch l f s).free = s.free := rfl
@[simp] theorem modLaunch_turn (l : Nat) (f : Launch → Launch) (s : State) : (modLaunch l f s).turn = s.turn := rfl
@[simp] theorem modLaunch_agenda (l : Nat) (f : Launch → Launch) (s : State) : (modLaunch l f s).agenda = s.agenda := rfl
@[simp] theorem modLaunch_ev (l : Nat) (f : Launch → Launch) (s : State) : (modLaunch l f s).ev = s.ev := rfl
@[simp] theorem modLaunch_issuing (l : Nat) (f : Launch → Launch) (s : State) : (modLaunch l f s).issuing = s.issuing := rfl
@[simp] theorem modLaunch_cur (l : Nat) (f : Launch → Launch) (s : State) : (modLaunch l f s).cur = s.cur := rfl
@[simp] theorem modLaunch_mem (l : Nat) (f : Launch → Launch) (s : State) : (modLaunch l f s).mem = s.mem := rfl
@[simp] theorem modLaunch_lines (l : Nat) (f : Launch → Launch) (s : State) : (modLaunch l f s).lines = s.lines := rfl
@[simp] theorem modLaunch_marks (l : Nat) (f : Launch → Launch) (s : State) : (modLaunch l f s).marks = s.marks := rfl
@[simp] theorem modLaunch_s2 (l : Nat) (f : Launch → Launch) (s : State) : (modLaunch l f s).s2 = s.s2 := rfl
@[simp] theorem modLaunch_tokens (l : Nat) (f : Launch → Launch) (s : State) : (modLaunch l f s).tokens = s.tokens := rfl
@[simp] theorem modLaunch_net (l : Nat) (f : Launch → Launch) (s : State) : (modLaunch l f s).net = s.net := rfl
@[simp] theorem modLaunch_map (l : Nat) (f : Launch → Launch) (s : State) : (modLaunch l f s).map = s.map := rfl
@[simp] theorem modLaunch_host (l : Nat) (f : Launch → Launch) (s : State) : (modLaunch l f s).host = s.host := rfl
@[simp] theorem modLaunch_power (l : Nat) (f : Launch → Launch) (s : State) : (modLaunch l f s).power = s.power := rfl
@[simp] theorem modLaunch_dies (l : Nat) (f : Launch → Launch) (s : State) : (modLaunch l f s).dies = s.dies := rfl
@[simp] theorem modLaunch_clusters (l : Nat) (f : Launch → Launch) (s : State) : (modLaunch l f s).clusters = s.clusters := rfl
@[simp] theorem modLaunch_cores (l : Nat) (f : Launch → Launch) (s : State) : (modLaunch l f s).cores = s.cores := rfl
@[simp] theorem modLaunch_parts (l : Nat) (f : Launch → Launch) (s : State) : (modLaunch l f s).parts = s.parts := rfl
@[simp] theorem modLaunch_teams (l : Nat) (f : Launch → Launch) (s : State) : (modLaunch l f s).teams = s.teams := rfl
@[simp] theorem modLaunch_groups (l : Nat) (f : Launch → Launch) (s : State) : (modLaunch l f s).groups = s.groups := rfl
@[simp] theorem modLaunch_traps (l : Nat) (f : Launch → Launch) (s : State) : (modLaunch l f s).traps = s.traps := rfl
@[simp] theorem modLaunch_losts (l : Nat) (f : Launch → Launch) (s : State) : (modLaunch l f s).losts = s.losts := rfl
@[simp] theorem modLaunch_nonvol (l : Nat) (f : Launch → Launch) (s : State) : (modLaunch l f s).nonvol = s.nonvol := rfl
@[simp] theorem modLaunch_ids (l : Nat) (f : Launch → Launch) (s : State) : (modLaunch l f s).ids = s.ids := rfl

@[simp] theorem modCore_time (c : Nat) (f : Core → Core) (s : State) : (modCore c f s).time = s.time := rfl
@[simp] theorem modCore_free (c : Nat) (f : Core → Core) (s : State) : (modCore c f s).free = s.free := rfl
@[simp] theorem modCore_turn (c : Nat) (f : Core → Core) (s : State) : (modCore c f s).turn = s.turn := rfl
@[simp] theorem modCore_agenda (c : Nat) (f : Core → Core) (s : State) : (modCore c f s).agenda = s.agenda := rfl
@[simp] theorem modCore_ev (c : Nat) (f : Core → Core) (s : State) : (modCore c f s).ev = s.ev := rfl
@[simp] theorem modCore_issuing (c : Nat) (f : Core → Core) (s : State) : (modCore c f s).issuing = s.issuing := rfl
@[simp] theorem modCore_cur (c : Nat) (f : Core → Core) (s : State) : (modCore c f s).cur = s.cur := rfl
@[simp] theorem modCore_mem (c : Nat) (f : Core → Core) (s : State) : (modCore c f s).mem = s.mem := rfl
@[simp] theorem modCore_lines (c : Nat) (f : Core → Core) (s : State) : (modCore c f s).lines = s.lines := rfl
@[simp] theorem modCore_marks (c : Nat) (f : Core → Core) (s : State) : (modCore c f s).marks = s.marks := rfl
@[simp] theorem modCore_s2 (c : Nat) (f : Core → Core) (s : State) : (modCore c f s).s2 = s.s2 := rfl
@[simp] theorem modCore_tokens (c : Nat) (f : Core → Core) (s : State) : (modCore c f s).tokens = s.tokens := rfl
@[simp] theorem modCore_net (c : Nat) (f : Core → Core) (s : State) : (modCore c f s).net = s.net := rfl
@[simp] theorem modCore_map (c : Nat) (f : Core → Core) (s : State) : (modCore c f s).map = s.map := rfl
@[simp] theorem modCore_host (c : Nat) (f : Core → Core) (s : State) : (modCore c f s).host = s.host := rfl
@[simp] theorem modCore_power (c : Nat) (f : Core → Core) (s : State) : (modCore c f s).power = s.power := rfl
@[simp] theorem modCore_dies (c : Nat) (f : Core → Core) (s : State) : (modCore c f s).dies = s.dies := rfl
@[simp] theorem modCore_clusters (c : Nat) (f : Core → Core) (s : State) : (modCore c f s).clusters = s.clusters := rfl
@[simp] theorem modCore_parts (c : Nat) (f : Core → Core) (s : State) : (modCore c f s).parts = s.parts := rfl
@[simp] theorem modCore_launches (c : Nat) (f : Core → Core) (s : State) : (modCore c f s).launches = s.launches := rfl
@[simp] theorem modCore_teams (c : Nat) (f : Core → Core) (s : State) : (modCore c f s).teams = s.teams := rfl
@[simp] theorem modCore_groups (c : Nat) (f : Core → Core) (s : State) : (modCore c f s).groups = s.groups := rfl
@[simp] theorem modCore_traps (c : Nat) (f : Core → Core) (s : State) : (modCore c f s).traps = s.traps := rfl
@[simp] theorem modCore_losts (c : Nat) (f : Core → Core) (s : State) : (modCore c f s).losts = s.losts := rfl
@[simp] theorem modCore_nonvol (c : Nat) (f : Core → Core) (s : State) : (modCore c f s).nonvol = s.nonvol := rfl
@[simp] theorem modCore_ids (c : Nat) (f : Core → Core) (s : State) : (modCore c f s).ids = s.ids := rfl

@[simp] theorem modClus_time (c : Nat) (f : Cluster → Cluster) (s : State) : (modClus c f s).time = s.time := rfl
@[simp] theorem modClus_free (c : Nat) (f : Cluster → Cluster) (s : State) : (modClus c f s).free = s.free := rfl
@[simp] theorem modClus_turn (c : Nat) (f : Cluster → Cluster) (s : State) : (modClus c f s).turn = s.turn := rfl
@[simp] theorem modClus_agenda (c : Nat) (f : Cluster → Cluster) (s : State) : (modClus c f s).agenda = s.agenda := rfl
@[simp] theorem modClus_ev (c : Nat) (f : Cluster → Cluster) (s : State) : (modClus c f s).ev = s.ev := rfl
@[simp] theorem modClus_issuing (c : Nat) (f : Cluster → Cluster) (s : State) : (modClus c f s).issuing = s.issuing := rfl
@[simp] theorem modClus_cur (c : Nat) (f : Cluster → Cluster) (s : State) : (modClus c f s).cur = s.cur := rfl
@[simp] theorem modClus_mem (c : Nat) (f : Cluster → Cluster) (s : State) : (modClus c f s).mem = s.mem := rfl
@[simp] theorem modClus_lines (c : Nat) (f : Cluster → Cluster) (s : State) : (modClus c f s).lines = s.lines := rfl
@[simp] theorem modClus_marks (c : Nat) (f : Cluster → Cluster) (s : State) : (modClus c f s).marks = s.marks := rfl
@[simp] theorem modClus_s2 (c : Nat) (f : Cluster → Cluster) (s : State) : (modClus c f s).s2 = s.s2 := rfl
@[simp] theorem modClus_tokens (c : Nat) (f : Cluster → Cluster) (s : State) : (modClus c f s).tokens = s.tokens := rfl
@[simp] theorem modClus_net (c : Nat) (f : Cluster → Cluster) (s : State) : (modClus c f s).net = s.net := rfl
@[simp] theorem modClus_map (c : Nat) (f : Cluster → Cluster) (s : State) : (modClus c f s).map = s.map := rfl
@[simp] theorem modClus_host (c : Nat) (f : Cluster → Cluster) (s : State) : (modClus c f s).host = s.host := rfl
@[simp] theorem modClus_power (c : Nat) (f : Cluster → Cluster) (s : State) : (modClus c f s).power = s.power := rfl
@[simp] theorem modClus_dies (c : Nat) (f : Cluster → Cluster) (s : State) : (modClus c f s).dies = s.dies := rfl
@[simp] theorem modClus_cores (c : Nat) (f : Cluster → Cluster) (s : State) : (modClus c f s).cores = s.cores := rfl
@[simp] theorem modClus_parts (c : Nat) (f : Cluster → Cluster) (s : State) : (modClus c f s).parts = s.parts := rfl
@[simp] theorem modClus_launches (c : Nat) (f : Cluster → Cluster) (s : State) : (modClus c f s).launches = s.launches := rfl
@[simp] theorem modClus_teams (c : Nat) (f : Cluster → Cluster) (s : State) : (modClus c f s).teams = s.teams := rfl
@[simp] theorem modClus_groups (c : Nat) (f : Cluster → Cluster) (s : State) : (modClus c f s).groups = s.groups := rfl
@[simp] theorem modClus_traps (c : Nat) (f : Cluster → Cluster) (s : State) : (modClus c f s).traps = s.traps := rfl
@[simp] theorem modClus_losts (c : Nat) (f : Cluster → Cluster) (s : State) : (modClus c f s).losts = s.losts := rfl
@[simp] theorem modClus_nonvol (c : Nat) (f : Cluster → Cluster) (s : State) : (modClus c f s).nonvol = s.nonvol := rfl
@[simp] theorem modClus_ids (c : Nat) (f : Cluster → Cluster) (s : State) : (modClus c f s).ids = s.ids := rfl

@[simp] theorem modDie_time (d : Nat) (f : Die → Die) (s : State) : (modDie d f s).time = s.time := rfl
@[simp] theorem modDie_free (d : Nat) (f : Die → Die) (s : State) : (modDie d f s).free = s.free := rfl
@[simp] theorem modDie_turn (d : Nat) (f : Die → Die) (s : State) : (modDie d f s).turn = s.turn := rfl
@[simp] theorem modDie_agenda (d : Nat) (f : Die → Die) (s : State) : (modDie d f s).agenda = s.agenda := rfl
@[simp] theorem modDie_ev (d : Nat) (f : Die → Die) (s : State) : (modDie d f s).ev = s.ev := rfl
@[simp] theorem modDie_issuing (d : Nat) (f : Die → Die) (s : State) : (modDie d f s).issuing = s.issuing := rfl
@[simp] theorem modDie_cur (d : Nat) (f : Die → Die) (s : State) : (modDie d f s).cur = s.cur := rfl
@[simp] theorem modDie_mem (d : Nat) (f : Die → Die) (s : State) : (modDie d f s).mem = s.mem := rfl
@[simp] theorem modDie_lines (d : Nat) (f : Die → Die) (s : State) : (modDie d f s).lines = s.lines := rfl
@[simp] theorem modDie_marks (d : Nat) (f : Die → Die) (s : State) : (modDie d f s).marks = s.marks := rfl
@[simp] theorem modDie_s2 (d : Nat) (f : Die → Die) (s : State) : (modDie d f s).s2 = s.s2 := rfl
@[simp] theorem modDie_tokens (d : Nat) (f : Die → Die) (s : State) : (modDie d f s).tokens = s.tokens := rfl
@[simp] theorem modDie_net (d : Nat) (f : Die → Die) (s : State) : (modDie d f s).net = s.net := rfl
@[simp] theorem modDie_map (d : Nat) (f : Die → Die) (s : State) : (modDie d f s).map = s.map := rfl
@[simp] theorem modDie_host (d : Nat) (f : Die → Die) (s : State) : (modDie d f s).host = s.host := rfl
@[simp] theorem modDie_power (d : Nat) (f : Die → Die) (s : State) : (modDie d f s).power = s.power := rfl
@[simp] theorem modDie_clusters (d : Nat) (f : Die → Die) (s : State) : (modDie d f s).clusters = s.clusters := rfl
@[simp] theorem modDie_cores (d : Nat) (f : Die → Die) (s : State) : (modDie d f s).cores = s.cores := rfl
@[simp] theorem modDie_parts (d : Nat) (f : Die → Die) (s : State) : (modDie d f s).parts = s.parts := rfl
@[simp] theorem modDie_launches (d : Nat) (f : Die → Die) (s : State) : (modDie d f s).launches = s.launches := rfl
@[simp] theorem modDie_teams (d : Nat) (f : Die → Die) (s : State) : (modDie d f s).teams = s.teams := rfl
@[simp] theorem modDie_groups (d : Nat) (f : Die → Die) (s : State) : (modDie d f s).groups = s.groups := rfl
@[simp] theorem modDie_traps (d : Nat) (f : Die → Die) (s : State) : (modDie d f s).traps = s.traps := rfl
@[simp] theorem modDie_losts (d : Nat) (f : Die → Die) (s : State) : (modDie d f s).losts = s.losts := rfl
@[simp] theorem modDie_nonvol (d : Nat) (f : Die → Die) (s : State) : (modDie d f s).nonvol = s.nonvol := rfl
@[simp] theorem modDie_ids (d : Nat) (f : Die → Die) (s : State) : (modDie d f s).ids = s.ids := rfl

@[simp] theorem modPart_time (p : Nat) (f : Partition → Partition) (s : State) : (modPart p f s).time = s.time := rfl
@[simp] theorem modPart_free (p : Nat) (f : Partition → Partition) (s : State) : (modPart p f s).free = s.free := rfl
@[simp] theorem modPart_turn (p : Nat) (f : Partition → Partition) (s : State) : (modPart p f s).turn = s.turn := rfl
@[simp] theorem modPart_agenda (p : Nat) (f : Partition → Partition) (s : State) : (modPart p f s).agenda = s.agenda := rfl
@[simp] theorem modPart_ev (p : Nat) (f : Partition → Partition) (s : State) : (modPart p f s).ev = s.ev := rfl
@[simp] theorem modPart_issuing (p : Nat) (f : Partition → Partition) (s : State) : (modPart p f s).issuing = s.issuing := rfl
@[simp] theorem modPart_cur (p : Nat) (f : Partition → Partition) (s : State) : (modPart p f s).cur = s.cur := rfl
@[simp] theorem modPart_mem (p : Nat) (f : Partition → Partition) (s : State) : (modPart p f s).mem = s.mem := rfl
@[simp] theorem modPart_lines (p : Nat) (f : Partition → Partition) (s : State) : (modPart p f s).lines = s.lines := rfl
@[simp] theorem modPart_marks (p : Nat) (f : Partition → Partition) (s : State) : (modPart p f s).marks = s.marks := rfl
@[simp] theorem modPart_s2 (p : Nat) (f : Partition → Partition) (s : State) : (modPart p f s).s2 = s.s2 := rfl
@[simp] theorem modPart_tokens (p : Nat) (f : Partition → Partition) (s : State) : (modPart p f s).tokens = s.tokens := rfl
@[simp] theorem modPart_net (p : Nat) (f : Partition → Partition) (s : State) : (modPart p f s).net = s.net := rfl
@[simp] theorem modPart_map (p : Nat) (f : Partition → Partition) (s : State) : (modPart p f s).map = s.map := rfl
@[simp] theorem modPart_host (p : Nat) (f : Partition → Partition) (s : State) : (modPart p f s).host = s.host := rfl
@[simp] theorem modPart_power (p : Nat) (f : Partition → Partition) (s : State) : (modPart p f s).power = s.power := rfl
@[simp] theorem modPart_dies (p : Nat) (f : Partition → Partition) (s : State) : (modPart p f s).dies = s.dies := rfl
@[simp] theorem modPart_clusters (p : Nat) (f : Partition → Partition) (s : State) : (modPart p f s).clusters = s.clusters := rfl
@[simp] theorem modPart_cores (p : Nat) (f : Partition → Partition) (s : State) : (modPart p f s).cores = s.cores := rfl
@[simp] theorem modPart_launches (p : Nat) (f : Partition → Partition) (s : State) : (modPart p f s).launches = s.launches := rfl
@[simp] theorem modPart_teams (p : Nat) (f : Partition → Partition) (s : State) : (modPart p f s).teams = s.teams := rfl
@[simp] theorem modPart_groups (p : Nat) (f : Partition → Partition) (s : State) : (modPart p f s).groups = s.groups := rfl
@[simp] theorem modPart_traps (p : Nat) (f : Partition → Partition) (s : State) : (modPart p f s).traps = s.traps := rfl
@[simp] theorem modPart_losts (p : Nat) (f : Partition → Partition) (s : State) : (modPart p f s).losts = s.losts := rfl
@[simp] theorem modPart_nonvol (p : Nat) (f : Partition → Partition) (s : State) : (modPart p f s).nonvol = s.nonvol := rfl
@[simp] theorem modPart_ids (p : Nat) (f : Partition → Partition) (s : State) : (modPart p f s).ids = s.ids := rfl

@[simp] theorem noteTok_time (p b : Nat) (f : Token → Token) (s : State) : (noteTok p b f s).time = s.time := rfl
@[simp] theorem noteTok_free (p b : Nat) (f : Token → Token) (s : State) : (noteTok p b f s).free = s.free := rfl
@[simp] theorem noteTok_turn (p b : Nat) (f : Token → Token) (s : State) : (noteTok p b f s).turn = s.turn := rfl
@[simp] theorem noteTok_agenda (p b : Nat) (f : Token → Token) (s : State) : (noteTok p b f s).agenda = s.agenda := rfl
@[simp] theorem noteTok_ev (p b : Nat) (f : Token → Token) (s : State) : (noteTok p b f s).ev = s.ev := rfl
@[simp] theorem noteTok_issuing (p b : Nat) (f : Token → Token) (s : State) : (noteTok p b f s).issuing = s.issuing := rfl
@[simp] theorem noteTok_cur (p b : Nat) (f : Token → Token) (s : State) : (noteTok p b f s).cur = s.cur := rfl
@[simp] theorem noteTok_mem (p b : Nat) (f : Token → Token) (s : State) : (noteTok p b f s).mem = s.mem := rfl
@[simp] theorem noteTok_lines (p b : Nat) (f : Token → Token) (s : State) : (noteTok p b f s).lines = s.lines := rfl
@[simp] theorem noteTok_marks (p b : Nat) (f : Token → Token) (s : State) : (noteTok p b f s).marks = s.marks := rfl
@[simp] theorem noteTok_s2 (p b : Nat) (f : Token → Token) (s : State) : (noteTok p b f s).s2 = s.s2 := rfl
@[simp] theorem noteTok_net (p b : Nat) (f : Token → Token) (s : State) : (noteTok p b f s).net = s.net := rfl
@[simp] theorem noteTok_map (p b : Nat) (f : Token → Token) (s : State) : (noteTok p b f s).map = s.map := rfl
@[simp] theorem noteTok_host (p b : Nat) (f : Token → Token) (s : State) : (noteTok p b f s).host = s.host := rfl
@[simp] theorem noteTok_power (p b : Nat) (f : Token → Token) (s : State) : (noteTok p b f s).power = s.power := rfl
@[simp] theorem noteTok_dies (p b : Nat) (f : Token → Token) (s : State) : (noteTok p b f s).dies = s.dies := rfl
@[simp] theorem noteTok_clusters (p b : Nat) (f : Token → Token) (s : State) : (noteTok p b f s).clusters = s.clusters := rfl
@[simp] theorem noteTok_cores (p b : Nat) (f : Token → Token) (s : State) : (noteTok p b f s).cores = s.cores := rfl
@[simp] theorem noteTok_parts (p b : Nat) (f : Token → Token) (s : State) : (noteTok p b f s).parts = s.parts := rfl
@[simp] theorem noteTok_launches (p b : Nat) (f : Token → Token) (s : State) : (noteTok p b f s).launches = s.launches := rfl
@[simp] theorem noteTok_teams (p b : Nat) (f : Token → Token) (s : State) : (noteTok p b f s).teams = s.teams := rfl
@[simp] theorem noteTok_groups (p b : Nat) (f : Token → Token) (s : State) : (noteTok p b f s).groups = s.groups := rfl
@[simp] theorem noteTok_traps (p b : Nat) (f : Token → Token) (s : State) : (noteTok p b f s).traps = s.traps := rfl
@[simp] theorem noteTok_losts (p b : Nat) (f : Token → Token) (s : State) : (noteTok p b f s).losts = s.losts := rfl
@[simp] theorem noteTok_nonvol (p b : Nat) (f : Token → Token) (s : State) : (noteTok p b f s).nonvol = s.nonvol := rfl
@[simp] theorem noteTok_ids (p b : Nat) (f : Token → Token) (s : State) : (noteTok p b f s).ids = s.ids := rfl

@[simp] theorem dropEntry_time (p b : Nat) (s : State) : (dropEntry p b s).time = s.time := rfl
@[simp] theorem dropEntry_free (p b : Nat) (s : State) : (dropEntry p b s).free = s.free := rfl
@[simp] theorem dropEntry_turn (p b : Nat) (s : State) : (dropEntry p b s).turn = s.turn := rfl
@[simp] theorem dropEntry_agenda (p b : Nat) (s : State) : (dropEntry p b s).agenda = s.agenda := rfl
@[simp] theorem dropEntry_ev (p b : Nat) (s : State) : (dropEntry p b s).ev = s.ev := rfl
@[simp] theorem dropEntry_issuing (p b : Nat) (s : State) : (dropEntry p b s).issuing = s.issuing := rfl
@[simp] theorem dropEntry_cur (p b : Nat) (s : State) : (dropEntry p b s).cur = s.cur := rfl
@[simp] theorem dropEntry_mem (p b : Nat) (s : State) : (dropEntry p b s).mem = s.mem := rfl
@[simp] theorem dropEntry_lines (p b : Nat) (s : State) : (dropEntry p b s).lines = s.lines := rfl
@[simp] theorem dropEntry_marks (p b : Nat) (s : State) : (dropEntry p b s).marks = s.marks := rfl
@[simp] theorem dropEntry_s2 (p b : Nat) (s : State) : (dropEntry p b s).s2 = s.s2 := rfl
@[simp] theorem dropEntry_tokens (p b : Nat) (s : State) : (dropEntry p b s).tokens = s.tokens := rfl
@[simp] theorem dropEntry_net (p b : Nat) (s : State) : (dropEntry p b s).net = s.net := rfl
@[simp] theorem dropEntry_map (p b : Nat) (s : State) : (dropEntry p b s).map = s.map := rfl
@[simp] theorem dropEntry_host (p b : Nat) (s : State) : (dropEntry p b s).host = s.host := rfl
@[simp] theorem dropEntry_power (p b : Nat) (s : State) : (dropEntry p b s).power = s.power := rfl
@[simp] theorem dropEntry_dies (p b : Nat) (s : State) : (dropEntry p b s).dies = s.dies := rfl
@[simp] theorem dropEntry_clusters (p b : Nat) (s : State) : (dropEntry p b s).clusters = s.clusters := rfl
@[simp] theorem dropEntry_parts (p b : Nat) (s : State) : (dropEntry p b s).parts = s.parts := rfl
@[simp] theorem dropEntry_launches (p b : Nat) (s : State) : (dropEntry p b s).launches = s.launches := rfl
@[simp] theorem dropEntry_teams (p b : Nat) (s : State) : (dropEntry p b s).teams = s.teams := rfl
@[simp] theorem dropEntry_groups (p b : Nat) (s : State) : (dropEntry p b s).groups = s.groups := rfl
@[simp] theorem dropEntry_traps (p b : Nat) (s : State) : (dropEntry p b s).traps = s.traps := rfl
@[simp] theorem dropEntry_losts (p b : Nat) (s : State) : (dropEntry p b s).losts = s.losts := rfl
@[simp] theorem dropEntry_nonvol (p b : Nat) (s : State) : (dropEntry p b s).nonvol = s.nonvol := rfl
@[simp] theorem dropEntry_ids (p b : Nat) (s : State) : (dropEntry p b s).ids = s.ids := rfl

@[simp] theorem modTok_time (p b : Nat) (f : Token → Token) (s : State) : (modTok p b f s).time = s.time := rfl
@[simp] theorem modTok_free (p b : Nat) (f : Token → Token) (s : State) : (modTok p b f s).free = s.free := rfl
@[simp] theorem modTok_turn (p b : Nat) (f : Token → Token) (s : State) : (modTok p b f s).turn = s.turn := rfl
@[simp] theorem modTok_agenda (p b : Nat) (f : Token → Token) (s : State) : (modTok p b f s).agenda = s.agenda := rfl
@[simp] theorem modTok_ev (p b : Nat) (f : Token → Token) (s : State) : (modTok p b f s).ev = s.ev := rfl
@[simp] theorem modTok_issuing (p b : Nat) (f : Token → Token) (s : State) : (modTok p b f s).issuing = s.issuing := rfl
@[simp] theorem modTok_cur (p b : Nat) (f : Token → Token) (s : State) : (modTok p b f s).cur = s.cur := rfl
@[simp] theorem modTok_mem (p b : Nat) (f : Token → Token) (s : State) : (modTok p b f s).mem = s.mem := rfl
@[simp] theorem modTok_lines (p b : Nat) (f : Token → Token) (s : State) : (modTok p b f s).lines = s.lines := rfl
@[simp] theorem modTok_marks (p b : Nat) (f : Token → Token) (s : State) : (modTok p b f s).marks = s.marks := rfl
@[simp] theorem modTok_s2 (p b : Nat) (f : Token → Token) (s : State) : (modTok p b f s).s2 = s.s2 := rfl
@[simp] theorem modTok_net (p b : Nat) (f : Token → Token) (s : State) : (modTok p b f s).net = s.net := rfl
@[simp] theorem modTok_map (p b : Nat) (f : Token → Token) (s : State) : (modTok p b f s).map = s.map := rfl
@[simp] theorem modTok_host (p b : Nat) (f : Token → Token) (s : State) : (modTok p b f s).host = s.host := rfl
@[simp] theorem modTok_power (p b : Nat) (f : Token → Token) (s : State) : (modTok p b f s).power = s.power := rfl
@[simp] theorem modTok_dies (p b : Nat) (f : Token → Token) (s : State) : (modTok p b f s).dies = s.dies := rfl
@[simp] theorem modTok_clusters (p b : Nat) (f : Token → Token) (s : State) : (modTok p b f s).clusters = s.clusters := rfl
@[simp] theorem modTok_cores (p b : Nat) (f : Token → Token) (s : State) : (modTok p b f s).cores = (dropEntry p b s).cores := rfl
@[simp] theorem modTok_tokens (p b : Nat) (f : Token → Token) (s : State) : (modTok p b f s).tokens = (noteTok p b f s).tokens := rfl
@[simp] theorem modTok_parts (p b : Nat) (f : Token → Token) (s : State) : (modTok p b f s).parts = s.parts := rfl
@[simp] theorem modTok_launches (p b : Nat) (f : Token → Token) (s : State) : (modTok p b f s).launches = s.launches := rfl
@[simp] theorem modTok_teams (p b : Nat) (f : Token → Token) (s : State) : (modTok p b f s).teams = s.teams := rfl
@[simp] theorem modTok_groups (p b : Nat) (f : Token → Token) (s : State) : (modTok p b f s).groups = s.groups := rfl
@[simp] theorem modTok_traps (p b : Nat) (f : Token → Token) (s : State) : (modTok p b f s).traps = s.traps := rfl
@[simp] theorem modTok_losts (p b : Nat) (f : Token → Token) (s : State) : (modTok p b f s).losts = s.losts := rfl
@[simp] theorem modTok_nonvol (p b : Nat) (f : Token → Token) (s : State) : (modTok p b f s).nonvol = s.nonvol := rfl
@[simp] theorem modTok_ids (p b : Nat) (f : Token → Token) (s : State) : (modTok p b f s).ids = s.ids := rfl

@[simp] theorem modLine_time (n : Nat) (f : LineState → LineState) (s : State) : (modLine n f s).time = s.time := rfl
@[simp] theorem modLine_free (n : Nat) (f : LineState → LineState) (s : State) : (modLine n f s).free = s.free := rfl
@[simp] theorem modLine_turn (n : Nat) (f : LineState → LineState) (s : State) : (modLine n f s).turn = s.turn := rfl
@[simp] theorem modLine_agenda (n : Nat) (f : LineState → LineState) (s : State) : (modLine n f s).agenda = s.agenda := rfl
@[simp] theorem modLine_ev (n : Nat) (f : LineState → LineState) (s : State) : (modLine n f s).ev = s.ev := rfl
@[simp] theorem modLine_issuing (n : Nat) (f : LineState → LineState) (s : State) : (modLine n f s).issuing = s.issuing := rfl
@[simp] theorem modLine_cur (n : Nat) (f : LineState → LineState) (s : State) : (modLine n f s).cur = s.cur := rfl
@[simp] theorem modLine_mem (n : Nat) (f : LineState → LineState) (s : State) : (modLine n f s).mem = s.mem := rfl
@[simp] theorem modLine_marks (n : Nat) (f : LineState → LineState) (s : State) : (modLine n f s).marks = s.marks := rfl
@[simp] theorem modLine_s2 (n : Nat) (f : LineState → LineState) (s : State) : (modLine n f s).s2 = s.s2 := rfl
@[simp] theorem modLine_tokens (n : Nat) (f : LineState → LineState) (s : State) : (modLine n f s).tokens = s.tokens := rfl
@[simp] theorem modLine_net (n : Nat) (f : LineState → LineState) (s : State) : (modLine n f s).net = s.net := rfl
@[simp] theorem modLine_map (n : Nat) (f : LineState → LineState) (s : State) : (modLine n f s).map = s.map := rfl
@[simp] theorem modLine_host (n : Nat) (f : LineState → LineState) (s : State) : (modLine n f s).host = s.host := rfl
@[simp] theorem modLine_power (n : Nat) (f : LineState → LineState) (s : State) : (modLine n f s).power = s.power := rfl
@[simp] theorem modLine_dies (n : Nat) (f : LineState → LineState) (s : State) : (modLine n f s).dies = s.dies := rfl
@[simp] theorem modLine_clusters (n : Nat) (f : LineState → LineState) (s : State) : (modLine n f s).clusters = s.clusters := rfl
@[simp] theorem modLine_cores (n : Nat) (f : LineState → LineState) (s : State) : (modLine n f s).cores = s.cores := rfl
@[simp] theorem modLine_parts (n : Nat) (f : LineState → LineState) (s : State) : (modLine n f s).parts = s.parts := rfl
@[simp] theorem modLine_launches (n : Nat) (f : LineState → LineState) (s : State) : (modLine n f s).launches = s.launches := rfl
@[simp] theorem modLine_teams (n : Nat) (f : LineState → LineState) (s : State) : (modLine n f s).teams = s.teams := rfl
@[simp] theorem modLine_groups (n : Nat) (f : LineState → LineState) (s : State) : (modLine n f s).groups = s.groups := rfl
@[simp] theorem modLine_traps (n : Nat) (f : LineState → LineState) (s : State) : (modLine n f s).traps = s.traps := rfl
@[simp] theorem modLine_losts (n : Nat) (f : LineState → LineState) (s : State) : (modLine n f s).losts = s.losts := rfl
@[simp] theorem modLine_nonvol (n : Nat) (f : LineState → LineState) (s : State) : (modLine n f s).nonvol = s.nonvol := rfl
@[simp] theorem modLine_ids (n : Nat) (f : LineState → LineState) (s : State) : (modLine n f s).ids = s.ids := rfl

@[simp] theorem drew_time (s : State) : (drew s).time = s.time := rfl
@[simp] theorem drew_agenda (s : State) : (drew s).agenda = s.agenda := rfl
@[simp] theorem drew_ev (s : State) : (drew s).ev = s.ev := rfl
@[simp] theorem drew_issuing (s : State) : (drew s).issuing = s.issuing := rfl
@[simp] theorem drew_cur (s : State) : (drew s).cur = s.cur := rfl
@[simp] theorem drew_mem (s : State) : (drew s).mem = s.mem := rfl
@[simp] theorem drew_lines (s : State) : (drew s).lines = s.lines := rfl
@[simp] theorem drew_marks (s : State) : (drew s).marks = s.marks := rfl
@[simp] theorem drew_s2 (s : State) : (drew s).s2 = s.s2 := rfl
@[simp] theorem drew_tokens (s : State) : (drew s).tokens = s.tokens := rfl
@[simp] theorem drew_net (s : State) : (drew s).net = s.net := rfl
@[simp] theorem drew_map (s : State) : (drew s).map = s.map := rfl
@[simp] theorem drew_host (s : State) : (drew s).host = s.host := rfl
@[simp] theorem drew_power (s : State) : (drew s).power = s.power := rfl
@[simp] theorem drew_dies (s : State) : (drew s).dies = s.dies := rfl
@[simp] theorem drew_clusters (s : State) : (drew s).clusters = s.clusters := rfl
@[simp] theorem drew_cores (s : State) : (drew s).cores = s.cores := rfl
@[simp] theorem drew_parts (s : State) : (drew s).parts = s.parts := rfl
@[simp] theorem drew_launches (s : State) : (drew s).launches = s.launches := rfl
@[simp] theorem drew_teams (s : State) : (drew s).teams = s.teams := rfl
@[simp] theorem drew_groups (s : State) : (drew s).groups = s.groups := rfl
@[simp] theorem drew_traps (s : State) : (drew s).traps = s.traps := rfl
@[simp] theorem drew_losts (s : State) : (drew s).losts = s.losts := rfl
@[simp] theorem drew_nonvol (s : State) : (drew s).nonvol = s.nonvol := rfl
@[simp] theorem drew_ids (s : State) : (drew s).ids = s.ids := rfl

end Sys2Proof.Machine
end

