-- ==== Sys2Proof/Laws/Table.lean ====
section
/-!
SUPPORT. Sparse tables and what they hold: reading after writing, for tables, units, and the registers of a group.
-/
namespace Sys2Proof

theorem Tab.get_put_same {α : Type} (d x : α) (t : Tab α) (i : Nat) : Tab.get d (Tab.put t i x) i = x := by
  induction t with
  | nil => simp [Tab.put, Tab.get]
  | cons h t ih =>
    obtain ⟨k, v⟩ := h
    simp only [Tab.put]
    split
    · simp [Tab.get]
    · split
      · simp [Tab.get]
      · simp [Tab.get, *]

theorem Tab.get_put_ne {α : Type} (d x : α) (t : Tab α) (i j : Nat) (h : j ≠ i) : Tab.get d (Tab.put t i x) j = Tab.get d t j := by
  induction t with
  | nil => simp [Tab.put, Tab.get, h]
  | cons q t ih =>
    obtain ⟨k, v⟩ := q
    simp only [Tab.put]
    split
    · simp [Tab.get, h]
    · split
      · rename_i hk
        subst hk
        simp [Tab.get, h]
      · simp [Tab.get, ih]

theorem Tab.get_put {α : Type} (d x : α) (t : Tab α) (i j : Nat) :
    Tab.get d (Tab.put t i x) j = if j = i then x else Tab.get d t j := by
  by_cases h : j = i
  · subst h
    simp [Tab.get_put_same]
  · simp [Tab.get_put_ne, h]

namespace Machine

theorem grp_modGrp (g h : Nat) (f : Group → Group) (s : State) : grp (modGrp g f s) h = if h = g then f (grp s g) else grp s h := by
  simp [grp, modGrp, Tab.get_put]
@[simp] theorem grp_modGrp_same (g : Nat) (f : Group → Group) (s : State) : grp (modGrp g f s) g = f (grp s g) := by simp [grp_modGrp]
theorem grp_modGrp_ne (g h : Nat) (f : Group → Group) (s : State) (n : h ≠ g) : grp (modGrp g f s) h = grp s h := by simp [grp_modGrp, n]
theorem team_modTeam (g h : Nat) (f : Team → Team) (s : State) : team (modTeam g f s) h = if h = g then f (team s g) else team s h := by
  simp [team, modTeam, Tab.get_put]
@[simp] theorem team_modTeam_same (g : Nat) (f : Team → Team) (s : State) : team (modTeam g f s) g = f (team s g) := by simp [team_modTeam]
theorem launch_modLaunch (g h : Nat) (f : Launch → Launch) (s : State) :
    launch (modLaunch g f s) h = if h = g then f (launch s g) else launch s h := by
  simp [launch, modLaunch, Tab.get_put]
@[simp] theorem launch_modLaunch_same (g : Nat) (f : Launch → Launch) (s : State) : launch (modLaunch g f s) g = f (launch s g) := by
  simp [launch_modLaunch]
theorem core_modCore (g h : Nat) (f : Core → Core) (s : State) : core (modCore g f s) h = if h = g then f (core s g) else core s h := by
  simp [core, modCore, Tab.get_put]
@[simp] theorem core_modCore_same (g : Nat) (f : Core → Core) (s : State) : core (modCore g f s) g = f (core s g) := by simp [core_modCore]
theorem clus_modClus (g h : Nat) (f : Cluster → Cluster) (s : State) : clus (modClus g f s) h = if h = g then f (clus s g) else clus s h := by
  simp [clus, modClus, Tab.get_put]
@[simp] theorem clus_modClus_same (g : Nat) (f : Cluster → Cluster) (s : State) : clus (modClus g f s) g = f (clus s g) := by
  simp [clus_modClus]
theorem die_modDie (g h : Nat) (f : Die → Die) (s : State) : die (modDie g f s) h = if h = g then f (die s g) else die s h := by
  simp [die, modDie, Tab.get_put]
@[simp] theorem die_modDie_same (g : Nat) (f : Die → Die) (s : State) : die (modDie g f s) g = f (die s g) := by simp [die_modDie]
theorem part_modPart (g h : Nat) (f : Partition → Partition) (s : State) :
    part (modPart g f s) h = if h = g then f (part s g) else part s h := by
  simp [part, modPart, Tab.get_put]
@[simp] theorem part_modPart_same (g : Nat) (f : Partition → Partition) (s : State) : part (modPart g f s) g = f (part s g) := by
  simp [part_modPart]

/-! Units seen through updates of other tables. -/

theorem grp_of_groups {s t : State} (h : t.groups = s.groups) (g : Nat) : grp t g = grp s g := by simp [grp, h]
theorem part_of_parts {s t : State} (h : t.parts = s.parts) (p : Nat) : part t p = part s p := by simp [part, h]
@[simp] theorem grp_modPart (p g : Nat) (f : Partition → Partition) (s : State) : grp (modPart p f s) g = grp s g := rfl
@[simp] theorem grp_modCore (p g : Nat) (f : Core → Core) (s : State) : grp (modCore p f s) g = grp s g := rfl
@[simp] theorem grp_modTeam (p g : Nat) (f : Team → Team) (s : State) : grp (modTeam p f s) g = grp s g := rfl
@[simp] theorem grp_modDie (p g : Nat) (f : Die → Die) (s : State) : grp (modDie p f s) g = grp s g := rfl
@[simp] theorem part_modGrp (p g : Nat) (f : Group → Group) (s : State) : part (modGrp g f s) p = part s p := rfl
@[simp] theorem grp_drew (g : Nat) (s : State) : grp (drew s) g = grp s g := rfl
@[simp] theorem part_drew (p : Nat) (s : State) : part (drew s) p = part s p := rfl

/-! ### Registers of a group -/

theorem vGet_vPut (g l n h m k : Nat) (x : Word) (s : State) :
    vGet (vPut g l n x s) h m k = if h = g ∧ m * 256 + k = l * 256 + n then x else vGet s h m k := by
  simp only [vGet, vPut, grp_modGrp]
  by_cases hg : h = g
  · subst hg
    simp [Tab.get_put]
  · simp [hg]
theorem kGet_kPut (g n h k : Nat) (x : DWord) (s : State) : kGet (kPut g n x s) h k = if h = g ∧ k = n then x else kGet s h k := by
  simp only [kGet, kPut, grp_modGrp]
  by_cases hg : h = g
  · subst hg
    simp [Tab.get_put]
  · simp [hg]
theorem pGet_pPut (g l n h m k : Nat) (b : Bool) (s : State) (hm : m < 32) :
    pGet (pPut g l n b s) h m k = if h = g ∧ k = n ∧ m = l ∧ n ≠ 0 then b else pGet s h m k := by
  have one : (Mask.one l).getLsbD m = decide (m = l) := by
    simp only [Mask.one, BitVec.getLsbD_ofNat, Nat.testBit_two_pow, hm, decide_true, Bool.true_and]
    exact decide_eq_decide.mpr eq_comm
  unfold pPut
  split
  · rename_i hn
    simp [hn]
  · rename_i hn
    simp only [pGet, grp_modGrp]
    by_cases hg : h = g
    · subst hg
      by_cases hk : k = n
      · subst hk
        simp only [Tab.get_put, if_true, true_and, ne_eq, hn, not_false_eq_true, and_true]
        cases b
        · simp only [Bool.false_eq_true, if_false, BitVec.getLsbD_and, BitVec.getLsbD_not, one, hm, decide_true, Bool.true_and]
          by_cases hx : m = l <;> simp [hx]
        · simp only [if_true, BitVec.getLsbD_or, one]
          by_cases hx : m = l <;> simp [hx]
      · simp [hk, Tab.get_put]
    · simp [hg]
@[simp] theorem vGet_kPut (g n h m k : Nat) (x : DWord) (s : State) : vGet (kPut g n x s) h m k = vGet s h m k := by
  simp only [vGet, kPut, grp_modGrp]
  split <;> simp_all
@[simp] theorem pGet_kPut (g n h m k : Nat) (x : DWord) (s : State) : pGet (kPut g n x s) h m k = pGet s h m k := by
  simp only [pGet, kPut, grp_modGrp]
  split <;> simp_all
@[simp] theorem pGet_vPut (g l n h m k : Nat) (x : Word) (s : State) : pGet (vPut g l n x s) h m k = pGet s h m k := by
  simp only [pGet, vPut, grp_modGrp]
  split <;> simp_all
@[simp] theorem kGet_vPut (g l n h k : Nat) (x : Word) (s : State) : kGet (vPut g l n x s) h k = kGet s h k := by
  simp only [kGet, vPut, grp_modGrp]
  split <;> simp_all
@[simp] theorem vGet_pPut (g l n h m k : Nat) (b : Bool) (s : State) : vGet (pPut g l n b s) h m k = vGet s h m k := by
  unfold pPut
  split
  · rfl
  · simp only [vGet, grp_modGrp]
    split <;> simp_all
@[simp] theorem kGet_pPut (g l n h k : Nat) (b : Bool) (s : State) : kGet (pPut g l n b s) h k = kGet s h k := by
  unfold pPut
  split
  · rfl
  · simp only [kGet, grp_modGrp]
    split <;> simp_all
/-- Predicate p0 reads true, whatever was written (R210). -/
theorem pGet_zero (s : State) (g l : Nat) : pGet s g l 0 = true := by simp [pGet]
/-- A write to p0 leaves the state as it was (R210). -/
theorem pPut_zero (g l : Nat) (b : Bool) (s : State) : pPut g l 0 b s = s := by simp [pPut]

end Machine
end Sys2Proof
end

