-- ==== Sys2Proof/Laws/Memory.lean ====
section
/-!
SUPPORT. Memory: every operation keeps the canonical form, a byte read after a write is the byte written or the byte from before, and canonical
memories that read alike are equal.
-/
namespace Sys2Proof.Machine

theorem cellsFrom_le {lo lo' : Nat} (h : lo' ≤ lo) (m : List Host.Cell) (hm : cellsFrom lo m = true) : cellsFrom lo' m = true := by
  cases m with
  | nil => rfl
  | cons q t =>
    simp only [cellsFrom, Bool.and_eq_true, decide_eq_true_eq] at hm ⊢
    exact ⟨⟨Nat.le_trans h hm.1.1, hm.1.2⟩, hm.2⟩

/-- Below its bound a memory reads as one that nothing has written. -/
theorem cellGet_below (m : List Host.Cell) (lo i : Nat) (hm : cellsFrom lo m = true) (h : i < lo) : cellGet m i = unwritten := by
  induction m generalizing lo with
  | nil => rfl
  | cons q t ih =>
    simp only [cellsFrom, Bool.and_eq_true, decide_eq_true_eq] at hm
    have hne : i ≠ q.1 := by omega
    simp only [cellGet, hne, if_false]
    exact ih (q.1 + 1) hm.2 (by omega)

theorem cellsFrom_put (m : List Host.Cell) (lo i : Nat) (b : Byte) (hm : cellsFrom lo m = true) (h : lo ≤ i) : cellsFrom lo (cellPut m i b) = true := by
  induction m generalizing lo with
  | nil =>
    by_cases hb : b = unwritten <;> simp [cellPut, hb, cellsFrom, h]
  | cons q t ih =>
    obtain ⟨k, c⟩ := q
    have hq := hm
    simp only [cellsFrom, Bool.and_eq_true, decide_eq_true_eq] at hm
    simp only [cellPut]
    split
    · by_cases hb : b = unwritten
      · simpa [hb] using hq
      · have : cellsFrom (i + 1) ((k, c) :: t) = true := by
          simp only [cellsFrom, Bool.and_eq_true, decide_eq_true_eq]
          exact ⟨⟨by omega, hm.1.2⟩, hm.2⟩
        simp only [hb, if_false]
        rw [cellsFrom, this]
        simp [h, hb]
    · split
      · rename_i hk
        subst hk
        by_cases hb : b = unwritten
        · simp only [hb, if_true]
          exact cellsFrom_le (by omega) t hm.2
        · simp [hb, cellsFrom, h, hm.2]
      · simp only [cellsFrom, Bool.and_eq_true, decide_eq_true_eq]
        exact ⟨hm.1, ih (k + 1) hm.2 (by omega)⟩

/-- Storing a byte keeps the canonical form. -/
theorem Memory.wf_put (m : List Host.Cell) (i : Nat) (b : Byte) (hm : Memory.wf m = true) : Memory.wf (cellPut m i b) = true :=
  cellsFrom_put m 0 i b hm (Nat.zero_le i)
/-- So does storing one byte for each element of a list. -/
theorem Memory.wf_foldl {α : Type} (f : List Host.Cell → α → List Host.Cell) (h : ∀ m x, Memory.wf m = true → Memory.wf (f m x) = true) (l : List α)
    (m : List Host.Cell) (hm : Memory.wf m = true) : Memory.wf (l.foldl f m) = true := by
  induction l generalizing m with
  | nil => exact hm
  | cons x t ih => exact ih (f m x) (h m x hm)
/-- Storing bytes in a row keeps the canonical form. -/
theorem Memory.wf_write (m : List Host.Cell) (k : Nat) (l : List Byte) (hm : Memory.wf m = true) : Memory.wf (cellWrite m k l) = true :=
  Memory.wf_foldl _ (fun m p h => Memory.wf_put m (k + p.1) p.2 h) _ m hm

theorem cellsFrom_filter (f : Host.Cell → Bool) (m : List Host.Cell) (lo : Nat) (hm : cellsFrom lo m = true) : cellsFrom lo (m.filter f) = true := by
  induction m generalizing lo with
  | nil => rfl
  | cons q t ih =>
    simp only [cellsFrom, Bool.and_eq_true, decide_eq_true_eq] at hm
    simp only [List.filter_cons]
    split
    · simp only [cellsFrom, Bool.and_eq_true, decide_eq_true_eq]
      exact ⟨hm.1, ih (q.1 + 1) hm.2⟩
    · exact cellsFrom_le (by omega) _ (ih (q.1 + 1) hm.2)
/-- Forgetting bytes keeps the canonical form. -/
theorem Memory.wf_filter (f : Host.Cell → Bool) (m : List Host.Cell) (hm : Memory.wf m = true) : Memory.wf (m.filter f) = true := cellsFrom_filter f m 0 hm

theorem cellGet_put_from (m : List Host.Cell) (lo i j : Nat) (b : Byte) (hm : cellsFrom lo m = true) :
    cellGet (cellPut m i b) j = if j = i then b else cellGet m j := by
  induction m generalizing lo with
  | nil =>
    by_cases hb : b = unwritten <;> by_cases hj : j = i <;> simp [cellPut, cellGet, hb, hj]
  | cons q t ih =>
    obtain ⟨k, c⟩ := q
    simp only [cellsFrom, Bool.and_eq_true, decide_eq_true_eq] at hm
    simp only [cellPut]
    split
    · rename_i hik
      by_cases hb : b = unwritten
      · by_cases hj : j = i
        · have hji : j ≠ k := by omega
          simp only [hb, if_true, cellGet, hj]
          simp only [cellGet_below t (k + 1) i hm.2 (by omega)]
          split <;> first | omega | rfl
        · simp [hb, hj]
      · simp [hb, cellGet]
    · split
      · rename_i hk
        subst hk
        by_cases hb : b = unwritten
        · by_cases hj : j = i
          · subst hj
            simp [hb, cellGet_below t (j + 1) j hm.2 (by omega)]
          · simp [hb, cellGet, hj]
        · by_cases hj : j = i <;> simp [hb, cellGet, hj]
      · by_cases hj : j = k
        · subst hj
          have : j ≠ i := by omega
          simp [cellGet, this]
        · simp [cellGet, hj, ih (k + 1) hm.2]
/-- A byte of memory after a byte is stored. -/
theorem cellGet_put (m : List Host.Cell) (i j : Nat) (b : Byte) (hm : Memory.wf m = true) :
    cellGet (cellPut m i b) j = if j = i then b else cellGet m j := cellGet_put_from m 0 i j b hm

/-- A byte of memory after a list of bytes is stored at their keys: the last stored at the key, or the byte from before. -/
theorem cellGet_puts (q : List (Nat × Byte)) (m : List Host.Cell) (j : Nat) (hm : Memory.wf m = true) :
    cellGet (q.foldl (fun m p => cellPut m p.1 p.2) m) j = q.foldl (fun x p => if p.1 = j then p.2 else x) (cellGet m j) := by
  induction q generalizing m with
  | nil => rfl
  | cons p t ih =>
    simp only [List.foldl_cons]
    rw [ih _ (Memory.wf_put m p.1 p.2 hm), cellGet_put m p.1 j p.2 hm]
    by_cases h : p.1 = j
    · simp [h]
    · have h' : ¬ j = p.1 := fun e => h e.symm
      simp [h, h']

theorem cellWrite_eq (m : List Host.Cell) (k : Nat) (l : List Byte) :
    cellWrite m k l = (((List.range l.length).zip l).map (fun p => (k + p.1, p.2))).foldl (fun m p => cellPut m p.1 p.2) m := by
  simp [cellWrite, List.foldl_map]
/-- Outside the bytes stored in a row, memory reads as before. -/
theorem cellGet_write_out (m : List Host.Cell) (k j : Nat) (l : List Byte) (hm : Memory.wf m = true) (h : j < k ∨ k + l.length ≤ j) :
    cellGet (cellWrite m k l) j = cellGet m j := by
  rw [cellWrite_eq, cellGet_puts _ m j hm]
  have hq : ∀ p ∈ ((List.range l.length).zip l).map (fun p => (k + p.1, p.2)), p.1 ≠ j := by
    intro p hp
    obtain ⟨q, hq, rfl⟩ := List.mem_map.mp hp
    have := List.mem_range.mp (List.of_mem_zip hq).1
    simp only
    omega
  generalize ((List.range l.length).zip l).map (fun p => (k + p.1, p.2)) = q at hq
  induction q with
  | nil => rfl
  | cons p t ih =>
    simp only [List.foldl_cons]
    rw [if_neg (hq p (by simp))]
    exact ih (fun p hp => hq p (by simp [hp]))

/-- Canonical memories that read alike are equal. -/
theorem cells_ext (m n : List Host.Cell) (lo : Nat) (hm : cellsFrom lo m = true) (hn : cellsFrom lo n = true) (h : ∀ i, cellGet m i = cellGet n i) : m = n := by
  induction m generalizing n lo with
  | nil =>
    cases n with
    | nil => rfl
    | cons q t =>
      simp only [cellsFrom, Bool.and_eq_true, decide_eq_true_eq] at hn
      have := h q.1
      simp only [cellGet, if_true] at this
      simp [← this] at hn
  | cons p s ih =>
    cases n with
    | nil =>
      simp only [cellsFrom, Bool.and_eq_true, decide_eq_true_eq] at hm
      have := h p.1
      simp only [cellGet, if_true] at this
      simp [this] at hm
    | cons q t =>
      simp only [cellsFrom, Bool.and_eq_true, decide_eq_true_eq] at hm hn
      have hp := h p.1
      have hq := h q.1
      have hk : p.1 = q.1 := by
        rcases Nat.lt_trichotomy p.1 q.1 with hlt | heq | hgt
        · have hne : p.1 ≠ q.1 := by omega
          simp only [cellGet, if_true, hne, if_false, cellGet_below t (q.1 + 1) p.1 hn.2 (by omega)] at hp
          simp [hp] at hm
        · exact heq
        · have hne : q.1 ≠ p.1 := by omega
          simp only [cellGet, if_true, hne, if_false, cellGet_below s (p.1 + 1) q.1 hm.2 (by omega)] at hq
          simp [← hq] at hn
      have hb : p.2 = q.2 := by simpa [cellGet, hk] using hp
      have ht : s = t := by
        apply ih t (p.1 + 1) hm.2 (hk ▸ hn.2)
        intro i
        by_cases hi : i = p.1
        · rw [cellGet_below s (p.1 + 1) i hm.2 (by omega), cellGet_below t (q.1 + 1) i hn.2 (by omega)]
        · have := h i
          have hi' : i ≠ q.1 := by omega
          simpa [cellGet, hi, hi'] using this
      rw [ht, Prod.ext hk hb]
/-- Equal memories are equal data. -/
theorem Memory.ext (m n : List Host.Cell) (hm : Memory.wf m = true) (hn : Memory.wf n = true) (h : ∀ i, cellGet m i = cellGet n i) : m = n :=
  cells_ext m n 0 hm hn h

end Sys2Proof.Machine
end

