-- ==== Sys2Proof/Laws/Canonical.lean ====
section
/-!
SUPPORT. The operations on the state that store bytes keep memory and every scratchpad in canonical form.
-/
namespace Sys2Proof

theorem Tab.mem_put {α : Type} (t : Tab α) (i : Nat) (x : α) (q : Nat × α) (h : q ∈ Tab.put t i x) : q = (i, x) ∨ q ∈ t := by
  induction t with
  | nil => simpa [Tab.put] using h
  | cons p t ih =>
    obtain ⟨k, v⟩ := p
    simp only [Tab.put] at h
    split at h
    · simpa using h
    · split at h
      · rcases List.mem_cons.mp h with h | h
        · exact .inl h
        · exact .inr (List.mem_cons_of_mem _ h)
      · rcases List.mem_cons.mp h with h | h
        · exact .inr (by simp [h])
        · rcases ih h with h | h
          · exact .inl h
          · exact .inr (List.mem_cons_of_mem _ h)

theorem Tab.get_mem {α : Type} (d : α) (t : Tab α) (i : Nat) : Tab.get d t i = d ∨ ∃ q ∈ t, q.2 = Tab.get d t i := by
  induction t with
  | nil => exact .inl rfl
  | cons p t ih =>
    obtain ⟨k, v⟩ := p
    simp only [Tab.get]
    split
    · exact .inr ⟨_, List.mem_cons_self .., rfl⟩
    · rcases ih with h | ⟨q, hq, h⟩
      · exact .inl h
      · exact .inr ⟨q, List.mem_cons_of_mem _ hq, h⟩

namespace Machine

/-- The scratchpad of any team is canonical. -/
theorem State.Canonical.pad {s : State} (h : s.Canonical) (t : Nat) : Memory.wf (team s t).pad = true := by
  rcases Tab.get_mem ({} : Team) s.teams t with e | ⟨q, hq, e⟩
  · rw [team, e]
    rfl
  · rw [team, ← e]
    exact h.2 q hq
/-- A state with the same bytes. -/
theorem State.Canonical.same {s t : State} (h : s.Canonical) (hm : t.mem = s.mem) (ht : t.teams = s.teams) : t.Canonical := by
  rw [State.Canonical, hm, ht]
  exact h
/-- A change of a group, a partition, a core, a die, a cluster or a launch stores nothing. -/
theorem State.Canonical.modGrp {s : State} (h : s.Canonical) (g : Nat) (f : Group → Group) : (modGrp g f s).Canonical := h.same rfl rfl
theorem State.Canonical.modPart {s : State} (h : s.Canonical) (p : Nat) (f : Partition → Partition) : (modPart p f s).Canonical := h.same rfl rfl
theorem State.Canonical.modCore {s : State} (h : s.Canonical) (c : Nat) (f : Core → Core) : (modCore c f s).Canonical := h.same rfl rfl
theorem State.Canonical.modDie {s : State} (h : s.Canonical) (d : Nat) (f : Die → Die) : (modDie d f s).Canonical := h.same rfl rfl
theorem State.Canonical.modClus {s : State} (h : s.Canonical) (c : Nat) (f : Cluster → Cluster) : (modClus c f s).Canonical := h.same rfl rfl
theorem State.Canonical.modLaunch {s : State} (h : s.Canonical) (l : Nat) (f : Launch → Launch) : (modLaunch l f s).Canonical := h.same rfl rfl
/-- A change of a team that leaves its scratchpad canonical. -/
theorem State.Canonical.modTeam {s : State} (h : s.Canonical) (t : Nat) (f : Team → Team) (hf : ∀ x, Memory.wf x.pad = true → Memory.wf (f x).pad = true) :
    (modTeam t f s).Canonical := by
  refine ⟨h.1, fun q hq => ?_⟩
  rcases Tab.mem_put _ _ _ _ hq with e | e
  · rw [e]
    exact hf _ (h.pad t)
  · exact h.2 q e
/-- Bytes stored in a scratchpad. -/
theorem State.Canonical.padWrite {s : State} (h : s.Canonical) (t off : Nat) (l : List Byte) : (padWrite t off l s).Canonical :=
  h.modTeam t _ (fun x hx => Memory.wf_write x.pad off l hx)
/-- A write applied at its home. -/
theorem State.Canonical.applyAt {s : State} (h : s.Canonical) (key : Nat) (l : List Byte) : (applyAt key l s).2.Canonical :=
  ⟨Memory.wf_write s.mem key l h.1, h.2⟩
/-- Bytes forgotten. -/
theorem State.Canonical.filterMem {s : State} (h : s.Canonical) (f : Host.Cell → Bool) : ({ s with mem := s.mem.filter f } : State).Canonical :=
  ⟨Memory.wf_filter f s.mem h.1, h.2⟩
/-- One operation after another. -/
theorem State.Canonical.foldl {α : Type} (f : State → α → State) (hf : ∀ s x, s.Canonical → (f s x).Canonical) (l : List α) (s : State) (h : s.Canonical) :
    (l.foldl f s).Canonical := by
  induction l generalizing s with
  | nil => exact h
  | cons x t ih => exact ih _ (hf s x h)

end Machine
end Sys2Proof
end

