-- ==== Sys2Proof/Laws/Frame.lean ====
section
/-!
SUPPORT. What the words' shared operations leave as it was: writes of registers, moving past a word (R192, R217), parking (R197),
the draw number. `OnlyGroup`, `OnlyRegs` and the rest compose.
-/
namespace Sys2Proof.Machine

/-! ### They compose -/

theorem OnlyGroup.refl (g : Nat) (s : State) : OnlyGroup g s s := ⟨rfl, fun _ _ => rfl, fun _ => rfl⟩
theorem OnlyGroup.trans {g : Nat} {s t u : State} (a : OnlyGroup g s t) (b : OnlyGroup g t u) : OnlyGroup g s u := by
  obtain ⟨a1, a2, a3⟩ := a
  obtain ⟨b1, b2, b3⟩ := b
  refine ⟨?_, fun h n => (b2 h n).trans (a2 h n), fun p => ?_⟩
  · calc u = { t with groups := u.groups, parts := u.parts, free := u.free } := b1
      _ = { s with groups := u.groups, parts := u.parts, free := u.free } := by rw [a1]
  · calc part u p = { part t p with ctr := (part u p).ctr } := b3 p
      _ = { part s p with ctr := (part u p).ctr } := by rw [a3 p]

theorem OnlyRegs.refl (g : Nat) (s : State) : OnlyRegs g s s := rfl
theorem OnlyRegs.trans {g : Nat} {s t u : State} (a : OnlyRegs g s t) (b : OnlyRegs g t u) : OnlyRegs g s u := by
  unfold OnlyRegs at *
  rw [b, a]

theorem KeepsV.refl (g : Nat) (s : State) : KeepsV g s s := fun _ _ => rfl
theorem KeepsV.trans {g : Nat} {s t u : State} (a : KeepsV g s t) (b : KeepsV g t u) : KeepsV g s u := fun l n => (b l n).trans (a l n)
theorem KeepsP.refl (g : Nat) (s : State) : KeepsP g s s := fun _ _ => rfl
theorem KeepsP.trans {g : Nat} {s t u : State} (a : KeepsP g s t) (b : KeepsP g t u) : KeepsP g s u := fun l n => (b l n).trans (a l n)

/-! ### Single updates -/

theorem OnlyGroup.modGrp (g : Nat) (f : Group → Group) (s : State) : OnlyGroup g s (modGrp g f s) :=
  ⟨rfl, fun h n => by simp [grp_modGrp, n], fun _ => rfl⟩
theorem OnlyGroup.drew (g : Nat) (s : State) : OnlyGroup g s (drew s) := ⟨rfl, fun _ _ => rfl, fun _ => rfl⟩
theorem OnlyGroup.countAt (g p d i n : Nat) (s : State) : OnlyGroup g s (countAt p d i n s) := by
  refine ⟨rfl, fun _ _ => rfl, fun q => ?_⟩
  simp only [Machine.countAt, part_modPart]
  split <;> simp_all
theorem OnlyGroup.count (g h i n : Nat) (s : State) : OnlyGroup g s (count h i n s) := OnlyGroup.countAt ..
@[simp] theorem grp_countAt (p d i n g : Nat) (s : State) : grp (countAt p d i n s) g = grp s g := rfl
@[simp] theorem grp_count (h i n g : Nat) (s : State) : grp (count h i n s) g = grp s g := rfl

/-- An update of a group that touches only what `OnlyRegs` names. -/
theorem OnlyRegs.modGrp (g : Nat) (f : Group → Group) (s : State)
    (h : f (grp s g) = { grp s g with v := (f (grp s g)).v, p := (f (grp s g)).p, k := (f (grp s g)).k, x := (f (grp s g)).x,
                                      lanes := (f (grp s g)).lanes, loop := (f (grp s g)).loop, parked := (f (grp s g)).parked,
                                      largestC := (f (grp s g)).largestC }) : OnlyRegs g s (modGrp g f s) := by
  unfold OnlyRegs
  rw [grp_modGrp_same]
  exact h
theorem OnlyRegs.of_grp {g : Nat} {s t : State} (h : grp t g = grp s g) : OnlyRegs g s t := by
  unfold OnlyRegs
  rw [h]

/-! ### What a step of a word changes: the two frames together -/

/-- Only one group, and of it only its registers and places. -/
def Local (g : Nat) (s t : State) : Prop := OnlyGroup g s t ∧ OnlyRegs g s t
theorem Local.refl (g : Nat) (s : State) : Local g s s := ⟨.refl g s, .refl g s⟩
theorem Local.trans {g : Nat} {s t u : State} (a : Local g s t) (b : Local g t u) : Local g s u := ⟨a.1.trans b.1, a.2.trans b.2⟩
theorem Local.ite {g : Nat} {s t u : State} {c : Prop} [Decidable c] (a : Local g s t) (b : Local g s u) : Local g s (if c then t else u) := by
  split
  · exact a
  · exact b
theorem Local.vPut (g l n : Nat) (x : Word) (s : State) : Local g s (vPut g l n x s) := ⟨.modGrp .., .modGrp _ _ _ rfl⟩
theorem Local.kPut (g n : Nat) (x : DWord) (s : State) : Local g s (kPut g n x s) := ⟨.modGrp .., .modGrp _ _ _ rfl⟩
theorem Local.pPut (g l n : Nat) (b : Bool) (s : State) : Local g s (pPut g l n b s) := by
  unfold Machine.pPut
  split
  · exact .refl g s
  · exact ⟨.modGrp .., .modGrp _ _ _ rfl⟩
theorem Local.modLane (g l : Nat) (f : Lane → Lane) (s : State) : Local g s (modLane g l f s) := ⟨.modGrp .., .modGrp _ _ _ rfl⟩
theorem Local.drew (g : Nat) (s : State) : Local g s (drew s) := ⟨.drew g s, .of_grp rfl⟩
theorem Local.count (g h i n : Nat) (s : State) : Local g s (count h i n s) := ⟨.count .., .of_grp rfl⟩
theorem Local.sawC (g c : Nat) (s : State) : Local g s (sawC g c s) := ⟨.modGrp .., .modGrp _ _ _ rfl⟩
theorem Local.foldl {α : Type} {g : Nat} (f : State → α → State) (h : ∀ s x, Local g s (f s x)) (l : List α) (s : State) :
    Local g s (l.foldl f s) := by
  induction l generalizing s with
  | nil => exact .refl g s
  | cons a t ih => exact (h s a).trans (ih (f s a))
theorem Local.modLanes (g : Nat) (m : Mask) (f : Lane → Lane) (s : State) : Local g s (modLanes g m f s) :=
  Local.foldl _ (fun s l => Local.modLane g l f s) _ s
theorem Local.putOut (g l : Nat) (o : LaneOut) (s : State) : Local g s (putOut g l o s) :=
  Local.trans (Local.foldl (fun s (q : Nat × Word) => Machine.vPut g l q.1 q.2 s) (fun s q => Local.vPut g l q.1 q.2 s) o.v s)
    (Local.foldl (fun s (q : Nat × Bool) => Machine.pPut g l q.1 q.2 s) (fun s q => Local.pPut g l q.1 q.2 s) o.p _)
theorem Local.putOuts (g : Nat) (l : List (Nat × LaneOut)) (s : State) : Local g s (putOuts g l s) :=
  Local.foldl (fun s (q : Nat × LaneOut) => Machine.putOut g q.1 q.2 s) (fun s q => Local.putOut g q.1 q.2 s) l s
theorem Local.advanceStreams (a : Arrival) (s : State) : Local a.gid s (advanceStreams a s) :=
  Local.foldl _ (fun _ _ => ⟨.modGrp .., .modGrp _ _ _ rfl⟩) _ s
theorem Local.parkIf (a : Arrival) (s : State) : Local a.gid s (parkIf a s) := by
  unfold Machine.parkIf
  split
  · exact .refl _ s
  · exact .ite ⟨.modGrp .., .modGrp _ _ _ rfl⟩ (.refl _ s)
theorem Local.countPass (g : Nat) (b : LoopBuf) (s : State) : Local g s (countPass g b s) :=
  (Local.kPut ..).trans (Local.trans ⟨.modGrp .., .modGrp _ _ _ rfl⟩ (Local.count ..))
theorem Local.endPass (g : Nat) (s : State) : Local g s (endPass g s) := by
  unfold Machine.endPass
  split
  · exact .refl _ s
  · exact .ite ⟨.modGrp .., .modGrp _ _ _ rfl⟩ (.ite (.refl _ s) (.ite (.countPass ..)
      ((Local.countPass ..).trans ((Local.foldl _ (fun s l => Local.modLane g l _ s) _ _).trans ⟨.modGrp .., .modGrp _ _ _ rfl⟩))))
theorem Local.passLanes (a : Arrival) (m : Mask) (s : State) : Local a.gid s (passLanes a m s) :=
  .ite ((Local.modLanes ..).trans (Local.endPass ..)) (Local.modLanes ..)
theorem Local.finishLanes (a : Arrival) (m : Mask) (s : State) : Local a.gid s (finishLanes a m s) :=
  (Local.parkIf a s).trans (Local.passLanes a m _)
theorem Local.finish (a : Arrival) (s : State) : Local a.gid s (finish a s) := Local.finishLanes ..
theorem OnlyGroup.cur {g : Nat} {s t : State} (h : OnlyGroup g s t) : t.cur = s.cur := by rw [h.1]
theorem Local.cur {g : Nat} {s t : State} (h : Local g s t) : t.cur = s.cur := h.1.cur
/-- A word that has run and moves on changes nothing but its group's registers and places (R192). -/
theorem Local.done (s : State) : Local s.cur.gid s (done s) := (Local.finish ..).trans (Local.drew ..)

end Sys2Proof.Machine
end

