-- ==== Sys2Proof/Laws/Fetch.lean ====
section
/-!
SUPPORT. What reads of lines leave as it was: a read at issue brings lines to a core's caches and changes nothing else but counts and
horizons (R124 to R126, R368).
-/
namespace Sys2Proof.Machine

theorem OnlyCaches.refl (s : State) : OnlyCaches s s := rfl
theorem OnlyCaches.trans {s t u : State} (a : OnlyCaches s t) (b : OnlyCaches t u) : OnlyCaches s u := by
  unfold OnlyCaches at *
  rw [b, a]
theorem OnlyCaches.foldl {α : Type} (f : State → α → State) (h : ∀ s x, OnlyCaches s (f s x)) (l : List α) (s : State) :
    OnlyCaches s (l.foldl f s) := by
  induction l generalizing s with
  | nil => rfl
  | cons a t ih => exact (h s a).trans (ih (f s a))
theorem OnlyCaches.grp {s t : State} (h : OnlyCaches s t) (g : Nat) : grp t g = grp s g := by
  rw [h]
  rfl
theorem OnlyCaches.modDie (d : Nat) (f : Die → Die) (s : State) : OnlyCaches s (modDie d f s) := rfl
theorem OnlyCaches.modCore (c : Nat) (f : Core → Core) (s : State) : OnlyCaches s (modCore c f s) := rfl
theorem OnlyCaches.modPart (p : Nat) (f : Partition → Partition) (s : State) : OnlyCaches s (modPart p f s) := rfl
theorem OnlyCaches.modLine (n : Nat) (f : LineState → LineState) (s : State) : OnlyCaches s (modLine n f s) := rfl
theorem OnlyCaches.countAt (p d i n : Nat) (s : State) : OnlyCaches s (countAt p d i n s) := rfl
theorem OnlyCaches.meterAdd (p i w n : Nat) (s : State) : OnlyCaches s (meterAdd p i w n s) := rfl
theorem OnlyCaches.touchMsc (p line : Nat) (s : State) : OnlyCaches s (touchMsc p line s) := by
  simp only [Machine.touchMsc]
  split <;> rfl
theorem OnlyCaches.moved (p : Nat) (l : Option Nat) (line n : Nat) (w : Bool) (s : State) : OnlyCaches s (moved p l line n w s) :=
  (OnlyCaches.touchMsc p line s).trans (by rfl)
theorem OnlyCaches.movedFar (p : Nat) (l : Option Nat) (d n : Nat) (w : Bool) (s : State) : OnlyCaches s (movedFar p l d n w s) := rfl
theorem OnlyCaches.giveL1 (c : Nat) (x : Copy) (s : State) : OnlyCaches s (giveL1 c x s) := by
  simp only [Machine.giveL1]
  split <;> rfl
theorem OnlyCaches.install (c : Nat) (x : Copy) (s : State) : OnlyCaches s (install c x s) := by
  simp only [Machine.install]
  split
  · exact OnlyCaches.trans (by rfl) (.giveL1 ..)
  · exact .giveL1 ..
theorem OnlyCaches.dropCopies (c line : Nat) (s : State) : OnlyCaches s (dropCopies c line s) := rfl
theorem OnlyCaches.makeCopy (s : State) (c p : Nat) (l : Option Nat) (line lease : Nat) : OnlyCaches s (makeCopy s c p l line lease).2 :=
  OnlyCaches.trans (.modLine ..) ((OnlyCaches.moved ..).trans (.countAt ..))
theorem OnlyCaches.farCopy {s : State} {c p : Nat} {l : Option Nat} {line : Nat} {data : List Byte} {e cc : Nat} {r : Copy × State}
    (h : farCopy s c p l line data e cc = some r) : OnlyCaches s r.2 := by
  simp only [Machine.farCopy] at h
  split at h
  · cases h
    exact .movedFar ..
  · split at h
    · cases h
    · simp only [Option.map_eq_some_iff] at h
      obtain ⟨_, -, rfl⟩ := h
      exact OnlyCaches.trans (.movedFar ..) (OnlyCaches.trans (.modLine ..) (.moved ..))
  · cases h
theorem OnlyCaches.readLine (c p : Nat) (l : Option Nat) (va home line : Nat) (far : List Byte × Nat × Nat) (s : State) :
    OnlyCaches s (readLine c p l va home line far s) := by
  simp only [Machine.readLine]
  split
  · exact .refl s
  split
  · split
    · next h => exact (OnlyCaches.farCopy h).trans (.install ..)
    · exact (OnlyCaches.movedFar ..).trans (.dropCopies ..)
  · split
    · exact (OnlyCaches.moved ..).trans (.dropCopies ..)
    · split
      · exact (OnlyCaches.makeCopy ..).trans (.install ..)
      · exact (OnlyCaches.moved ..).trans (.dropCopies ..)
theorem OnlyCaches.countHits (g : Nat) (x : Loc) (s : State) : OnlyCaches s (countHits g x s) := by
  simp only [Machine.countHits]
  repeat' split
  all_goals rfl
theorem OnlyCaches.cacheEntry (c p va : Nat) (s : State) : OnlyCaches s (cacheEntry c p va s) := by
  simp only [Machine.cacheEntry]
  repeat' split
  all_goals rfl
theorem OnlyCaches.fetchLines (g : Nat) (far : Nat → List Byte × Nat × Nat) (l : List (Nat × Nat)) (s : State) :
    OnlyCaches s (fetchLines g far l s) :=
  OnlyCaches.foldl _ (fun _ _ => .readLine ..) l s
/-- A read at issue changes nothing but caches, counts and horizons. -/
theorem OnlyCaches.fetchNow (g : Nat) (rs : List Reach) (s : State) : OnlyCaches s (fetchNow g rs s) :=
  (OnlyCaches.foldl _ (fun _ _ => (OnlyCaches.countHits ..).trans (.cacheEntry ..)) rs s).trans (.fetchLines ..)

/-- What `fetchStreams` leaves: the lines that the bound sources read have come to the core. -/
theorem fetchStreams_fetched (wa wb wd : Nat) (s : State) : Fetched s.cur.gid s (fetchStreams wa wb wd s) := by
  simp only [fetchStreams]
  split
  · exact ⟨rfl, fun _ _ => rfl, rfl⟩
  · have h := OnlyCaches.fetchNow s.cur.gid (streamReads s wa wb wd) s
    have hg := h.grp
    generalize Machine.fetchNow s.cur.gid (streamReads s wa wb wd) s = t at h hg
    refine ⟨?_, fun k hk => ?_, ?_⟩
    · rw [h]
      rfl
    · simp [sawC, grp_modGrp, hk, hg]
    · simp [sawC, hg]
/-- Without a bound source no line is fetched (R214). -/
theorem fetchStreams_unbound {wa wb wd : Nat} {s : State} (h : unbound s = true) : fetchStreams wa wb wd s = s := by
  simp only [unbound, Bool.and_eq_true, Option.isNone_iff_eq_none] at h
  obtain ⟨⟨h1, h2⟩, h3⟩ := h
  simp [fetchStreams, streamReads, streamAccs, boundUses, h1, h2, h3]

end Sys2Proof.Machine
end

