-- ==== Sys2Proof/Laws/Move.lean ====
section
/-!
SUPPORT. Moving past a word (R192, R197, R217): what it does to lanes, and that it keeps vector registers, predicates, streams
and every uniform register but a loop's counter.
-/
namespace Sys2Proof.Machine

/-! ### Lanes -/

theorem lane_modLane (g l m : Nat) (f : Lane → Lane) (s : State) :
    lane (modLane g l f s) g m = if m = l then f (lane s g l) else lane s g m := by
  simp [lane, modLane, Tab.get_put]

theorem Mask.mem_toList (m : Mask) (l : Nat) : l ∈ Mask.toList m ↔ m.getLsbD l = true := by
  simp only [Mask.toList, laneList, List.mem_filter, List.mem_range]
  constructor
  · exact fun h => h.2
  · intro h
    refine ⟨?_, h⟩
    rcases Nat.lt_or_ge l 32 with h' | h'
    · exact h'
    · rw [BitVec.getLsbD_of_ge m l h'] at h
      simp at h
theorem Mask.nodup_toList (m : Mask) : (Mask.toList m).Nodup := List.Pairwise.filter _ List.nodup_range

theorem lane_foldl (g m : Nat) (f : Lane → Lane) (l : List Nat) (h : l.Nodup) (s : State) :
    lane (l.foldl (fun s i => modLane g i f s) s) g m = if m ∈ l then f (lane s g m) else lane s g m := by
  induction l generalizing s with
  | nil => simp
  | cons a t ih =>
    have ha := List.nodup_cons.mp h
    rw [List.foldl_cons, ih ha.2]
    by_cases e : m = a
    · subst e
      simp [ha.1, lane_modLane]
    · simp [e, lane_modLane]

theorem lane_modLanes (g l : Nat) (m : Mask) (f : Lane → Lane) (s : State) :
    lane (modLanes g m f s) g l = if m.getLsbD l = true then f (lane s g l) else lane s g l := by
  rw [modLanes, lane_foldl g l f _ (Mask.nodup_toList m)]
  simp [Mask.mem_toList]

@[simp] theorem lane_drew (g l : Nat) (s : State) : lane (drew s) g l = lane s g l := rfl
@[simp] theorem lane_count (g l h i n : Nat) (s : State) : lane (count h i n s) g l = lane s g l := rfl
theorem lane_of_lanes {s t : State} {g : Nat} (h : (grp t g).lanes = (grp s g).lanes) (l : Nat) : lane t g l = lane s g l := by simp [lane, h]

/-! ### The pieces of a pass's end -/

theorem lane_countPass (g l : Nat) (b : LoopBuf) (s : State) : lane (countPass g b s) g l = lane s g l :=
  lane_of_lanes (by simp [countPass, kPut]) l
theorem kGet_of_k {s t : State} {g : Nat} (h : (grp t g).k = (grp s g).k) (n : Nat) : kGet t g n = kGet s g n := by simp [kGet, h]
theorem kGet_countPass (g n : Nat) (b : LoopBuf) (s : State) (h : n ≠ b.k) : kGet (countPass g b s) g n = kGet s g n := by
  refine (kGet_of_k (s := kPut g b.k (passedCount (kGet s g b.k)) s) (by simp [countPass]) n).trans ?_
  rw [kGet_kPut]
  simp [h]
theorem k_foldl {α : Type} (g : Nat) (f : State → α → State) (h : ∀ s x, (grp (f s x) g).k = (grp s g).k) (l : List α) (s : State) :
    (grp (l.foldl f s) g).k = (grp s g).k := by
  induction l generalizing s with
  | nil => rfl
  | cons a t ih => exact (ih (f s a)).trans (h s a)
theorem loop_foldl {α : Type} (g : Nat) (f : State → α → State) (h : ∀ s x, (grp (f s x) g).loop = (grp s g).loop) (l : List α) (s : State) :
    (grp (l.foldl f s) g).loop = (grp s g).loop := by
  induction l generalizing s with
  | nil => rfl
  | cons a t ih => exact (ih (f s a)).trans (h s a)
theorem k_modLanes (g : Nat) (m : Mask) (f : Lane → Lane) (s : State) : (grp (modLanes g m f s) g).k = (grp s g).k :=
  k_foldl g _ (fun _ _ => by simp [modLane]) _ s
theorem loop_modLanes (g : Nat) (m : Mask) (f : Lane → Lane) (s : State) : (grp (modLanes g m f s) g).loop = (grp s g).loop :=
  loop_foldl g _ (fun _ _ => by simp [modLane]) _ s

/-- What the end of a pass does to a lane: nothing, or, to a lane of the loop that stands at its header by `loop`, the move to the
header after the loop clause (R217). -/
theorem lane_endPass (g l : Nat) (s : State) :
    lane (endPass g s) g l = lane s g l ∨
      ∃ b, (grp s g).loop = some b ∧ b.lanes.getLsbD l = true ∧ (lane s g l).viaLoop = true ∧ (lane s g l).clause = none ∧
        lane (endPass g s) g l = leaveLoop b (lane s g l) := by
  unfold endPass
  split
  · exact .inl rfl
  · rename_i b hb
    split
    · exact .inl (lane_of_lanes (by simp) l)
    · split
      · exact .inl rfl
      · rename_i hrun
        split
        · exact .inl (lane_countPass ..)
        · have key := lane_foldl g l (leaveLoop b) (loopLanes g b s) ((Mask.nodup_toList _).filter _) (countPass g b s)
          have out : ∀ u : State, lane (modGrp g (fun r => { r with loop := none }) u) g l = lane u g l := fun u =>
            lane_of_lanes (by simp) l
          rw [out, key, lane_countPass]
          by_cases hm : l ∈ loopLanes g b s
          · right
            have hl := (Mask.mem_toList b.lanes l).mp (List.mem_filter.mp hm).1
            simp only [Bool.or_eq_true, List.any_eq_true, not_or, not_exists, not_and] at hrun
            have h2 := hrun.2 l hm
            rw [if_pos hm]
            exact ⟨b, hb, hl, by simpa using h2.2, by simpa using h2.1.1, rfl⟩
          · left
            rw [if_neg hm]

/-! ### Registers -/

/-- Of a group only its lanes, its loop buffer, its park and its uniform registers differ. -/
def OnlyMoves (g : Nat) (s t : State) : Prop :=
  grp t g = { grp s g with k := (grp t g).k, lanes := (grp t g).lanes, loop := (grp t g).loop, parked := (grp t g).parked }
theorem OnlyMoves.refl (g : Nat) (s : State) : OnlyMoves g s s := rfl
theorem OnlyMoves.trans {g : Nat} {s t u : State} (a : OnlyMoves g s t) (b : OnlyMoves g t u) : OnlyMoves g s u := by
  unfold OnlyMoves at *
  rw [b, a]
theorem OnlyMoves.of_grp {g : Nat} {s t : State} (h : grp t g = grp s g) : OnlyMoves g s t := by
  unfold OnlyMoves
  rw [h]
theorem OnlyMoves.ite {g : Nat} {s t u : State} {c : Prop} [Decidable c] (a : OnlyMoves g s t) (b : OnlyMoves g s u) :
    OnlyMoves g s (if c then t else u) := by
  split
  · exact a
  · exact b
theorem OnlyMoves.modGrp (g : Nat) (f : Group → Group) (s : State)
    (h : ∀ r, f r = { r with k := (f r).k, lanes := (f r).lanes, loop := (f r).loop, parked := (f r).parked }) : OnlyMoves g s (modGrp g f s) := by
  unfold OnlyMoves
  rw [grp_modGrp_same]
  exact h _
theorem OnlyMoves.foldl {α : Type} {g : Nat} (f : State → α → State) (h : ∀ s x, OnlyMoves g s (f s x)) (l : List α) (s : State) :
    OnlyMoves g s (l.foldl f s) := by
  induction l generalizing s with
  | nil => exact .refl g s
  | cons a t ih => exact (h s a).trans (ih (f s a))
theorem OnlyMoves.modLanes (g : Nat) (m : Mask) (f : Lane → Lane) (s : State) : OnlyMoves g s (modLanes g m f s) :=
  OnlyMoves.foldl _ (fun _ _ => .modGrp _ _ _ (fun _ => rfl)) _ s
theorem OnlyMoves.countPass (g : Nat) (b : LoopBuf) (s : State) : OnlyMoves g s (countPass g b s) :=
  OnlyMoves.trans (t := kPut g b.k (passedCount (kGet s g b.k)) s) (.modGrp _ _ _ (fun _ => rfl))
    (OnlyMoves.trans (.modGrp _ _ _ (fun _ => rfl)) (.of_grp (grp_count ..)))
theorem OnlyMoves.endPass (g : Nat) (s : State) : OnlyMoves g s (endPass g s) := by
  unfold Machine.endPass
  split
  · exact .refl _ s
  · exact .ite (.modGrp _ _ _ (fun _ => rfl)) (.ite (.refl _ s) (.ite (.countPass ..)
      ((OnlyMoves.countPass ..).trans ((OnlyMoves.foldl _ (fun _ _ => .modGrp _ _ _ (fun _ => rfl)) _ _).trans (.modGrp _ _ _ (fun _ => rfl))))))
theorem OnlyMoves.parkIf (a : Arrival) (s : State) : OnlyMoves a.gid s (parkIf a s) := by
  unfold Machine.parkIf
  split
  · exact .refl _ s
  · exact .ite (.modGrp _ _ _ (fun _ => rfl)) (.refl _ s)
theorem OnlyMoves.passLanes (a : Arrival) (m : Mask) (s : State) : OnlyMoves a.gid s (passLanes a m s) :=
  .ite ((OnlyMoves.modLanes ..).trans (OnlyMoves.endPass ..)) (OnlyMoves.modLanes ..)
theorem OnlyMoves.finishLanes (a : Arrival) (m : Mask) (s : State) : OnlyMoves a.gid s (finishLanes a m s) :=
  (OnlyMoves.parkIf a s).trans (OnlyMoves.passLanes a m _)
theorem OnlyMoves.done (s : State) : OnlyMoves s.cur.gid s (done s) := (OnlyMoves.finishLanes ..).trans (.of_grp rfl)

theorem OnlyMoves.keepsV {g : Nat} {s t : State} (h : OnlyMoves g s t) : KeepsV g s t := fun l n => by
  unfold vGet
  rw [h]
theorem OnlyMoves.keepsP {g : Nat} {s t : State} (h : OnlyMoves g s t) : KeepsP g s t := fun l n => by
  unfold pGet
  rw [h]
theorem OnlyMoves.x {g : Nat} {s t : State} (h : OnlyMoves g s t) : (grp t g).x = (grp s g).x := by rw [h]

/-! ### The loop's counter -/

/-- The end of a pass writes the loop's counter and no other uniform register (R217). -/
theorem KeepsK.endPass (g : Nat) (s : State) : KeepsK g [] s (endPass g s) := by
  intro n _ hn
  unfold Machine.endPass
  split
  · rfl
  · rename_i b hb
    have hne : n ≠ b.k := by
      rw [hb] at hn
      intro e
      subst e
      simp at hn
    have out : ∀ u : State, kGet (Machine.modGrp g (fun r => { r with loop := none }) u) g n = kGet u g n := fun u =>
      kGet_of_k (by simp) n
    split
    · exact out s
    · split
      · rfl
      · split
        · exact kGet_countPass g n b s hne
        · rw [out]
          exact (kGet_of_k (k_foldl g _ (fun _ _ => by simp [modLane]) _ _) n).trans (kGet_countPass g n b s hne)

theorem parkIf_fields (a : Arrival) (s : State) :
    (grp (parkIf a s) a.gid).k = (grp s a.gid).k ∧ (grp (parkIf a s) a.gid).loop = (grp s a.gid).loop ∧
      (grp (parkIf a s) a.gid).lanes = (grp s a.gid).lanes := by
  unfold Machine.parkIf
  split
  · exact ⟨rfl, rfl, rfl⟩
  · split <;> simp

/-- Past a word: each lane of the mask has moved on, and then at most a pass has ended. -/
theorem passLanes_eq (a : Arrival) (m : Mask) (s : State) :
    passLanes a m s = modLanes a.gid m (movedOn a s.time) s ∨ passLanes a m s = endPass a.gid (modLanes a.gid m (movedOn a s.time) s) := by
  unfold Machine.passLanes
  dsimp only
  split
  · exact .inr rfl
  · exact .inl rfl

theorem KeepsK.passLanes (a : Arrival) (m : Mask) (s : State) : KeepsK a.gid [] s (passLanes a m s) := by
  intro n h hn
  rcases passLanes_eq a m s with e | e <;> rw [e]
  · exact kGet_of_k (k_modLanes ..) n
  · refine (KeepsK.endPass _ _ n h ?_).trans (kGet_of_k (k_modLanes ..) n)
    rw [loop_modLanes]
    exact hn
theorem KeepsK.finishLanes (a : Arrival) (m : Mask) (s : State) : KeepsK a.gid [] s (finishLanes a m s) := by
  intro n h hn
  refine (KeepsK.passLanes a m _ n h ?_).trans (kGet_of_k (parkIf_fields a s).1 n)
  rw [(parkIf_fields a s).2.1]
  exact hn

/-! ### Where the lanes go -/

theorem movedOn_exited (a : Arrival) (t : Nat) (x : Lane) : (movedOn a t x).exited = x.exited := by
  unfold movedOn laneOn
  dsimp only
  generalize (if a.hasExt = true then 2 else 1) = w
  split
  · rfl
  · split
    · rfl
    · split <;> rfl
/-- A lane that stands in a clause that is no loop clause does not stand at a loop's header after it. -/
theorem movedOn_noLoop (a : Arrival) (t : Nat) (x : Lane) (c : Clause) (hc : x.clause = some c) (h : c.loop = false) :
    (movedOn a t x).viaLoop = false ∨ (movedOn a t x).clause = some c := by
  unfold movedOn laneOn
  generalize (if a.hasExt = true then 2 else 1) = w
  simp only [hc, h]
  split
  · exact .inr (by simp)
  · exact .inl (by simp)

theorem passLanes_lane (a : Arrival) (m : Mask) (s : State) (l : Nat) :
    let x := if m.getLsbD l = true then movedOn a s.time (lane s a.gid l) else lane s a.gid l
    lane (passLanes a m s) a.gid l = x ∨
      ∃ b, (grp s a.gid).loop = some b ∧ b.lanes.getLsbD l = true ∧ x.viaLoop = true ∧ x.clause = none ∧
        lane (passLanes a m s) a.gid l = leaveLoop b x := by
  dsimp only
  rcases passLanes_eq a m s with e | e <;> rw [e]
  · exact .inl (lane_modLanes ..)
  · have h := lane_endPass a.gid l (modLanes a.gid m (movedOn a s.time) s)
    rw [lane_modLanes, loop_modLanes] at h
    exact h

theorem KeepsLanes.finishLanes (a : Arrival) (m : Mask) (s : State) : KeepsLanes a.gid m s (finishLanes a m s) := by
  intro l
  have hp := parkIf_fields a s
  have h := passLanes_lane a m (parkIf a s) l
  rw [show lane (Machine.parkIf a s) a.gid l = lane s a.gid l from lane_of_lanes hp.2.2 l, hp.2.1] at h
  unfold Machine.finishLanes
  dsimp only at h
  have hex : ∀ t, (if m.getLsbD l = true then movedOn a t (lane s a.gid l) else lane s a.gid l).exited = (lane s a.gid l).exited := by
    intro t
    split
    · exact movedOn_exited ..
    · rfl
  rcases h with e | ⟨b, hb, hbl, _, _, e⟩ <;> rw [e]
  · exact ⟨hex _, fun hm _ => by rw [if_neg (by simp [hm])]⟩
  · refine ⟨hex _, fun _ hn => ?_⟩
    rw [hb] at hn
    simp [hbl] at hn

theorem MovesOn.finish (a : Arrival) (s : State) : MovesOn a s (finish a s) := by
  intro l hm c hc hloop
  have hp := parkIf_fields a s
  have h := passLanes_lane a a.lanes (parkIf a s) l
  rw [show lane (parkIf a s) a.gid l = lane s a.gid l from lane_of_lanes hp.2.2 l, hp.2.1,
    show (parkIf a s).time = s.time by rw [(Local.parkIf a s).1.1]] at h
  dsimp only at h
  rw [if_pos hm] at h
  unfold Machine.finish Machine.finishLanes
  rcases h with e | ⟨b, _, _, hv, hn, _⟩
  · exact e
  · rcases movedOn_noLoop a s.time _ c hc hloop with h' | h'
    · rw [h'] at hv
      simp at hv
    · rw [h'] at hn
      simp at hn

end Sys2Proof.Machine
end

