-- ==== Sys2Proof/Laws/Vector.lean ====
section
/-!
SUPPORT. What the shared operations of words do once nothing stops them: the judgement of R439, bound streams, vector words
(`vecRun`), uniform words (`uniRun`).
-/
namespace Sys2Proof.Machine

/-! ### The judgement -/

/-- A word that nothing stops runs (R439). -/
theorem judge_ready {i : Instr} {extra : List Nat} {m : Mask} {run : State → State} {s : State} (h : ready i extra m s = true) :
    judge i extra m run s = run s := by
  simp only [ready, Bool.and_eq_true, Bool.or_eq_true, decide_eq_true_eq, List.isEmpty_iff] at h
  obtain ⟨⟨⟨⟨⟨hlive, hext⟩, hcodes⟩, hlev⟩, hp⟩, hb⟩ := h
  have hec : (if s.cur.hasExt = true then extCodes (grp s s.cur.gid).budget s.cur.ext i else []) = [] := by
    split
    · rcases hext with h | h
      · simp_all
      · exact h
    · rfl
  have hmin : (extra ++ encodingCodes (grp s s.cur.gid).budget s.cur.ext i).min? = none := by rw [hcodes]; rfl
  have hand : ∀ l, l ⊆ wordReads s i ++ wordWrites s i → l.any (fun r =>
      (pendingFor s s.cur.gid s.cur.lanes m ((shape s.cur.ext i).gov ++ if s.cur.hasExt = true then [Reg.p s.cur.ext.pred.toNat] else [])).contains r) = false := by
    intro l hl
    rw [Bool.eq_false_iff, Ne, List.any_eq_true]
    rintro ⟨r, hr, hc⟩
    have := List.all_eq_true.mp hp r (hl hr)
    unfold wordGov at this
    rw [hc] at this
    exact absurd this (by decide)
  unfold judge
  simp only [hlive, Bool.not_true, Bool.false_eq_true, if_false, hec, List.isEmpty_nil, if_true, hmin, Nat.not_lt.mpr hlev, hb,
    List.any_nil]
  rw [if_neg, if_neg]
  · rw [hand]
    · decide
    · intro r hr
      simp only [wordWrites, List.mem_append] at *
      exact .inr hr
  · rw [hand]
    · decide
    · intro r hr
      simp only [wordReads, List.mem_append] at *
      exact .inl hr

/-- Bound uses that nothing stops give the values of the bound sources, and each of their streams advances (R214). -/
theorem withStreams_ok {wa wb wd : Nat} {f : Src → List Dst → State → State} {s : State} (h : streamsOk wa wb wd s = true) :
    withStreams wa wb wd f s
      = f (streamSrc s wa wb wd) (streamDst s wa wb wd) (advanceStreams s.cur (fetchStreams wa wb wd s)) := by
  simp only [streamsOk, Bool.and_eq_true, Bool.not_eq_true', beq_iff_eq, Option.isNone_iff_eq_none] at h
  obtain ⟨⟨h1, h2⟩, h3⟩ := h
  unfold withStreams
  simp only [h1, Bool.false_eq_true, if_false, h2, h3, ne_eq, not_true_eq_false]

/-- With no operand on a stream, nothing of a stream stops a word (R214). -/
theorem streamsOk_of_unbound {wa wb wd : Nat} {s : State} (h : unbound s = true) : streamsOk wa wb wd s = true := by
  simp only [unbound, Bool.and_eq_true, Option.isNone_iff_eq_none] at h
  obtain ⟨⟨h1, h2⟩, h3⟩ := h
  have hb : ∀ a b c, boundUses s a b c = [] := by
    intro a b c
    simp [boundUses, h1, h2, h3]
  have h0 : Mask.ofPred (fun _ => false) = 0 := by decide
  simp [streamsOk, streamAccs, hb, firstClass, rightWaits, waiting, classOrder]
  exact h0
/-- Without a bound destination a word stores nothing (R214). -/
theorem streamDst_none {wa wb wd : Nat} {s : State} (h : s.cur.ext.bindD.isNone = true) : streamDst s wa wb wd = [] := by
  rw [Option.isNone_iff_eq_none] at h
  have : (streamAccs s wa wb wd).filter (fun q => q.1.2.2.2) = [] := by
    rw [List.filter_eq_nil_iff]
    intro q hq
    simp only [streamAccs, boundUses, h, Option.toList_none, List.map_nil, List.append_nil, List.map_map, List.mem_map,
      Function.comp] at hq
    obtain ⟨⟨n, x, w, b⟩, hu, rfl⟩ := hq
    have hm := (List.of_mem_zip hu).2
    simp only [List.mem_append, List.mem_map] at hm
    rcases hm with ⟨_, _, e⟩ | ⟨_, _, e⟩ <;> simp_all
  simp [streamDst, this]

/-! ### The streams' registers -/

theorem x_advanceStreams (a : Arrival) {s t : State} (h : (grp s a.gid).x = (grp t a.gid).x) :
    (grp (advanceStreams a s) a.gid).x = (grp (advanceStreams a t) a.gid).x := by
  unfold advanceStreams
  generalize [a.ext.bindA, a.ext.bindB, a.ext.bindD].filterMap id = l
  induction l generalizing s t with
  | nil => exact h
  | cons b l ih => exact ih (by simp [h])

/-! ### Writing results -/

theorem x_foldl {α : Type} (g : Nat) (f : State → α → State) (h : ∀ s x, (grp (f s x) g).x = (grp s g).x) (l : List α) (s : State) :
    (grp (l.foldl f s) g).x = (grp s g).x := by
  induction l generalizing s with
  | nil => rfl
  | cons a t ih => exact (ih (f s a)).trans (h s a)
/-- Of a group only vector registers and predicates differ. -/
def OnlyOuts (g : Nat) (s t : State) : Prop := grp t g = { grp s g with v := (grp t g).v, p := (grp t g).p }
theorem OnlyOuts.refl (g : Nat) (s : State) : OnlyOuts g s s := rfl
theorem OnlyOuts.trans {g : Nat} {s t u : State} (a : OnlyOuts g s t) (b : OnlyOuts g t u) : OnlyOuts g s u := by
  unfold OnlyOuts at *
  rw [b, a]
theorem OnlyOuts.foldl {α : Type} {g : Nat} (f : State → α → State) (h : ∀ s x, OnlyOuts g s (f s x)) (l : List α) (s : State) :
    OnlyOuts g s (l.foldl f s) := by
  induction l generalizing s with
  | nil => exact .refl g s
  | cons a t ih => exact (h s a).trans (ih (f s a))
theorem OnlyOuts.vPut (g l n : Nat) (x : Word) (s : State) : OnlyOuts g s (vPut g l n x s) := by
  simp [OnlyOuts, Machine.vPut]
theorem OnlyOuts.pPut (g l n : Nat) (b : Bool) (s : State) : OnlyOuts g s (pPut g l n b s) := by
  unfold Machine.pPut
  split
  · exact .refl g s
  · simp [OnlyOuts]
theorem OnlyOuts.putOut (g l : Nat) (o : LaneOut) (s : State) : OnlyOuts g s (putOut g l o s) :=
  OnlyOuts.trans (OnlyOuts.foldl (fun s (q : Nat × Word) => Machine.vPut g l q.1 q.2 s) (fun s q => .vPut g l q.1 q.2 s) o.v s)
    (OnlyOuts.foldl (fun s (q : Nat × Bool) => Machine.pPut g l q.1 q.2 s) (fun s q => .pPut g l q.1 q.2 s) o.p _)
theorem OnlyOuts.putOuts (g : Nat) (l : List (Nat × LaneOut)) (s : State) : OnlyOuts g s (putOuts g l s) :=
  OnlyOuts.foldl (fun s (q : Nat × LaneOut) => Machine.putOut g q.1 q.2 s) (fun s q => .putOut g q.1 q.2 s) l s

theorem vGet_foldl_vPut (g l m n : Nat) (q : List (Nat × Word)) (hn : n < 256) (hq : ∀ r ∈ q, r.1 < 256) (s : State) :
    vGet (q.foldl (fun s r => vPut g l r.1 r.2 s) s) g m n = if m = l then lastOf n (vGet s g m n) q else vGet s g m n := by
  induction q generalizing s with
  | nil => simp [lastOf]
  | cons r t ih =>
    have hr : r.1 < 256 := hq r (by simp)
    rw [List.foldl_cons, ih (fun x hx => hq x (by simp [hx])), vGet_vPut]
    by_cases e : m = l
    · subst e
      by_cases k : r.1 = n <;> simp [lastOf, k, eq_comm]
    · have : m * 256 + n ≠ l * 256 + r.1 := by omega
      simp [e, this]
theorem vGet_foldl_pPut (g l m n : Nat) (q : List (Nat × Bool)) (s : State) :
    vGet (q.foldl (fun s r => pPut g l r.1 r.2 s) s) g m n = vGet s g m n := by
  induction q generalizing s with
  | nil => rfl
  | cons r t ih => rw [List.foldl_cons, ih, vGet_pPut]
theorem pGet_foldl_vPut (g l m n : Nat) (q : List (Nat × Word)) (s : State) :
    pGet (q.foldl (fun s r => vPut g l r.1 r.2 s) s) g m n = pGet s g m n := by
  induction q generalizing s with
  | nil => rfl
  | cons r t ih => rw [List.foldl_cons, ih, pGet_vPut]
theorem pGet_foldl_pPut (g l m n : Nat) (q : List (Nat × Bool)) (hm : m < 32) (hn : 0 < n) (s : State) :
    pGet (q.foldl (fun s r => pPut g l r.1 r.2 s) s) g m n = if m = l then lastOf n (pGet s g m n) q else pGet s g m n := by
  induction q generalizing s with
  | nil => simp [lastOf]
  | cons r t ih =>
    rw [List.foldl_cons, ih, pGet_pPut _ _ _ _ _ _ _ _ hm]
    by_cases e : m = l
    · subst e
      by_cases k : r.1 = n
      · subst k
        simp [lastOf, Nat.pos_iff_ne_zero.mp hn]
      · simp [lastOf, k, Ne.symm k]
    · simp [e]
theorem vGet_putOut (g l m n : Nat) (o : LaneOut) (hn : n < 256) (ho : ∀ r ∈ o.v, r.1 < 256) (s : State) :
    vGet (putOut g l o s) g m n = if m = l then lastOf n (vGet s g m n) o.v else vGet s g m n := by
  rw [putOut, vGet_foldl_pPut, vGet_foldl_vPut g l m n o.v hn ho]
theorem pGet_putOut (g l m n : Nat) (o : LaneOut) (hm : m < 32) (hn : 0 < n) (s : State) :
    pGet (putOut g l o s) g m n = if m = l then lastOf n (pGet s g m n) o.p else pGet s g m n := by
  rw [putOut, pGet_foldl_pPut g l m n o.p hm hn, pGet_foldl_vPut]
theorem vGet_putOuts (g m n : Nat) (F : Nat → LaneOut) (ls : List Nat) (h : ls.Nodup) (hn : n < 256)
    (ho : ∀ l ∈ ls, ∀ r ∈ (F l).v, r.1 < 256) (s : State) :
    vGet (putOuts g (ls.map (fun l => (l, F l))) s) g m n = if m ∈ ls then lastOf n (vGet s g m n) (F m).v else vGet s g m n := by
  induction ls generalizing s with
  | nil => simp [putOuts]
  | cons a t ih =>
    have ha := List.nodup_cons.mp h
    rw [List.map_cons, putOuts, List.foldl_cons, ← putOuts, ih ha.2 (fun l hl => ho l (by simp [hl])),
      vGet_putOut g a m n _ hn (ho a (by simp))]
    by_cases e : m = a
    · subst e
      simp [ha.1]
    · simp [e]
theorem pGet_putOuts (g m n : Nat) (F : Nat → LaneOut) (ls : List Nat) (h : ls.Nodup) (hm : m < 32) (hn : 0 < n) (s : State) :
    pGet (putOuts g (ls.map (fun l => (l, F l))) s) g m n = if m ∈ ls then lastOf n (pGet s g m n) (F m).p else pGet s g m n := by
  induction ls generalizing s with
  | nil => simp [putOuts]
  | cons a t ih =>
    have ha := List.nodup_cons.mp h
    rw [List.map_cons, putOuts, List.foldl_cons, ← putOuts, ih ha.2, pGet_putOut g a m n _ hm hn]
    by_cases e : m = a
    · subst e
      simp [ha.1]
    · simp [e]

/-! ### Vector words -/

theorem zeroLanes_nodup (s : State) : (zeroLanes s).Nodup := by
  unfold zeroLanes
  split
  · exact (Mask.nodup_toList _).filter _
  · exact List.nodup_nil
theorem zeroLanes_inactive (s : State) (l : Nat) (h : l ∈ zeroLanes s) : (active s).getLsbD l = false := by
  unfold zeroLanes at h
  split at h
  · simpa using (List.mem_filter.mp h).2
  · simp at h

/-- The results of a vector word are written: to an active lane its results, to a lane that the zero policy clears zeros. -/
def outsWritten (i : Instr) (out : Nat → LaneOut) (s t : State) : State :=
  putOuts s.cur.gid ((zeroLanes s).map (fun l => (l, zeroOut s.cur.ext i)))
    (putOuts s.cur.gid ((Mask.toList (active s)).map (fun l => (l, regOut s.cur.ext (out l)))) t)

theorem vGet_outsWritten (i : Instr) (out : Nat → LaneOut) (s t : State) (h : ∀ l, ∀ q ∈ (received i out s l).v, q.1 < 256)
    (l n : Nat) (hn : n < 256) :
    vGet (outsWritten i out s t) s.cur.gid l n = lastOf n (vGet t s.cur.gid l n) (received i out s l).v := by
  unfold outsWritten
  rw [vGet_putOuts _ _ _ (fun _ => zeroOut s.cur.ext i) _ (zeroLanes_nodup s) hn,
    vGet_putOuts _ _ _ (fun l => regOut s.cur.ext (out l)) _ (Mask.nodup_toList _) hn]
  · have hz := zeroLanes_inactive s l
    unfold received
    by_cases ha : (active s).getLsbD l = true
    · have : l ∉ zeroLanes s := fun hm => by simp [hz hm] at ha
      simp [ha, this, Mask.mem_toList]
    · by_cases hm : l ∈ zeroLanes s <;> simp [ha, hm, Mask.mem_toList, lastOf]
  · intro l hl r hr
    have := (Mask.mem_toList _ l).mp hl
    exact h l r (by simp [received, this, hr])
  · intro l hl r hr
    have := zeroLanes_inactive s l hl
    exact h l r (by simp [received, this, hl, hr])
theorem pGet_outsWritten (i : Instr) (out : Nat → LaneOut) (s t : State) (l n : Nat) (hl : l < 32) (hn : 0 < n) :
    pGet (outsWritten i out s t) s.cur.gid l n = lastOf n (pGet t s.cur.gid l n) (received i out s l).p := by
  unfold outsWritten
  rw [pGet_putOuts _ _ _ (fun _ => zeroOut s.cur.ext i) _ (zeroLanes_nodup s) hl hn,
    pGet_putOuts _ _ _ (fun l => regOut s.cur.ext (out l)) _ (Mask.nodup_toList _) hl hn]
  have hz := zeroLanes_inactive s l
  unfold received
  by_cases ha : (active s).getLsbD l = true
  · have : l ∉ zeroLanes s := fun hm => by simp [hz hm] at ha
    simp [ha, this, Mask.mem_toList]
  · by_cases hm : l ∈ zeroLanes s <;> simp [ha, hm, Mask.mem_toList, lastOf]
theorem OnlyOuts.outsWritten (i : Instr) (out : Nat → LaneOut) (s t : State) : OnlyOuts s.cur.gid t (outsWritten i out s t) :=
  (OnlyOuts.putOuts ..).trans (.putOuts ..)
theorem Local.outsWritten (i : Instr) (out : Nat → LaneOut) (s t : State) : Local s.cur.gid t (outsWritten i out s t) :=
  (Local.putOuts ..).trans (.putOuts ..)

/-- Of a group only its stream registers and the largest completion time that it has been returned differ. -/
def OnlyStreams (g : Nat) (s t : State) : Prop := grp t g = { grp s g with x := (grp t g).x, largestC := (grp t g).largestC }
theorem OnlyStreams.trans {g : Nat} {s t u : State} (a : OnlyStreams g s t) (b : OnlyStreams g t u) : OnlyStreams g s u := by
  unfold OnlyStreams at *
  rw [b, a]
theorem OnlyStreams.foldl {α : Type} {g : Nat} (f : State → α → State) (h : ∀ s x, OnlyStreams g s (f s x)) (l : List α) (s : State) :
    OnlyStreams g s (l.foldl f s) := by
  induction l generalizing s with
  | nil => rfl
  | cons a t ih => exact (h s a).trans (ih (f s a))
theorem OnlyStreams.sawC (g c : Nat) (s : State) : OnlyStreams g s (sawC g c s) := by simp [OnlyStreams, Machine.sawC]
theorem OnlyStreams.advanceStreams (a : Arrival) (s : State) : OnlyStreams a.gid s (advanceStreams a s) :=
  OnlyStreams.foldl _ (fun _ _ => by simp [OnlyStreams]) _ s

/-- A word that changed at most registers before it moved on leaves its lanes past it. -/
theorem MovesOn.done {s t : State} (hc : t.cur = s.cur) (ht : t.time = s.time) (hl : (grp t s.cur.gid).lanes = (grp s s.cur.gid).lanes) :
    MovesOn s.cur s (done t) := by
  intro l hm c hcl hlp
  have e : lane t s.cur.gid l = lane s s.cur.gid l := lane_of_lanes hl l
  have h := MovesOn.finish s.cur t l hm c (by rw [e]; exact hcl) hlp
  rw [e, ht] at h
  unfold Machine.done
  rw [hc]
  exact h
theorem KeepsLanes.done {s t : State} (hc : t.cur = s.cur) (hl : (grp t s.cur.gid).lanes = (grp s s.cur.gid).lanes)
    (hb : (grp t s.cur.gid).loop = (grp s s.cur.gid).loop) : KeepsLanes s.cur.gid s.cur.lanes s (done t) := by
  intro l
  have e : lane t s.cur.gid l = lane s s.cur.gid l := lane_of_lanes hl l
  have h := KeepsLanes.finishLanes s.cur s.cur.lanes t l
  rw [e, hb] at h
  unfold Machine.done Machine.finish
  rw [hc]
  exact h
theorem KeepsK.done {s t : State} {ks : List Nat} (hc : t.cur = s.cur) (hk : ∀ n, n ∉ ks → kGet t s.cur.gid n = kGet s s.cur.gid n)
    (hb : (grp t s.cur.gid).loop = (grp s s.cur.gid).loop) : KeepsK s.cur.gid ks s (done t) := by
  intro n hn hl
  have h := KeepsK.finishLanes s.cur s.cur.lanes t n (by simp) (by rw [hb]; exact hl)
  unfold Machine.done Machine.finish
  rw [hc]
  exact h.trans (hk n hn)

/-- The results of an arrival's lanes, written after its streams have advanced, have the effect that `VecEffect` describes. -/
theorem outs_effect (i : Instr) (out : Nat → LaneOut) (s : State) :
    VecEffect i out s (Machine.done (Machine.outsWritten i out s (advanceStreams s.cur s))) := by
  have hS : OnlyStreams s.cur.gid s (advanceStreams s.cur s) := OnlyStreams.advanceStreams ..
  have hL : Local s.cur.gid s (advanceStreams s.cur s) := Local.advanceStreams ..
  have hx : ∃ t, advanceStreams s.cur s = t := ⟨_, rfl⟩
  obtain ⟨t, hx⟩ := hx
  rw [hx] at hS hL ⊢
  have hcur : t.cur = s.cur := hL.cur
  have hO := OnlyOuts.outsWritten i out s t
  have hL2 := Local.outsWritten i out s t
  have vv := vGet_outsWritten i out s t
  have pp := pGet_outsWritten i out s t
  generalize Machine.outsWritten i out s t = u at hO hL2 vv pp
  have hu : u.cur = s.cur := by rw [hL2.cur, hcur]
  have hM : OnlyMoves s.cur.gid u (Machine.done u) := by
    have := OnlyMoves.done u
    rwa [hu] at this
  have hLd : Local s.cur.gid u (Machine.done u) := by
    have := Local.done u
    rwa [hu] at this
  have hall := (hL.trans hL2).trans hLd
  have gu : grp u s.cur.gid = { grp s s.cur.gid with x := (grp t s.cur.gid).x, largestC := (grp t s.cur.gid).largestC,
                                                     v := (grp u s.cur.gid).v, p := (grp u s.cur.gid).p } := by
    rw [hO, hS]
  have htime : u.time = s.time := by rw [(hL.trans hL2).1.1]
  refine ⟨hall.1, hall.2, KeepsLanes.done hu (by rw [gu]) (by rw [gu]), MovesOn.done hu htime (by rw [gu]),
    KeepsK.done hu (fun n _ => kGet_of_k (by rw [gu]) n) (by rw [gu]), ?_, fun hr l n _ hn => ?_, fun l n hl hn => ?_⟩
  · unfold KeepsX
    rw [hM.x, hx]
    rw [hO]
  · rw [hM.keepsV l n, vv hr l n hn]
    congr 1
    unfold vGet
    rw [hS]
  · rw [hM.keepsP l n, pp l n hl hn]
    congr 1
    unfold pGet
    rw [hS]

theorem active_of_pred {s t : State} (hc : t.cur = s.cur) (hg : ∀ l n, pGet t s.cur.gid l n = pGet s s.cur.gid l n) : active t = active s := by
  simp only [active, hc]
  congr 1
  funext l
  simp only [passes, hg]

/-- A vector word that nothing stops and that no stream takes the results of has the effect that `VecEffect` describes. -/
theorem vecRun_effect {i : Instr} {wa wb wd : Nat} {f : Src → Nat → LaneOut} {s : State} (h : ready i [] (active s) s = true)
    (hs : streamsOk wa wb wd s = true) (hd : s.cur.ext.bindD.isNone = true) :
    VecEffect i (f (streamSrc s wa wb wd)) (fetchStreams wa wb wd s) (vecRun i wa wb wd false f s) := by
  have key := outs_effect i (f (streamSrc s wa wb wd)) (fetchStreams wa wb wd s)
  obtain ⟨f1, -, f3⟩ := fetchStreams_fetched wa wb wd s
  have fc : (fetchStreams wa wb wd s).cur = s.cur := by rw [f1]
  have fa : active (fetchStreams wa wb wd s) = active s := active_of_pred fc (fun l n => by unfold pGet; rw [f3])
  have fz : zeroLanes (fetchStreams wa wb wd s) = zeroLanes s := by simp only [zeroLanes, fc, fa]
  have fo : Machine.outsWritten i (f (streamSrc s wa wb wd)) (fetchStreams wa wb wd s) = Machine.outsWritten i (f (streamSrc s wa wb wd)) s := by
    funext t
    simp only [Machine.outsWritten, fc, fa, fz]
  rw [fo, fc] at key
  have e : vecRun i wa wb wd false f s
      = Machine.done (Machine.outsWritten i (f (streamSrc s wa wb wd)) s (advanceStreams s.cur (fetchStreams wa wb wd s))) := by
    unfold vecRun
    rw [judge_ready h, withStreams_ok hs]
    have hcur : (advanceStreams s.cur (fetchStreams wa wb wd s)).cur = s.cur := by
      rw [(Local.advanceStreams s.cur (fetchStreams wa wb wd s)).cur, fc]
    simp only [Bool.false_eq_true, if_false, streamDst_none hd, storeOuts, List.foldl_nil, laneOuts, List.map_map, hcur]
    rfl
  rw [e]
  exact key

/-! ### Uniform words -/

/-- A uniform word that nothing stops has the effect that `UniEffect` describes (R226). -/
theorem uniRun_effect {i : Instr} {d : Byte} {f : State → Nat} {s : State} (h : ready i [] s.cur.lanes s = true) :
    UniEffect d.toNat (.ofNat 64 (f s)) s (uniRun i d f s) := by
  unfold uniRun
  rw [judge_ready h]
  have hu : (kPut s.cur.gid d.toNat (.ofNat 64 (f s)) s).cur = s.cur := rfl
  have hL : Local s.cur.gid s (kPut s.cur.gid d.toNat (.ofNat 64 (f s)) s) := .kPut ..
  have gu : grp (kPut s.cur.gid d.toNat (.ofNat 64 (f s)) s) s.cur.gid
      = { grp s s.cur.gid with k := (grp (kPut s.cur.gid d.toNat (.ofNat 64 (f s)) s) s.cur.gid).k } := by simp [kPut]
  have kk := fun n => kGet_kPut s.cur.gid d.toNat s.cur.gid n (.ofNat 64 (f s)) s
  have htime : (kPut s.cur.gid d.toNat (.ofNat 64 (f s)) s).time = s.time := rfl
  generalize kPut s.cur.gid d.toNat (.ofNat 64 (f s)) s = u at hu hL gu kk htime
  have hM : OnlyMoves s.cur.gid u (Machine.done u) := by
    have := OnlyMoves.done u
    rwa [hu] at this
  have hLd : Local s.cur.gid u (Machine.done u) := by
    have := Local.done u
    rwa [hu] at this
  have hall := hL.trans hLd
  have hloop : (grp u s.cur.gid).loop = (grp s s.cur.gid).loop := by rw [gu]
  refine ⟨hall.1, hall.2, KeepsLanes.done hu (by rw [gu]) hloop, MovesOn.done hu htime (by rw [gu]), ?_, ?_, ?_,
    KeepsK.done hu (fun n hn => ?_) hloop, fun hb => ?_⟩
  · intro l n
    rw [hM.keepsV l n]
    unfold vGet
    rw [gu]
  · intro l n
    rw [hM.keepsP l n]
    unfold pGet
    rw [gu]
  · rw [hM.x, gu]
  · rw [kk n]
    simp only [List.mem_singleton] at hn
    simp [hn]
  · have hk : KeepsK s.cur.gid [] u (Machine.done u) := by
      have h' : KeepsK u.cur.gid [] u (Machine.done u) := KeepsK.done rfl (fun _ _ => rfl) rfl
      rwa [hu] at h'
    rw [hk d.toNat (by simp) (by rw [hloop]; exact hb), kk]
    simp

end Sys2Proof.Machine
end

