-- ==== Sys2Proof/Tests/Slice0.lean ====
section
/-!
SUPPORT. Tests of the model: words that the spec writes out, ill-formed words, single steps, and for each claim a state that meets what it asks.
-/
namespace Sys2Proof.Tests
open Sys2Proof Sys2Proof.Machine

/-! ### Small states -/

/-- One team of one group, whose 32 lanes issue a word inside a clause; the group runs on core 0 of die 0. -/
def w0 : State := { State.reset.withFetchWord 64 0 with
  issuing := []
  cur := { live := true, lanes := 0xFFFFFFFF, pc := .ofNat 64 fetchVa } }
/-- The same, its group changed. -/
def wg (f : Group → Group) : State := modGrp 0 f w0
/-- The same, the word under an extension word or with the operand fields of a system word. -/
def we (e : Ext) : State := { w0 with cur := { w0.cur with ext := e } }
/-- Operand fields of a system word. -/
def sys (f : FS) : Ext := { Ext.plain with sys := f }
/-- An event's state. -/
def wev (ev : Ev) : State := { w0 with cur := {}, ev := ev }

/-- Fields that many words share. -/
def fr : FR := { d := 5, a := 6, ak := 0, b := 7, bk := 0, c := 0, ck := 0, ty := 2, mo := 0 }
def fr3 : FR := { fr with c := 8, ck := 0 }
def fu : FR := { d := 5, a := 6, ak := 1, b := 7, bk := 1, c := 0, ck := 0, ty := 2, mo := 0 }
def fu3 : FR := { fu with c := 8, ck := 1 }
def fi : FI := { d := 5, a := 6, imm := 3, ty := 2 }
def fm : FM := { data := 4, base := 6, mo := 0, uni := false, space := 0, ty := 6, off := 0 }
def fs : FS := { d := 4, a := 5, b := 6, c := 7, ak := 0, bk := 0, num := 0, mo := 0 }

/-! ### Words that run: one of each, for the claims of the form "where nothing stops it" -/

/-- Integer words (R225 to R249). -/
def intWords : List Instr :=
  [.add fr, .sub fr, .mulLo fr, .mulHi fr, .madLo fr3, .mulWide { fr with d := 4 }, .abs { fr with b := 0 }, .neg { fr with b := 0 }, .min fr, .max fr, .addSat fr, .subSat fr, .div fr, .rem fr,
   .and fr, .or fr, .xor fr, .not { fr with b := 0 }, .bool3 fr3, .shl fr, .shr fr, .sar fr, .fsl { fr3 with ty := 9 }, .fsr { fr3 with ty := 9 }, .popc { fr with b := 0 }, .clz { fr with b := 0 },
   .ctz { fr with b := 0 }, .brev { fr with b := 0 }, .bfe fr, .bfi { fr3 with ty := 9 }, .bsel { fr3 with ty := 9 }, .leaExt { fr with ty := 6 }, .leaSp { fr3 with ty := 6 }, .mov { fr with b := 0 },
   .setp fr, .sel { fr with c := 1 }, .plop { fr with a := 1, b := 2, c := 3, ty := 0 }, .p2v { fr with a := 0, b := 0, ty := 0 }, .v2p { fr with d := 0, b := 0, ty := 0, mo := 6 },
   .addImm fi, .subImm fi, .mulLoImm fi, .mulHiImm fi, .minImm fi, .maxImm fi, .addSatImm fi, .subSatImm fi, .divImm fi, .remImm fi, .andImm fi, .orImm fi, .xorImm fi, .shlImm fi, .shrImm fi, .sarImm fi,
   .movImm { fi with a := 0 }]
/-- Uniform words (R247 to R249), `exit` and `elect` aside. -/
def uniWords : List Instr :=
  [.uAdd fu, .uSub fu, .uMulLo fu, .uMulHi fu, .uMadLo fu3, .uMulWide fu, .uAbs { fu with b := 0, bk := 0 }, .uNeg { fu with b := 0, bk := 0 }, .uMin fu, .uMax fu, .uAddSat fu, .uSubSat fu, .uDiv fu, .uRem fu,
   .uAnd fu, .uOr fu, .uXor fu, .uNot { fu with b := 0, bk := 0 }, .uBool3 fu3, .uShl fu, .uShr fu, .uSar fu, .uFsl { fu3 with ty := 9 }, .uFsr { fu3 with ty := 9 }, .uPopc { fu with b := 0, bk := 0 },
   .uClz { fu with b := 0, bk := 0 }, .uCtz { fu with b := 0, bk := 0 }, .uBrev { fu with b := 0, bk := 0 }, .uBfe fu, .uBfi { fu3 with ty := 9 }, .uBsel { fu3 with ty := 9 }, .usetp fu, .uSel fu3,
   .uLeaExt { fu with ty := 6 }, .uLeaSp { fu3 with ty := 6 }, .uMov { fu with b := 0, bk := 0 }, .umov { fu with ak := 0, b := 0, bk := 0 }, .uAddImm fi, .uSubImm fi, .uMulLoImm fi, .uMinImm fi, .uMaxImm fi,
   .uAndImm fi, .uOrImm fi, .uXorImm fi, .uShlImm fi, .uShrImm fi, .uSarImm fi, .uMovImm { fi with a := 0 }, .movhi { fi with a := 0, ty := 10 }]
/-- Floating-point, conversion, special and table words (R253 to R272). -/
def fltWords : List Instr :=
  let f : FR := { fr with ty := 12 }
  let g : FI := { fi with ty := 12 }
  [.fadd f, .fsub f, .fmul f, .fma { fr3 with ty := 12 }, .fmin f, .fmax f, .minnum f, .maxnum f, .fabs { f with b := 0 }, .fneg { f with b := 0 }, .copysign f, .fsetp f, .classOp { f with b := 0 }, .scale f,
   .frint { f with b := 0 }, .faddImm g, .fsubImm g, .fmulImm g, .fminImm g, .fmaxImm g, .minnumImm g, .maxnumImm g, .cvt { f with b := 0, mo := 14 }, .cvtSat { f with b := 0, mo := 14 },
   .cvtPk { f with ty := 14, mo := 12 }, .cvtPkSat { f with ty := 14, mo := 12 }, .mxcvt { f with b := 0, ty := 0x13, mo := 12 }, .mxdec { f with mo := 0x13 }, .rcp { f with b := 0 }, .rsq { f with b := 0 },
   .sqrt { f with b := 0 }, .ex2 { f with b := 0 }, .lg2 { f with b := 0 }, .sin { f with b := 0 }, .cos { f with b := 0 }, .tanh { f with b := 0 }, .tbl { f with b := 0 },
   .tblLd { fr with d := 0, ak := 1, b := 0, ty := 0 }, .tblSwap, .tblTag { fr with a := 0, b := 0, ty := 0 }]
/-- Cross-lane words and those of the reorder unit (R275 to R285). -/
def laneWords : List Instr :=
  let f : FR := { fr with ty := 9 }
  let v : FR := { fr with ty := 0, b := 0 }
  let r : FR := { fr with b := 0 }
  [.shflIdx { f with c := 8 }, .shflUp { f with c := 8 }, .shflDown { f with c := 8 }, .shflXor { f with c := 8 }, .bcast { f with bk := 1 }, .voteAll v, .voteAny v, .voteUni v, .voteBallot v, .voteBallot { v with mo := 2 },
   .matchMask { f with b := 0 }, .matchLead { f with b := 0 }, .matchRank { f with b := 0 }, .matchUni { f with b := 0 }, .reduxAdd r, .reduxMin r, .reduxMax r, .reduxAdd { r with mo := 1 }, .reduxAnd { r with ty := 9 },
   .reduxOr { r with ty := 9 }, .reduxXor { r with ty := 9 }, .scanAdd r, .scanMin r, .scanMax r, .scanAnd { r with ty := 9 }, .scanOr { r with ty := 9 }, .scanXor { r with ty := 9 }, .compress { f with b := 0 },
   .rodep { fr with d := 0, b := 8, ty := 0 }, .rold { r with ty := 0 }, .roflush]
/-- Memory, stream, atomic and fence words (R286 to R306). -/
def memWords : List Instr :=
  let u : FM := { fm with uni := true, space := 3 }
  let a : FM := { fm with space := 3, mo := 8 }
  let b : FM := { a with ty := 9 }
  let c : FM := { a with mo := 0 }
  let x : FX := { d := 1, a := 4, b := 0, c := 0, mo := 0 }
  let f : FF := { d := 0, a := 0, b := 0, ak := 0, bk := 0, id := 0, scope := 5 }
  [.ld fm, .st fm, .ldu u, .pfL1 { fm with ty := 0, data := 0, space := 3 }, .pfL2 { fm with ty := 0, data := 0, space := 3 }, .cst u, .cstCount { u with mo := 9 }, .xset { x with b := 5, c := 6 }, .xpos x,
   .xget { x with d := 4, a := 1 }, .xsave { x with d := 0, b := 1 }, .xrest x, .atomAdd a, .atomMin a, .atomMax a, .atomAnd b, .atomOr b, .atomXor b, .atomExch b, .atomCas 2 b, .atomLd { b with mo := 0 },
   .atomSt { b with mo := 0 }, .redAdd c, .redMin c, .redMax c, .redAnd { b with mo := 0 }, .redOr { b with mo := 0 }, .redXor { b with mo := 0 }, .fence f, .barSync { f with b := 2, bk := 3, scope := 1 },
   .barArrive { f with b := 2, bk := 3, scope := 1 }, .barRole { f with scope := 1 }, .barGangSync { f with b := 2, bk := 3, scope := 3 }, .barGangArrive { f with b := 2, bk := 3, scope := 3 },
   .barPkg { f with d := 4, a := 5, ak := 1, b := 6, bk := 1 }]
/-- Token, accumulator, queue and push words (R112 to R119, R317 to R332). -/
def tokWords : List Instr :=
  let t : FT := { d := 0, a := 4, b := 0, size := 16, lease := 0, pub := false }
  let s : FS := { d := 0, a := 0, b := 0, c := 0, ak := 0, bk := 0, num := 1, mo := 0 }
  [.tmake t, .tdrop { t with size := 16 }, .tlend { t with b := 5 }, .tret t, .tsplit { t with size := 17 }, .tmerge { t with size := 17 }, .tshare { t with b := 5 }, .tunshare t, .tquery { t with d := 12, size := 0 },
   .tqueryHold { t with d := 12, size := 0 }, .aacq s, .arel s, .ard { s with d := 8, a := 3, ak := 0 }, .awr { s with a := 3, b := 8 }, .aclr s, .qpop { s with d := 4 }, .qtry { s with d := 4, c := 2 },
   .qpush { s with d := 0, a := 4, ak := 1 }, .mma { s with a := 3, num := 0 }, .cpyLin { s with a := 3, num := 0 }, .cpySlot { s with a := 3, num := 0 }, .cpyGth { s with a := 3, num := 0 },
   .cpySct { s with a := 3, num := 0 }, .cpyCsr { s with a := 3, num := 0 }, .coll { s with a := 3, num := 0 }]
/-- System words with the operand fields that they take (R338 to R360). -/
def sysWords : List (Instr × FS) :=
  let s : FS := { d := 0, a := 0, b := 0, c := 0, ak := 0, bk := 0, num := 0, mo := 0 }
  let k : FS := { s with a := 5, ak := 1 }
  let d : FS := { s with d := 4 }
  [(.slclaim, { s with num := 31 }), (.slrel, { s with num := 31 }), (.twait, { s with num := 39 }), (.cwait, { s with num := 255 }), (.stepBegin, k), (.stepEnd, { k with d := 4, b := 6, bk := 1, c := 7 }), (.trap, { s with num := 255 }),
   (.srd, { d with num := 0x10 }), (.swr, { k with num := 0x10 }), (.xlinv, { k with mo := 1 }), (.xlinvAll, { s with mo := 1 }), (.linv, { k with b := 6, bk := 1, mo := 2 }), (.gtime, d), (.gtimeUntil, k), (.rmap, d),
   (.rmack, k), (.diehop, { d with a := 1, ak := 3, b := 2, bk := 3 }), (.vdie, { d with a := 1, ak := 3 }), (.cbclaim, { k with d := 4 }), (.cbrel, k), (.cbread, { k with d := 4, b := 6, bk := 1 }), (.clkr, { k with d := 4 }),
   (.halt, s), (.wfw, { k with d := 4, b := 6, bk := 1 })]
/-- Control words (R229 to R233). -/
def ctlWords : List Instr :=
  let f : FB := { d := 0, a := 0, pred := 0, neg := false, off := 0 }
  [.nop, .yield, .bra { f with off := 5 }, .exit f, .elect { f with d := 2 }, .electK { f with d := 2, a := 4 }, .loop { f with a := 4, off := 1 }]

/-- The same, its group at level 2. -/
def wl (e : Ext) : State := modGrp 0 (fun g => { g with level := 2 }) (we e)
/-- The same, its partition with a vault window at 2^33, whose first 64 KiB the team owns. -/
def wv : State := { modPart 0 (fun p => { p with ctx := { p.ctx with vwin := 0x200000000, vxt := 1 } }) w0 with
  tokens := [{ part := 0, base := 0x200000000, size := 16, home := 0, owner := 2 ^ 21 }] }
/-- Every lane's address registers v6 and v7, and uniform register k5, name the window. -/
def wa : State := modGrp 0 (fun g => { g with
  v := (List.range 32).flatMap (fun l => [(l * 256 + 6, BitVec.ofNat 32 (4 * l)), (l * 256 + 7, (2 : Word))])
  k := [(4, 0x200000000), (5, 0x200000000), (6, 0x200000000)] }) wv
/-- A world with an event. -/
def ev (e : Ev) (s : State) : State := { s with cur := {}, ev := e }
/-- The arrival of the group's lanes 0 and 1 alone. -/
def lanes2 (s : State) : State := { s with cur := { s.cur with lanes := 3 } }

/-! ### Words that the spec writes out -/

theorem test_decode_nop : (decode 0).toOption = some .nop := by decide
theorem test_decode_bra : (decode 0x0100000700000005).toOption = some (.bra { d := 0, a := 0, pred := 3, neg := true, off := 5 }) := by decide
theorem test_decode_add : (decode 0x2000506070030200).toOption = some (.add { d := 5, a := 6, ak := 0, b := 7, bk := 3, c := 0, ck := 0, ty := 2, mo := 0 }) := by decide
theorem test_decode_fma : (decode 0x4030A0B0C0D00C04).toOption = some (.fma { d := 10, a := 11, ak := 0, b := 12, bk := 0, c := 13, ck := 0, ty := 12, mo := 4 }) := by decide
theorem test_decode_fmul_imm : (decode 0x70203033DCCCCCDC).toOption = some (.fmulImm { d := 3, a := 3, imm := 0x3DCCCCCD, ty := 0xC }) := by decide
theorem test_decode_ext : (decodeExt 0xFE00809400000000).isOk = true := by decide
theorem test_decode_cvt : (decode 0x8000405000000F0C).toOption = some (.cvt { d := 4, a := 5, ak := 0, b := 0, bk := 0, c := 0, ck := 0, ty := 15, mo := 12 }) := by decide
theorem test_decode_atom_cas : (decode 0xC740A040C6900000).toOption = some (.atomCas 2 { data := 10, base := 4, mo := 12, uni := false, space := 3, ty := 9, off := 0 }) := by decide
theorem test_decode_mma : (decode 0xE100002000041000).toOption = some (.mma { d := 0, a := 2, b := 0, c := 0, ak := 1, bk := 0, num := 0, mo := 0 }) := by decide
theorem test_decode_ard : (decode 0xDB0090C000000020).toOption = some (.ard { d := 9, a := 12, b := 0, c := 0, ak := 0, bk := 0, num := 2, mo := 0 }) := by decide
theorem test_decode_st : (decode 0xA100A0E006900080).toOption = some (.st { data := 10, base := 14, mo := 0, uni := false, space := 3, ty := 9, off := 128 }) := by decide
theorem test_decode_bcast : (decode 0x9102900010030900).toOption = some (.bcast { d := 41, a := 0, ak := 0, b := 1, bk := 3, c := 0, ck := 0, ty := 9, mo := 0 }) := by decide
theorem test_decode_atom_st : (decode 0xC900104006900000).toOption = some (.atomSt { data := 1, base := 4, mo := 0, uni := false, space := 3, ty := 9, off := 0 }) := by decide
theorem test_decode_fence : (decode 0xCB00000000000005).toOption = some (.fence { d := 0, a := 0, b := 0, ak := 0, bk := 0, id := 0, scope := 5 }) := by decide
theorem test_decode_tlend : (decode 0xD200004074000000).toOption = some (.tlend { d := 0, a := 4, b := 7, size := 16, lease := 0, pub := false }) := by decide
theorem test_decode_tshare : (decode 0xD600004084000000).toOption = some (.tshare { d := 0, a := 4, b := 8, size := 16, lease := 0, pub := false }) := by decide
theorem test_decode_tret : (decode 0xD300004004000000).toOption = some (.tret { d := 0, a := 4, b := 0, size := 16, lease := 0, pub := false }) := by decide
theorem test_decode_tunshare : (decode 0xD700004004000000).toOption = some (.tunshare { d := 0, a := 4, b := 0, size := 16, lease := 0, pub := false }) := by decide
theorem test_decode_wfw : (decode 0xF810806090050000).toOption = some .wfw ∧ (guardOf 0xF810806090050000).sys = { d := 8, a := 6, b := 9, c := 0, ak := 1, bk := 1, num := 0, mo := 0 } := by decide
theorem test_decode_tquery_hold : (decode 0xD810C04000000000).toOption = some (.tqueryHold { d := 12, a := 4, b := 0, size := 0, lease := 0, pub := false }) := by decide
theorem test_decode_bar_gang : (decode 0xCD00000020030013).toOption = some (.barGangSync { d := 0, a := 0, b := 2, ak := 0, bk := 3, id := 1, scope := 3 }) := by decide
theorem test_decode_step_end : (decode 0xE611003070D50000).toOption = some .stepEnd ∧ (guardOf 0xE611003070D50000).sys = { d := 16, a := 3, b := 7, c := 13, ak := 1, bk := 1, num := 0, mo := 0 } := by decide
theorem test_decode_srd : (decode 0xF101400000000240).toOption = some .srd ∧ (guardOf 0xF101400000000240).sys.num = 0x24 ∧ (guardOf 0xF101400000000240).sys.d = 20 := by decide
theorem test_decode_eret : (decode 0xF010000000000000).toOption = some .eret := by decide
theorem test_decode_trap : (decode 0xF000000000000070).toOption = some .trap ∧ (guardOf 0xF000000000000070).sys.num = 7 := by decide
theorem test_decode_permanent : decode 0xFFFFFFFFFFFFFFFF = .error .permanent := by rfl
theorem test_fetch_runs_the_word : ∃ t, step (State.reset.withFetchWord 64 0x2000506070030200) = .next t ∧ vGet t 0 31 5 = 7 := ⟨_, rfl, by decide⟩

/-! ### Ill-formed words -/

theorem test_wf_add : WellFormed Ext.plain (.add fr) = true := by decide
theorem test_ill_unused_field : encodingCodes 256 Ext.plain (.add { fr with c := 1 }) = [3] := by decide
theorem test_ill_reserved_bit : encodingCodes 256 Ext.plain (.add { fr with mo := 1 }) = [3] := by decide
theorem test_ill_type : encodingCodes 256 Ext.plain (.add { fr with ty := 12 }) = [4] := by decide
theorem test_ill_mode : encodingCodes 256 Ext.plain (.setp { fr with mo := 6 }) = [4] := by decide
theorem test_ill_kind : encodingCodes 256 Ext.plain (.uAdd { fu with ak := 0 }) = [5] := by decide
theorem test_ill_uniform : encodingCodes 256 Ext.plain (.add { fr with ak := 1, a := 64 }) = [5, 5] := by decide
theorem test_ill_predicate : encodingCodes 256 Ext.plain (.setp { fr with d := 8 }) = [5, 5] := by decide
theorem test_ill_pair : encodingCodes 256 Ext.plain (.add { fr with ty := 3 }) = [6, 6] := by decide
theorem test_ill_budget : encodingCodes 8 Ext.plain (.add { fr with b := 8 }) = [6] := by decide
theorem test_ill_quad : encodingCodes 256 Ext.plain (.tquery { d := 5, a := 4, b := 0, size := 0, lease := 0, pub := false }) = [6] := by decide
theorem test_ill_stream : encodingCodes 256 Ext.plain (.xget { d := 4, a := 8, b := 0, c := 0, mo := 0 }) = [5] := by decide
theorem test_ill_space : encodingCodes 256 Ext.plain (.redAdd { fm with space := 0 }) = [4] := by decide
theorem test_ill_slot : encodingCodes 256 (sys { fs with d := 0, a := 0, b := 0, c := 0, num := 32 }) .slclaim = [4] := by decide
theorem test_ill_register : encodingCodes 256 (sys { fs with a := 0, b := 0, c := 0, num := 6 }) .srd = [4] := by decide
theorem test_ill_place : (placeCodes (.call { d := 2, a := 0, pred := 0, neg := false, off := 5 }) w0).isEmpty = false := by decide

/-! ### States that meet what the claims ask: words -/

/-- A word issues where nothing stops it, its operands in registers. -/
def go (m : State → Mask) (s : State) (i : Instr) : Bool := ready i [] (m s) s && streamsOk 64 64 64 s && s.cur.ext.bindD.isNone
/-- A state of a system word. -/
def goSys (q : Instr × FS) : Bool := ready q.1 [] 0xFFFFFFFF (wl (sys q.2))

theorem witness_IntegerWords : intWords.all (go active w0) = true ∧ 0 < active w0 := by decide
theorem witness_IntegerWords_predicate :
    ready (.add fr) [] 1 { we { Ext.plain with pred := 1, zero := true } with cur := { w0.cur with hasExt := true, ext := { Ext.plain with pred := 1, zero := true } } } = true := by decide
theorem witness_ImmediateAndUniformWords : uniWords.all (go (fun s => s.cur.lanes) w0) = true := by decide
theorem witness_FloatAndConversionWords : fltWords.all (go active w0) = true := by decide
theorem witness_ShufflesVotesMatches : laneWords.all (go active w0) = true := by decide
theorem witness_words_of_memory : memWords.all (go active w0) = true := by decide
theorem witness_words_of_tokens : tokWords.all (go active w0) = true := by decide
theorem witness_words_of_system : sysWords.all goSys = true := by decide
theorem witness_words_of_control : ctlWords.all (go (fun s => s.cur.lanes) w0) = true := by decide

theorem witness_SpecialFunctions_root : unpack fmtF32 (0x40800000 : Word).toNat = .fin false (2 ^ 23) (-21) ∧ (((2 ^ 23 : Nat) : Int) = 2 ^ ((2 * 1 - (-21) : Int)).toNat) ∧ (-21 : Int) ≤ 2 * 1 := by decide
theorem witness_StepRunsTheDecodedInstruction :
    (let s := State.reset.withFetchWord 64 0x2000506070030200
     ∃ a c, s.power.lost = false ∧ s.issuing = [a] ∧ (lane s a.gid (lowest a.lanes)).clause = some c
      ∧ clauseWord s a.gid c a.pc.toNat = .ok 0x2000506070030200 ∧ bits (0x2000506070030200 : DWord) 63 56 ≠ 0xFE
      ∧ (decode 0x2000506070030200).toOption = some (.add { fr with bk := 3 }))
    ∧ (∃ it : Item, ({ State.reset with agenda := [it] } : State).issuing = []) ∧ State.reset.issuing = [] ∧ State.reset.agenda = [] := by
  refine ⟨⟨_, _, rfl, rfl, rfl, rfl, by decide, by decide⟩, ⟨⟨1, .nop, {}⟩, rfl⟩, rfl, rfl⟩
/-- An extension word before an `add`, 16 bytes of the launch's code. -/
def wext : State := State.reset.withFetchWord 128 (0xFE00000000000000 + 0x2000506070030200 * 2 ^ 64)
theorem witness_StepRunsTheDecodedInstruction_ext :
    ∃ a c, wext.power.lost = false ∧ wext.issuing = [a] ∧ (lane wext a.gid (lowest a.lanes)).clause = some c ∧ clauseWord wext a.gid c a.pc.toNat = .ok 0xFE00000000000000
      ∧ (decodeExt 0xFE00000000000000).isOk = true ∧ a.pc.toNat + 8 < (nextHeader c).toNat ∧ clauseWord wext a.gid c (a.pc.toNat + 8) = .ok 0x2000506070030200 :=
  ⟨_, _, rfl, rfl, rfl, rfl, by decide, by decide, rfl⟩

/-- Bytes of the vault at an offset of the window. -/
def mw (off : Nat) (l : List Byte) (s : State) : State := { s with mem := cellWrite s.mem (cellKey 2 0 off) l }
/-- A launch record of one team and one group of 8 registers whose entry is the window's base. -/
def recBytes : List Byte := leBytes 8 0x200000000 ++ leBytes 16 0 ++ leBytes 4 1 ++ [1, 0, 1, 1] ++ leBytes 2 1 ++ leBytes 30 0
/-- A partition whose handler record stands at offset 256 of the window. -/
def wh : State := modPart 0 (fun p => { p with hvec := 0x200000100 }) (mw 256 recBytes wv)
/-- A group that has a pending result in v6 of lane 3, and one in v5. -/
def wp (n : Nat) : State := modGrp 0 (fun g => { g with pend := [{ id := 1, lanes := 8, regs := [.v n], kind := .values [] [] }] }) w0
/-- A group that has stopped at an add. -/
def stop0 : Stop := { fr := { tid := 9, cls := 2, code := 1, part := 3, faulted := 3 }, arr := { live := true, gid := 0, lanes := 3, pc := .ofNat 64 fetchVa }, recorded := true }
def wstop : State := { modGrp 0 (fun g => { g with stops := [stop0] }) w0 with traps := [{ part := 0, gid := some 0, fr := stop0.fr }] }
/-- A group that handles a trap. -/
def whd : State := modTeam 0 (fun t => { t with handles := some 9 }) (modGrp 0 (fun g => { g with level := 1 }) w0)

theorem witness_FetchReadsTheLaunchsCode : (translate w0 (grp w0 0).part (grp w0 0).core fetchVa 8 .fetch).toOption.map (fun h => h.loc) = some (.cell (cellKey 0 0 8))
    ∧ (List.range 8).all (fun i => !isPoison w0 (cellKey 0 0 8 + i)) = true := by decide

theorem witness_DecodeOfEncode : (intWords.take 2 ++ fltWords.take 2 ++ memWords.take 2 ++ tokWords.take 1 ++ ctlWords.take 3).all (fun i => (encode i).any (fun w => (decode w).toOption == some i)) = true := by decide
theorem witness_WordOfDecode : encodeGuard (guardOf 0x2000506070030200) (.add { fr with bk := 3 }) = some 0x2000506070030200 ∧ (decode 0x2000506070030200).toOption = some (.add { fr with bk := 3 }) := by decide
theorem witness_StepKeepsMemoryCanonical : ∃ t, State.Canonical (State.reset.withFetchWord 64 0) ∧ step (State.reset.withFetchWord 64 0) = .next t := by
  refine ⟨_, ⟨rfl, ?_⟩, rfl⟩
  decide
theorem witness_IntegerArithmetic : (2 : BitVec 5).toNat < 8 ∧ (3 : BitVec 5).toNat < 4 ∧ 4 ≤ (9 : BitVec 5).toNat ∧ (10 : BitVec 5).toNat ≤ 10 ∧ BitVec.ofNat (tyBits 2) 0 = 0 ∧ BitVec.ofNat (tyBits 2) 1 ≠ 0 := by decide
theorem witness_LogicShiftsAndFields : (0 < 2 ^ tyBits 9) ∧ (0x80000000 < 2 ^ tyBits 9) ∧ (0x80000000 : Nat).testBit (tyBits 9 - 1 - 0) = true ∧ (1 : Nat).testBit 0 = true := by decide
theorem witness_FloatFormats : unpack fmtF32 0x3F800000 = .fin false 0x800000 (-23) ∧ unpack fmtF32 0x7FC00000 = .nan ∧ (0x3F800000 < 2 ^ (fmtF32.magBits + 1)) ∧ fmtF32.isNeg 0xBF800000 = true ∧ fmtF32.mag 0xBF800000 ≠ 0 := by decide

theorem witness_JudgementOrder :
    (encode (.add { fr with c := 1 })).isSome = true ∧ (brokenCodes (.add { fr with c := 1 }) w0).min? = some 3
      ∧ brokenCodes (.add fr) w0 = [] ∧ (levelOf (.add fr) 0).1 ≤ (grp w0 0).level
      ∧ brokenCodes .halt (we Ext.plain) = [] ∧ (grp w0 0).level < (levelOf .halt 0).1
      ∧ (wordReads (wp 6) (.add fr)).any (fun r => (pendingRegs (wp 6) 0 (sOf (.add fr) (wp 6))).contains r) = true
      ∧ (wordReads (wp 5) (.add fr)).any (fun r => (pendingRegs (wp 5) 0 (sOf (.add fr) (wp 5))).contains r) = false
      ∧ (wordWrites (wp 5) (.add fr)).any (fun r => (pendingRegs (wp 5) 0 (sOf (.add fr) (wp 5))).contains r) = true
      ∧ State.reset.cur.live = false := by decide
theorem witness_TrapEntry : (grp w0 w0.cur.gid).stops = [] ∧ (3 : Mask) ≠ 0 := by decide
theorem witness_TrapDelivery :
    (grp wh 0).stops = [] ∧ (grp wh 0).pend.any mustArrive = false ∧ wh.host.fltSize = 0 ∧ pendingTraps wh 0 < 64 ∧ (∃ r, handlerRecord wh 0 = some r)
      ∧ handlerRecord w0 0 = none ∧ 0 ∈ together w0 0
      ∧ 64 ≤ pendingTraps { w0 with traps := List.replicate 64 { part := 0, gid := some 0, fr := stop0.fr } } 0 := by
  refine ⟨by decide, by decide, by decide, by decide, ⟨_, rfl⟩, by decide, by decide, by decide⟩
theorem witness_TrapResolution :
    (grp wstop 0).stops = [stop0] ∧ wstop.traps.length = 1 ∧ wstop.groups.all (fun x => x.2.stops.all (fun y => y.recorded)) = true ∧ stop0.fr.cls = 2 ∧ stop0.fr.level = 1
      ∧ (team wstop 0).state = .resident ∧ (team wstop 0).goal = 0 ∧ stop0.arr.lanes ≠ 0 ∧ 0 ∈ together wstop 0 := by decide
theorem witness_TrapAndEret :
    ready .trap [] (active w0) w0 = true ∧ (team (wl Ext.plain) 0).handles = none ∧ ready .eret [] (active (wl Ext.plain)) (wl Ext.plain) = true
      ∧ ready .eret [] (active whd) whd = true ∧ (team whd 0).handles = some 9 ∧ (grp whd 0).lost = [] ∧ (Machine.core whd 0).wcb = []
      ∧ fenceFirst whd 0 7 whd.ids.msg = true ∧ fenceBound { whd with time := 100 } 0 7 < gtime { whd with time := 100 } 0
      ∧ fenceFirst (modGrp 0 (fun g => { g with pend := [{ id := 0, lanes := 8, regs := [.v 9], kind := .load [] }] }) whd) 0 7 1 = false := by decide

/-- A team whose lanes stand at a header, its clause one word long. -/
def went : State := modPart 0 (fun p => { p with obs := { p.obs with dbgTgt := 1 } }) { modGrp 0 (fun g => { g with lanes := g.lanes.map (fun q => (q.1, { q.2 with clause := none, pc := .ofNat 64 (fetchVa - 8), viaFall := true })) })
  { w0 with launches := [(0, { code := cellWrite [] (cellKey 0 0 0) (leBytes 16 0) })] } with cur := {}, ev := { word := .ofNat 64 (fetchVa - 8) } }
/-- A clause of one word, a `call` or a `loop`, before another header, which is a loop clause's. -/
def wlast : State := modGrp 0 (fun g => { g with lanes := g.lanes.map (fun q => (q.1, { q.2 with clause := some { hdr := .ofNat 64 (fetchVa - 8) } })) })
  { w0 with launches := [(0, { code := cellWrite [] (cellKey 0 0 8) (leBytes 8 0 ++ leBytes 8 (2 ^ 60 + 2 ^ 56)) })] }
/-- A group stalled as it issued its word. -/
def wst (k : StallKind) (s : State) : State := ev {} (modGrp 0 (fun g => { g with stall := some ⟨k, w0.cur, 0⟩ }) s)
/-- A group of which some lanes wait. -/
def ww (k : WaitKind) (s : State) : State := ev { y := 0 } (modGrp 0 (fun g => { g with waits := [{ id := 0, lanes := 3, pc := .ofNat 64 fetchVa, since := 0, kind := k }] }) s)
/-- A continuation entry point, and room in the reorder unit. -/
def wr : State := { w0 with launches := [(0, { record := { cont := 8 } })] }
/-- 32 deposits of the team, of key 5. -/
def deps : List Deposit := List.replicate 32 ⟨0, 5, 0x1122, {}⟩
/-- Transfer words. -/
def fb : FB := { d := 4, a := 6, pred := 0, neg := false, off := 5 }

theorem witness_ControlTransfers : [Instr.brxV fb, .brxK { fb with d := 0 }, .ret { fb with off := 0 }].all (fun i => (placeCodes i w0).isEmpty) = true
    ∧ [Instr.bra { fb with d := 0, a := 0 }, .brxV { fb with d := 0, off := 0 }, .brxK { fb with d := 0, off := 0 }, .ret { fb with d := 0, off := 0 }, .call { fb with a := 0 }, .callV { fb with off := 0 }, .callK { fb with off := 0 }].all
        (fun i => ready i (placeCodes i wlast) (takers wlast fb) wlast) = true ∧ fb.d.toNat < 255 := by decide
theorem witness_ControlWords :
    ready (.exit { fb with d := 0, a := 0, off := 0 }) [] (takers w0 fb) w0 = true ∧ (grp w0 0).lost = [] ∧ takers w0 fb ≠ 0
      ∧ ready (.loop { fb with d := 0, off := 1 }) [] (takers wlast fb) wlast = true ∧ (∃ w, fetchWord wlast 0 (wlast.cur.pc + 8).toNat = .ok w ∧ isLoop w = true) ∧ notLast wlast = []
      ∧ (grp wlast 0).loop = none ∧ ((grp (ww (.loopBuf 3) w0) 0).waits.map (fun w => w.kind)) = [.loopBuf 3] := by
  refine ⟨by decide, by decide, by decide, by decide, ⟨_, rfl, by decide⟩, by decide, by decide, by decide⟩
theorem witness_ClauseEntry : mayPass went 0 went.ev.word 0 ∧ soundEntry went 0 went.ev.word 0 ∧ skipsLoop went 0 went.ev.word 0 = false ∧ needsResv went 0 went.ev.word 0 = false := by
  refine ⟨⟨by decide, by decide, by decide, rfl, by decide, by decide, by decide, by decide, by decide⟩, ⟨by decide, by decide, by decide⟩, by decide, by decide⟩
/-- The same, before another header and another word. -/
def wentry (hdr : Nat) (body : List Byte) : State :=
  { went with launches := [(0, { code := cellWrite [] (cellKey 0 0 0) (leBytes 8 hdr ++ body ++ leBytes 8 0) })] }
/-- Its lanes have come by `loop`. -/
def wloop : State := modGrp 0 (fun g => { g with lanes := g.lanes.map (fun q => (q.1, { q.2 with viaFall := false, viaLoop := true })) }) (wentry (2 ^ 60 + 2 ^ 56 + 2 ^ 40) (leBytes 8 0))
theorem witness_ClauseEntry_skips : ∃ w, mayPass wloop 0 wloop.ev.word w ∧ soundEntry wloop 0 wloop.ev.word w ∧ skipsLoop wloop 0 wloop.ev.word w = true :=
  ⟨_, ⟨by decide, by decide, by decide, rfl, by decide, by decide, by decide, by decide, by decide⟩, ⟨by decide, by decide, by decide⟩, by decide⟩
def wfloat : State := wentry 0 (leBytes 8 0x4000506070000C00)
theorem witness_ClauseEntry_resv : ∃ w, mayPass wfloat 0 wfloat.ev.word w ∧ soundEntry wfloat 0 wfloat.ev.word w ∧ skipsLoop wfloat 0 wfloat.ev.word w = false
    ∧ needsResv wfloat 0 wfloat.ev.word w = true :=
  ⟨_, ⟨by decide, by decide, by decide, rfl, by decide, by decide, by decide, by decide, by decide⟩, ⟨by decide, by decide, by decide⟩, by decide, by decide⟩
def wbad : State := wentry (2 ^ 33) (leBytes 8 0)
theorem witness_ClauseEntry_code : ∃ w, mayPass wbad 0 wbad.ev.word w ∧ (isTarget wbad 0 && isArmed wbad (grp wbad 0).part wbad.ev.word && entrants wbad 0 wbad.ev.word w &&& ~~~(grp wbad 0).passBp != 0) = false
    ∧ headerCode w (incWord wbad 0 wbad.ev.word) (clauseWords wbad 0 (clauseAt wbad 0 wbad.ev.word w)) (tileAt wbad 0 wbad.ev.word w) false true = 9 :=
  ⟨_, ⟨by decide, by decide, by decide, rfl, by decide, by decide, by decide, by decide, by decide⟩, by decide, by decide⟩
theorem witness_ClauseEntryAndSelect :
    sliceGroups w0 0 0 = [0] ∧ (grp w0 0).debugStop = false ∧ (List.range 32).all (fun l => (lane w0 0 l).clause.isSome) = true ∧ readyLanes w0 0 = 0xFFFFFFFF ∧ ((Machine.core w0 0).slices.get {} 0).resv = 0
      ∧ 64 ≤ (lane (modGrp 0 (fun g => { g with lanes := [(0, { waitCtr := 64 })] }) w0) 0 0).waitCtr ∧ (lane w0 0 0).waitCtr < 64 := by decide
set_option maxRecDepth 20000 in
theorem witness_ActivationTables :
    (let f : FR := { fr with d := 0, a := 5, ak := 1, b := 0, ty := 0 }
     ready (.tblLd f) [] (active wa) wa = true ∧ active wa ≠ 0 ∧ allPermitted (rangeAccess wa (kRead wa 5).toNat 2080 .load) = true
       ∧ (tblPieces wa 0x200000000).length = 260 ∧ (tblPieces wa 0x200000000).all (fun q => q.width == 8 && q.got.length == 8) = true)
      ∧ latched (wst (.tblLd 0 [] 0 false) wa) 0 1 = false ∧ (Machine.core wa 0).bank < 2 ∧ tblLoads wa 0 = [] ∧ tblLoads (wst (.tblLd 0 [] 0 true) wa) 0 ≠ []
      ∧ readHeld (wst (.tblLd 0 [] 0 true) wa) 0 (tblPieces wa 0x200000000) = false ∧ refusedReq (wst (.tblLd 0 [] 0 true) wa) 0 0 [] = none
      ∧ ((grp (ww (.tblSwap false) wa) 0).waits.map (fun w => w.kind)) = [.tblSwap false] := by decide
theorem witness_ReorderDeposits :
    (let f : FR := { fr with d := 0, b := 8, ty := 0 }
     ready (.rodep f) [] (active wr) wr = true ∧ (launch wr (team wr 0).launch).record.cont ≠ 0 ∧ streamsOk 32 64 0 wr = true)
      ∧ (Machine.core wr 0).deposits.length + Mask.count (active wr) ≤ Config.depositEntries
      ∧ ((grp (ww .rodep wr) 0).waits.find? (fun w => w.kind == .rodep)).isSome = true ∧ canGo (ww .rodep wr) 0 = true ∧ (Machine.core (ww .rodep wr) 0).deposits.length < Config.depositEntries
      ∧ (team wr 0).state = .resident ∧ ready .roflush [] (active wr) { wr with ids := { wr.ids with group := 1 } } = true := by decide
theorem witness_ReorderDeposits_full :
    (Machine.core (modCore 0 (fun c => { c with deposits := List.replicate 4096 ⟨0, 5, 0, {}⟩ }) wr) 0).deposits = List.replicate 4096 ⟨0, 5, 0, {}⟩ ∧ Config.depositEntries < (List.replicate 4096 (⟨0, 5, 0, {}⟩ : Deposit)).length + Mask.count (active wr) :=
  ⟨rfl, by rw [List.length_replicate]; decide⟩
/-- Deposits of the team, one of each of as many keys. -/
def depsOf (n : Nat) : List Deposit := (List.range n).map (fun i => ⟨0, i, 0, {}⟩)
def wdep (l : List Deposit) : State := modCore 0 (fun c => { c with deposits := l }) { wr with ids := { wr.ids with group := 1 } }
theorem depsOf_one (n t k : Nat) : (entriesOf (depsOf n) t k).length ≤ if k < n then 1 else 0 := by
  induction n with
  | zero => exact Nat.le_refl _
  | succ n h =>
    have e : depsOf (n + 1) = depsOf n ++ [⟨0, n, 0, {}⟩] := by simp [depsOf, List.range_succ]
    rw [e, entriesOf, List.filter_append, List.length_append]
    rw [entriesOf] at h
    have h2 : (List.filter (fun d => d.team == t && d.key == k) [(⟨0, n, 0, {}⟩ : Deposit)]).length ≤ if n = k then 1 else 0 := by
      by_cases hk : n = k <;> simp [hk, List.filter_cons]
      split <;> simp
    split at h <;> split at h2 <;> split <;> omega
theorem witness_ContinuationGroups_full :
    ((∀ t k, (entriesOf (depsOf 4096) t k).length < 32) ∧ (∀ t ∈ teamsIn (depsOf 4096), depositsOpen (wdep (depsOf 4096)) t) ∧ Config.depositEntries ≤ (depsOf 4096).length) := by
  refine ⟨fun t k => Nat.lt_of_le_of_lt (depsOf_one 4096 t k) (by split <;> decide), fun t ht => ?_, ?_⟩
  · have h : t = 0 := by
      simp [teamsIn, depsOf] at ht
      exact ht.2.symm
    rw [h]
    exact ⟨0, by decide, by decide, by decide⟩
  · rw [depsOf, List.length_map, List.length_range]
    decide
theorem witness_ContinuationGroups :
    ((∀ t ∈ teamsIn deps, depositsOpen (wdep deps) t) ∧ deps.length - 32 * (filled deps).length < Config.depositEntries ∧ (filled deps).length = 1)
      ∧ (let s := modGrp 0 (fun g => { g with cont := true, parked := [0], pend := [{ id := 0, lanes := 0xFFFFFFFF, regs := [], kind := .pop 1 4 0 3 }] }) (wdep (deps.take 3))
         (∀ t k, ((entriesOf (deps.take 3) t k).length < 32)) ∧ (∀ t ∈ teamsIn (deps.take 3), teamIdle s t = true)) := by
  have h : teamsIn deps = [0] := by decide
  refine ⟨⟨fun t ht => ?_, by decide, by decide⟩, ⟨fun t k => Nat.lt_of_le_of_lt (List.length_filter_le _ _) (by decide), by decide⟩⟩
  rw [h] at ht
  rw [List.mem_singleton.mp ht]
  exact ⟨0, by decide, by decide, by decide⟩
theorem witness_ContinuationGroups_place : (placeFormed 0 ⟨0, 5, deps⟩ (modGrp 0 (fun g => { g with place := 1 }) wr)).isSome = true ∧ deps.length ≤ 32 := by decide
theorem witness_SpecialRegisters : [0x20, 0x10, 0x29].all (fun n => ready .swr [] (active (wl Ext.plain)) (wl (sys { fs with d := 0, a := 5, ak := 1, b := 0, c := 0, num := n }))) = true
    ∧ ready .srd [] (active w0) (wl (sys { fs with a := 0, b := 0, c := 0, num := 0x22 })) = true ∧ (handled { whd with traps := wstop.traps } 0).isSome = true := by decide
theorem witness_TranslationMaintenance :
    (Machine.core (wst (.xlinv 1 none false 0) w0) 0).wcb = [] ∧ released (wst (.xlinv 1 none false 0) w0) 0 0 = true
      ∧ onTheWay (wst (.xlinv 1 none true 5) w0) 0 (scopeCores 0 1) none 5 0 = false ∧ rangeLines wa 0 0 0x200000000 256 ≠ [] := by decide
theorem witness_TimeMapAndIdleWords :
    (let f : FS := { fs with d := 4, a := 0, ak := 3, b := 0, bk := 3, c := 0 }
     ready .diehop [] (active w0) (we (sys f)) = true ∧ vdt w0 0 (srcBits (we (sys f)) 0 f.a f.ak 32 % 8) = some 0 ∧ vdt w0 0 (srcBits (we (sys { f with a := 1 })) 0 1 3 32 % 8) = none)
      ∧ (0 ≤ gtime w0 (grpDie w0 0)) ∧ bits (kRead w0 5) 31 0 ≠ w0.map.version ∧ bits (1 : DWord) 31 0 = w0.map.version
      ∧ ready .halt [] 0 { wl Ext.plain with cur := { w0.cur with lanes := 0 } } = true ∧ active { wl Ext.plain with cur := { w0.cur with lanes := 0 } } = 0 := by decide
theorem witness_BanksRatiosAndHalts :
    (part w0 0).banks.get 0 0 ≠ 1 ∧ (part (modPart 0 (fun p => { p with banks := [(0, 1)] }) w0) 0).banks.get 0 0 = 1 ∧ bits (kRead w0 5) 3 0 < 2
      ∧ (let s := modGrp 0 (fun g => { g with k := [(5, 8)] }) w0; 2 ≤ bits (kRead s 5) 3 0 ∧ bits (kRead s 5) 3 0 ≤ 10) ∧ ((Machine.core w0 0).slices.get {} 0).resv = 0
      ∧ sliceGroups (wst (.clkr 4) w0) 0 0 = [0] ∧ (∃ h, access wa 0 0 3 0x200000000 8 .load = .ok h ∧ woken wa 0 h.loc 0 0 false = false)
      ∧ (let k := cellKey 2 0 0
         let s := modLine (lineOf k) (fun x => { x with watch := [⟨0, k, 0, false⟩] }) wa
         woken (applyAt (k + 1) [1] s).2 0 (.cell k) 0 0 false = true ∧ woken (applyAt (k + 1) [0] s).2 0 (.cell k) 0 0 false = false ∧ woken (applyAt (k + 8) [1] s).2 0 (.cell k) 0 0 false = false) := by
  refine ⟨by decide, by decide, by decide, by decide, by decide, by decide, ⟨_, rfl, by decide⟩, by decide⟩

/-- Access fields of a word that names the window. -/
def gm : FM := { fm with space := 3 }
def gu : FM := { gm with uni := true, base := 4 }
/-- A group with one pending result. -/
def wpe (k : PendKind) : State := ev {} (modGrp 0 (fun g => { g with pend := [{ id := 0, lanes := 3, regs := [], kind := k }] }) wv)
/-- A write-through of one byte of line 0 of the window, on its way. -/
def msg0 : Msg := { id := 4, core := 0, part := 0, team := 0, line := cellKey 2 0 0 / 128, bytes := [(3, 7)], gids := [0], first := 0, sent := 0 }
def wmsg : State := ev { x := 4 } { wv with net := { wv.net with msgs := [msg0] } }
/-- A read of another module that has no answer. -/
def far0 : Far := { id := 4, gid := 0, part := 0, module := some 1, gpa := 64, write := none, pend := some 0, sent := 0 }
def wfar : State := ev { x := 4, y := 8 } { wpe (.load []) with net := { wv.net with far := [far0] }, time := 20000 }
/-- A VF that serves partition 0 through a decoder at 0, its window the vault's. -/
def wvf : State := ev { word := 0, y := 4, data := [1, 2, 3, 4] } (modPart 0 (fun p => { p with imports := [(1, 1)] })
  { wv with map := { entries := [(506, { state := 2 })] }, tokens := [{ part := 0, base := 0x200000000, size := 16, home := 0, owner := 5 * 2 ^ 21 }], host := { wv.host with vfs := [(0, { part := some 0, win := 0x200000000 })] } })
/-- The region of the window shared with the team for atomic operations. -/
def wat : State := { wa with tokens := [{ part := 0, base := 0x200000000, size := 16, home := 0, owner := 3 * 2 ^ 21, sharers := [2 ^ 21] }] }
/-- A combined atomic request for 4 bytes of the window. -/
def atom0 : Atom := { id := 4, gid := 0, core := 0, part := 0, team := 0, loc := .cell (cellKey 2 0 8), va := 0x200000008, width := 4, ty := 6, op := 0, lanes := [⟨0, 1, 0⟩], pend := none, sent := 0 }
def watom (a : Atom) : State := ev { x := 4 } { wv with net := { wv.net with atoms := [a] } }

theorem witness_LoadAndStoreWords :
    ready (.ld gm) [] (active wa) wa = true ∧ allPermitted (laneAccess wa gm (elemCount gm * elemBytes gm.ty) .load) = true ∧ (elemRegs gm).all (fun r => decide (r.1 < 256)) = true
      ∧ ready (.ldu gu) [] (active wa) wa = true ∧ (∃ h, access wa 0 0 3 (effAddr wa gu 0) 4 .load = .ok h)
      ∧ ready (.st gm) [] (active wa) wa = true ∧ allPermitted (laneAccess wa gm (elemCount gm * elemBytes gm.ty) .store) = true
      ∧ ready (.cst gu) [] (active wa) wa = true ∧ ready (.cstCount { gu with mo := 9 }) [] (active wa) wa = true ∧ (∃ h, cstRange wa gu = .ok h) ∧ allPermitted (cstAccess wa gu) = true
      ∧ (∃ h key, access wa 0 0 3 (effAddr wa gm 0) 1 .load = .ok h ∧ h.loc = .cell key) := by
  refine ⟨by decide, by decide, by decide, by decide, ⟨_, rfl⟩, by decide, by decide, by decide, by decide, ⟨_, rfl⟩, by decide, ⟨_, _, rfl, rfl⟩⟩
theorem witness_StreamWords :
    (∃ h, access wa 0 0 3 (kRead wa 4).toNat 32 .store = .ok h) ∧ (∃ h, access wa 0 0 3 (kRead wa 4).toNat 32 .load = .ok h)
      ∧ (let s := modGrp 0 (fun g => { g with x := [(1, { base := 0x200000000, space := 3, width := 2, count := 4 })] }) wa
         let st := (grp s 0).x.get {} 1
         st.ahead = [] ∧ (grp s 0).waits = [] ∧ (grp s 0).resident = true ∧ st.pos < st.count ∧ (∃ a, access s 0 31 st.space (streamAddr st st.pos 31) 4 .load = .ok a)) := by
  refine ⟨⟨_, rfl⟩, ⟨_, rfl⟩, rfl, rfl, rfl, by decide, ⟨_, rfl⟩⟩
/-- Lanes 0 and 1 issue a word whose results a stream takes. -/
def wbound : State :=
  let s := modGrp 0 (fun g => { g with x := [(1, { base := 0x200000000, space := 3, width := 2, count := 4 })] }) wa
  { s with cur := { s.cur with lanes := 3, hasExt := true, ext := { Ext.plain with bindD := some 1 } } }
theorem witness_VecDone_bound :
    ready (.add { fr with d := 0 }) [] (active wbound) wbound = true ∧ streamsOk 32 32 32 wbound = true ∧ wbound.cur.ext.bindD.isSome = true
      ∧ ready (.rcp { fr with d := 0, ty := 12, b := 0 }) [] (active wbound) wbound = true ∧ streamsOk 32 0 32 wbound = true
      ∧ ready (.compress { fr with d := 0, b := 0, ty := 9 }) [] (active wbound) wbound = true ∧ tyBits 9 = 32
      ∧ (boundStores 32 32 32 (fun _ => { v := [(0, 7)] }) wbound).map (fun b => (b.lane, b.va, b.bytes)) = [(0, 0x200000000, [7, 0, 0, 0]), (1, 0x200000004, [7, 0, 0, 0])] := by decide
theorem witness_Canonical_bound : wbound.Canonical := ⟨rfl, by decide⟩
theorem witness_ResultsArrive_bound :
    let s := wpe (.values [(1, 255, 1)] [⟨0, 0x200000000, .cell (cellKey 2 0 0), [1, 2, 3, 4]⟩])
    (grp s 0).pend.find? (fun r => r.id == s.ev.y) = some { id := 0, lanes := 3, regs := [], kind := .values [(1, 255, 1)] [⟨0, 0x200000000, .cell (cellKey 2 0 0), [1, 2, 3, 4]⟩] }
      ∧ (grp s 0).stops = [] ∧ s.Canonical := ⟨rfl, rfl, rfl, by decide⟩
theorem witness_ResultsArrive :
    ((grp (wpe (.values [(0, 255, 1)] [])) 0).pend.find? (fun r => r.id == 0)).isSome = true ∧ (grp (wpe (.values [] [])) 0).stops = []
      ∧ (grp (wpe (.uniform 63 (some 1) [(31, true)] 7)) 0).pend.map (fun r => r.kind) = [.uniform 63 (some 1) [(31, true)] 7]
      ∧ (grp (wpe (.atomic [(0, 5, 1)] [(0, true)] 1 0)) 0).pend.map (fun r => r.kind) = [.atomic [(0, 5, 1)] [(0, true)] 1 0]
      ∧ (grp (wpe (.load [⟨0, .v 5, 4, false, 0x200000000, .cell (cellKey 2 0 0), [none], 0⟩])) 0).pend.length = 1 := by decide
theorem witness_WriteThroughsAndLostOnes :
    (let s := ev { y := 5 } (modCore 0 (fun c => { c with wcb := [⟨5, 0, 0, [(3, 7)], [0], 0, 0⟩] }) wv); (Machine.core s 0).wcb.filter (fun x => x.line == s.ev.y) = [⟨5, 0, 0, [(3, 7)], [0], 0, 0⟩])
      ∧ wmsg.net.msgs.find? (fun x => x.id == wmsg.ev.x) = some msg0 ∧ msg0.refused = false ∧ wmsg.marks.held.all (fun h => h.msg != msg0.id) = true
      ∧ wmsg.net.msgs.find? (fun x => x.core == msg0.core && lineHome x.line == lineHome msg0.line && (lineTier x.line == 3) == (lineTier msg0.line == 3)) = some msg0
      ∧ msg0.bytes.all (fun q => decide (q.1 < 128)) = true ∧ wmsg.marks.hostLines.contains msg0.line = false
      ∧ ({ wmsg.marks with hostLines := [msg0.line] } : Marks).hostLines.contains msg0.line = true
      ∧ (let s := ev { x := msg0.line } { wmsg with marks := { wmsg.marks with held := [⟨msg0.line, 4⟩] } }; s.marks.held.filter (fun h => h.line == s.ev.x) = [⟨msg0.line, 4⟩] ∧ s.net.msgs.find? (fun m => m.id == 4) = some msg0)
      ∧ (let f : Far := { far0 with write := some [(0, 1)], pend := none }; ({ wfar with net := { wfar.net with far := [f] } } : State).net.far.find? (fun f => f.id == 4) = some f ∧ f.module.bind (ownImport wfar 0) = none)
      ∧ wfar.net.far.find? (fun x => x.id == wfar.ev.x) = some far0 ∧ wfar.net.msgs.all (fun m => m.id != wfar.ev.x) = true ∧ heldUp wfar wfar.ev.x = false ∧ heldUp { wfar with net := { wfar.net with crossed := [(1, 4)] } } 4 = true
      ∧ far0.sent + 20000 ≤ wfar.time ∧ wv.time < far0.sent + 20000 ∧ far0.module.isSome = true ∧ ((grp wfar 0).pend.find? (fun x => x.id == 0)).isSome = true
      ∧ (ev { x := 4, flag := true } wfar).ev.flag = true := by decide
/-- The partition holds cluster 0. -/
def wcl : State := { wv with clusters := [(0, { holder := some 0 })] }
theorem witness_CopiesAndHost_line : (translate wcl 0 0 0x200000000 1 .load).toOption.map (fun h => (h.loc, h.home)) = some (.cell (cellKey 2 0 0), 0) := by decide
theorem witness_CopiesAndHost_lease : (clus wcl (coreClus 0)).holder = some 0 ∧ leaseOf wcl 0 0x200000000 0 = some 64 ∧ leaseOf (modDie 0 (fun d => { d with alarm := true }) wcl) 0 0x200000000 0 = none := by decide
theorem witness_CopiesAndHost_poison : wcl.marks.poison = [] ∧ passesL2 0 (lineOf (cellKey 2 0 0)) = false := by decide
theorem witness_CopiesAndHost : lineTier (cellKey 3 0 0 / 128) = 3 ∧ (lineSt { w0 with time := 21 } (cellKey 3 0 0 / 128)).h + 20 < gtime { w0 with time := 21 } 0 ∧ gtime w0 0 ≤ (lineSt w0 5).h + 20
    ∧ (part wvf 0).erased = false ∧ cxlByte wvf 0 0 3 .load = some (0x200000003, .cell (cellKey 2 0 3)) ∧ cxlByte wvf 0 0 3 .store = some (0x200000003, .cell (cellKey 2 0 3)) := by decide
/-- A state whose unit map shows a port live takes requests at it. -/
theorem usable_of_live (s : State) (n : Nat) (h : Config.fusedOff n = false) (e : (s.map.entries.get {} n).state = 2) : entryUsable s n = true := by
  simp [entryUsable, entryState, h, e]
/-- A bound VF in UNLOCKED of a partition without the flag serves it where the host port is open. -/
theorem serves_of_open (s : State) (h : Config.fusedOff 506 = false) (e : (s.map.entries.get {} 506).state = 2) (v : (s.host.vfs.get {} 0).part = some 0)
    (u : (s.host.vfs.get {} 0).state = .unlocked) (t : (part s 0).ctx.tdisp = false) : vfServes s 0 = some 0 := by
  simp only [vfServes, hostOpen, usable_of_live s 506 h e, v, u, t, Option.bind_some]
  rfl
theorem witness_CopiesAndHost_serves (h : Config.fusedOff 506 = false) :
    vfServes wvf 0 = some 0 ∧ vfServes (modPart 0 (fun p => { p with erased := true }) wvf) 0 = some 0 := by
  exact ⟨serves_of_open wvf h (by decide) (by decide) (by decide) (by decide), serves_of_open _ h (by decide) (by decide) (by decide) (by decide)⟩
theorem witness_Fences :
    ready (.fence { d := 0, a := 0, b := 0, ak := 0, bk := 0, id := 0, scope := 5 }) [] w0.cur.lanes w0 = true ∧ (grp w0 0).waits = [] ∧ waitingLanes w0 0 = 0 ∧ (grp w0 0).lost = []
      ∧ fenceNow { w0 with time := 100 } 0 5 = true ∧ fenceNow w0 0 5 = false ∧ fenceNow w0 0 2 = true
      ∧ (let s := ww (.fence 5 none 0 .nothing) w0; ((grp s 0).waits.find? (fun w => w.id == 0)).isSome = true ∧ (grp s 0).stall = none
          ∧ fenceFirst s 0 5 0 = true ∧ fenceFirst (modGrp 0 (fun g => { g with pend := [{ id := 0, lanes := 8, regs := [], kind := .load [] }] }) s) 0 5 1 = false) := by decide
theorem witness_Barriers :
    (let f : FF := { d := 0, a := 0, b := 2, ak := 0, bk := 3, id := 0, scope := 1 }
     ready (.barSync f) [] w0.cur.lanes w0 = true ∧ 0 < barCount w0 f ∧ barCount w0 f ≤ 4095 ∧ (barOf w0 0 false 0).count = 0 ∧ fenceNow (drainGroup 0 w0) 0 1 = true ∧ (barOf w0 0 false 0).count + 1 ≠ barCount w0 f
       ∧ barCount w0 { f with b := 1 } = (barOf w0 0 false 0).count + 1 ∧ (grp w0 0).exited = false ∧ Mask.count w0.cur.lanes = roleLanes w0 0 false ∧ Mask.count (1 : Mask) ≠ roleLanes w0 0 false)
      ∧ (let s := modGrp 0 (fun g => { g with k := [(5, 0x200000000), (6, 3)] }) { wat with launches := [(0, { record := { coRes := true } })] }
         let f : FF := { d := 4, a := 5, b := 6, ak := 1, bk := 1, id := 0, scope := 5 }
         ready (.barPkg f) [] s.cur.lanes s = true ∧ bits (kRead s 6) 31 0 ≠ 0 ∧ (launch s (team s 0).launch).record.coRes = true ∧ (∃ h, access s 0 0 3 0x200000000 8 .atomic = .ok h))
      ∧ (let a : Atom := { atom0 with op := pkgOp, width := 8, wait_ := some 0 }
         let s : State := { ww (.pkg 4 (.cell (cellKey 2 0 8)) (2 ^ 32) none) wv with tokens := [], net := { wv.net with atoms := [a] } }
         s.net.atoms.find? (fun a => a.id == 4) = some a ∧ tokenAt s 0 a.va 0 = none ∧ ((grp s 0).waits.find? (fun w => some w.id == a.wait_)).isSome = true ∧ (grp s 0).loop = none
           ∧ leNat (cellBytes s.mem (cellKey 2 0 8) 8) % 2 ^ 32 ≠ 0xFFFFFFFF ∧ leNat (cellBytes (cellWrite [] (cellKey 2 0 8) [255, 255, 255, 255]) (cellKey 2 0 8) 8) % 2 ^ 32 = 0xFFFFFFFF
           ∧ pkgWord s (.cell (cellKey 2 0 8)) / 2 ^ 32 = 0 ∧ pkgWord s (.cell (cellKey 2 0 8)) / 2 ^ 32 ≠ 1) := by
  refine ⟨by decide, ⟨by decide, by decide, by decide, ⟨_, rfl⟩⟩, by decide⟩
theorem witness_AtomicWords :
    [Instr.atomAdd { gm with mo := 8 }, .atomMin { gm with mo := 8 }, .atomMax { gm with mo := 8 }, .atomAnd { gm with mo := 8, ty := 9 }, .atomOr { gm with mo := 8, ty := 9 }, .atomXor { gm with mo := 8, ty := 9 },
      .atomExch { gm with mo := 8, ty := 9 }, .atomCas 2 { gm with mo := 8, ty := 9 }, .atomLd { gm with ty := 9 }, .atomSt { gm with ty := 9 }, .redAdd gm, .redMin gm, .redMax gm, .redAnd { gm with ty := 9 },
      .redOr { gm with ty := 9 }, .redXor { gm with ty := 9 }].all (fun i => (atomKind i).any (fun q => ready i [] (active wat) wat && q.1.space == 3)) = true
      ∧ allPermitted (laneAccess (lanes2 wat) gm 4 .atomic) = true
      ∧ (let s := modGrp 0 (fun g => { g with v := [] }) (modTeam 0 (fun t => { t with pad := [] }) { wv with launches := [(0, { record := { pad := 4096 } })] })
         allPermitted (laneAccess (lanes2 s) { gm with space := 1 } 4 .atomic) = true) := by decide
theorem witness_AtomicsAndRemoteRequests :
    (watom atom0).net.atoms.find? (fun a => a.id == (watom atom0).ev.x) = some atom0 ∧ atom0.refused = false ∧ atom0.op < 9 ∧ ({ atom0 with op := 8 } : Atom).op < 9
      ∧ (tokenAt (watom atom0) 0 atom0.va 0).all (fun t => decide (t.notBefore ≤ gtime (watom atom0) 0)) = true ∧ (watom atom0).marks.hostLines.contains (lineOf (cellKey 2 0 8)) = false
      ∧ (let k : Token := { part := 0, base := 0x200000000, size := 16, home := 0, owner := 3 * 2 ^ 21, winAt := some 0 }
         k.atomic = true ∧ ({ wv with tokens := [k] } : State).tokens.find? (fun t => t.part == 0 && t.base == 0x200000000) = some k ∧ k.winAt = some 0 ∧ wv.time < 0 + 50000 ∧ 0 + 50000 ≤ ({ wv with time := 50000 } : State).time)
      ∧ (1, 1) ∈ (part wvf 0).imports ∧ (part wvf 0).state = .ready ∧ (1, 2) ∉ (part wvf 0).imports ∧ (∃ h, importLoc wvf 0 16 false = .ok h ∧ h.loc = .cell (cellKey 0 0 16))
      ∧ (∃ h, importLoc wvf 0 16 true = .ok h ∧ h.loc = .cell (cellKey 0 0 16)) := by
  refine ⟨by decide, by decide, by decide, by decide, by decide, by decide, by decide, by decide, by decide, by decide, ⟨_, rfl, rfl⟩, ⟨_, rfl, rfl⟩⟩

theorem ok_of {ε α : Type} {e : Except ε α} {x : α} (h : e.toOption = some x) : e = .ok x := by
  cases e with
  | error _ => cases h
  | ok _ => rw [Option.some.inj h]
/-- The window's region is module 1's, or a service group's that module 1 shares; module 1's partition 1 is imported. -/
def wrem (acc : Acc) : State := ev { x := 1, y := 1, word := .ofNat 64 (2 ^ 43), nums := [1] } { wvf with
  tokens := wvf.tokens.map (fun k => if acc = .atomic then { k with owner := 3 * 2 ^ 21, sharers := [6 * 2 ^ 21 + 1] } else { k with owner := 6 * 2 ^ 21 + 1 }) }
/-- A byte of the window as module 1's request names it, where its guest-physical address is the window's base. -/
theorem witness_RemoteRequest (h : (Config.vaOf 0 (2 ^ 43)).toNat = 0x200000000) (acc : Acc) (ha : acc = .load ∨ acc = .store ∨ acc = .atomic) :
    requestPlaces (wrem acc) 0 1 (2 ^ 43) 1 acc = .ok [(0x200000000, .cell (cellKey 2 0 0))] ∧ (1, 1) ∈ (part (wrem acc) 0).imports ∧ (part (wrem acc) 0).state = .ready := by
  let x : Hit := { loc := .cell (cellKey 2 0 0), gpa := 2 ^ 43 }
  have a : importLoc (wrem acc) 0 (2 ^ 43) acc.writes = .ok x := ok_of (by rcases ha with rfl | rfl | rfl <;> decide)
  have b : ∃ y, translate (wrem acc) 0 (2 ^ 40) 0x200000000 1 acc = .ok y ∧ y.loc = x.loc ∧ (if needsRight y acc then rightCode (wrem acc) 0 (6 * 2 ^ 21 + 1) 0x200000000 y.home acc else none) = none :=
    ⟨_, ok_of (x := { loc := .cell (cellKey 2 0 0), gpa := 2 ^ 43 }) (by rcases ha with rfl | rfl | rfl <;> decide), rfl, by rcases ha with rfl | rfl | rfl <;> decide⟩
  obtain ⟨y, b, e, c⟩ := b
  have p : importPlace (wrem acc) 0 1 (2 ^ 43) acc = .ok (0x200000000, x) := by
    have f : acc ≠ .fetch := by rcases ha with rfl | rfl | rfl <;> decide
    simp only [importPlace, a, h, show (2 ^ 43 % 2 ^ 47 : Nat) = 2 ^ 43 from by decide, b, c, e, f, bne_self_eq_false, Bool.false_eq_true, if_false]
  refine ⟨?_, by rcases ha with rfl | rfl | rfl <;> decide, by rcases ha with rfl | rfl | rfl <;> decide⟩
  simp only [requestPlaces, List.range_succ, List.range_zero, List.nil_append, List.mapM_cons, List.mapM_nil, Nat.add_zero, p]
  rcases ha with rfl | rfl | rfl <;> rfl

/-- Token fields that name the window. -/
def ft : FT := { d := 0, a := 4, b := 5, size := 16, lease := 0, pub := false }
/-- The window's entry, changed, for an event of its region. -/
def wtok (f : Token → Token) : State := ev { x := 0, y := 0x200000000 } { wv with tokens := wv.tokens.map f }
/-- Two idle halves of 64 KiB. -/
def wtwo : State := { wa with tokens := wa.tokens ++ [{ part := 0, base := 0x200010000, size := 16, home := 0, owner := 2 ^ 21 }] }
/-- An operation on the window. -/
def op0 : TokOp := { kind := .lend, holder := 2 ^ 21, target := 2 ^ 21 + 5, gid := some 0 }

theorem witness_Tokens_make :
    (let s := modPart 0 (fun p => { p with ctx := { p.ctx with quota := [(0, 4)] } }) { wa with tokens := [] }
     ready (.tmake { ft with b := 0 }) [] s.cur.lanes s = true ∧ (translate s 0 0 (kRead s 4).toNat 1 .load).toOption.map (fun h => h.home) = some 0 ∧ noEntry s 0 0 = false ∧ noEntry wa 0 0 = true ∧ (kRead s 4).toNat % 2 ^ 16 = 0) := by decide
theorem witness_Tokens_words :
    (tokNamed wa 0 (kRead wa 4).toNat 16).isSome = true ∧ tokNamed wa 0 0x300000000 16 = none
      ∧ (tokenBase wa 0 0x200000000).map (fun k => (k.size, k.moving.isNone, k.waiting.isEmpty)) = some (16, true, true)
      ∧ (tokenBase wa 0 0x200000000).map (fun k => (tokRefusal wa 0 k { op0 with target := 3 }, tokRefusal wa 0 k op0)) = some (some 3, none)
      ∧ (tokenBase wa 0 0x200000000).map (fun k => (shareOk wa 0 k op0, shareOk wa 0 { k with sharers := [7] } op0)) = some (true, false)
      ∧ (tokenBase wa 0 0x200000000).map (fun k => (tokRefusal wa 0 { k with outer := 2 ^ 21 + 1 } { op0 with kind := .ret }, tokRefusal wa 0 k { op0 with kind := .share }, tokRefusal wa 0 k { op0 with kind := .tdrop })) = some (none, none, none) := by decide
theorem witness_Tokens_split :
    (tokenBase wtwo 0 0x200000000).map (fun k => (tokRefusal wtwo 0 k { op0 with kind := .merge }, shareOk wtwo 0 k { op0 with kind := .merge })) = some (none, true)
      ∧ (let s := modPart 0 (fun p => { p with ctx := { p.ctx with quota := [(0, 4)] } }) wa; (tokenBase s 0 0x200000000).map (fun k => tokRefusal s 0 { k with size := 17 } { op0 with kind := .split, size := 17 }) = some none)
      ∧ (2 ^ 21 ∉ (wv.tokens.flatMap (fun k => k.sharers)) ∧ 2 ^ 21 ∈ [2 ^ 21]) ∧ holdsRegion wa 0 0x200000000 = true ∧ holdsRegion wa 0 0x300000000 = false := by decide
theorem witness_Tokens_effect :
    (let s := wtok (fun k => { k with waiting := [op0] }); (tokenBase s 0 s.ev.y).map (fun k => (k.waiting, k.moving, tokRefusal s 0 k op0, shareOk s 0 k op0)) = some ([op0], none, none, true))
      ∧ (let s := wtok (fun k => { k with waiting := [op0], sharers := [7] }); (tokenBase s 0 s.ev.y).map (fun k => (tokRefusal s 0 k op0, shareOk s 0 k op0)) = some (none, false)) := by decide
theorem witness_Tokens_complete :
    (let s := wtok (fun k => { k with moving := some (op0, noTime) }); (tokenBase s 0 s.ev.y).map (fun k => regionBusy s k op0) = some false)
      ∧ (let s := wtok (fun k => { k with moving := some (op0, 5) }); gtime s 0 < 5 ∧ (5 : Nat) ≠ noTime ∧ gtime { s with time := 5 } 0 = 5) := by decide
theorem witness_Tokens_bound :
    (let s := wst .token (wtok (fun k => { k with waiting := [op0] })); (grp s 0).stall.isSome = true ∧ s.time < op0.at_ + 100000 ∧ op0.at_ + 100000 ≤ 100000 ∧ op0.kind ≠ .share) := by decide
theorem witness_Tokens_lost :
    (let s : State := { wtok id with losts := [⟨0, 2 ^ 21, 0⟩] }
     (tokenBase s 0 s.ev.y).map (fun k => (lostBusy s 0 k, k.waiting.isEmpty, k.atomic && isLost s 0 k.owner, isLost s 0 k.owner)) = some (false, true, false, true)
      ∧ (tokenBase s 0 s.ev.y).map (fun k => (decide (gtime s 0 < k.lastW + 20), decide (k.lastW + 20 ≤ gtime { s with time := 20 } 0))) = some (true, true)) := by decide
theorem witness_Tokens_hold :
    (let s := wst (.hold 12 0x200000000) wv; (grp s 0).stall.isSome = true ∧ holdsRegion s 0 0x200000000 = true ∧ (team s 0).state = .resident ∧ (grp s 0).loop = none ∧ holdsRegion { s with tokens := [] } 0 0x200000000 = false) := by decide

theorem witness_QueueAndTileWords :
    popLegal 1 = true ∧ popLegal 8 = true ∧ popLegal 2 = false ∧ popsWaiting w0 0 1 = [] ∧ queueOf w0 0 1 = []
      ∧ queueOf (modGrp 0 (fun g => { g with q1 := [(5, {})] }) w0) 0 1 = [(5, {})] ∧ popsWaiting (wpe (.pop 1 4 0 3)) 0 1 ≠ []
      ∧ (let s := modGrp 0 (fun g => { g with q1 := [(5, {})] }) (wpe (.pop 1 4 0 3)); (popsWaiting s 0 1).all (fun o => decide (0 ≤ o.2.id)) = true ∧ (team s 0).state = .resident ∧ (grp s 0).stops = [])
      ∧ (tileEnt w0 0 1).holder = none ∧ (Machine.core w0 0).aacqQ.all (fun q => q.1 != 1) = true
      ∧ (let s := ev { y := 1 } (wst (.aacq 1) (modCore 0 (fun c => { c with aacqQ := [(1, 0)] }) w0)); (Machine.core s 0).aacqQ.find? (fun q => q.1 == 1) = some (1, 0) ∧ (tileEnt s 0 1).holder = none)
      ∧ (let s := modTile 0 1 (fun e => { e with holder := some 0 }) w0
         (tileEnt s 0 1).holder = some 0 ∧ (tileEnt s 0 1).pending = 0 ∧ tileOpen s 0 1 = true ∧ coreBad s 0 (tilePlace 1) = false ∧ tileOpen (modTile 0 1 (fun e => { e with state := .filling, pending := 1 }) s) 0 1 = false) := by decide

/-- A parameter block of INT8 of 16 x 16 x 16 on tile 0, slots 0 and 1; a copy of 4 bytes of the window to the scratchpad; a sum of one rank. -/
def blockB : List Byte := leBytes 4 0x88000000 ++ [0, 0, 0, 0, 0, 1, 1, 1, 0, 16, 0, 16] ++ leBytes 2 0 ++ leBytes 2 16 ++ leBytes 44 0
def copyB : List Byte := leBytes 4 (3 * 2 ^ 26 + 2 ^ 24 + 2 * 2 ^ 20) ++ leBytes 4 4 ++ leBytes 4 1 ++ leBytes 4 9 ++ leBytes 8 0x200000000 ++ leBytes 8 256 ++ leBytes 32 0
def collB : List Byte := leBytes 4 (6 * 2 ^ 19) ++ leBytes 4 1 ++ leBytes 8 1 ++ leBytes 4 0 ++ leBytes 4 1 ++ leBytes 8 0 ++ leBytes 8 0x200000000 ++ leBytes 8 0x200000040 ++ leBytes 16 0
/-- Lane 0 pushes the block at the start of its team's scratchpad. -/
def wpush (major_ : Nat) (b : List Byte) : State :=
  let s := modTeam 0 (fun t => { t with pad := cellWrite t.pad 0 b }) (modTile 0 0 (fun e => { e with holder := some 0 }) (modSlot 0 0 (fun e => { e with holder := some 0 }) (modSlot 0 1 (fun e => { e with holder := some 0 }) wv)))
  { s with cur := { s.cur with lanes := 1, word := .ofNat 64 (major_ * 2 ^ 56) } }

set_option maxRecDepth 20000 in
theorem witness_PushWords :
    pushRefusal (wpush 0xE1 blockB) (wpush 0xE1 blockB).cur 0 0 = none ∧ pushRefusal (wpush 0xE2 copyB) (wpush 0xE2 copyB).cur 0 0 = none ∧ pushRefusal (wpush 0xE5 collB) (wpush 0xE5 collB).cur 0 0 = none
      ∧ pushRefusal (wpush 0xE1 blockB) (wpush 0xE1 blockB).cur 0 8 = some 1 := by decide
set_option maxRecDepth 20000 in
theorem witness_PushWords_room :
    (let s := wpush 0xE1 blockB
     s.cur.word.toNat / 2 ^ 56 = major (.mma fs) ∧ active s = 1 ∧ (grp s 0).place = 0 ∧ (grp s 0).lost = [] ∧ released s 0 s.ids.msg = true ∧ (Machine.core s 0).wcb = [] ∧ (Machine.core s 0).mq.length + 1 ≤ 16 ∧ pushTok s s.cur 0 blockB = none
       ∧ pushRoom s s.cur blockB = true)
      ∧ (let s := wst (.push (some 3) 1 [(0, 0, blockB)] 0) (wpush 0xE1 blockB); (grp s 0).stall.isSome = true ∧ (ctok s 0 3).busy = false ∧ released s 0 0 = true)
      ∧ (ctok (modGrp 0 (fun g => { g with c := [(3, { busy := true })] }) w0) 0 3).busy = true
      ∧ released { w0 with net := { w0.net with msgs := [msg0] } } 0 5 = false := by decide

theorem witness_SlotsAndSteps :
    (slotEnt w0 0 1).holder = none ∧ (slotEnt w0 0 1).state = .empty ∧ (Machine.core w0 0).claimQ.all (fun q => q.1 != 1) = true ∧ slotIdle w0 0 1 = true
      ∧ (let s := modSlot 0 1 (fun e => { e with holder := some 0, readers := 1 }) w0; (slotEnt s 0 1).holder = some 0 ∧ slotIdle s 0 1 = false ∧ slotFree s 0 1 = false)
      ∧ (slotEnt (modSlot 0 1 (fun e => { e with holder := some 5 }) w0) 0 1).holder ≠ some 0 ∧ waitOn w0 0 (.twait 1) = none ∧ (waitOn w0 0 (.cwait 255)).isSome = true
      ∧ (waitOn (modSlot 0 1 (fun e => { e with state := .ready }) w0) 0 (.twait 1)).isSome = true ∧ (launch w0 (grpLaunch w0 0)).steps = []
      ∧ (let s := modLaunch 0 (fun l => { l with steps := [(0, 0)] }) wa; (launch s (grpLaunch s 0)).steps.find? (fun q => q.1 == 0) = some (0, 0) ∧ bits (kRead s 5) 31 0 = 0)
      ∧ (let s := ev { y := 1 } (wst (.slclaim 1) (modCore 0 (fun c => { c with claimQ := [(1, 0)] }) w0)); (Machine.core s 0).claimQ.find? (fun q => q.1 == 1) = some (1, 0) ∧ slotFree s 0 1 = true)
      ∧ slotIdle (wst (.slrel 1) w0) 0 1 = true := by decide
theorem witness_SlotsAndSteps_report :
    (let s := modLaunch 0 (fun l => { l with steps := [(0, 0)] }) wa
     allPermitted (reportAccess s 0x200000000 64) = true ∧ 64 + 64 * (stepReport s 0 0 64).2.1 = 64) := by decide

/-- A command of the block at the head of the matrix queue; a copy at the head of channel 0; a collective of one rank. -/
def who0 : Issuer := { gid := some 0 }
def wmat (seg : Nat) : State := modCore 0 (fun c => { c with mq := [{ id := 1, who := who0, block := parseBlock blockB 0, seg := seg }] }) (ev {} (wpush 0xE1 blockB))
def wcopy (g : CopyCmd → CopyCmd) : State := modCore 0 (fun c => { c with chans := [(0, { queue := [g { id := 1, who := who0, desc := parseCopy copyB }] })] }) (ev {} wv)
def coll0 : CollCmd := parseColl collB 1 who0 0 0 0 0
def wcoll (g : CollCmd → CollCmd) : State := ev { x := 1, y := 0 } { wv with net := { wv.net with colls := [g coll0] } }
/-- The unit holds its reservation. -/
def wres (u : Nat) (s : State) : State := { s with clusters := [(0, { grants := [{ unit_ := u, core := 0, amount := 16 }] })] }

theorem witness_MatrixEngine :
    (let s := wmat 0
     (Machine.core s 0).mrun = none ∧ 0 < (parseBlock blockB 0).segs ∧ (team s 0).state = .resident ∧ (team s 0).goal = 0 ∧ (part s 0).suspended = false ∧ holdsResv s 0 0 = false ∧ holdsResv (wres 0 s) 0 0 = true
       ∧ ((parseBlock blockB 0).segSlots 0).all (fun n => !coreBad s 0 (slotPlace n)) = true ∧ coreBad s 0 (tilePlace 0) = false
       ∧ ((parseBlock blockB 0).segSlots 0).all (fun n => (slotEnt s 0 n).state == .ready) = false
       ∧ ((parseBlock blockB 0).segSlots 0).all (fun n => (slotEnt (modSlot 0 0 (fun e => { e with state := .ready }) (modSlot 0 1 (fun e => { e with state := .ready }) s)) 0 n).state == .ready) = true)
      ∧ (parseBlock blockB 0).mode = 0 ∧ (parseBlock blockB 0).segs ≤ 1 ∧ mInt (parseBlock blockB 0).aFmt = true ∧ (clus (wmat 0) (coreClus 0)).requests = []
      ∧ (let x := (Machine.core w0 0).steep; x.products < 2 ^ bits x.cfg 20 16 ∧ w0.time < x.start + 1000000 ∧ bits x.cfg 47 32 ≠ 0) := by decide
theorem witness_CopyEngine :
    (let s := wcopy id
     copyRuns s 0 0 { id := 1, who := who0, desc := parseCopy copyB } = true ∧ holdsResv s 0 1 = false ∧ holdsResv (wres 1 s) 0 1 = true
       ∧ (segPieces s 0 0 { id := 1, who := who0, desc := parseCopy copyB }).toOption = some [⟨0, 3, 0x200000000, 1, 256, 4⟩]
       ∧ ((pieceHit s 0 0 { id := 1, who := who0, desc := parseCopy copyB } ⟨0, 3, 0x200000000, 1, 256, 4⟩).toOption.map (fun q => (q.1.length, q.2))) = some (4, some (256, .pad 0 256))
       ∧ lastSeg { id := 1, who := who0, desc := parseCopy copyB } = true)
      ∧ (segPieces w0 0 0 { id := 1, who := who0, desc := parseCopy copyB, moved := [0] }).toOption = some []
      ∧ copyRuns w0 0 0 { id := 1, who := who0, desc := parseCopy copyB, stopped := true } = false
      ∧ gtime (wcopy (fun m => { m with ended := true })) (coreDie 0) ≤ 0 + 20 ∧ 0 + 20 < gtime { w0 with time := 21 } 0
      ∧ (let s := modCore 0 (fun c => { c with chans := [(0, { queue := [{ id := 1, who := who0, desc := { parseCopy copyB with kind := 1 } }] })] }) w0
         ((chan s 0 0).queue.find? (fun m => m.desc.kind == 1 && !m.filling && ((Machine.core s 0).slotE.get {} m.desc.slot).readers == 0)).isSome = true) := by decide
theorem witness_CollectivesAndStops :
    collCmd (wcoll id) 1 = some coll0 ∧ collInst (wcoll id) coll0 = [coll0] ∧ collAgree [coll0] = true ∧ collLives coll0 = true ∧ atEngine (wcoll id) coll0 = true ∧ coll0.stopTrap = none ∧ collRuns (wcoll id) coll0 = true
      ∧ (collRead (wcoll id) coll0 []).toOption = some [0, 0, 0, 0] ∧ holdsResv (wcoll id) 0 3 = false ∧ holdsResv (wres 3 (wcoll id)) 0 3 = true
      ∧ (let c := { coll0 with started := true, out := [1, 2, 3, 4] }
         collPieces c = [⟨0, 3, 0, 3, 0x200000040, 4⟩] ∧ ((engineHit (wcoll (fun _ => c)) c.who 0 (collHolder w0 c) 3 0x200000040 4 .engineWrite).toOption.map Prod.snd) = some (.cell (cellKey 2 0 64)))
      ∧ (handlerRecord wh 0).isSome = true ∧ (w0.host.fltSize = 0) ∧ coreBad (modCore 0 (fun c => { c with poison := [(tilePlace 0, 1)] }) w0) 0 (tilePlace 0) = true
      ∧ (copyFault { wcopy id with tokens := [] } 0 0 { id := 1, who := who0, desc := { parseCopy copyB with src := 0x300000000, srcSpace := 2 } }).bind engineCode ≠ none
      ∧ (copyFault (wcopy id) 0 0 { id := 1, who := who0, desc := parseCopy copyB }).bind engineCode = none := by decide

/-- A team that waits for a place; the partition holds cluster 0, whose first core is live. -/
def wpl : State := { wv with
  teams := [(7, { state := .waiting })]
  groups := []
  clusters := [(0, { holder := some 0 })]
  map := { entries := [(0, { state := 2 }), (coreEntry 0, { state := 2 }), (clusEntry 0, { state := 2 })] } }

theorem wpl_cores (h : ∀ n, Config.fusedOff n = false) : liveCores wpl 0 = [0] := by
  have hu : coreUsable wpl = fun c => [coreEntry c, clusEntry (coreClus c), coreDie c].all (fun n => (wpl.map.entries.get {} n).state == 2 || (wpl.map.entries.get {} n).state == 3) := by
    funext c
    simp [coreUsable, entryUsable, entryState, h, Bool.and_assoc]
  rw [liveCores, hu]
  decide
theorem wpl_eligible (h : ∀ n, Config.fusedOff n = false) : eligible wpl 0 [7] 7 = [0] := by
  have hc : (clustersHeld wpl 0).filter (fun c => (clus wpl c).state == 0 && (clus wpl c).draining.isNone && affOk (launch wpl (team wpl 7).launch).aff (clusDie c) && !heldOff wpl [7] 7 (clusDie c)) = [0] := by
    decide
  simp only [eligible, hc, List.flatMap_cons, List.flatMap_nil, wpl_cores h, List.append_nil]
theorem witness_TeamEvents_place (h : ∀ n, Config.fusedOff n = false) : nextPlaces wpl 0 = some (7, [(7, 0)]) := by
  have hp : pendingTeams wpl 0 = [7] := by decide +kernel
  have hu : unitOf wpl 7 = [[7]] := by decide +kernel
  have hg : (part wpl 0).suspended = false ∧ (part wpl 0).state = .ready := by decide
  have hm : [7].all (fun x => isPending (team wpl x)) = true ∧ mayStart wpl 0 ([7].filter (fun x => (team wpl x).state == .waiting)) = true := by decide
  have hs : unitSeat wpl 0 [(0, roomOf wpl 0)] [[7]] = some [(7, 0)] := by decide +kernel
  simp only [nextPlaces, hp, List.findSome?, unitPlaces, hu, List.flatMap_cons, List.flatMap_nil, id, List.append_nil, wpl_eligible h, List.map, hm.1, hm.2, hs, hg.1, hg.2]
  simp

theorem witness_TeamEvents :
    (part wpl 0).erased = false
      ∧ (let s := modGrp 0 (fun g => { g with exited := true }) { wv with tokens := [] }
         (liveGroups s 0).isEmpty = true ∧ teamBusy s 0 = false ∧ (Machine.core s 0).deposits = [] ∧ (team s 0).state = .resident)
      ∧ (let s := modTeam 0 (fun t => { t with goal := 2 }) w0; (launch s 0).handler = none ∧ (nodeOf s 0 0 0).kills < 2 ∧ (team s 0).everResident = true)
      ∧ wv.time / 1000000 ≤ wv.power.svc ∧ ({ wv with time := 1000000 } : State).power.svc < 1000000 / 1000000 ∧ nextPlaces State.reset 0 = none := by decide
theorem stopped_unit (s : State) (g : Nat) (hg : (team s 0).goal = g) (h1 : keysOf s.teams (fun _ t => t.part == 0 && t.goal != 0) = [0])
    (h2 : (if g = 3 then keysOf s.teams (fun _ x => x.launch == (team s 0).launch && x.part == 0 && x.state != .complete) else together s 0) = [0])
    (h3 : (liveGroups s 0).all (groupStopped s) = true) (h4 : enginesStopped s 0 = true) : stoppedUnit s 0 = some ([0], g) := by
  have ht : teamStopped s 0 = true := by simp [teamStopped, h3, h4]
  simp [stoppedUnit, h1, hg, h2, ht]
/-- The team, its groups exited, is to be saved, killed or torn down. -/
def wgoal (g : Nat) : State := modGrp 0 (fun g => { g with exited := true }) (modTeam 0 (fun t => { t with goal := g }) w0)
theorem witness_TeamEvents_stopped : stoppedUnit (wgoal 1) 0 = some ([0], 1) ∧ stoppedUnit (wgoal 2) 0 = some ([0], 2) ∧ stoppedUnit (wgoal 3) 0 = some ([0], 3) ∧ stoppedUnit w0 0 = none :=
  ⟨stopped_unit _ 1 (by decide) (by decide) (by decide) (by decide) (by decide), stopped_unit _ 2 (by decide) (by decide) (by decide) (by decide) (by decide),
    stopped_unit _ 3 (by decide) (by decide) (by decide) (by decide) (by decide), by decide⟩

/-- A graph of two nodes: one that is an empty node and Ready, and its successor. -/
def wgr (k : Nat) (n : Node → Node) : State := ev { x := 0, y := 0, z := 0 } (modPart 0 (fun p => { p with graphs := [(0, { live := true, nodes := [n { kind := k, succ := [1], state := .ready }, { kind := 5, preds := 1 }] })] }) wv)
theorem witness_GraphEvents :
    (part wv 0).state = .ready ∧ (part wv 0).gsub.length < 16 ∧ 16 ≤ (part (modPart 0 (fun p => { p with gsub := List.replicate 16 0 }) wv) 0).gsub.length
      ∧ (let s := modPart 0 (fun p => { p with gsub := [0x200000100] }) wv; (walkerRead s 0 0x200000100 48).isSome = true ∧ headerBad ((walkerRead s 0 0x200000100 48).getD []) = true ∧ (walkerKeys s 0 0x200000000 8).toOption.isSome = true)
      ∧ canDispatch (wgr 5 id) 0 0 0 = true ∧ firstReady (wgr 5 id) 0 0 0 = true ∧ (graphOf (wgr 5 id) 0 0).live = true ∧ canDispatch (wgr 5 (fun n => { n with state := .waiting })) 0 0 0 = false
      ∧ (nodeOf (wgr 5 id) 0 0 1).state = .waiting ∧ (nodeOf (wgr 5 id) 0 0 1).preds = 1 ∧ (nodeOf (wgr 5 id) 0 0 1).arrivals = 0
      ∧ (walkerRead (wgr 3 id) 0 0x200000000 8).isSome = true ∧ canDispatch (wgr 3 (fun n => { n with object := 0x200000000 })) 0 0 0 = true ∧ canDispatch (wgr 4 id) 0 0 0 = true
      ∧ canDispatch (wgr 6 id) 0 0 0 = true ∧ canDispatch (wgr 0 id) 0 0 0 = true ∧ ringOn (wgr 0 id) 0 .cr = false ∧ ringOn (wgr 0 id) 0 .hs = false ∧ nodeBusy (wgr 1 (fun n => { n with state := .running })) 0 0 0 = false := by decide
theorem witness_GraphEvents_engines (h : ∀ n, Config.fusedOff n = false) : engineCore wpl 0 0 0 = true ∧ clusterFor wpl 0 0 1 = true := by
  constructor
  · simp only [engineCore, coreUsable, entryUsable, entryState, h]
    decide
  · have hd : (dieClusters 0).any (fun c => 1 ≤ (liveCores wpl c).length) = true := by
      rw [List.any_eq_true]
      exact ⟨0, by decide, by rw [wpl_cores h]; decide⟩
    have hv : vdt wpl 0 0 = some 0 := by decide
    rw [clusterFor, List.any_eq_true]
    exact ⟨0, by decide, by rw [hv]; simp only [Option.any, hd, Bool.and_true]; decide⟩

/-- A request for a reservation. -/
def resv0 : Resv := { unit_ := 0, core := 0, amount := 16 }
theorem witness_PowerEvents :
    (let s : State := { w0 with clusters := [(0, { requests := [resv0], budget := 100 })] }
     (clus s 0).requests = [resv0] ∧ grantedCu (clus s 0) + resv0.amount ≤ (clus s 0).budget ∧ 256 + resv0.amount ≤ (die s (clusDie 0)).cap ∧ canGrant s 0 = true ∧ waitsOnBudget { s with clusters := [(0, { requests := [resv0] })] } 0 = true ∧ (clus { s with clusters := [(0, { requests := [resv0] })] } 0).budget < 0 + resv0.amount)
      ∧ (clus w0 0).requests = [] ∧ w0.time / 1000000 ≤ w0.power.epoch ∧ w0.power.epoch < 1000000 / 1000000 ∧ keysOf w0.parts (fun _ x => x.state == .ready) = [0] ∧ (part w0 0).tier < 4
      ∧ keysOf State.reset.parts (fun _ x => x.state == .ready) = [] ∧ w0.time / 10000 ≤ (die w0 0).sampled ∧ (die w0 0).sampled < 10000 / 10000 := by decide
/-- Cluster 0 in a state. -/
def wclu (n : Nat) (f : Cluster → Cluster) : State := ev { x := 0, word := 1 } { wv with teams := [], tokens := [], clusters := [(0, f { state := n, holder := some 0 })] }
theorem witness_ClusterStates :
    bits (wclu 0 id).ev.word 0 0 = 1 ∧ bits (0 : DWord) 0 0 ≠ 1 ∧ (clus (wclu 0 id) 0).state = 0 ∧ (clus (wclu 0 id) 0).draining = none ∧ (clus (wclu 5 id) 0).railOff = false
      ∧ clusterBusy (migrateAway 0 0 (wclu 1 id)) 0 = false ∧ (migrateAway 0 0 (wclu 1 id)).tokens.any (fun t => t.part == 0 && t.owner == clusHolder (migrateAway 0 0 (wclu 1 id)) 0 0) = false
      ∧ clusterBusy { wclu 1 id with teams := w0.teams } 0 = true ∧ (clus (wclu 3 (fun x => { x with wakeHeld := true })) 0).wakeHeld = true
      ∧ (let s := wclu 6 (fun x => { x with retained := (clusCores 0).map (fun k => ⟨k, 0, [], {}⟩) }); (clus s 0).retained.map (fun i => i.core) = clusCores 0)
      ∧ (clus (wclu 0 (fun x => { x with draining := some 1 })) 0).draining = some 1
      ∧ (let s := wst .halt { wv with clusters := [(0, { state := 1 })] }; (grp s 0).resident = true ∧ coreClus (grp s 0).core = 0) := by decide

theorem witness_Observations :
    (let s : State := { w0 with time := 2 ^ 16 }
     (part s 0).state = .ready ∧ vdt s 0 0 = some 0 ∧ nextTick (part s 0) 0 ≤ gtime s 0 ∧ ringOn s 0 .ts = false ∧ gtime w0 0 < nextTick (part w0 0) 0)
      ∧ (let s := modPart 0 (fun p => { p with obs := { p.obs with tscfg := 0x100001, tsRing := { reg := 0x200000012 } } }) { wv with time := 2 ^ 20 }
         ringOn s 0 .ts = true ∧ [0, 8].filter (fun b => (part s 0).obs.tscfg.getLsbD b) = [0] ∧ vdt s 0 0 = some 0 ∧ nextTick (part s 0) 0 ≤ gtime s 0)
      ∧ w0.time / 1000 ≤ (die w0 0).energyAt ∧ (die w0 0).energyAt < 1000 / 1000 ∧ w0.teams.all (fun q => (team w0 q.1).core == q.2.core) = true
      ∧ (let s := modCore 0 (fun c => { c with issueBy := [(0, 3)] }) { w0 with teams := [] }; (Machine.core s 0).issueBy = [(0, 3)] ∧ (Machine.core s 0).chunkBy = [] ∧ residentOn s 0 = [] ∧ (clus s (coreClus 0)).holder = none)
      ∧ walkerTime w0 0 < (part w0 0).met.lastBlockAt + 1000000 ∧ (part w0 0).met.lastBlockAt + 1000000 ≤ walkerTime { w0 with time := 1000000 } 0
      ∧ (let s := modPart 0 (fun p => { p with met := { p.met with lastBlockAt := 1000000000 } }) { w0 with time := 1000000000 }
         (part s 0).met.intStart + (part s 0).obs.interval * 1000000 ≤ walkerTime s 0 ∧ (part s 0).met.intStart + (part s 0).obs.interval * 1000000 < (part s 0).met.lastBlockAt + 1000000) ∧ walkerTime w0 0 < (part w0 0).met.intStart + (part w0 0).obs.interval * 1000000
      ∧ (part w0 0).met.intStart + (part w0 0).obs.interval * 1000000 ≤ walkerTime { w0 with time := 1000000000 } 0 ∧ w0.time / 1000000000 ≤ w0.nonvol.copied ∧ w0.nonvol.copied < 1000000000 / 1000000000
      ∧ (let s : State := { w0 with cores := [(0, { hist := [(5, 7)] })] }; s.cores = [(0, { hist := [(5, 7)] })] ∧ ([(5, 7)].map Prod.fst : List Nat).Nodup) := by decide
theorem witness_Degradation :
    (ev { y := 7 } w0).ev.y % 5 = 2 ∧ (ev { y := 4 } w0).ev.y % 5 = 4 ∧ (ev { y := 6 } w0).ev.y % 5 = 1 ∧ (w0.map.entries.get {} 456).state ≠ 0 ∧ 64 ≤ entrySpeed w0 8 ∧ entrySpeed { w0 with map := { entries := [(8, { speed := some 0 })] } } 8 < 64
      ∧ (part w0 0).ackDue = none ∧ (part (modPart 0 (fun p => { p with ackDue := some 5 }) w0) 0).suspended = false ∧ w0.host.fltSize = 0 ∧ w0.time < 5
      ∧ (clus w0 (coreClus 0)).holder = none ∧ (Machine.core w0 0).chans = [] ∧ w0.net.colls = [] ∧ (0 : Nat) < Config.dies ∧ (die w0 0).failed = false
      ∧ (die (modDie 0 (fun d => { d with resetAt := some 5 }) w0) 0).resetAt = some 5 ∧ w0.time / 1000 ≤ (die w0 0).keptAt ∧ (die w0 0).keptAt < 1000 / 1000
      ∧ (keysOf State.reset.parts (fun q x => x.state == .ready && (List.range 8).any (fun i => vdt State.reset q i == some 0))) = [] ∧ lineTier 5 + 1 = 1 ∧ (grp w0 0).resident = true := by decide
theorem witness_Degradation_units (h : ∀ n, Config.fusedOff n = false) :
    entryState wpl 0 = 2 ∧ entryState wpl (coreEntry 0) = 2 ∧ entryState wpl 470 ≠ 4 ∧ entryState { wpl with map := { entries := [(0, { state := 4 })] } } 0 = 4 := by
  simp only [entryState, h]
  decide

/-- A command block under way. -/
def wbox (b : List Byte) : State := { wv with host := { wv.host with busy := true, cmd := (b ++ leBytes 256 0).take 256 } }
/-- A descriptor of a partition on die 0: a tenth of a second of interval, no frames, a quota of 16 entries. -/
def createB : List Byte := [1, 5, 0, 0, 1, 0, 0, 0, 0, 255, 255, 255, 255, 255, 255, 255, 0, 0, 0, 0] ++ leBytes 4 100 ++ leBytes 48 0 ++ [16, 0] ++ leBytes 54 0 ++ leBytes 8 0xA0000
set_option maxRecDepth 20000 in
theorem witness_MailboxCommands_create :
    boundDies (wbox createB).host.cmd = some [0] ∧ descBad (wbox createB).host.cmd [0] = false ∧ (part (wbox createB) 5).state = .free ∧ boundDies (wbox [1]).host.cmd = none
      ∧ descBad (wbox (createB.set 0x14 0)).host.cmd [0] = true := by decide
set_option maxRecDepth 20000 in
theorem witness_MailboxCommands :
    (wbox [3]).host.busy = true ∧ cmdFld (wbox [3]).host.cmd 0 1 = 3 ∧ restZero (wbox [3]).host.cmd [(2, 1), (8, 8)] = true ∧ restZero (wbox [3, 0, 0, 1]).host.cmd [(2, 1), (8, 8)] = false
      ∧ (part (wbox [3]) 0).state = .ready ∧ (part (wbox [3]) 0).erased = false ∧ (part (wbox [3, 1]) 1).state ≠ .ready ∧ ((wbox [3]).host.vfs.get {} 0).part = none ∧ ((wbox [3]).host.vfs.get {} 0).state = .unlocked
      ∧ partStopped { wbox [2] with teams := [], tokens := [], groups := [] } 0 = true
      ∧ (80 ≤ cmdFld (wbox [7, 0, 0, 0, 0, 0, 0, 0, 80, 90, 120]).host.cmd 8 1 ∧ cmdFld (wbox [7, 0, 0, 0, 0, 0, 0, 0, 80, 90, 120]).host.cmd 9 1 + 8 < 120)
      ∧ ctxBad 0 0 0 0xA0000 = false ∧ ctxBad 1 0 0 0xA0000 = true ∧ (part wv 0).graphs = [] ∧ wv.traps.any (fun t => t.fr.level == 2) = false
      ∧ (die w0 0).resetAt = none ∧ (die (modDie 0 (fun d => { d with failed := true, thermalFail := true }) w0) 0).thermalFail = true ∧ (0 < 4 * Config.clustersOf 0) := by decide
theorem witness_AttestationAndBringup :
    (let s : State := { w0 with host := { w0.host with vfs := [(0, { part := some 0 })] } }; ((s.host.vfs.get {} 0).part.isSome = true ∧ (s.host.vfs.get {} 0).state = .unlocked))
      ∧ ((w0.host.vfs.get {} 0).part = none) ∧ w0.dies.all (fun q => q.2.resetAt == none) = true ∧ w0.host.busy = false ∧ mailOp 0 = none ∧ (mailOp 3).isSome = true
      ∧ bits (1 : DWord) 0 0 = 1 ∧ (part w0 0).state = .ready ∧ (part w0 0).erased = false := by decide
theorem witness_AttestationAndBringup_units (h : ∀ n, Config.fusedOff n = false) : entryState w0 0 = 1 ∧ entryState { w0 with map := { entries := [(507, { state := 2 })] } } 507 = 2 ∧ entryState w0 507 ≠ 2 := by
  simp only [entryState, h]
  decide

/-- A segment of the block in a mode has been started, its window not full and full. -/
def wrun (mode products : Nat) : State := modCore 0 (fun c => { c with mrun := some {}, steep := { c.steep with products := products }, mq := c.mq.map (fun m => { m with block := { m.block with mode := mode } }) }) (wmat 0)
theorem witness_MatrixEngine_run :
    [wrun 0 0, wrun 1 0, wrun 2 (2 ^ 17 - 1)].all (fun s => (Machine.core s 0).mq.length == 1 && (Machine.core s 0).mrun.isSome && (clus s (coreClus 0)).requests.isEmpty) = true
      ∧ (let x := (Machine.core (wrun 0 0) 0).steep; x.products + ((parseBlock blockB 0).segChunks 0).2 < 2 ^ bits x.cfg 20 16)
      ∧ (let x := (Machine.core (wrun 2 (2 ^ 24)) 0).steep; 2 ^ bits x.cfg 20 16 ≤ x.products + ((parseBlock blockB 0).segChunks 0).2)
      ∧ (let s := wmat 1; (parseBlock blockB 0).segs ≤ 1 ∧ (Machine.core s 0).mrun = none ∧ (team s who0.team).state = .resident ∧ who0.gid = some 0) := by decide
theorem witness_CopyEngine_piece :
    (let s := wcopy id
     let m : CopyCmd := { id := 1, who := who0, desc := parseCopy copyB }
     (chan s 0 0).queue = [m] ∧ (chan (readWalk 0 0 m s) 0 0).queue = [m] ∧ m.ended = false ∧ m.stopped = false ∧ lastSeg m = true ∧ copyFault s 0 0 m = none
       ∧ (pieceLines s 0 0 m ⟨0, 3, 0x200000000, 1, 256, 4⟩).all (fun x => !s.marks.hostLines.contains x) = true
       ∧ [(⟨0, 3, 0x200000000, 1, 256, 4⟩ : CopyPiece)].filter (fun q => [0].contains q.id) = [⟨0, 3, 0x200000000, 1, 256, 4⟩])
 := by decide
/-- A graph of one empty node waits in GSUB's queue, its header at offset 256 of the window. -/
def wacc : State := modPart 0 (fun p => { p with gsub := [0x200000100] }) (mw 0x100 (leBytes 8 0x200000140 ++ leBytes 2 1 ++ leBytes 2 7 ++ leBytes 4 0 ++ leBytes 8 0x200001000 ++ leBytes 4 1
  ++ leBytes 4 0 ++ leBytes 8 0x200000180 ++ leBytes 8 0) (mw 0x140 (leBytes 8 (5 * 2 ^ 60) ++ leBytes 56 0) wv))
set_option maxRecDepth 20000 in
theorem witness_GraphEvents_accept :
    (part wacc 0).gsub = [0x200000100] ∧ (part wacc 0).suspended = false ∧ (part wacc 0).state = .ready ∧ freeGraph wacc 0 = some 0
      ∧ (walkerRead wacc 0 0x200000100 48).map (fun h => (headerBad h, fld h 0x20 8, fld h 0 8, fld h 8 2)) = some (false, 0x200000180, 0x200000140, 1)
      ∧ (checkGraph wacc 0 0x200000140 1).toOption.map (fun ns => ns.map (fun x => (x.kind, x.preds))) = some [(5, 0)] := by decide
theorem witness_GraphEvents_stands :
    (let s := wgr 1 (fun n => { n with state := .dispatched }); (nodeOf s 0 0 0).state = .dispatched ∧ (nodeOf s 0 0 0).kind = 1 ∧ (chan s 0 0).queue.length < 16)
      ∧ (let s := wgr 2 (fun n => { n with state := .running }); nodeBusy s 0 0 0 = false ∧ (nodeOf s 0 0 0).tear = false ∧ ringOn s 0 .cr = false ∧ (graphOf s 0 0).nodes.all (fun y => y.kind != 4) = true)
      ∧ (let s := wgr 1 (fun n => { n with state := .running, tear := true }); (nodeOf s 0 0 0).tear = true ∧ (nodeOf s 0 0 0).kills < 2 ∧ (nodeOf s 0 0 0).unreplayable = false)
      ∧ (let s := wgr 0 (fun n => { n with state := .running, launch := 3 }); (s.teams.any (fun t => t.2.launch == 3 && t.2.part == 0 && t.2.state != .complete) || !launchQuiet s 0 3) = false)
      ∧ (let s := wgr 4 (fun n => { n with succ := [1], object := 0x200000000 }); (walkerRead s 0 0x200000000 8).map leNat = some 0 ∧ (bodyOf (nodeOf s 0 0 0)).2.1 = 0) := by decide
theorem witness_TeamEvents_passed :
    (let s : State := { wpl with teams := [(7, { state := .waiting, passedAt := some 0 })] }; isPending (team s 7) = true ∧ (team s 7).passedAt = some 0 ∧ s.time < 0 + 100000 ∧ 0 + 100000 ≤ ({ s with time := 100000 } : State).time)
      ∧ (let s := modGrp 0 (fun g => { g with exited := true }) { wv with tokens := [] }; holderNamed (settleTeam 0 (teamHolder s 0) s) 0 (teamHolder s 0) = false)
      ∧ holderNamed (settleTeam 0 (teamHolder w0 0) { wv with tokens := [{ part := 0, base := 0x200000000, size := 16, home := 0, owner := teamHolder w0 0, moving := some ({ op0 with holder := teamHolder w0 0 }, noTime) }] }) 0 (teamHolder w0 0) = true := by decide
theorem witness_TimeAdvances :
    (let s := wmsg; msg0 ∈ s.net.msgs ∧ msg0.refused = false ∧ msg0.silent = false ∧ s.marks.held.all (fun h => h.msg != msg0.id) = true ∧ s.time ≤ msg0.first + 2000)
      ∧ (far0 ∈ wfar.net.far ∧ far0.refused = false ∧ heldUp wfar far0.id = false ∧ heldUp wmsg msg0.id = false ∧ wfar.time ≤ far0.sent + 20000)
      ∧ (let s := wtok (fun k => { k with moving := some (op0, 5) }); s.tokens.map (fun k => k.moving) = [some (op0, 5)] ∧ (5 : Nat) ≠ noTime)
      ∧ w0.time ≤ (w0.power.svc + 1) * 1000000 ∧ (die w0 0).off ≤ Config.skew ∧ (die w0 0).trim = none
      ∧ (let s : State := { wcl with clusters := [(0, { holder := some 0, draining := some 1 })], teams := [], tokens := [], groups := [] }; clusterBusy s 0 = false)
      ∧ (let s := wclu 1 id; (clus s 0).state = 1 ∧ quietSince s 0 = some s.time) ∧ (clus (wclu 3 id) 0).state = 3 ∧ (clus (wclu 6 id) 0).state = 6
      ∧ (let s := modCore 0 (fun c => { c with slices := [(0, { ratio := 4 })] }) w0; lags s 0 0 = true) ∧ vdt w0 0 0 = some 0 ∧ gtime w0 0 < nextTick (part w0 0) 0
      ∧ (let a : Atom := { atom0 with loc := .remote 1 5 }; (watom a).net.atoms = [a] ∧ a.refused = false ∧ heldUp (watom a) a.id = false ∧ (watom a).time ≤ a.sent + 20000)
      ∧ 0 < progressOps.length := by decide
theorem witness_HostRegisterReads :
    (ev { x := 1, y := 0x1000 + 8 * 31, word := 5 } wv).ev.y = 0x1000 + 8 * 31 ∧ (31 : Nat) < 32 ∧ (let s := ev { x := 0, y := 0x120, word := 0x1FFFFF } wv; (part s s.ev.z).state = .ready ∧ (part s s.ev.z).erased = false)
      ∧ (wv.host.vfs.get {} 0).part = none ∧ wv.map.updates = [] ∧ vfServes wv 0 = none ∧ (part wvf 0).state = .ready ∧ (part wvf 0).erased = false := by decide
theorem witness_HostRegisterReads_port (h : Config.fusedOff 506 = false) : hostOpen (ev { x := 1, y := 0x1000 } wvf) = true ∧ vfServes (ev { x := 2, z := 0 } wvf) 0 = some 0 :=
  ⟨usable_of_live _ 506 h (by decide), serves_of_open _ h (by decide) (by decide) (by decide) (by decide)⟩
theorem witness_Degradation_soft :
    (team w0 0).state = .resident ∧ (grp w0 0).resident = true ∧ lineTier (cellKey 2 0 0 / 128) < 3 ∧ lineTier 5 + 1 = 1 ∧ lineTier (cellKey 3 0 0 / 128) + 1 = 4
      ∧ (let s := modCore 0 (fun c => { c with errTimes := [0] }) w0; ∃ e ∈ (Machine.core s (grp s 0).core).errTimes, s.time < e + 1000000000)
      ∧ (let s := modDie 0 (fun d => { d with resetAt := some 5 }) w0; ∀ r, (die s 0).resetAt = some r → s.time < r)
      ∧ (let s := modPart 0 (fun p => { p with ackDue := some 5 }) w0; (part s 0).ackDue = some 5 ∧ (part s 0).state = .ready ∧ s.time < 5) := by
  refine ⟨by decide, by decide, by decide, by decide, by decide, ⟨0, by decide, by decide⟩, fun r hr => ?_, by decide⟩
  rw [← Option.some.inj (hr : some 5 = some r)]
  decide
set_option maxRecDepth 20000 in
theorem witness_MailboxCommands_live (h : ∀ n, Config.fusedOff n = false) :
    (let s := { wbox createB with map := { entries := [(0, { state := 2 })] } }; [0].any (fun d => entryState s d == 0 || entryState s d == 4) = false)
      ∧ (let s := wbox createB; [0].any (fun d => entryState s d == 0 || entryState s d == 4) = false ∧ entryState s 0 = 1)
      ∧ (let s : State := { wbox createB with map := { entries := [(0, { state := 4 })] } }; [0].any (fun d => entryState s d == 0 || entryState s d == 4) = true) := by
  simp only [entryState, h]
  decide
theorem witness_ResultsArrive_load :
    (let ps : List Piece := (List.range 4).map (fun i => ⟨0, .x 1, 8, false, 0x200000000 + 8 * i, .cell (cellKey 2 0 (8 * i)), List.replicate 8 none, i⟩)
     let s := wpe (.load ps)
     ownRefused s 0 ps = none ∧ ps.all (fun x => x.reg == .x 1) = true ∧ ps.any (fun x => x.part == 0) = true ∧ (lacking (ps.map (fun x => fillPiece s 0 (farData s 0 (lacking ps)) x))) = [] ∧ lacking ps ≠ []) := by decide
/-- A write-through to another module, and to the module's own number. -/
def mfar (m : Nat) : Msg := { msg0 with line := lineOf (farKey 0 m 64) }
theorem witness_WriteThroughs_far :
    isFar (mfar 1).line = true ∧ (farPlace ((mfar 1).line * 128)).1 = 1 ∧ wmsg.host.module = 0 ∧ 3 ≤ lineTier (mfar 1).line ∧ (mfar 1).core ≠ walkerCore ∧ (mfar 1).bytes ≠ []
      ∧ (let s : State := { wmsg with net := { wmsg.net with msgs := [mfar 1] } }; firstMsg s (mfar 1) = some (mfar 1) ∧ readFirst s (mfar 1) = false ∧ s.marks.hostLines.contains (mfar 1).line = false)
      ∧ (let s : State := { wmsg with net := { wmsg.net with msgs := [mfar 0] } }; ownRefusal s (mfar 0) = some 8) := by decide
theorem witness_CopiesAndHost_far :
    (let x : Copy := { line := lineOf (cellKey 2 8 0), expiry := 64, bytes := List.replicate 128 7, c := 0, made := 0 }
     copyOf w0 0 x.line 0 (die (modDie 0 (fun d => { d with l2 := [x] }) w0) 0).l2 = some x)
      ∧ isFar (lineOf (farKey 0 1 64)) = true ∧ (farPlace (lineOf (farKey 0 1 64) * 128)).1 ≠ w0.host.module ∧ passesL2 0 (lineOf (farKey 0 1 64)) = true := by decide
theorem witness_SlotsAndSteps_none :
    (let s := { wl (sys { fs with d := 4, a := 5, ak := 1, b := 6, bk := 1, c := 7, num := 0 }) with cur := { w0.cur with lanes := 0, ext := sys { fs with d := 4, a := 5, ak := 1, b := 6, bk := 1, c := 7, num := 0 } } }
     active s = 0 ∧ ready .stepEnd [] 0 s = true) := by decide

/-! ### States that meet what the claims ask: ports, refusals and parts -/

/-- A `loop` ends its clause, and the page after it holds no code. -/
def wpage : State :=
  let a : DWord := .ofNat 64 (fetchVa / 65536 * 65536 + 65536)
  let s := modGrp 0 (fun g => { g with lanes := g.lanes.map (fun q => (q.1, { q.2 with pc := a - 8, clause := some { hdr := a - 16 } })) }) w0
  { s with cur := { s.cur with pc := a - 8 } }
theorem witness_JudgementOrder_loop : notLast wpage = [] ∧ (fetchWord wpage 0 (wpage.cur.pc + 8).toNat).toOption = none ∧ wpage.cur.live = true := by decide
theorem witness_TrapDelivery_full : 64 ≤ pendingTraps { w0 with traps := List.replicate 64 { part := 0, gid := some 0, fr := { stop0.fr with level := 2 } } } 0 ∧ wstop.trapQ = [] := by decide
/-- The header is an armed breakpoint of the team. -/
def warm : State := modPart 0 (fun p => { p with obs := { p.obs with dbgTgt := .ofNat 64 (launchId went 0 * 2 ^ 32 + (team went 0).index), dbgCtl := 1, dbgBp := [(0, went.ev.word)] } }) went
theorem witness_ClauseEntry_armed : isTarget warm 0 = true ∧ isArmed warm (grp warm 0).part warm.ev.word = true ∧ (grp warm 0).passBp = 0 ∧ entrants warm 0 warm.ev.word 0 ≠ 0 := by decide
/-- Pieces of a read of the module's own number, which the partition does not import, and its request. -/
def pown : List Piece := [⟨0, .v 5, 4, false, 0x200000000, .remote 0 64, List.replicate 4 none, 0⟩]
def wown : State := { wfar with net := { wfar.net with far := [{ far0 with module := some 0 }] }, map := { entries := [(490, { state := 2 })] } }
theorem witness_refused_open (h : ∀ n, Config.fusedOff n = false) : readHeld wown 0 pown = false := by
  have o : linkOpen wown = true := List.any_eq_true.mpr ⟨0, by decide, usable_of_live _ 490 (h _) (by decide)⟩
  have e : (lacking pown).any (fun q => (memKey (grp wown 0).part q.loc).any (fun k => lineTier (lineOf k) == 3 && !hostOpen wown)) = false := by
    have t : lineTier (lineOf (farKey (grp wown 0).part 0 64)) ≠ 3 := by decide
    simp [lacking, pown, memKey, t]
  have r : (ownRefused wown 0 pown == some 0) = false := by decide
  simp only [readHeld, portShut, o, Bool.not_true, Bool.and_false, Bool.false_or, e, r]
theorem witness_refused : refusedReq wown 0 0 pown = some (4, 8)
    ∧ ownPlace wvf 0 1 64 .engineWrite = none ∧ ownPlace wvf 0 1 64 .load = none ∧ ownPlace wvf 0 1 64 .atomic = none
    ∧ lostLanes { id := 0, lanes := 1, regs := [], kind := .load pown } { far0 with module := some 0 } = 1 := by decide
theorem witness_readHeld (h : Config.fusedOff 506 = false) :
    readHeld w0 0 [⟨0, .v 5, 1, false, 0x200000000, .cell (cellKey 3 0 0), [none], 0⟩] = true := by
  have p : portShut w0 (lineOf (cellKey 3 0 0)) = true := by
    have o : hostOpen w0 = false := by
      simp only [hostOpen, entryUsable, entryState, h]
      decide
    have e : (lineTier (lineOf (cellKey 3 0 0)) == 3) = true := by decide
    simp [portShut, o, e]
  simp [readHeld, lacking, memKey, p]
theorem witness_open (h : ∀ n, Config.fusedOff n = false) : linkOpen { wvf with map := { entries := [(490, { state := 3 })] } } = true ∧ linkOpen w0 = false ∧ hostOpen w0 = false := by
  simp only [linkOpen, hostOpen, entryUsable, entryState, h]
  decide
theorem witness_WriteThroughs_near : isReg msg0.line = false ∧ isFar msg0.line = false ∧ (lineTier msg0.line == 3) = false ∧ leaves (mfar 1).line = true ∧ leaves msg0.line = false
    ∧ isReg (lineOf (regKey 0 0 0 0)) = true := by decide
theorem witness_Tokens_shareWait :
    (let s := ev { y := 0x200000000 } (wst .token (wtok (fun k => { k with waiting := [op0], sharers := [7] }))); (tokenBase s 0 s.ev.y).map (fun k => shareWait s 0 k op0) = some true)
      ∧ (let s := wtok (fun k => { k with waiting := [op0], moving := some (op0, 5) }); (tokenBase s 0 s.ev.y).map (fun k => shareWait s 0 k op0) = some false)
      ∧ (wtwo.tokens.all (fun y => y.waiting.isEmpty)) = true := by decide
set_option maxRecDepth 20000 in
theorem witness_PushWords_read :
    (let s := wst (.push none 1 [(0, 0, [])] 0) (wpush 0xE1 blockB)
     (readBlocks s (wpush 0xE1 blockB).cur 1 [(0, 0, [])]).toOption = some [(0, 0, blockB)])
      ∧ (let s := wst (.push none 1 [(0, 8, [])] 0) (wpush 0xE1 blockB); (readBlocks s (wpush 0xE1 blockB).cur 1 [(0, 8, [])]).toOption = none ∧ released s 0 0 = true) := by decide
/-- The command's slots are ready, and its tile may have been struck. -/
def wready (bad : Bool) : State := modCore 0 (fun c => { c with poison := if bad then [(tilePlace 0, 1)] else [] }) (modSlot 0 0 (fun e => { e with state := .ready }) (modSlot 0 1 (fun e => { e with state := .ready }) (wmat 0)))
theorem witness_MatrixEngine_chunks :
    ∀ m ∈ (Machine.core (wmat 0) 0).mq, chunksReach (wmat 0) 0 m 0 0 = 0 ∧ chunksReach (wready false) 0 m 0 0 = 1 ∧ chunksBad (wready false) 0 m 0 1 = false ∧ chunksBad (wready true) 0 m 0 1 = true
      ∧ (m.block.segChunks m.seg).2 = 1 := by decide
/-- A gather whose index array another module holds, or the window. -/
def gat0 : CopyCmd := { id := 1, who := who0, desc := { parseCopy copyB with kind := 2, idxSpace := 3, idx := 0x200000000 } }
theorem witness_CopyEngine_indices : farIndices (wcopy id) 0 0 { id := 1, who := who0, desc := parseCopy copyB } = [] ∧ farIndices (wcopy id) 0 0 gat0 = [] ∧ farHeld wvf 0 (.remote 1 64) = true := by decide
theorem witness_GraphEvents_signal :
    (let s := wgr 6 (fun n => { n with object := 0x200000000, state := .dispatched })
     walkerMsgs s 0 = [] ∧ walkerTime s 0 ≤ wordW s 0 0x200000000 + 20 ∧ wordW { s with time := 21 } 0 0x200000000 + 20 < walkerTime { s with time := 21 } 0)
      ∧ vfServes { wvf with map := {} } 1 ≠ some 0 ∧ shareNeeded (wgr 1 id) 0 0 0 0x200000000 = false := by decide
theorem witness_TeamEvents_quiet :
    shadowLines (wgoal 2) 0 = [] ∧ (wgoal 2).trapQ = [] ∧ (wgoal 2).groups.all (fun q => q.2.stops.isEmpty) = true
      ∧ (let s : State := { wgoal 2 with marks := { (wgoal 2).marks with hostLines := [5], shadows := [{ part := 0, launch := 0, granule := 0, orig := [] }] } }; shadowLines s (team s 0).launch = [5]) := by decide
theorem witness_Observations_bank :
    (let s := modPart 0 (fun p => { p with banks := [(0, 1)], obs := { p.obs with tscfg := 0x100001, tsRing := { reg := 0x200000012 } } }) { wv with time := 2 ^ 20 }
     [0, 8].filter (fun b => (part s 0).obs.tscfg.getLsbD b && (part s 0).banks.get 0 b == 1) = [0]) := by decide
theorem witness_Degradation_bump :
    w0.map.updates.getLast?.any (fun u => u.at_ == w0.time) = false ∧ (raiseMap [(456, { state := 3 })] w0).map.updates.getLast?.any (fun u => u.at_ == w0.time) = true := by decide
theorem witness_Attestation_served :
    (let s : State := ev { x := 5, flag := true } { w0 with host := { w0.host with sessions := [5] } }; s.ev.nums.headD 0x12 = 0x12 ∧ s.host.sessions.contains s.ev.x = true)
      ∧ (ev { nums := [0x11] } w0).ev.nums.headD 0x12 ≠ 0x12 ∧ w0.host.sessions.contains 0 = false := by decide
/-- A wide store of the scratchpad of a lane. -/
theorem witness_StoreWords_parts :
    (let s := modGrp 0 (fun g => { g with v := [] }) (modTeam 0 (fun t => { t with pad := [] }) { wv with launches := [(0, { record := { pad := 4096 } })] })
     let f : FM := { gm with space := 1, mo := 2 }
     allPermitted (laneAccess (lanes2 s) f 16 .store) = true ∧ elemCount f * elemBytes f.ty = 16) := by decide
theorem witness_StreamWords_none :
    (let x : FX := { d := 1, a := 4, b := 0, c := 0, mo := 0 }
     let e : Ext := { Ext.plain with pred := 1 }
     let s : State := { wa with cur := { wa.cur with hasExt := true, ext := e } }
     active s = 0 ∧ [Instr.xset { x with b := 5, c := 6 }, .xpos x, .xget { x with d := 4, a := 1 }, .xsave { x with d := 0, b := 1 }, .xrest x].all (fun i => ready i [] (active s) s) = true) := by decide
theorem witness_Barriers_learned :
    (grp (ww (.passed 9 {}) w0) 0).waits.Pairwise (fun a b => a.id ≠ b.id ∧ a.lanes &&& b.lanes = 0) ∧ atomBehind (watom atom0) atom0 = false
      ∧ atomBehind { watom atom0 with net := { (watom atom0).net with atoms := [{ atom0 with id := 3, loc := .cell (cellKey 2 0 4), width := 8 }, atom0] } } atom0 = true := by decide
theorem witness_TimeAdvances_port : portShut wmsg msg0.line = false := by
  have a : isFar msg0.line = false := by decide
  have b : (lineTier msg0.line == 3) = false := by decide
  simp [portShut, a, b]

/-! ### Single steps -/

/-- The state after an instruction. -/
def after (i : Instr) (s : State) : State :=
  match exec i s with
  | .next t => t
  | _ => s
/-- Lane 0 holds these words in v6, v7 and v8. -/
def w3 (a b c : Word) : State := modGrp 0 (fun g => { g with v := [(6, a), (7, b), (8, c)] }) { w0 with cur := { w0.cur with lanes := 1 } }
/-- k6, k7 and k8 hold these. -/
def k3 (a b c : DWord) : State := modGrp 0 (fun g => { g with k := [(6, a), (7, b), (8, c)] }) { w0 with cur := { w0.cur with lanes := 1 } }
/-- v5 of lane 0 after a word. -/
def v5 (i : Instr) (a b c : Word) : Word := vGet (after i (w3 a b c)) 0 0 5
/-- k5 after a word. -/
def k5 (i : Instr) (a b c : DWord) : DWord := kGet (after i (k3 a b c)) 0 5

theorem test_add_wraps : v5 (.add fr) 0x7FFFFFFF 1 0 = 0x80000000 := by decide
theorem test_add_s8_extends : v5 (.add { fr with ty := 0 }) 0x7F 1 0 = 0xFFFFFF80 := by decide
theorem test_sub : v5 (.sub { fr with ty := 6 }) 1 2 0 = 0xFFFFFFFF := by decide
theorem test_mul_hi : v5 (.mulHi fr) 0x80000000 0x80000000 0 = 0x40000000 := by decide
theorem test_mul_hi_mixed : v5 (.mulHi fr) 0xFFFFFFFF 1 0 = 0xFFFFFFFF := by decide
theorem test_mad : v5 (.madLo fr3) 3 4 5 = 17 := by decide
theorem test_add_sat : v5 (.addSat fr) 0x7FFFFFFF 1 0 = 0x7FFFFFFF := by decide
theorem test_sub_sat_u : v5 (.subSat { fr with ty := 6 }) 1 2 0 = 0 := by decide
theorem test_div_zero : v5 (.div fr) 7 0 0 = 0xFFFFFFFF := by decide
theorem test_div_overflow : v5 (.div fr) 0x80000000 0xFFFFFFFF 0 = 0x80000000 := by decide
theorem test_rem_sign : v5 (.rem fr) 0xFFFFFFF9 3 0 = 0xFFFFFFFF := by decide
theorem test_shl_width : v5 (.shl fr) 1 32 0 = 0 := by decide
theorem test_sar_width : v5 (.sar fr) 0x80000000 40 0 = 0xFFFFFFFF := by decide
theorem test_popc : v5 (.popc { fr with b := 0 }) 0xF0F00001 0 0 = 9 := by decide
theorem test_clz_zero : v5 (.clz { fr with b := 0 }) 0 0 0 = 32 := by decide
theorem test_bfe_signed : v5 (.bfe fr) 0xF0 0x0404 0 = 0xFFFFFFFF := by decide
theorem test_bool3_majority : v5 (.bool3 { fr3 with mo := 0xE8 }) 0xC 0xA 0x9 = 0x8 := by decide
theorem test_fadd : v5 (.fadd { fr with ty := 12 }) 0x3F800000 0x40000000 0 = 0x40400000 := by decide
theorem test_fadd_inf_nan : v5 (.fadd { fr with ty := 12 }) 0x7F800000 0xFF800000 0 = 0x7FC00000 := by decide
theorem test_fma_once : v5 (.fma { fr3 with ty := 12 }) 0x3F800001 0x3F800001 0xBF800002 = 0x28800000 := by decide
theorem test_fmul_imm : v5 (.fmulImm { fi with imm := 0x40000000, ty := 12 }) 0x3F800000 0 0 = 0x40000000 := by decide
theorem test_fmin_zero : v5 (.fmin { fr with ty := 12 }) 0 0x80000000 0 = 0x80000000 := by decide
theorem test_minnum_nan : v5 (.minnum { fr with ty := 12 }) 0x7FC00000 0x3F800000 0 = 0x3F800000 := by decide
theorem test_fneg_mode : v5 (.fadd { fr with ty := 12, mo := 2 }) 0x40000000 0x3F800000 0 = 0x3F800000 := by decide
theorem test_class_subnormal : v5 (.classOp { fr with b := 0, ty := 12 }) 1 0 0 = 0x40 := by decide
theorem test_umov_value : kGet (after (.uMovImm { fi with a := 0, imm := 0xFFFFFFFF }) (k3 0 0 0)) 0 5 = 0xFFFFFFFFFFFFFFFF := by decide
theorem test_uadd : k5 (.uAdd { fu with ty := 3 }) 0xFFFFFFFFFFFFFFFF 2 0 = 1 := by decide
theorem test_udiv_u64 : k5 (.uDiv { fu with ty := 7 }) 100 7 0 = 14 := by decide
theorem test_movhi : k5 (.movhi { fi with a := 0, imm := 0x12345678, ty := 10 }) 0 0 0 = 0x1234567800000000 := by decide
theorem test_setp_lt : pGet (after (.setp { fr with d := 2, mo := 2 }) (w3 1 2 0)) 0 0 2 = true := by decide
theorem test_elect : pGet (after (.elect { d := 2, a := 0, pred := 0, neg := false, off := 0 }) w0) 0 0 2 = true := by decide
theorem test_elect_other : pGet (after (.elect { d := 2, a := 0, pred := 0, neg := false, off := 0 }) w0) 0 1 2 = false := by decide
theorem test_bra_target : (lane (after (.bra { fb with d := 0, a := 0, off := 0xFFFFFFF }) w0) 0 0).pc = .ofNat 64 (fetchVa - 8) := by decide
theorem test_add_moves_on : (lane (after (.add fr) (w3 1 2 0)) 0 0).pc = .ofNat 64 (fetchVa + 8) := by decide
theorem test_inactive_lane_keeps : vGet (after (.add fr) (w3 1 2 0)) 0 1 5 = 0 := by decide
theorem test_illegal_field_stops : ((grp (after (.add { fr with c := 1 }) w0) 0).stops.map (fun x => (x.fr.cls, x.fr.code))) = [(1, 3)] := by decide
theorem test_level_stops : ((grp (after .halt (we Ext.plain)) 0).stops.map (fun x => x.fr.cls)) = [3] := by decide
theorem test_trap_detail : ((grp (after .trap (we (sys { fs with d := 0, a := 0, b := 0, c := 0, num := 7 }))) 0).stops.map (fun x => (x.fr.cls, x.fr.code, x.fr.detail))) = [(0xC, 7, 7)] := by decide
theorem test_vote_ballot : vGet (after (.voteBallot { fr with ty := 0, b := 0, a := 0 }) (lanes2 w0)) 0 0 5 = 3 := by decide
theorem test_redux_add : vGet (after (.reduxAdd { fr with b := 0 }) { modGrp 0 (fun g => { g with v := [(6, 5), (256 + 6, 7)] }) (lanes2 w0) with free := 0 }) 0 1 5 = 12 := by decide
theorem test_scan_exclusive : vGet (after (.scanAdd { fr with b := 0, mo := 2 }) (modGrp 0 (fun g => { g with v := [(6, 5), (256 + 6, 7)] }) (lanes2 w0))) 0 1 5 = 5 := by decide
theorem test_store_then_near : near (after (.st { gm with ty := 6 }) (modGrp 0 (fun g => { g with v := (4, 0xAB) :: g.v }) { wa with cur := { wa.cur with lanes := 1 } })) 0 (cellKey 2 0 0) = some 0xAB := by decide
theorem test_store_not_at_home_yet : (after (.st { gm with ty := 6 }) (modGrp 0 (fun g => { g with v := (4, 0xAB) :: g.v }) { wa with cur := { wa.cur with lanes := 1 } })).mem = [] := by decide
theorem test_write_through_applies : cellGet (after .writeThroughApply wmsg).mem (cellKey 2 0 3) = 7 := by decide
theorem test_atomic_apply_adds : leNat (cellBytes (after .atomicApply (watom atom0)).mem (cellKey 2 0 8) 4) = 1 := by decide
theorem test_token_lend : ((after .tokenMoveEffect (wtok (fun k => { k with waiting := [op0] }))).tokens.map (fun k => (k.owner, k.outer))) = [(2 ^ 21 + 5, 2 ^ 21)] := by decide

/-- FIPS 197, appendix C.3. -/
theorem test_aes256 : aes256 ((List.range 32).map (fun i => .ofNat 8 i)) ((List.range 16).map (fun i => .ofNat 8 (17 * i)))
    = [0x8E, 0xA2, 0xB7, 0xCA, 0x51, 0x67, 0x45, 0xBF, 0xEA, 0xFC, 0x49, 0x90, 0x4B, 0x49, 0x60, 0x89] := by decide +kernel
theorem test_powMod : powMod 4 497 8 13 = 445 := by decide

end Sys2Proof.Tests
end

section
/-!
PROOF. Logic, shifts, counts and bit fields (R237 to R241): each operation as the operation on bit vectors of the type's width, or bit by bit.
-/
namespace Sys2Proof.Machine

theorem tyBits_pos (t : BitVec 5) : 0 < tyBits t := by
  unfold tyBits
  split <;> decide

/-- A number reads as the signed value of its bits. -/
theorem sgn_eq_toInt {w : Nat} (hw : 0 < w) (n : Nat) : sgn w n = (BitVec.ofNat w n).toInt := by
  obtain ⟨w, rfl⟩ : ∃ k, w = k + 1 := ⟨w - 1, by omega⟩
  have half : n % 2 ^ (w + 1) < 2 ^ w ↔ 2 * (n % 2 ^ (w + 1)) < 2 ^ (w + 1) := by rw [Nat.pow_succ]; omega
  simp only [sgn, BitVec.toInt_eq_toNat_cond, BitVec.toNat_ofNat, Nat.add_sub_cancel, half]

/-! ### Numbers from their bits -/

theorem ofBits_zero (f : Nat → Bool) : ofBits 0 f = 0 := rfl
theorem ofBits_succ (w : Nat) (f : Nat → Bool) : ofBits (w + 1) f = ofBits w f + if f w then 2 ^ w else 0 := by
  unfold ofBits
  rw [List.range_succ, List.filter_append, List.foldl_append]
  cases h : f w <;> simp [h]
theorem ofBits_lt (w : Nat) (f : Nat → Bool) : ofBits w f < 2 ^ w := by
  induction w with
  | zero => simp [ofBits_zero]
  | succ w ih =>
    rw [ofBits_succ, Nat.pow_succ]
    split <;> omega
theorem testBit_ofBits (w : Nat) (f : Nat → Bool) (i : Nat) : (ofBits w f).testBit i = (decide (i < w) && f i) := by
  induction w with
  | zero => simp [ofBits_zero]
  | succ w ih =>
    have top : ofBits (w + 1) f = 2 ^ w * (if f w then 1 else 0) + ofBits w f := by
      rw [ofBits_succ]
      cases f w <;> simp [Nat.add_comm]
    rw [top, Nat.testBit_two_pow_mul_add _ (ofBits_lt w f), ih]
    rcases Nat.lt_trichotomy i w with h | rfl | h
    · simp [h, Nat.lt_succ_of_lt h]
    · cases f i <;> simp
    · have one : Nat.testBit 1 (i - w) = false := Nat.testBit_lt_two_pow (Nat.one_lt_two_pow (by omega))
      cases f w <;> simp [Nat.not_lt_of_gt h, Nat.not_lt_of_ge h, one]
theorem getLsbD_ofBits (w : Nat) (f : Nat → Bool) {i : Nat} (h : i < w) : (BitVec.ofInt w (ofBits w f : Int)).getLsbD i = f i := by
  rw [BitVec.ofInt_natCast, BitVec.getLsbD_ofNat, testBit_ofBits]
  simp [h]

/-! ### Logic -/

theorem opNot_eq (t : BitVec 5) (mo : Byte) {a : Nat} (b c : Nat) (ha : a < 2 ^ tyBits t) :
    BitVec.ofInt (tyBits t) (opNot t mo a b c) = ~~~(BitVec.ofNat (tyBits t) a) := by
  rw [opNot, BitVec.ofInt_natCast]
  apply BitVec.eq_of_toNat_eq
  rw [BitVec.toNat_not, BitVec.toNat_ofNat, BitVec.toNat_ofNat, Nat.mod_eq_of_lt ha, Nat.mod_eq_of_lt (by omega)]

/-- The truth table's entry, its index written out (R237). -/
theorem truth_eq (fn : Byte) (a b c : Bool) :
    truth fn a b c = fn.getLsbD ((if a then 1 else 0) + (if b then 2 else 0) + (if c then 4 else 0)) := by
  cases a <;> cases b <;> cases c <;> rfl

theorem getLsbD_opBool3 (t : BitVec 5) (mo : Byte) (a b c : Nat) {i : Nat} (h : i < tyBits t) :
    (BitVec.ofInt (tyBits t) (opBool3 t mo a b c)).getLsbD i
      = mo.getLsbD ((if a.testBit i then 1 else 0) + (if b.testBit i then 2 else 0) + (if c.testBit i then 4 else 0)) := by
  rw [opBool3, getLsbD_ofBits _ _ h, truth_eq]

/-! ### Shifts -/

theorem opShl_eq (t : BitVec 5) (mo : Byte) (a b c : Nat) :
    BitVec.ofInt (tyBits t) (opShl t mo a b c) = BitVec.ofNat (tyBits t) a <<< b := by
  unfold opShl
  split
  · rename_i h
    rw [BitVec.shiftLeft_eq_zero h]
    rfl
  · rw [BitVec.ofInt_natCast]
    apply BitVec.eq_of_toNat_eq
    rw [BitVec.toNat_shiftLeft, BitVec.toNat_ofNat, BitVec.toNat_ofNat, Nat.shiftLeft_eq, Nat.mod_mul_mod]

theorem opShr_eq (t : BitVec 5) (mo : Byte) {a : Nat} (b c : Nat) (ha : a < 2 ^ tyBits t) :
    BitVec.ofInt (tyBits t) (opShr t mo a b c) = BitVec.ofNat (tyBits t) a >>> b := by
  unfold opShr
  split
  · rename_i h
    rw [BitVec.ushiftRight_eq_zero h]
    rfl
  · rw [BitVec.ofInt_natCast]
    apply BitVec.eq_of_toNat_eq
    rw [BitVec.toNat_ushiftRight, BitVec.toNat_ofNat, BitVec.toNat_ofNat, Nat.mod_eq_of_lt ha, Nat.shiftRight_eq_div_pow,
      Nat.mod_eq_of_lt (Nat.lt_of_le_of_lt (Nat.div_le_self ..) ha)]

/-- Dividing a value of `k + 1` bits by 2^k or more leaves its sign alone. -/
theorem ediv_two_pow_min {x : Int} {k : Nat} (lo : -(2 ^ k : Nat) ≤ x) (hi : x < (2 ^ k : Nat)) (b : Nat) :
    x / (2 ^ min b k : Nat) = x / (2 ^ b : Nat) := by
  rcases Nat.le_total b k with h | h
  · rw [Nat.min_eq_left h]
  · have le : (2 ^ k : Nat) ≤ 2 ^ b := Nat.pow_le_pow_right (by decide) h
    rw [Nat.min_eq_right h]
    rcases Int.lt_or_le x 0 with neg | pos
    · rw [Int.ediv_eq_neg_one_of_neg_of_le neg (by omega), Int.ediv_eq_neg_one_of_neg_of_le neg (by omega)]
    · rw [Int.ediv_eq_zero_of_lt pos hi, Int.ediv_eq_zero_of_lt pos (by omega)]

theorem opSar_eq (t : BitVec 5) (mo : Byte) (a b c : Nat) :
    BitVec.ofInt (tyBits t) (opSar t mo a b c) = (BitVec.ofNat (tyBits t) a).sshiftRight b := by
  unfold opSar
  have hw := tyBits_pos t
  generalize tyBits t = w at hw ⊢
  have lo := BitVec.le_toInt (BitVec.ofNat w a)
  have hi := BitVec.toInt_lt (x := BitVec.ofNat w a)
  rw [sgn_eq_toInt hw, ediv_two_pow_min (by exact_mod_cast lo) (by exact_mod_cast hi), ← Int.shiftRight_eq_div_pow]
  rfl

theorem toNat_concat {w a b : Nat} (ha : a < 2 ^ w) (hb : b < 2 ^ w) :
    (BitVec.ofNat w a ++ BitVec.ofNat w b).toNat = a * 2 ^ w + b := by
  rw [BitVec.toNat_append, BitVec.toNat_ofNat, BitVec.toNat_ofNat, Nat.mod_eq_of_lt ha, Nat.mod_eq_of_lt hb,
    ← Nat.shiftLeft_add_eq_or_of_lt hb, Nat.shiftLeft_eq]

theorem opFsl_eq (t : BitVec 5) (mo : Byte) {a b : Nat} (c : Nat) (ha : a < 2 ^ tyBits t) (hb : b < 2 ^ tyBits t) :
    BitVec.ofInt (tyBits t) (opFsl t mo a b c)
      = ((BitVec.ofNat (tyBits t) a ++ BitVec.ofNat (tyBits t) b) <<< funnelBy t mo c).extractLsb' (tyBits t) (tyBits t) := by
  rw [opFsl, BitVec.ofInt_natCast]
  apply BitVec.eq_of_toNat_eq
  rw [BitVec.extractLsb'_toNat, BitVec.toNat_shiftLeft, toNat_concat ha hb, BitVec.toNat_ofNat, Nat.shiftLeft_eq,
    Nat.shiftRight_eq_div_pow, Nat.pow_add, Nat.mod_mul_right_div_self, Nat.mod_mod]

theorem opFsr_eq (t : BitVec 5) (mo : Byte) {a b : Nat} (c : Nat) (ha : a < 2 ^ tyBits t) (hb : b < 2 ^ tyBits t) :
    BitVec.ofInt (tyBits t) (opFsr t mo a b c)
      = ((BitVec.ofNat (tyBits t) a ++ BitVec.ofNat (tyBits t) b) >>> funnelBy t mo c).extractLsb' 0 (tyBits t) := by
  rw [opFsr, BitVec.ofInt_natCast]
  apply BitVec.eq_of_toNat_eq
  rw [BitVec.extractLsb'_toNat, BitVec.toNat_ushiftRight, toNat_concat ha hb, BitVec.toNat_ofNat, Nat.shiftRight_zero,
    Nat.shiftRight_eq_div_pow, Nat.mod_mod]

/-! ### Counts and reversal -/

theorem opPopc_eq (t : BitVec 5) (mo : Byte) (a b c : Nat) :
    opPopc t mo a b c = ((List.range (tyBits t)).countP (fun i => a.testBit i) : Nat) := by
  rw [opPopc, List.countP_eq_length_filter]

/-- The first number below `w` that meets a test, or `w`: both searches of R239. -/
theorem find_range_getD {w n : Nat} {p : Nat → Bool} (hn : n < w) (hp : p n = true) (hlt : ∀ i, i < n → p i = false) :
    ((List.range w).find? p).getD w = n := by
  have h : (List.range w).find? p = some n :=
    List.find?_range_eq_some.mpr ⟨hp, List.mem_range.mpr hn, fun i hi => by simp [hlt i hi]⟩
  rw [h, Option.getD_some]
theorem find_range_getD_none {w : Nat} {p : Nat → Bool} (h : ∀ i, p i = false) : ((List.range w).find? p).getD w = w := by
  rw [List.find?_range_eq_none.mpr (fun i _ => by simp [h i]), Option.getD_none]

theorem opClz_zero (t : BitVec 5) (mo : Byte) (b c : Nat) : opClz t mo 0 b c = tyBits t := by
  rw [opClz, find_range_getD_none (fun _ => Nat.zero_testBit _)]
theorem opCtz_zero (t : BitVec 5) (mo : Byte) (b c : Nat) : opCtz t mo 0 b c = tyBits t := by
  rw [opCtz, find_range_getD_none (fun _ => Nat.zero_testBit _)]
theorem opClz_eq {t : BitVec 5} {a n : Nat} (mo : Byte) (b c : Nat) (hn : n < tyBits t) (h1 : a.testBit (tyBits t - 1 - n) = true)
    (h0 : ∀ i, i < n → a.testBit (tyBits t - 1 - i) = false) : opClz t mo a b c = n := by
  rw [opClz, find_range_getD (p := fun i => a.testBit (tyBits t - 1 - i)) hn h1 h0]
theorem opCtz_eq {t : BitVec 5} {a n : Nat} (mo : Byte) (b c : Nat) (hn : n < tyBits t) (h1 : a.testBit n = true)
    (h0 : ∀ i, i < n → a.testBit i = false) : opCtz t mo a b c = n := by
  rw [opCtz, find_range_getD hn h1 h0]

theorem getLsbD_opBrev (t : BitVec 5) (mo : Byte) (a b c : Nat) {i : Nat} (h : i < tyBits t) :
    (BitVec.ofInt (tyBits t) (opBrev t mo a b c)).getLsbD i = a.testBit (tyBits t - 1 - i) := by
  rw [opBrev, getLsbD_ofBits _ _ h]

/-! ### Bit fields -/

/-- The bits of a field of a number that stands at `pos` (R240). -/
theorem testBit_field (a pos len i : Nat) : (a / 2 ^ pos % 2 ^ len).testBit i = (decide (i < len) && a.testBit (pos + i)) := by
  rw [Nat.testBit_mod_two_pow, Nat.testBit_div_two_pow, Nat.add_comm]

/-- A field of `len` bits less 2^len is the field under ones (R240). -/
theorem getLsbD_sub_two_pow {w len x : Nat} (hx : x < 2 ^ len) (hl : len ≤ w) {i : Nat} (hi : i < w) :
    (BitVec.ofInt w ((x : Int) - (2 ^ len : Nat))).getLsbD i = if i < len then x.testBit i else true := by
  have hle : 2 ^ len ≤ 2 ^ w := Nat.pow_le_pow_right (by decide) hl
  have key : BitVec.ofInt w ((x : Int) - (2 ^ len : Nat)) = BitVec.ofNat w (2 ^ len * (2 ^ (w - len) - 1) + x) := by
    have hmul : 2 ^ len * (2 ^ (w - len) - 1) + 2 ^ len = 2 ^ w := by
      rw [Nat.mul_sub, Nat.mul_one, ← Nat.pow_add, Nat.add_sub_cancel' hl, Nat.sub_add_cancel hle]
    have : (x : Int) - (2 ^ len : Nat) = ((2 ^ len * (2 ^ (w - len) - 1) + x : Nat) : Int) + (2 ^ w : Nat) * (-1) := by omega
    rw [this, ← BitVec.ofInt_natCast]
    apply BitVec.eq_of_toInt_eq
    rw [BitVec.toInt_ofInt, BitVec.toInt_ofInt, Int.add_mul_bmod_self_left]
  rw [key, BitVec.getLsbD_ofNat, Nat.testBit_two_pow_mul_add _ hx, Nat.testBit_two_pow_sub_one]
  split
  · simp [hi]
  · simp only [hi, decide_true, Bool.true_and, decide_eq_true_eq]
    omega

theorem getLsbD_opBfe (t : BitVec 5) (mo : Byte) (a b c : Nat) {i : Nat} (hi : i < tyBits t) :
    let pos := min (b % 256) (tyBits t)
    let len := min (b / 256 % 256) (tyBits t - pos)
    (BitVec.ofInt (tyBits t) (opBfe t mo a b c)).getLsbD i
      = if i < len then a.testBit (pos + i) else decide (t.toNat < 4) && decide (0 < len) && a.testBit (pos + len - 1) := by
  intro pos len
  have hlt : a / 2 ^ pos % 2 ^ len < 2 ^ len := Nat.mod_lt _ (Nat.two_pow_pos len)
  have top : 0 < len → (2 ^ (len - 1) ≤ a / 2 ^ pos % 2 ^ len ↔ a.testBit (pos + len - 1) = true) := by
    intro hpos
    have bit : (a / 2 ^ pos % 2 ^ len).testBit (len - 1) = a.testBit (pos + len - 1) := by
      rw [testBit_field, show pos + (len - 1) = pos + len - 1 by omega, decide_eq_true (show len - 1 < len by omega), Bool.true_and]
    rw [← bit]
    exact ⟨fun h => Nat.testBit_of_two_pow_le_and_two_pow_add_one_gt h (by rwa [Nat.sub_add_cancel hpos]), Nat.ge_two_pow_of_testBit⟩
  have unfolded : opBfe t mo a b c
      = if t.toNat < 4 ∧ 0 < len ∧ a.testBit (pos + len - 1) = true then ((a / 2 ^ pos % 2 ^ len : Nat) : Int) - (2 ^ len : Nat)
        else ((a / 2 ^ pos % 2 ^ len : Nat) : Int) := by
    show (if (tySigned t && decide (0 < len) && decide (2 ^ (len - 1) ≤ a / 2 ^ pos % 2 ^ len)) = true then _ else _) = _
    refine ite_congr (propext ?_) (fun _ => rfl) (fun _ => rfl)
    simp only [tySigned, Bool.and_eq_true, decide_eq_true_eq, and_assoc]
    exact and_congr_right fun _ => and_congr_right top
  rw [unfolded]
  split
  · rename_i h
    obtain ⟨hs, hpos, hb⟩ := h
    rw [getLsbD_sub_two_pow hlt (by omega) hi, testBit_field]
    by_cases hl : i < len <;> simp [hl, hs, hpos, hb]
  · rename_i h
    rw [BitVec.ofInt_natCast, BitVec.getLsbD_ofNat, testBit_field]
    by_cases hl : i < len
    · simp [hl, hi]
    · simp only [hl, decide_false, Bool.false_and, Bool.and_false, if_false]
      symm
      simpa [and_assoc] using h

theorem getLsbD_opBfi (t : BitVec 5) (mo : Byte) (a b c : Nat) {i : Nat} (hi : i < tyBits t) :
    let pos := min (c % 256) (tyBits t)
    let len := min (c / 256 % 256) (tyBits t - pos)
    (BitVec.ofInt (tyBits t) (opBfi t mo a b c)).getLsbD i = if pos ≤ i ∧ i < pos + len then a.testBit (i - pos) else b.testBit i := by
  intro pos len
  have unfolded : opBfi t mo a b c
      = (ofBits (tyBits t) (fun i => if pos ≤ i && i < pos + len then a.testBit (i - pos) else b.testBit i) : Int) := rfl
  rw [unfolded, getLsbD_ofBits _ _ hi]
  simp

/-! ### Bytes -/

theorem leNat_div_mod (l : List Byte) (i : Nat) : leNat l / 256 ^ i % 256 = (l.getD i 0).toNat := by
  induction l generalizing i with
  | nil => simp [leNat]
  | cons b l ih =>
    have hb := b.isLt
    cases i with
    | zero =>
      simp only [leNat, Nat.pow_zero, Nat.div_one, List.getD_cons_zero]
      omega
    | succ i =>
      rw [leNat, Nat.pow_succ', ← Nat.div_div_eq_div_mul, List.getD_cons_succ, ← ih]
      congr 2
      omega

/-- A byte of the pair of 32-bit sources that `bsel` chooses from (R241). -/
theorem bsel_source (a b : Nat) {j : Nat} (hj : j < 8) :
    (a % 2 ^ 32 + 2 ^ 32 * (b % 2 ^ 32)) / 256 ^ j % 256 = (if j < 4 then a / 256 ^ j else b / 256 ^ (j - 4)) % 256 := by
  have cases8 : j = 0 ∨ j = 1 ∨ j = 2 ∨ j = 3 ∨ j = 4 ∨ j = 5 ∨ j = 6 ∨ j = 7 := by omega
  rcases cases8 with rfl | rfl | rfl | rfl | rfl | rfl | rfl | rfl <;>
    simp only [Nat.reduceLT, if_true, if_false, Nat.reduceSub, Nat.reducePow] <;> omega

theorem bselByte_lt (a b ctl : Nat) : bselByte a b ctl < 256 := by
  unfold bselByte
  dsimp only
  split
  · exact Nat.mod_lt _ (by decide)
  · decide
  · split <;> decide
  · decide

theorem opBsel_byte (t : BitVec 5) (mo : Byte) (a b c : Nat) {i : Nat} (hi : i < 4) :
    opBsel t mo a b c / ((256 ^ i : Nat) : Int) % 256 = (bselByte a b (c / 256 ^ i % 256) : Nat) := by
  have h : leNat ((List.range 4).map (fun i => BitVec.ofNat 8 (bselByte a b (c / 256 ^ i % 256)))) / 256 ^ i % 256
      = bselByte a b (c / 256 ^ i % 256) := by
    rw [leNat_div_mod, List.getD_eq_getElem?_getD, List.getElem?_map, List.getElem?_range hi, Option.map_some, Option.getD_some,
      BitVec.toNat_ofNat]
    exact Nat.mod_eq_of_lt (bselByte_lt ..)
  rw [opBsel]
  rw [← h, Int.natCast_emod, Int.natCast_ediv]
  rfl

/-- Settles O11: the shifts and logic as bit-vector operations of the type's width, the rest bit by bit or byte by byte. -/
theorem logicShiftsAndFields : Obligations.LogicShiftsAndFields := by
  refine ⟨fun t mo a b c _ ha hb _ => ⟨?_, ?_, ?_, opNot_eq t mo b c ha, fun i hi => getLsbD_opBool3 t mo a b c hi, opShl_eq t mo a b c,
    opShr_eq t mo b c ha, opSar_eq t mo a b c, opFsl_eq t mo c ha hb, opFsr_eq t mo c ha hb⟩, fun t mo a b c _ _ _ => ⟨opPopc_eq t mo a b c, ?_,
    fun n hn h1 h0 => opClz_eq mo b c hn h1 h0, fun n hn h1 h0 => opCtz_eq mo b c hn h1 h0, fun i hi => getLsbD_opBrev t mo a b c hi,
    fun i hi => getLsbD_opBfe t mo a b c hi, fun i hi => getLsbD_opBfi t mo a b c hi, fun i hi => ?_⟩⟩
  · exact (BitVec.ofInt_natCast ..).trans BitVec.ofNat_and
  · exact (BitVec.ofInt_natCast ..).trans BitVec.ofNat_or
  · exact (BitVec.ofInt_natCast ..).trans BitVec.ofNat_xor
  · rintro rfl
    exact ⟨opClz_zero t mo b c, opCtz_zero t mo b c⟩
  · rw [opBsel_byte t mo a b c hi]
    generalize c / 256 ^ i % 256 = k
    simp only [bselByte, bsel_source a b (Nat.mod_lt k (by decide : 8 > 0))]
    generalize k / 64 = fill
    rcases fill with _ | _ | _ | _
    · rfl
    · rfl
    · exact apply_ite (Nat.cast (R := Int)) _ _ _
    · rfl

end Sys2Proof.Machine
end

section
/-!
PROOF. Branches and calls (R229, R230): a transfer moves its lanes to their targets and no other lane, whatever the move of the other
lanes past the word does.
-/
namespace Sys2Proof.Machine

/-! ### Transfers -/

/-- A lane that has taken a transfer to a header at a time (R229). -/
def transferred (time : Nat) (target : DWord) (viaLoop : Bool) (x : Lane) : Lane :=
  { x with pc := target, clause := none, viaLoop := viaLoop, viaFall := false, relHere := false, since := time }

/-- A lane of a loop that its pass's end has moved on takes a transfer as it would have from the loop's header. -/
@[simp] theorem transferred_leaveLoop (time : Nat) (target : DWord) (v : Bool) (b : LoopBuf) (x : Lane) :
    transferred time target v (leaveLoop b x) = transferred time target v x := rfl

theorem lane_foldl_transferred (g l : Nat) (target : Nat → DWord) (v : Bool) (is : List Nat) (nd : is.Nodup) (s : State) :
    lane (is.foldl (fun s i => modLane g i (transferred s.time (target i) v) s) s) g l
      = if l ∈ is then transferred s.time (target l) v (lane s g l) else lane s g l := by
  induction is generalizing s with
  | nil => simp
  | cons i is ih =>
    obtain ⟨hi, nd⟩ := List.nodup_cons.mp nd
    rw [List.foldl_cons, ih nd, lane_modLane]
    by_cases e : l = i
    · subst e
      simp [hi]
    · simp [e, modLane]

theorem lane_transfer (g l : Nat) (m : Mask) (target : Nat → DWord) (v : Bool) (s : State) :
    lane (transfer g m target v s) g l = if m.getLsbD l = true then transferred s.time (target l) v (lane s g l) else lane s g l := by
  have h := lane_foldl_transferred g l target v _ (Mask.nodup_toList m) s
  simp only [Mask.mem_toList] at h
  exact h

theorem Local.transfer (g : Nat) (m : Mask) (target : Nat → DWord) (v : Bool) (s : State) : Local g s (transfer g m target v s) :=
  Local.foldl _ (fun s l => Local.modLane g l _ s) _ s
theorem OnlyMoves.transfer (g : Nat) (m : Mask) (target : Nat → DWord) (v : Bool) (s : State) : OnlyMoves g s (transfer g m target v s) :=
  OnlyMoves.foldl _ (fun _ _ => .modGrp _ _ _ (fun _ => rfl)) _ s
theorem k_transfer (g : Nat) (m : Mask) (target : Nat → DWord) (v : Bool) (s : State) :
    (grp (transfer g m target v s) g).k = (grp s g).k :=
  k_foldl g _ (fun _ _ => by simp [modLane]) _ s

/-! ### The return address -/

/-- The pair that a taken call leaves in a lane (R230). -/
def linkPair (f : FB) (ret : DWord) : LaneOut :=
  { v := [(f.d.toNat, .ofNat 32 ret.toNat), (f.d.toNat + 1, .ofNat 32 (ret.toNat / 2 ^ 32))] }

theorem linkTo_eq_putOuts (f : FB) (m : Mask) (ret : DWord) (s : State) :
    linkTo f m ret s = putOuts s.cur.gid ((Mask.toList m).map (fun l => (l, linkPair f ret))) s := by
  unfold linkTo
  generalize Mask.toList m = ls
  induction ls generalizing s with
  | nil => rfl
  | cons l ls ih => exact ih (putOut s.cur.gid l (linkPair f ret) s)

theorem vGet_linkTo {f : FB} (m : Mask) (ret : DWord) (s : State) (l : Nat) {n : Nat} (hd : f.d.toNat < 255) (hn : n < 256) :
    vGet (linkTo f m ret s) s.cur.gid l n
      = if m.getLsbD l = true ∧ n = f.d.toNat then ret.setWidth 32
        else if m.getLsbD l = true ∧ n = f.d.toNat + 1 then (ret >>> 32).setWidth 32 else vGet s s.cur.gid l n := by
  have hpair : ∀ r ∈ (linkPair f ret).v, r.1 < 256 := by
    simp only [linkPair, List.forall_mem_cons]
    exact ⟨by omega, by omega, by simp⟩
  have lo : BitVec.ofNat 32 ret.toNat = ret.setWidth 32 := BitVec.eq_of_toNat_eq (by simp)
  have hi : BitVec.ofNat 32 (ret.toNat / 2 ^ 32) = (ret >>> 32).setWidth 32 :=
    BitVec.eq_of_toNat_eq (by simp [Nat.shiftRight_eq_div_pow])
  rw [linkTo_eq_putOuts, vGet_putOuts _ _ _ (fun _ => linkPair f ret) _ (Mask.nodup_toList m) hn (fun _ _ => hpair)]
  simp only [Mask.mem_toList, linkPair, lastOf, List.foldl_cons, List.foldl_nil, lo, hi]
  by_cases hm : m.getLsbD l = true
  · by_cases e : n = f.d.toNat
    · simp [hm, e]
    · by_cases e' : n = f.d.toNat + 1
      · simp [hm, e']
      · simp [hm, e, e', Ne.symm e, Ne.symm e']
  · simp [hm]

theorem KeepsP.linkTo (f : FB) (m : Mask) (ret : DWord) (s : State) : KeepsP s.cur.gid s (linkTo f m ret s) := by
  rw [linkTo_eq_putOuts]
  generalize Mask.toList m = ls
  induction ls generalizing s with
  | nil => exact .refl _ _
  | cons l ls ih =>
    exact KeepsP.trans (fun i n => pGet_foldl_vPut _ l i n (linkPair f ret).v s) (ih (putOut s.cur.gid l (linkPair f ret) s))

/-! ### Branches -/

/-- What may happen between the other lanes' move and the transfer: vector registers of the group are written. -/
def OnlyV (g : Nat) (s t : State) : Prop := Local g s t ∧ OnlyOuts g s t ∧ KeepsP g s t
theorem OnlyV.refl (g : Nat) (s : State) : OnlyV g s s := ⟨.refl g s, .refl g s, .refl g s⟩
theorem OnlyV.linkTo (f : FB) (m : Mask) (ret : DWord) (s : State) : OnlyV s.cur.gid s (linkTo f m ret s) := by
  refine ⟨?_, ?_, .linkTo f m ret s⟩ <;> rw [linkTo_eq_putOuts]
  · exact .putOuts ..
  · exact .putOuts ..

/-- What a control transfer leaves (R229): its takers stand at their targets, the arrival's other lanes have moved past the word, and
nothing else changes but vector registers. -/
def Transfers (f : FB) (target : Nat → DWord) (s t : State) : Prop :=
  let g := s.cur.gid
  let m := takers s f
  OnlyGroup g s t ∧ OnlyRegs g s t ∧ KeepsP g s t ∧ KeepsK g [] s t ∧ (grp t g).x = (grp s g).x
    ∧ (∀ l, l < 32 → m.getLsbD l = true → lane t g l = transferred s.time (target l) false (lane s g l))
    ∧ (∀ l, m.getLsbD l = false → s.cur.lanes.getLsbD l = true → ∀ c, (lane s g l).clause = some c → c.loop = false →
        lane t g l = movedOn s.cur s.time (lane s g l))

/-- The state in which the lanes of a branch that do not take it have moved past the word. -/
def restMoved (f : FB) (s : State) : State := finishLanes s.cur (s.cur.lanes &&& ~~~(takers s f)) (parkIf s.cur s)

theorem Local.restMoved (f : FB) (s : State) : Local s.cur.gid s (restMoved f s) := (Local.parkIf ..).trans (.finishLanes ..)
theorem OnlyMoves.restMoved (f : FB) (s : State) : OnlyMoves s.cur.gid s (restMoved f s) := (OnlyMoves.parkIf ..).trans (.finishLanes ..)
theorem KeepsK.restMoved (f : FB) (s : State) : KeepsK s.cur.gid [] s (restMoved f s) := by
  obtain ⟨hk, hloop, -⟩ := parkIf_fields s.cur s
  intro n hn hl
  exact (KeepsK.finishLanes s.cur _ (parkIf s.cur s) n hn (by rwa [hloop])).trans (kGet_of_k hk n)

/-- A lane of a branch: where the move of the other lanes ends a pass, it may have left its loop. -/
theorem lane_restMoved (f : FB) (s : State) (l : Nat) :
    let x := if (s.cur.lanes &&& ~~~(takers s f)).getLsbD l = true then movedOn s.cur s.time (lane s s.cur.gid l) else lane s s.cur.gid l
    lane (restMoved f s) s.cur.gid l = x
      ∨ ∃ b, x.viaLoop = true ∧ x.clause = none ∧ lane (restMoved f s) s.cur.gid l = leaveLoop b x := by
  have park : ∀ u : State, lane (parkIf s.cur u) s.cur.gid l = lane u s.cur.gid l := fun u =>
    lane_of_lanes (parkIf_fields s.cur u).2.2 l
  have time : (parkIf s.cur (parkIf s.cur s)).time = s.time := by rw [((Local.parkIf s.cur s).trans (.parkIf s.cur _)).1.1]
  have h := passLanes_lane s.cur (s.cur.lanes &&& ~~~(takers s f)) (parkIf s.cur (parkIf s.cur s)) l
  rw [park, park, time] at h
  rcases h with e | ⟨b, -, -, hv, hc, e⟩
  · exact .inl e
  · exact .inr ⟨b, hv, hc, e⟩

/-- A branch that nothing stops: the other lanes move on, the return address is written, the takers transfer (R229, R439). -/
theorem branch_ready {i : Instr} {f : FB} {extra : State → List Nat} {target : State → Nat → DWord} {link : State → State} {s : State}
    (h : ready i (extra s) (takers s f) s = true) :
    branch i f extra target link s = drew (transfer s.cur.gid (takers s f) (target s) false (link (restMoved f s))) :=
  judge_ready h

theorem branch_transfers {i : Instr} {f : FB} {extra : State → List Nat} {target : State → Nat → DWord} {link : State → State} {s : State}
    (h : ready i (extra s) (takers s f) s = true) (hlink : OnlyV s.cur.gid (restMoved f s) (link (restMoved f s))) :
    Transfers f (target s) s (branch i f extra target link s) := by
  rw [branch_ready h]
  obtain ⟨hloc, hout, hp⟩ := hlink
  have hlane := lane_restMoved f s
  have hL := Local.restMoved f s
  have hM := OnlyMoves.restMoved f s
  have hK := KeepsK.restMoved f s
  generalize restMoved f s = u at *
  generalize link u = w at *
  have hall : Local s.cur.gid s (drew (transfer s.cur.gid (takers s f) (target s) false w)) :=
    (hL.trans hloc).trans ((Local.transfer ..).trans (.drew ..))
  have hT := OnlyMoves.transfer s.cur.gid (takers s f) (target s) false w
  have wlane : ∀ l, lane w s.cur.gid l = lane u s.cur.gid l := lane_of_lanes (by rw [hout])
  have wtime : w.time = s.time := by rw [(hL.trans hloc).1.1]
  refine ⟨hall.1, hall.2, (hM.keepsP.trans hp).trans hT.keepsP, fun n hn hl => ?_, ?_, fun l _ hm => ?_, fun l hm ha c hc hloop => ?_⟩
  · exact (kGet_of_k ((k_transfer ..).trans (by rw [hout])) n).trans (hK n hn hl)
  · exact (hT.x.trans (by rw [hout])).trans hM.x
  · rw [lane_drew, lane_transfer, if_pos hm, wtime, wlane]
    have out : (s.cur.lanes &&& ~~~(takers s f)).getLsbD l = false := by
      rw [BitVec.getLsbD_and, BitVec.getLsbD_not, hm]
      simp
    rcases hlane l with e | ⟨b, -, -, e⟩ <;> rw [e] <;> simp [out]
  · have inn : (s.cur.lanes &&& ~~~(takers s f)).getLsbD l = true := by
      have hlt : l < 32 := BitVec.lt_of_getLsbD ha
      rw [BitVec.getLsbD_and, BitVec.getLsbD_not, hm, ha]
      simp [hlt]
    rw [lane_drew, lane_transfer, if_neg (by simp [hm]), wlane]
    rcases hlane l with e | ⟨b, hv, hn, -⟩
    · rw [e, if_pos inn]
    · rw [if_pos inn] at hv hn
      rcases movedOn_noLoop s.cur s.time _ c hc hloop with e | e
      · simp [e] at hv
      · simp [e] at hn

theorem vGet_branch {i : Instr} {f : FB} {extra : State → List Nat} {target : State → Nat → DWord} {link : State → State} {s : State}
    (h : ready i (extra s) (takers s f) s = true) (l n : Nat) :
    vGet (branch i f extra target link s) s.cur.gid l n = vGet (link (restMoved f s)) s.cur.gid l n := by
  rw [branch_ready h]
  exact (OnlyMoves.transfer ..).keepsV l n

/-- A branch that leaves no return address (R229). -/
theorem branch_jumps {i : Instr} {f : FB} {extra : State → List Nat} {target : State → Nat → DWord} {s : State}
    (h : ready i (extra s) (takers s f) s = true) :
    Transfers f (target s) s (branch i f extra target id s) ∧ KeepsV s.cur.gid s (branch i f extra target id s) :=
  ⟨branch_transfers h (.refl _ _), fun l n => (vGet_branch h l n).trans ((OnlyMoves.restMoved f s).keepsV l n)⟩

/-- A call: its takers hold the return address in their pair (R230). -/
theorem branch_calls {i : Instr} {f : FB} {extra : State → List Nat} {target : State → Nat → DWord} {s : State} (ret : DWord)
    (h : ready i (extra s) (takers s f) s = true) (hd : f.d.toNat < 255) :
    Transfers f (target s) s (branch i f extra target (linkTo f (takers s f) ret) s)
      ∧ ∀ l n, l < 32 → n < 256 → vGet (branch i f extra target (linkTo f (takers s f) ret) s) s.cur.gid l n
          = if (takers s f).getLsbD l = true ∧ n = f.d.toNat then ret.setWidth 32
            else if (takers s f).getLsbD l = true ∧ n = f.d.toNat + 1 then (ret >>> 32).setWidth 32 else vGet s s.cur.gid l n := by
  have hcur : (restMoved f s).cur = s.cur := (Local.restMoved f s).cur
  have hlink := OnlyV.linkTo f (takers s f) ret (restMoved f s)
  rw [hcur] at hlink
  refine ⟨branch_transfers h hlink, fun l n _ hn => ?_⟩
  have hv := vGet_linkTo (takers s f) ret (restMoved f s) l hd hn
  rw [hcur, (OnlyMoves.restMoved f s).keepsV l n] at hv
  exact (vGet_branch h l n).trans hv

/-! ### Targets -/

/-- A number reduced to a word's width is the word. -/
theorem ofNat_wrapTo (w : Nat) (x : Int) : BitVec.ofNat w (wrapTo w x) = BitVec.ofInt w x := by
  apply BitVec.eq_of_toNat_eq
  rw [BitVec.toNat_ofNat, BitVec.toNat_ofInt, wrapTo]
  have hpos : (0 : Int) < (2 ^ w : Nat) := Int.natCast_pos.mpr (Nat.two_pow_pos w)
  exact Nat.mod_eq_of_lt ((Int.toNat_lt (Int.emod_nonneg x (Int.ne_of_gt hpos))).mpr (Int.emod_lt_of_pos x hpos))

theorem relTarget_eq (f : FB) (s : State) :
    relTarget f s = fun _ => BitVec.ofInt 64 ((s.cur.pc.toNat : Int) + 8 * f.off.toInt) := by
  funext l
  rw [relTarget, ofNat_wrapTo, sgn_eq_toInt (by decide), BitVec.ofNat_toNat, BitVec.setWidth_eq]

/-- Settles O25: the seven words are one operation, `branch`, with four targets and with or without a return address. -/
theorem controlTransfers : Obligations.ControlTransfers := by
  intro f s
  have rel := relTarget_eq f s
  refine ⟨fun h => ⟨_, rfl, ?_⟩, fun h => ⟨_, rfl, branch_jumps h⟩, fun h => ⟨_, rfl, branch_jumps h⟩, fun h => ⟨_, rfl, branch_jumps h⟩,
    fun h hd => ⟨_, rfl, ?_⟩, fun h hd => ⟨_, rfl, branch_calls _ h hd⟩, fun h hd => ⟨_, rfl, branch_calls _ h hd⟩⟩
  · rw [← rel]
    exact branch_jumps h
  · rw [← rel]
    exact branch_calls _ h hd

end Sys2Proof.Machine
end

section
/-!
PROOF. Stores that leave a group (R127 to R129): what a group of the core reads near it before and after. A byte stands in the core's
write-combining buffer, in a write-through of the core on its way, or past them: in a copy of the L1 or the L2, or pending in the L2.
-/
namespace Sys2Proof.Machine

/-- Induction over a list from its end. -/
theorem list_append_induction {α : Type} {P : List α → Prop} (nil : P []) (append_singleton : ∀ l x, P l → P (l ++ [x])) (l : List α) : P l := by
  rw [← List.reverse_reverse l]
  induction l.reverse with
  | nil => exact nil
  | cons x l ih =>
    rw [List.reverse_cons]
    exact append_singleton l.reverse x ih

/-! ### A row of bytes in a line -/

/-- The byte at `k` of a row of bytes from `key`. -/
def rowByte (l : List Byte) (key k : Nat) : Option Byte := if key ≤ k then l[k - key]? else none

theorem rowByte_eq_none {l : List Byte} {key k : Nat} (h : k < key ∨ key + l.length ≤ k) : rowByte l key k = none := by
  unfold rowByte
  split
  · exact List.getElem?_eq_none (by omega)
  · rfl
theorem rowByte_isSome {l : List Byte} {key k : Nat} (h1 : key ≤ k) (h2 : k < key + l.length) : (rowByte l key k).isSome = true := by
  rw [rowByte, if_pos h1, List.getElem?_eq_getElem (by omega)]
  rfl

theorem rowByte_append (l : List Byte) (x : Byte) (key k : Nat) :
    rowByte (l ++ [x]) key k = if k = key + l.length then some x else rowByte l key k := by
  unfold rowByte
  split
  · rw [List.getElem?_append]
    split
    · rw [if_neg (by omega)]
    · rw [List.getElem?_eq_none (l := l) (by omega), List.getElem?_singleton]
      exact ite_congr (propext (by omega)) (fun _ => rfl) (fun _ => rfl)
  · rw [if_neg (by omega)]

/-- A row in two parts. -/
theorem rowByte_split (l : List Byte) (n key k : Nat) :
    (rowByte (l.drop n) (key + n) k).or (rowByte (l.take n) key k) = rowByte l key k := by
  unfold rowByte
  by_cases h : key + n ≤ k
  · rw [if_pos h, if_pos (by omega), if_pos (by omega), List.getElem?_drop, List.getElem?_take, if_neg (by omega), Option.or_none]
    congr 1
    omega
  · rw [if_neg h, Option.none_or]
    split
    · rw [List.getElem?_take, if_pos (by omega)]
    · rfl

/-- The entries that a row of bytes from a key puts into the key's line. -/
def lineRow (key : Nat) (l : List Byte) : Tab Byte := ((List.range l.length).zip l).map (fun p => (key % 128 + p.1, p.2))

theorem lineRow_append (key : Nat) (l : List Byte) (x : Byte) : lineRow key (l ++ [x]) = lineRow key l ++ [(key % 128 + l.length, x)] := by
  unfold lineRow
  rw [List.length_append, List.length_singleton, List.range_succ, List.zip_append (by simp), List.map_append]
  rfl
theorem mem_lineRow {key : Nat} {l : List Byte} {p : Nat × Byte} (h : p ∈ lineRow key l) : ∃ i, i < l.length ∧ p.1 = key % 128 + i := by
  obtain ⟨q, hq, rfl⟩ := List.mem_map.mp h
  exact ⟨q.1, List.mem_range.mp (List.of_mem_zip hq).1, rfl⟩

theorem inLine_put (b : Tab Byte) (i k : Nat) (x : Byte) : inLine (Tab.put b i x) k = if i = k % 128 then some x else inLine b k := by
  unfold inLine
  induction b with
  | nil => by_cases h : i = k % 128 <;> simp [Tab.put, h]
  | cons q b ih =>
    obtain ⟨j, y⟩ := q
    simp only [Tab.put]
    split
    · by_cases h : i = k % 128 <;> simp [h]
    · split
      · rename_i hij
        subst hij
        by_cases h : i = k % 128 <;> simp [h]
      · by_cases hj : j = k % 128
        · have : i ≠ k % 128 := by omega
          simp [hj, this]
        · simpa [hj] using ih

/-- A row written into a line's bytes: its bytes where it stands, else the byte from before. -/
theorem inLine_foldl_lineRow {key k : Nat} (b : Tab Byte) (hk : lineOf k = lineOf key) {l : List Byte} (hl : key % 128 + l.length ≤ 128) :
    inLine ((lineRow key l).foldl (fun b p => Tab.put b p.1 p.2) b) k = (rowByte l key k).or (inLine b k) := by
  unfold lineOf at hk
  induction l using list_append_induction with
  | nil => rw [rowByte_eq_none (by simp; omega)]; rfl
  | append_singleton l x ih =>
    rw [List.length_append, List.length_singleton] at hl
    rw [lineRow_append, List.foldl_append, List.foldl_cons, List.foldl_nil, inLine_put, ih (by omega)]
    rw [rowByte_append]
    by_cases h : k = key + l.length
    · rw [if_pos (by omega), if_pos h]
      rfl
    · rw [if_neg (by omega), if_neg h]

/-- A byte of the line that no entry of a row is at. -/
theorem lineRow_misses {key k : Nat} {l : List Byte} (hk : lineOf k = lineOf key) (h : rowByte l key k = none) :
    ∀ p ∈ lineRow key l, p.1 ≠ k % 128 := by
  intro p hp e
  obtain ⟨i, hi, hp⟩ := mem_lineRow hp
  unfold lineOf at hk
  have := rowByte_isSome (l := l) (show key ≤ k by omega) (by omega)
  rw [h] at this
  cases this
theorem misses_of_inLine {b : Tab Byte} {k : Nat} (h : inLine b k = none) : ∀ p ∈ b, p.1 ≠ k % 128 := by
  simpa [inLine, List.find?_eq_none] using h

/-! ### Copies -/

/-- Bytes written over the usable copies of a line. -/
def merged (s : State) (d line : Nat) (b : Tab Byte) (y : Copy) : Copy := if y.line == line && usable s d y then copyMerge y b else y

theorem merged_cases (s : State) (d line : Nat) (b : Tab Byte) (y : Copy) :
    merged s d line b y = y ∨ y.line = line ∧ merged s d line b y = copyMerge y b := by
  unfold merged
  split
  · rename_i h
    simp only [Bool.and_eq_true, beq_iff_eq] at h
    exact .inr ⟨h.1, rfl⟩
  · exact .inl rfl

theorem copyByte_copyMerge {b : Tab Byte} {k : Nat} (h : ∀ p ∈ b, p.1 ≠ k % 128) (y : Copy) : copyByte (copyMerge y b) k = copyByte y k := by
  unfold copyByte copyMerge
  generalize y.bytes = l
  induction b generalizing l with
  | nil => rfl
  | cons p b ih =>
    have hp := h p (by simp)
    exact (ih (fun q hq => h q (by simp [hq])) (l.set p.1 p.2)).trans (by simp [List.getD_eq_getElem?_getD, List.getElem?_set_ne hp])

/-- The byte of a group's first usable copy in a cache. -/
def copyRead (s : State) (d floor key : Nat) (l : List Copy) : Option Byte := (copyOf s d (lineOf key) floor l).map (fun c => copyByte c key)

theorem copyRead_congr {s t : State} {d : Nat} (h : gtime t d = gtime s d) (floor key : Nat) (l : List Copy) :
    copyRead t d floor key l = copyRead s d floor key l := by
  simp only [copyRead, copyOf, usable, h]

/-- Bytes written over copies of a line change no read of another byte. -/
theorem copyRead_merged (s : State) (d floor k line : Nat) {b : Tab Byte} (h : lineOf k = line → ∀ p ∈ b, p.1 ≠ k % 128) (l : List Copy) :
    copyRead s d floor k (l.map (merged s d line b)) = copyRead s d floor k l := by
  have same : ((fun c : Copy => c.line == lineOf k && usable s d c && decide (floor ≤ c.made)) ∘ merged s d line b)
      = fun c : Copy => c.line == lineOf k && usable s d c && decide (floor ≤ c.made) := by
    funext y
    rcases merged_cases s d line b y with e | ⟨-, e⟩
    · simp only [Function.comp_apply, e]
    · simp only [Function.comp_apply, e]
      rfl
  unfold copyRead copyOf
  rw [List.find?_map, same, Option.map_map]
  refine Option.map_congr fun y hy => ?_
  have hline : y.line = lineOf k := by
    have := List.find?_some hy
    simp only [Bool.and_eq_true, beq_iff_eq] at this
    exact this.1.1
  rcases merged_cases s d line b y with e | ⟨hl, e⟩
  · simp only [Function.comp_apply, e]
  · simp only [Function.comp_apply, e]
    exact copyByte_copyMerge (h (hline ▸ hl)) y

/-! ### What a group reads near it -/

/-- The byte at a key in a core's write-combining buffer. -/
def wcbByte (l : List WEntry) (key : Nat) : Option Byte := (l.find? (fun e => e.line == lineOf key)).bind (fun e => inLine e.bytes key)
/-- The byte at a key in the latest message of a list that holds it. -/
def msgByte (l : List Msg) (f : Msg → Bool) (key : Nat) : Option Byte :=
  (l.reverse.filter (fun m => f m && m.line == lineOf key)).findSome? (fun m => inLine m.bytes key)
/-- The byte that a group reads near it past its core's own writes (R127, R129). -/
def pastBuf (s : State) (g key : Nat) : Option Byte :=
  let c := (grp s g).core
  let d := coreDie c
  (copyRead s d (grp s g).floorL1 key (core s c).l1).or ((copyRead s d (grp s g).floorL2 key (die s d).l2).or
    (if passesL2 d (lineOf key) then msgByte s.net.msgs (fun m => coreDie m.core == d) key else none))

theorem bufByte_eq (s : State) (c key : Nat) :
    bufByte s c key = (wcbByte (core s c).wcb key).or (msgByte s.net.msgs (fun m => m.core == c) key) := by
  unfold bufByte wcbByte msgByte
  split
  · rename_i h
    rw [h]
    rfl
  · rename_i h
    rw [h]
    rfl

theorem near_eq (s : State) (g key : Nat) : near s g key = (bufByte s (grp s g).core key).or (pastBuf s g key) := by
  unfold near nearByte pastBuf copyRead l2Byte l2Pending msgByte
  dsimp only
  cases bufByte s (grp s g).core key with
  | some b => rfl
  | none =>
    cases copyOf s (coreDie (grp s g).core) (lineOf key) (grp s g).floorL1 (core s (grp s g).core).l1 with
    | some c => rfl
    | none =>
      cases copyOf s (coreDie (grp s g).core) (lineOf key) (grp s g).floorL2 (die s (coreDie (grp s g).core)).l2 with
      | some c => rfl
      | none =>
        cases passesL2 (coreDie (grp s g).core) (lineOf key) with
        | false => rfl
        | true =>
          simp only [Bool.not_true, Bool.false_eq_true, if_false, if_true, Option.map_none, Option.none_or, Option.map_map]
          exact congrArg (fun f => Option.map f _) rfl |>.trans Option.map_id'

/-- What a group reads near it depends on its core's buffer and L1, its die's L2 and clock, and the writes on their way. -/
theorem near_congr {s t : State} {g : Nat} (key : Nat)
    (hg : (grp t g).core = (grp s g).core ∧ (grp t g).floorL1 = (grp s g).floorL1 ∧ (grp t g).floorL2 = (grp s g).floorL2)
    (hc : (core t (grp s g).core).wcb = (core s (grp s g).core).wcb ∧ (core t (grp s g).core).l1 = (core s (grp s g).core).l1)
    (hd : die t (coreDie (grp s g).core) = die s (coreDie (grp s g).core)) (hm : t.net.msgs = s.net.msgs) (ht : t.time = s.time) :
    near t g key = near s g key := by
  obtain ⟨h1, h2, h3⟩ := hg
  obtain ⟨c1, c2⟩ := hc
  have time : gtime t (coreDie (grp s g).core) = gtime s (coreDie (grp s g).core) := by simp only [gtime, hd, ht]
  simp only [near_eq, bufByte_eq, pastBuf, h1, h2, h3, c1, c2, hd, hm, copyRead_congr time]

theorem Local.fields {g : Nat} {s t : State} (h : Local g s t) (i : Nat) :
    (grp t i).core = (grp s i).core ∧ (grp t i).floorL1 = (grp s i).floorL1 ∧ (grp t i).floorL2 = (grp s i).floorL2
      ∧ (grp t i).part = (grp s i).part ∧ (grp t i).level = (grp s i).level := by
  obtain ⟨⟨-, hother, -⟩, hregs⟩ := h
  by_cases e : i = g
  · subst e
    rw [hregs]
    exact ⟨rfl, rfl, rfl, rfl, rfl⟩
  · rw [hother i e]
    exact ⟨rfl, rfl, rfl, rfl, rfl⟩
/-- A change of one group's registers and places changes nothing that a group reads near it. -/
theorem near_of_local {g : Nat} {s t : State} (h : Local g s t) (i key : Nat) : near t i key = near s i key := by
  obtain ⟨h1, h2, h3, -⟩ := h.fields i
  have hs := h.1.1
  have hc : t.cores = s.cores := by rw [hs]
  have hd : t.dies = s.dies := by rw [hs]
  have hn : t.net = s.net := by rw [hs]
  have ht : t.time = s.time := by rw [hs]
  exact near_congr key ⟨h1, h2, h3⟩ (by simp [core, hc]) (by simp [die, hd]) (by rw [hn]) ht

/-! ### A buffer entry drains -/

/-- The message as which a buffer entry leaves for its home. -/
def entryMsg (c : Nat) (e : WEntry) (s : State) : Msg :=
  { id := s.ids.msg, core := c, part := e.part, team := e.team, line := e.line, bytes := e.bytes, gids := e.gids,
    first := e.first, sent := s.time, va := e.va, dest := carriesTo s e.part e.line }
/-- The entry has left the buffer. -/
def entrySent (c : Nat) (e : WEntry) (s : State) : State :=
  modCore c (fun x => { x with wcb := x.wcb.filter (fun y => y.line != e.line) })
    { s with net := { s.net with msgs := s.net.msgs ++ [entryMsg c e s] }, ids := { s.ids with msg := s.ids.msg + 1 } }
/-- And it has passed the die's L2. -/
def entryPassed (c : Nat) (e : WEntry) (s : State) : State :=
  modDie (coreDie c) (fun x => { x with l2 := x.l2.map (merged s (coreDie c) e.line e.bytes) }) (entrySent c e s)

/-- Groups have seen a Wd. -/
def wdSeen (gids : List Nat) (wd : Nat) (s : State) : State :=
  gids.foldl (fun u g => modGrp g (fun r => { r with largestWd := max r.largestWd wd }) u) s

theorem drainEntry_eq (c : Nat) (e : WEntry) (s : State) :
    drainEntry c e s = if passesL2 (coreDie c) e.line then
        wdSeen e.gids (max (gtime s (coreDie c)) ((die s (coreDie c)).hd.get 0 e.line)) (entryPassed c e s)
      else entrySent c e s := by
  unfold drainEntry
  dsimp only
  cases passesL2 (coreDie c) e.line <;> rfl

theorem wcbByte_filter {l : List WEntry} {e : WEntry} (k : Nat) :
    wcbByte (l.filter (fun y => y.line != e.line)) k = if lineOf k = e.line then none else wcbByte l k := by
  unfold wcbByte
  rw [List.find?_filter]
  split
  · rename_i h
    rw [List.find?_eq_none.mpr, Option.bind_none]
    intro y _
    simp [h]
  · rename_i h
    congr 2
    funext y
    by_cases hy : y.line = lineOf k
    · simp [hy, h]
    · simp [hy]
theorem wcbByte_head {l : List WEntry} {e : WEntry} (h : l.head? = some e) {k : Nat} (hk : lineOf k = e.line) : wcbByte l k = inLine e.bytes k := by
  cases l with
  | nil => cases h
  | cons y l =>
    obtain rfl : y = e := by simpa using h
    simp [wcbByte, hk]
theorem msgByte_append (l : List Msg) (m : Msg) (f : Msg → Bool) (k : Nat) :
    msgByte (l ++ [m]) f k = (if (f m && m.line == lineOf k) = true then inLine m.bytes k else none).or (msgByte l f k) := by
  unfold msgByte
  rw [List.reverse_append, List.reverse_singleton, List.singleton_append, List.filter_cons]
  split
  · rw [List.findSome?_cons]
    cases inLine m.bytes k <;> rfl
  · rfl

/-- The oldest entry's leaving keeps what the core sees of its own writes. -/
theorem bufByte_entrySent {c : Nat} {e : WEntry} {s : State} (he : (core s c).wcb.head? = some e) (k : Nat) :
    bufByte (entrySent c e s) c k = bufByte s c k := by
  have hw : (core (entrySent c e s) c).wcb = (core s c).wcb.filter (fun y => y.line != e.line) := by
    rw [entrySent, core_modCore_same]
    rfl
  have hm : (entrySent c e s).net.msgs = s.net.msgs ++ [entryMsg c e s] := rfl
  rw [bufByte_eq, bufByte_eq, hw, hm, wcbByte_filter, msgByte_append]
  by_cases hk : lineOf k = e.line
  · rw [if_pos hk, if_pos (by simp [entryMsg, hk]), wcbByte_head he hk, Option.none_or]
    rfl
  · rw [if_neg hk, if_neg (by simp [entryMsg, Ne.symm hk]), Option.none_or]

/-- What lies past the buffer stays at the bytes that the entry does not hold. -/
theorem pastBuf_entryPassed {c : Nat} {e : WEntry} {s : State} {g k : Nat} (hc : (grp s g).core = c)
    (h : lineOf k = e.line → inLine e.bytes k = none) :
    pastBuf (entrySent c e s) g k = pastBuf s g k ∧ pastBuf (entryPassed c e s) g k = pastBuf s g k := by
  have grpS : grp (entrySent c e s) g = grp s g := rfl
  have l1 : (core (entrySent c e s) c).l1 = (core s c).l1 := by
    rw [entrySent, core_modCore_same]
    rfl
  have msgs : ∀ f, msgByte (entrySent c e s).net.msgs f k = msgByte s.net.msgs f k := by
    intro f
    show msgByte (s.net.msgs ++ [entryMsg c e s]) f k = _
    rw [msgByte_append]
    by_cases hk : lineOf k = e.line
    · rw [show inLine (entryMsg c e s).bytes k = none from h hk, ite_self, Option.none_or]
    · rw [if_neg (by simp [entryMsg, Ne.symm hk]), Option.none_or]
  have gt : gtime (entryPassed c e s) (coreDie c) = gtime s (coreDie c) := by
    unfold gtime entryPassed
    rw [die_modDie_same]
    rfl
  have l2 : (die (entryPassed c e s) (coreDie c)).l2 = (die s (coreDie c)).l2.map (merged s (coreDie c) e.line e.bytes) := by
    unfold entryPassed
    rw [die_modDie_same]
    rfl
  constructor
  · have gt' : gtime (entrySent c e s) (coreDie c) = gtime s (coreDie c) := rfl
    have dd : die (entrySent c e s) (coreDie c) = die s (coreDie c) := rfl
    simp only [pastBuf, grpS, hc, l1, msgs, copyRead_congr gt', dd]
  · have grpP : grp (entryPassed c e s) g = grp s g := rfl
    have coreP : core (entryPassed c e s) c = core (entrySent c e s) c := rfl
    have msgP : (entryPassed c e s).net.msgs = (entrySent c e s).net.msgs := rfl
    simp only [pastBuf, grpP, coreP, msgP, hc, l1, msgs, copyRead_congr gt, l2]
    rw [copyRead_merged s (coreDie c) _ k e.line (fun hk => misses_of_inLine (h hk))]

/-- Of every group only the largest Wd and what its streams have read ahead differ. -/
def GroupsStore (s t : State) : Prop :=
  (∀ h, grp t h = { grp s h with x := (grp t h).x, largestWd := (grp t h).largestWd }) ∧ ∀ h, StreamsKept h s t
theorem GroupsStore.of_groups {s t : State} (h : t.groups = s.groups) : GroupsStore s t :=
  ⟨fun g => by rw [grp_of_groups h], fun g n => by rw [grp_of_groups h]⟩
theorem GroupsStore.trans {s t u : State} (a : GroupsStore s t) (b : GroupsStore t u) : GroupsStore s u :=
  ⟨fun h => by rw [b.1 h, a.1 h], fun h n => (b.2 h n).trans (a.2 h n)⟩
theorem GroupsStore.foldl {α : Type} (f : State → α → State) (h : ∀ s x, GroupsStore s (f s x)) (l : List α) (s : State) :
    GroupsStore s (l.foldl f s) := by
  induction l generalizing s with
  | nil => exact .of_groups rfl
  | cons x l ih => exact (h s x).trans (ih (f s x))
theorem GroupsStore.largestWd (g n : Nat) (s : State) : GroupsStore s (modGrp g (fun r => { r with largestWd := max r.largestWd n }) s) := by
  constructor
  · intro h
    rw [grp_modGrp]
    split
    · rename_i e
      rw [e]
    · rfl
  · intro h n
    rw [grp_modGrp]
    split
    · rename_i e
      rw [e]
    · rfl
theorem GroupsStore.wdSeen (gids : List Nat) (wd : Nat) (s : State) : GroupsStore s (wdSeen gids wd s) :=
  GroupsStore.foldl _ (fun u g => .largestWd g wd u) gids s
theorem GroupsStore.fields {s t : State} (h : GroupsStore s t) (g : Nat) :
    (grp t g).core = (grp s g).core ∧ (grp t g).floorL1 = (grp s g).floorL1 ∧ (grp t g).floorL2 = (grp s g).floorL2
      ∧ (grp t g).part = (grp s g).part ∧ (grp t g).level = (grp s g).level := by
  rw [h.1 g]
  exact ⟨rfl, rfl, rfl, rfl, rfl⟩

/-- What a store may change besides scratchpads: caches and buffers, writes on their way, launches' dirty granules, and of groups what
`GroupsStore` names. -/
def StoreFrame (s t : State) : Prop :=
  t = { s with cores := t.cores, dies := t.dies, net := t.net, ids := t.ids, groups := t.groups, launches := t.launches, teams := t.teams }
    ∧ GroupsStore s t
theorem StoreFrame.refl (s : State) : StoreFrame s s := ⟨rfl, .of_groups rfl⟩
theorem StoreFrame.trans {s t u : State} (a : StoreFrame s t) (b : StoreFrame t u) : StoreFrame s u :=
  ⟨by rw [b.1, a.1], a.2.trans b.2⟩
theorem StoreFrame.foldl {α : Type} (f : State → α → State) (h : ∀ s x, StoreFrame s (f s x)) (l : List α) (s : State) :
    StoreFrame s (l.foldl f s) := by
  induction l generalizing s with
  | nil => exact .refl s
  | cons x l ih => exact (h s x).trans (ih (f s x))
theorem StoreFrame.modCore (c : Nat) (f : Core → Core) (s : State) : StoreFrame s (modCore c f s) := ⟨rfl, .of_groups rfl⟩

theorem wdSeen_shape (gids : List Nat) (wd : Nat) (s : State) : wdSeen gids wd s = { s with groups := (wdSeen gids wd s).groups } := by
  unfold wdSeen
  induction gids generalizing s with
  | nil => rfl
  | cons g gids ih =>
    rw [List.foldl_cons, ih]
    rfl

theorem drainEntry_frame (c : Nat) (e : WEntry) (s : State) : StoreFrame s (drainEntry c e s) ∧ (drainEntry c e s).teams = s.teams := by
  rw [drainEntry_eq]
  split
  · have hg := GroupsStore.wdSeen e.gids (max (gtime s (coreDie c)) ((die s (coreDie c)).hd.get 0 e.line)) (entryPassed c e s)
    refine ⟨⟨?_, GroupsStore.trans (t := entryPassed c e s) (.of_groups rfl) hg⟩, ?_⟩
    · rw [wdSeen_shape]
      rfl
    · rw [wdSeen_shape]
      rfl
  · exact ⟨⟨rfl, .of_groups rfl⟩, rfl⟩

theorem near_wdSeen (gids : List Nat) (wd : Nat) (s : State) (g k : Nat) : near (wdSeen gids wd s) g k = near s g k := by
  obtain ⟨h1, h2, h3, -⟩ := (GroupsStore.wdSeen gids wd s).fields g
  have shape := wdSeen_shape gids wd s
  generalize wdSeen gids wd s = t at *
  have hc : t.cores = s.cores := by rw [shape]
  have hd : t.dies = s.dies := by rw [shape]
  have hn : t.net = s.net := by rw [shape]
  have ht : t.time = s.time := by rw [shape]
  exact near_congr k ⟨h1, h2, h3⟩ (by simp [core, hc]) (by simp [die, hd]) (by rw [hn]) ht

/-- The oldest entry of its core's buffer drains: a group of the core reads every byte near it as before (R127, R129). -/
theorem near_drainEntry {c : Nat} {e : WEntry} {s : State} (he : (core s c).wcb.head? = some e) {g : Nat} (hc : (grp s g).core = c) (k : Nat) :
    near (drainEntry c e s) g k = near s g k := by
  have hbuf : ∀ u : State, core u c = core (entrySent c e s) c → u.net = (entrySent c e s).net → bufByte u c k = bufByte s c k := by
    intro u h1 h2
    rw [← bufByte_entrySent he, bufByte_eq, bufByte_eq, h1, h2]
  have miss : bufByte s c k = none → lineOf k = e.line → inLine e.bytes k = none := by
    intro hb hk
    rw [bufByte_eq, wcbByte_head he hk, Option.or_eq_none_iff] at hb
    exact hb.1
  have both : near (entrySent c e s) g k = near s g k ∧ near (entryPassed c e s) g k = near s g k := by
    have g1 : grp (entrySent c e s) g = grp s g := rfl
    have g2 : grp (entryPassed c e s) g = grp s g := rfl
    rw [near_eq, near_eq, near_eq, g1, g2, hc, hbuf (entrySent c e s) rfl rfl, hbuf (entryPassed c e s) rfl rfl]
    cases hb : bufByte s c k with
    | some b => exact ⟨rfl, rfl⟩
    | none =>
      obtain ⟨h1, h2⟩ := pastBuf_entryPassed hc (miss hb)
      rw [h1, h2]
      exact ⟨rfl, rfl⟩
  rw [drainEntry_eq]
  split
  · exact (near_wdSeen ..).trans both.2
  · exact both.1

end Sys2Proof.Machine
end

section
/-!
PROOF. A store of a group enters the buffer of its core, or a scratchpad (R124, R128, R129, R215): what every group of the core reads near
it then, what scratchpads hold, and what stays.
-/
namespace Sys2Proof.Machine

/-! ### Into the buffer -/

/-- The buffer has room for a line: where it is full and holds no entry of the line, its oldest entry has left. -/
def bufRoom (c line : Nat) (s : State) : State :=
  if !((core s c).wcb.any (fun e => e.line == line)) && decide (Config.wcbEntries ≤ (core s c).wcb.length) then
    match (core s c).wcb.head? with
    | some e => drainEntry c e s
    | none => s
  else s
/-- A group's row of bytes stands in a buffer entry of its line. -/
def entryStore (at_ g key : Nat) (l : List Byte) (e : WEntry) : WEntry :=
  if e.line == lineOf key then
    { e with bytes := (lineRow key l).foldl (fun b p => Tab.put b p.1 p.2) e.bytes, first := min e.first at_,
             gids := if e.gids.contains g then e.gids else e.gids ++ [g] }
  else e
/-- And in the buffer: in the entry of the line, or in a new one. -/
def wcbStore (at_ g va key : Nat) (l : List Byte) (gr : Group) (w : List WEntry) : List WEntry :=
  if w.any (fun e => e.line == lineOf key) then w.map (entryStore at_ g key l)
  else w ++ [{ line := lineOf key, part := gr.part, team := gr.team, bytes := (lineRow key l).foldl (fun b p => Tab.put b p.1 p.2) [],
               gids := [g], first := at_, va := va / 128 * 128 }]

theorem bufStore_eq (at_ g va key : Nat) (l : List Byte) (s : State) :
    bufStore at_ g va key l s
      = modCore (grp s g).core (fun x => { x with
            l1 := x.l1.map (merged (bufRoom (grp s g).core (lineOf key) s) (coreDie (grp s g).core) (lineOf key) (lineRow key l)) })
          (modCore (grp s g).core (fun x => { x with wcb := wcbStore at_ g va key l (grp s g) x.wcb }) (bufRoom (grp s g).core (lineOf key) s)) := rfl

theorem bufRoom_frame (c line : Nat) (s : State) : StoreFrame s (bufRoom c line s) ∧ (bufRoom c line s).teams = s.teams := by
  unfold bufRoom
  split
  · split
    · exact drainEntry_frame ..
    · exact ⟨.refl s, rfl⟩
  · exact ⟨.refl s, rfl⟩
theorem near_bufRoom {c : Nat} (line : Nat) {s : State} {g : Nat} (hc : (grp s g).core = c) (k : Nat) :
    near (bufRoom c line s) g k = near s g k := by
  unfold bufRoom
  split
  · split
    · rename_i he
      exact near_drainEntry he hc k
    · rfl
  · rfl
theorem bufStore_frame (at_ g va key : Nat) (l : List Byte) (s : State) :
    StoreFrame s (bufStore at_ g va key l s) ∧ (bufStore at_ g va key l s).teams = s.teams := by
  obtain ⟨hf, ht⟩ := bufRoom_frame (grp s g).core (lineOf key) s
  rw [bufStore_eq]
  exact ⟨hf.trans ((StoreFrame.modCore ..).trans (.modCore ..)), ht⟩

theorem entryStore_line (at_ g key : Nat) (l : List Byte) (e : WEntry) : (entryStore at_ g key l e).line = e.line := by
  unfold entryStore
  split <;> rfl

theorem wcbByte_wcbStore (at_ g va : Nat) {key : Nat} {l : List Byte} (gr : Group) (w : List WEntry) (hl : key % 128 + l.length ≤ 128) (k : Nat) :
    wcbByte (wcbStore at_ g va key l gr w) k = (rowByte l key k).or (wcbByte w k) := by
  have off : lineOf k ≠ lineOf key → rowByte l key k = none := fun h => rowByte_eq_none (by unfold lineOf at h; omega)
  unfold wcbStore
  split
  · rename_i hany
    have same : ((fun e : WEntry => e.line == lineOf k) ∘ entryStore at_ g key l) = fun e => e.line == lineOf k := by
      funext e
      rw [Function.comp_apply, entryStore_line]
    unfold wcbByte
    rw [List.find?_map, same]
    cases hf : w.find? (fun e => e.line == lineOf k) with
    | none =>
      have ne : lineOf k ≠ lineOf key := by
        intro e
        obtain ⟨y, hy, hyl⟩ := List.any_eq_true.mp hany
        have := List.find?_eq_none.mp hf y hy
        rw [e] at this
        exact this hyl
      rw [off ne]
      rfl
    | some e =>
      have hline : e.line = lineOf k := by simpa using List.find?_some hf
      simp only [Option.map_some, Option.bind_some, entryStore, hline, beq_iff_eq]
      split
      · rename_i hk
        exact inLine_foldl_lineRow e.bytes hk hl
      · rename_i hk
        rw [off hk, Option.none_or]
  · rename_i hany
    unfold wcbByte
    rw [List.find?_append, List.find?_singleton]
    by_cases hk : lineOf k = lineOf key
    · have hnone : w.find? (fun e => e.line == lineOf k) = none := by
        rw [List.find?_eq_none]
        intro y hy hyl
        rw [hk] at hyl
        exact hany (List.any_eq_true.mpr ⟨y, hy, hyl⟩)
      rw [hnone, Option.none_or, if_pos (by simp [hk]), Option.bind_some, Option.bind_none]
      exact inLine_foldl_lineRow [] hk hl
    · rw [off hk, if_neg (by simpa using Ne.symm hk), Option.or_none, Option.none_or]

/-- A row of bytes in one line that enters the buffer: every group of the core reads it near it (R127, R128). -/
theorem near_bufStore (at_ va : Nat) {g key : Nat} {l : List Byte} {s : State} (hl : key % 128 + l.length ≤ 128) {i : Nat}
    (hi : (grp s i).core = (grp s g).core) (k : Nat) :
    near (bufStore at_ g va key l s) i k = (rowByte l key k).or (near s i k) := by
  rw [bufStore_eq, ← near_bufRoom (lineOf key) hi k]
  have hu : (grp (bufRoom (grp s g).core (lineOf key) s) i).core = (grp s g).core :=
    ((bufRoom_frame (grp s g).core (lineOf key) s).1.2.fields i).1.trans hi
  generalize grp s g = gr at *
  generalize bufRoom gr.core (lineOf key) s = u at *
  generalize ht : modCore gr.core (fun x => { x with l1 := x.l1.map (merged u (coreDie gr.core) (lineOf key) (lineRow key l)) })
    (modCore gr.core (fun x => { x with wcb := wcbStore at_ g va key l gr x.wcb }) u) = t
  have hgrp : grp t i = grp u i := by rw [← ht]; rfl
  have hnet : t.net = u.net := by rw [← ht]; rfl
  have hdie : die t (coreDie gr.core) = die u (coreDie gr.core) := by rw [← ht]; rfl
  have hgt : gtime t (coreDie gr.core) = gtime u (coreDie gr.core) := by rw [← ht]; rfl
  have hwcb : (core t gr.core).wcb = wcbStore at_ g va key l gr (core u gr.core).wcb := by rw [← ht, core_modCore_same, core_modCore_same]
  have hl1 : (core t gr.core).l1 = (core u gr.core).l1.map (merged u (coreDie gr.core) (lineOf key) (lineRow key l)) := by
    rw [← ht, core_modCore_same, core_modCore_same]
  have hbuf : bufByte t gr.core k = (rowByte l key k).or (bufByte u gr.core k) := by
    rw [bufByte_eq, bufByte_eq, hwcb, hnet, wcbByte_wcbStore at_ g va gr _ hl, Option.or_assoc]
  rw [near_eq, near_eq, hgrp, hu, hbuf, Option.or_assoc]
  cases hrow : rowByte l key k with
  | some b => rfl
  | none =>
    have hpast : pastBuf t i k = pastBuf u i k := by
      simp only [pastBuf, hgrp, hu, hnet, hdie, hl1, copyRead_congr hgt]
      rw [copyRead_merged u (coreDie gr.core) _ k (lineOf key) (fun hk => lineRow_misses hk hrow)]
    rw [hpast]

theorem bufLines_frame (at_ g va key : Nat) (l : List Byte) (s : State) :
    StoreFrame s (bufLines at_ g va key l s) ∧ (bufLines at_ g va key l s).teams = s.teams := by
  unfold bufLines
  dsimp only
  obtain ⟨hf, ht⟩ := bufStore_frame at_ g va key (l.take (128 - key % 128)) s
  split
  · exact ⟨hf, ht⟩
  · obtain ⟨hf', ht'⟩ := bufStore_frame at_ g (va + (128 - key % 128)) (key + (128 - key % 128)) (l.drop (128 - key % 128))
      (bufStore at_ g va key (l.take (128 - key % 128)) s)
    exact ⟨hf.trans hf', ht'.trans ht⟩

/-- A row of bytes of at most a line's length, which may cross into the next line. -/
theorem near_bufLines (at_ va : Nat) {g key : Nat} {l : List Byte} {s : State} (hl : l.length ≤ 128) {i : Nat}
    (hi : (grp s i).core = (grp s g).core) (k : Nat) :
    near (bufLines at_ g va key l s) i k = (rowByte l key k).or (near s i k) := by
  unfold bufLines
  dsimp only
  have head := near_bufStore at_ va (key := key) (l := l.take (128 - key % 128)) (s := s) (by rw [List.length_take]; omega) hi k
  have hf := (bufStore_frame at_ g va key (l.take (128 - key % 128)) s).1.2
  split
  · rename_i h
    rw [head, List.take_of_length_le h]
  · rw [near_bufStore at_ _ (by rw [List.length_drop]; omega) (by rw [(hf.fields i).1, (hf.fields g).1, hi]), head, ← Option.or_assoc,
      rowByte_split]

/-! ### Beside the buffer -/

theorem tabGet_mapValues {α : Type} (f : α → α) (d : α) (hd : f d = d) (t : Tab α) (n : Nat) :
    Tab.get d (t.map (fun q => (q.1, f q.2))) n = f (Tab.get d t n) := by
  induction t with
  | nil => exact hd.symm
  | cons q t ih =>
    obtain ⟨k, v⟩ := q
    simp only [List.map_cons, Tab.get]
    split
    · rfl
    · exact ih

theorem endAhead_frame (g : Nat) (s : State) : StoreFrame s (endAhead g s) := by
  refine ⟨rfl, fun h => ?_, fun h n => ?_⟩
  · unfold endAhead
    rw [grp_modGrp]
    split
    · rename_i e
      rw [e]
    · rfl
  · unfold endAhead
    rw [grp_modGrp]
    split
    · rename_i e
      rw [e]
      dsimp only
      rw [tabGet_mapValues (fun x : Stream => { x with ahead := [] }) {} rfl]
    · rfl
theorem near_endAhead (g : Nat) (s : State) (i k : Nat) : near (endAhead g s) i k = near s i k := by
  obtain ⟨h1, h2, h3, -⟩ := (endAhead_frame g s).2.fields i
  exact near_congr k ⟨h1, h2, h3⟩ ⟨rfl, rfl⟩ rfl rfl rfl

theorem cacheEntry_frame (c p va : Nat) (s : State) : StoreFrame s (cacheEntry c p va s) ∧ (cacheEntry c p va s).teams = s.teams := by
  unfold cacheEntry
  split
  · exact ⟨.refl s, rfl⟩
  · split
    · exact ⟨.refl s, rfl⟩
    · exact ⟨.modCore .., rfl⟩
theorem near_cacheEntry (c p va : Nat) (s : State) (i k : Nat) : near (cacheEntry c p va s) i k = near s i k := by
  unfold cacheEntry
  split
  · rfl
  · split
    · rfl
    · refine near_congr k ⟨rfl, rfl, rfl⟩ ?_ rfl rfl rfl
      rw [core_modCore]
      split
      · rename_i e
        rw [e]
        exact ⟨rfl, rfl⟩
      · exact ⟨rfl, rfl⟩

theorem markDirty_frame (l va : Nat) (s : State) : StoreFrame s (markDirty l va s) ∧ (markDirty l va s).teams = s.teams := by
  unfold markDirty
  split
  · exact ⟨.refl s, rfl⟩
  · exact ⟨⟨rfl, .of_groups rfl⟩, rfl⟩
theorem near_markDirty (l va : Nat) (s : State) (i k : Nat) : near (markDirty l va s) i k = near s i k := by
  unfold markDirty
  split
  · rfl
  · exact near_congr k ⟨rfl, rfl, rfl⟩ ⟨rfl, rfl⟩ rfl rfl rfl

/-! ### A store -/

/-- What stands beside a store: read-ahead has ended and the token entry may be cached (R103, R215). -/
def storeBegun (g va : Nat) (s : State) : State := cacheEntry (grp s g).core (grp s g).part va (endAhead g s)

theorem storeBegun_frame (g va : Nat) (s : State) : StoreFrame s (storeBegun g va s) ∧ (storeBegun g va s).teams = s.teams := by
  obtain ⟨hf, ht⟩ := cacheEntry_frame (grp s g).core (grp s g).part va (endAhead g s)
  exact ⟨(endAhead_frame g s).trans hf, ht⟩
theorem near_storeBegun (g va : Nat) (s : State) (i k : Nat) : near (storeBegun g va s) i k = near s i k :=
  (near_cacheEntry ..).trans (near_endAhead ..)

/-- The line's bytes that a store leaves: none at a place that lies in no line. -/
def keptByte (p : Nat) (x : Loc) (l : List Byte) (k : Nat) : Option Byte := (memKey p x).bind (fun key => rowByte l key k)
/-- The bytes of a scratchpad that a store leaves. -/
def padByte (x : Loc) (l : List Byte) (i off : Nat) : Option Byte :=
  match x with
  | .pad t o => if i = t then rowByte l o off else none
  | _ => none

theorem cellGet_write {m : List Host.Cell} (hm : Memory.wf m = true) (key : Nat) (l : List Byte) (j : Nat) :
    cellGet (cellWrite m key l) j = (rowByte l key j).getD (cellGet m j) := by
  induction l using list_append_induction with
  | nil => rw [rowByte_eq_none (by simp; omega)]; rfl
  | append_singleton l x ih =>
    have step : cellWrite m key (l ++ [x]) = cellPut (cellWrite m key l) (key + l.length) x := by
      unfold cellWrite
      rw [List.length_append, List.length_singleton, List.range_succ, List.zip_append (by simp), List.foldl_append]
      rfl
    rw [step, cellGet_put _ _ _ _ (Memory.wf_write m key l hm), ih, rowByte_append]
    split <;> rfl

/-- The bytes of a store go where their place lies. -/
def placed (at_ g va : Nat) (x : Loc) (l : List Byte) (u : State) : State :=
  match x with
  | .cell key => bufLines at_ g va key l (markDirty (team u (grp u g).team).launch va u)
  | .pad t off => padWrite t off l u
  | .reg p d page off => if page = 0 && (grp u g).level = 0 then u else bufLines at_ g va (regKey p d page off) l u
  | .remote m gpa => bufLines at_ g va (farKey (grp u g).part m gpa) l (markDirty (team u (grp u g).team).launch va u)

theorem placed_reg (at_ g va p d page off : Nat) (l : List Byte) (u : State) :
    placed at_ g va (.reg p d page off) l u
      = if (page = 0 && (grp u g).level = 0) = true then u else bufLines at_ g va (regKey p d page off) l u := rfl

theorem storeFrom_eq (at_ g va : Nat) (h : Hit) (l : List Byte) (s : State) :
    storeFrom at_ g va h l s = placed at_ g va h.loc l (storeBegun g va s) := by
  obtain ⟨x, gpa, w, home⟩ := h
  cases x <;> rfl

theorem placed_frame (at_ g va : Nat) (x : Loc) (l : List Byte) (u : State) : StoreFrame u (placed at_ g va x l u) := by
  have dirty : ∀ key n, StoreFrame u (bufLines at_ g va key l (markDirty n va u)) := fun key n =>
    (markDirty_frame ..).1.trans (bufLines_frame ..).1
  cases x with
  | cell key => exact dirty ..
  | pad t off => exact ⟨rfl, .of_groups rfl⟩
  | reg p d page off =>
    rw [placed_reg]
    split
    · exact .refl u
    · exact (bufLines_frame ..).1
  | remote m a => exact dirty ..

theorem keptByte_of_key {p : Nat} {x : Loc} {key : Nat} (h : memKey p x = some key) (l : List Byte) (k : Nat) :
    keptByte p x l k = rowByte l key k := by
  rw [keptByte, h, Option.bind_some]
theorem takesStore_reg (s : State) (g p d page off : Nat) :
    takesStore s g (.reg p d page off) = !(page == 0 && (grp s g).level == 0) := by
  cases page <;> rfl

theorem near_placed (at_ va : Nat) {g : Nat} (x : Loc) {l : List Byte} {u : State} (hl : l.length ≤ 128) {i : Nat}
    (hi : (grp u i).core = (grp u g).core) (k : Nat) :
    near (placed at_ g va x l u) i k = (if takesStore u g x then keptByte (grp u g).part x l k else none).or (near u i k) := by
  have dirty : ∀ n key, near (bufLines at_ g va key l (markDirty n va u)) i k = (rowByte l key k).or (near u i k) := by
    intro n key
    have hm := (markDirty_frame n va u).1.2.fields
    rw [near_bufLines at_ va hl (by rw [(hm i).1, (hm g).1, hi]), near_markDirty]
  cases x with
  | cell key =>
    rw [show takesStore u g (.cell key) = true from rfl, if_pos rfl, keptByte_of_key (key := key) rfl]
    exact dirty ..
  | pad t off =>
    rw [show keptByte (grp u g).part (.pad t off) l k = none from rfl, ite_self, Option.none_or]
    exact near_congr k ⟨rfl, rfl, rfl⟩ ⟨rfl, rfl⟩ rfl rfl rfl
  | reg p d page off =>
    rw [takesStore_reg, keptByte_of_key (key := regKey p d page off) rfl, placed_reg]
    cases (page == 0 && (grp u g).level == 0)
    · rw [if_neg (by simp), Bool.not_false, if_pos rfl]
      exact near_bufLines at_ va hl hi k
    · rw [if_pos (by simp), Bool.not_true, if_neg Bool.false_ne_true, Option.none_or]
  | remote m a =>
    rw [show takesStore u g (.remote m a) = true from rfl, if_pos rfl, keptByte_of_key (key := farKey (grp u g).part m a) rfl]
    exact dirty ..

theorem pad_placed (at_ g va : Nat) (x : Loc) (l : List Byte) {u : State} (hu : u.Canonical) (i off : Nat) :
    cellGet (team (placed at_ g va x l u) i).pad off = (padByte x l i off).getD (cellGet (team u i).pad off) := by
  have dirty : ∀ key n, cellGet (team (bufLines at_ g va key l (markDirty n va u)) i).pad off = cellGet (team u i).pad off := by
    intro key n
    rw [team, (bufLines_frame ..).2, (markDirty_frame ..).2]
    rfl
  cases x with
  | cell key => exact dirty ..
  | pad t o =>
    simp only [placed, padWrite, padByte, team_modTeam]
    split
    · rename_i e
      rw [e, cellGet_write (hu.pad t)]
    · rfl
  | reg p d page o =>
    rw [placed_reg]
    split
    · rfl
    · rw [team, (bufLines_frame ..).2]
      rfl
  | remote m a => exact dirty ..

theorem placed_canonical (at_ g va : Nat) (x : Loc) (l : List Byte) {u : State} (hu : u.Canonical) : (placed at_ g va x l u).Canonical := by
  have mem : (placed at_ g va x l u).mem = u.mem := by rw [(placed_frame at_ g va x l u).1]
  have dirty : ∀ key n, (bufLines at_ g va key l (markDirty n va u)).teams = u.teams := fun key n =>
    (bufLines_frame ..).2.trans (markDirty_frame ..).2
  cases x with
  | cell key => exact hu.same mem (dirty ..)
  | pad t o => exact hu.padWrite t o l
  | reg p d page o =>
    refine hu.same mem ?_
    rw [placed_reg]
    split
    · rfl
    · exact (bufLines_frame ..).2
  | remote m a => exact hu.same mem (dirty ..)

/-! ### A store, begun and placed -/

theorem storeFrom_frame (at_ g va : Nat) (h : Hit) (l : List Byte) (s : State) : StoreFrame s (storeFrom at_ g va h l s) := by
  rw [storeFrom_eq]
  exact (storeBegun_frame g va s).1.trans (placed_frame ..)

theorem takesStore_congr {s t : State} {g : Nat} (h : (grp t g).level = (grp s g).level) (x : Loc) : takesStore t g x = takesStore s g x := by
  unfold takesStore
  rw [h]

/-- A store of at most a line's length: every group of the core reads it near it, where the place takes it (R127, R128, R401). -/
theorem near_storeFrom (at_ va : Nat) {g : Nat} (h : Hit) {l : List Byte} {s : State} (hl : l.length ≤ 128) {i : Nat}
    (hi : (grp s i).core = (grp s g).core) (k : Nat) :
    near (storeFrom at_ g va h l s) i k
      = (if takesStore s g h.loc then keptByte (grp s g).part h.loc l k else none).or (near s i k) := by
  have hf := (storeBegun_frame g va s).1.2.fields
  obtain ⟨hcore, -, -, hpart, hlevel⟩ := hf g
  rw [storeFrom_eq, near_placed at_ va h.loc hl (by rw [(hf i).1, hcore, hi]), near_storeBegun, takesStore_congr hlevel, hpart]

theorem storeBegun_canonical (g va : Nat) {s : State} (hs : s.Canonical) : (storeBegun g va s).Canonical :=
  hs.same (by rw [(storeBegun_frame g va s).1.1]) (storeBegun_frame g va s).2

/-- Scratchpads after a store (R124). -/
theorem pad_storeFrom (at_ g va : Nat) (h : Hit) (l : List Byte) {s : State} (hs : s.Canonical) (i off : Nat) :
    cellGet (team (storeFrom at_ g va h l s) i).pad off = (padByte h.loc l i off).getD (cellGet (team s i).pad off) := by
  rw [storeFrom_eq, pad_placed _ _ _ _ _ (storeBegun_canonical g va hs), team, (storeBegun_frame g va s).2]
  rfl
theorem storeFrom_canonical (at_ g va : Nat) (h : Hit) (l : List Byte) {s : State} (hs : s.Canonical) :
    (storeFrom at_ g va h l s).Canonical := by
  rw [storeFrom_eq]
  exact placed_canonical _ _ _ _ _ (storeBegun_canonical g va hs)

/-! ### Stores one after another -/

/-- The bytes of a place follow each other in its line: those of another module's run to the end of its addresses. -/
def Straight (p : Nat) (x : Loc) (n : Nat) : Prop := ∀ i, i < n → memKey p (x.plus i) = (memKey p x).map (fun key => key + i)

theorem range_find_row {l : List Byte} {key k : Nat} {q : Nat → Bool} (hq : ∀ i, i < l.length → (q i = true ↔ key + i = k)) (o : Option Byte) :
    (match (List.range l.length).find? q with
      | some i => l[i]?
      | none => o) = (rowByte l key k).or o := by
  by_cases h : key ≤ k ∧ k < key + l.length
  · have hf : (List.range l.length).find? q = some (k - key) := by
      rw [List.find?_range_eq_some]
      refine ⟨(hq _ (by omega)).mpr (by omega), List.mem_range.mpr (by omega), fun j hj => ?_⟩
      have := mt (hq j (by omega)).mp (by omega)
      simpa using this
    have hb : l[k - key]? = some l[k - key] := List.getElem?_eq_getElem (by omega)
    rw [hf, rowByte, if_pos h.1, hb]
    exact hb
  · have hf : (List.range l.length).find? q = none := by
      rw [List.find?_range_eq_none]
      intro i hi
      have := mt (hq i hi).mp (by omega)
      simpa using this
    rw [hf, rowByte_eq_none (by omega), Option.none_or]
theorem range_find_none {l : List Byte} {q : Nat → Bool} (hq : ∀ i, i < l.length → q i = false) (o : Option Byte) :
    (match (List.range l.length).find? q with
      | some i => l[i]?
      | none => o) = o := by
  rw [List.find?_range_eq_none.mpr (fun i hi => by simp [hq i hi])]

theorem foldl_or {α β : Type} (f : α → Option β) (l : List α) (o : Option β) :
    l.foldl (fun o q => (f q).or o) o = (l.foldl (fun o q => (f q).or o) none).or o := by
  induction l generalizing o with
  | nil => rfl
  | cons q l ih => rw [List.foldl_cons, List.foldl_cons, ih, ih ((f q).or none), Option.or_assoc, Option.or_none]

/-- Folds by functions that agree on a list's members. -/
theorem foldl_ext_mem {α β : Type} {f g : β → α → β} {l : List α} (h : ∀ b, ∀ x ∈ l, f b x = g b x) (b : β) : l.foldl f b = l.foldl g b := by
  induction l generalizing b with
  | nil => rfl
  | cons x l ih =>
    rw [List.foldl_cons, List.foldl_cons, h b x List.mem_cons_self]
    exact ih (fun b y hy => h b y (List.mem_cons_of_mem x hy)) (g b x)

theorem lastKept_eq (p : Nat) (l : List (Nat × Hit × List Byte)) (h : ∀ q ∈ l, Straight p q.2.1.loc q.2.2.length) (k : Nat) :
    lastKept p l k = l.foldl (fun o q => (keptByte p q.2.1.loc q.2.2 k).or o) none := by
  unfold lastKept
  refine foldl_ext_mem (fun o q hq => ?_) none
  have hs := h q hq
  unfold keptByte
  cases hk : memKey p q.2.1.loc with
  | none => exact range_find_none (fun i hi => by simp [hs i hi, hk]) o
  | some key => exact range_find_row (fun i hi => by simp [hs i hi, hk]) o
theorem lastStored_eq (l : List (Nat × Hit × List Byte)) (i off : Nat) :
    lastStored l (.pad i off) = l.foldl (fun o q => (padByte q.2.1.loc q.2.2 i off).or o) none := by
  unfold lastStored
  refine foldl_ext_mem (fun o q hq => ?_) none
  cases hx : q.2.1.loc with
  | cell key => exact range_find_none (fun _ _ => by simp [Loc.plus]) o
  | reg p d page x => exact range_find_none (fun _ _ => by simp [Loc.plus]) o
  | remote m a => exact range_find_none (fun _ _ => by simp [Loc.plus]) o
  | pad t x =>
    unfold padByte
    by_cases e : i = t
    · simp only [e, if_true]
      exact range_find_row (fun j _ => by simp [Loc.plus]) o
    · simp only [e, if_false]
      exact range_find_none (fun j _ => by simp [Loc.plus, Ne.symm e]) o

theorem storeAll_frame (g : Nat) (l : List (Nat × Hit × List Byte)) (s : State) : StoreFrame s (storeAll g l s) :=
  StoreFrame.foldl (fun s (q : Nat × Hit × List Byte) => storeAt g q.1 q.2.1 q.2.2 s) (fun s q => storeFrom_frame s.time g q.1 q.2.1 q.2.2 s) l s

/-- Stores of at most a line's length each: what the groups of the core read near them. -/
theorem near_storeAll {g : Nat} {l : List (Nat × Hit × List Byte)} (hl : ∀ q ∈ l, q.2.2.length ≤ 128) {i : Nat} (s : State)
    (hi : (grp s i).core = (grp s g).core) (k : Nat) :
    near (storeAll g l s) i k
      = ((l.filter (fun q => takesStore s g q.2.1.loc)).foldl (fun o q => (keptByte (grp s g).part q.2.1.loc q.2.2 k).or o) none).or (near s i k) := by
  induction l generalizing s with
  | nil => rfl
  | cons q l ih =>
    have hf := (storeFrom_frame s.time g q.1 q.2.1 q.2.2 s).2.fields
    obtain ⟨hcore, -, -, hpart, hlevel⟩ := hf g
    have step := ih (fun r hr => hl r (by simp [hr])) (storeFrom s.time g q.1 q.2.1 q.2.2 s) (by rw [(hf i).1, hcore, hi])
    rw [near_storeFrom _ _ _ (hl q (by simp)) hi, hpart] at step
    simp only [takesStore_congr hlevel] at step
    refine Eq.trans step ?_
    rw [List.filter_cons]
    split
    · rw [List.foldl_cons, foldl_or _ _ ((keptByte _ _ _ _).or none), Option.or_none, Option.or_assoc]
    · rw [Option.none_or]

theorem pad_storeAll (g : Nat) (l : List (Nat × Hit × List Byte)) {s : State} (hs : s.Canonical) (i off : Nat) :
    cellGet (team (storeAll g l s) i).pad off = (lastStored l (.pad i off)).getD (cellGet (team s i).pad off) := by
  rw [lastStored_eq]
  induction l generalizing s with
  | nil => rfl
  | cons q l ih =>
    have step := ih (storeFrom_canonical s.time g q.1 q.2.1 q.2.2 hs)
    rw [pad_storeFrom _ _ _ _ _ hs] at step
    refine Eq.trans step ?_
    rw [List.foldl_cons, foldl_or _ _ ((padByte _ _ _ _).or none), Option.or_none, Option.getD_or]

/-- Stores leave a group as `Stored` says (R127, R128). -/
theorem storeAll_stored {g : Nat} {l : List (Nat × Hit × List Byte)} {s : State} (hs : s.Canonical)
    (hl : ∀ q ∈ l, q.2.2.length ≤ 128 ∧ Straight (grp s g).part q.2.1.loc q.2.2.length) : Stored g l s (storeAll g l s) := by
  refine ⟨fun i hi k => ?_, pad_storeAll g l hs, by rw [(storeAll_frame g l s).1]⟩
  rw [near_storeAll (fun q hq => (hl q hq).1) s hi, Option.orElse_eq_or, lastKept_eq _ _ (fun q hq => (hl q (List.mem_filter.mp hq).1).2)]

end Sys2Proof.Machine
end

section
/-!
PROOF. Where a store lands (R85 to R92): the bytes of a place that an access is permitted follow each other in a line.
-/
namespace Sys2Proof.Machine

/-! ### Addresses of another module -/

/-- A place of another module has no host tier: its addresses stay below the end of their range (R90, R91). -/
def Loc.inModule (x : Loc) : Prop := ∀ m a, x = .remote m a → nbits a 43 42 ≠ 3

theorem Loc.inModule_cell (k : Nat) : (Loc.cell k).inModule := fun _ _ h => nomatch h
theorem Loc.inModule_pad (t o : Nat) : (Loc.pad t o).inModule := fun _ _ h => nomatch h

theorem Loc.inModule.straight {x : Loc} (h : x.inModule) (p : Nat) {n : Nat} (hn : n ≤ 2 ^ 42) : Straight p x n := by
  intro i hi
  cases x with
  | cell k => rfl
  | pad t o => rfl
  | reg q d page o =>
    simp only [Loc.plus, memKey, Option.map_some, regKey, cellKey, Nat.add_assoc]
  | remote m a =>
    have ha := h m a rfl
    simp only [nbits] at ha
    simp only [Loc.plus, memKey, Option.map_some, farKey]
    congr 1
    omega

/-- A leaf that names another module names no host tier there (R90). -/
theorem leafBad_remote {e : DWord} {lvl : Nat} {acc : Acc} (h : leafBad e lvl acc = none) (big : Bool) (va : Nat)
    (hr : nbits (leafGpa e big va) 55 55 = 1) : nbits (leafGpa e big va) 43 42 ≠ 3 := by
  have bits43 : nbits (leafGpa e big va) 43 42 = nbits (bits e 55 8 * 256) 43 42 := by
    unfold leafGpa nbits
    dsimp only
    split <;> omega
  have bit55 : nbits (leafGpa e big va) 55 55 = nbits (bits e 55 8 * 256) 55 55 := by
    unfold leafGpa nbits
    dsimp only
    split <;> omega
  rw [bits43]
  rw [bit55] at hr
  intro h3
  unfold leafBad at h
  split at h
  · cases h
  · split at h
    · cases h
    · split at h
      · cases h
      · split at h
        · cases h
        · rw [if_pos (by simp [hr, h3])] at h
          cases h

theorem walkLevel_leaf {s : State} {p d va table lvl : Nat} {acc : Acc} {e : DWord}
    (h : walkLevel s p d va acc table lvl = .ok (.inl e)) : leafBad e lvl acc = none := by
  unfold walkLevel at h
  split at h
  · cases h
  · dsimp only at h
    split at h
    · cases h
    · split at h
      · split at h
        · cases h
        · rename_i hb
          cases h
          exact hb
      · split at h
        · cases h
        · generalize (if lvl = 1 then 256 else 4096) = n at h
          split at h
          · cases h
          · split at h <;> cases h
theorem walk_leaf {s : State} {p d va : Nat} {acc : Acc} {n table : Nat} {e : DWord} {big : Bool}
    (h : walk s p d va acc table n = .ok (e, big)) : ∃ lvl, leafBad e lvl acc = none := by
  induction n generalizing table with
  | zero => cases h
  | succ n ih =>
    unfold walk at h
    split at h
    · cases h
    · rename_i hl
      cases h
      exact ⟨n, walkLevel_leaf hl⟩
    · exact ih h
theorem leafOf_leaf {s : State} {p c va : Nat} {acc : Acc} {e : DWord} {big : Bool} (h : leafOf s p c va acc = .ok (e, big)) :
    ∃ lvl, leafBad e lvl acc = none := by
  unfold leafOf at h
  split at h
  · cases h
  · split at h
    · split at h
      · cases h
      · rename_i hb
        cases h
        exact ⟨_, hb⟩
    · exact walk_leaf h

theorem gpaLoc_remote {s : State} {p gpa : Nat} {w : Bool} {h : Hit} (hg : gpaLoc s p gpa w = .ok h) {m a : Nat} (hm : h.loc = .remote m a) :
    a = gpa ∧ nbits gpa 55 55 = 1 := by
  unfold gpaLoc at hg
  dsimp only at hg
  split at hg
  · rename_i h55
    cases hg
    cases hm
    exact ⟨rfl, h55⟩
  · split at hg
    · split at hg
      · cases hg
      · cases hg
        cases hm
    · split at hg
      · cases hg
      · split at hg
        · cases hg
        · split at hg
          · cases hg
          · split at hg
            · cases hg
            · cases hg
              cases hm
            · split at hg
              · cases hg
                cases hm
              · split at hg
                · cases hg
                  cases hm
                · cases hg

theorem vaultHit_inModule {s : State} {p a n ea : Nat} {h : Hit} (hv : vaultHit s p a n ea = .ok h) : h.loc.inModule := by
  unfold vaultHit at hv
  dsimp only at hv
  split at hv
  · cases hv
  · split at hv
    · cases hv
    · split at hv
      · cases hv
      · cases hv
        exact Loc.inModule_cell _

theorem gpaLoc_inModule {s : State} {p gpa c va : Nat} {acc : Acc} {w : Bool} {e : DWord} {big : Bool} {h : Hit}
    (hl : leafOf s p c va acc = .ok (e, big)) (hg : gpaLoc s p (leafGpa e big gpa) w = .ok h) : h.loc.inModule := by
  intro m a hm
  obtain ⟨rfl, h55⟩ := gpaLoc_remote hg hm
  obtain ⟨lvl, hb⟩ := leafOf_leaf hl
  exact leafBad_remote hb big gpa h55

theorem translate_inModule {s : State} {p c va n : Nat} {acc : Acc} {h : Hit} (ht : translate s p c va n acc = .ok h) : h.loc.inModule := by
  unfold translate at ht
  split at ht
  · exact vaultHit_inModule ht
  · split at ht
    · cases ht
    · rename_i hl
      split at ht
      · cases ht
      · rename_i hg
        split at ht
        · cases ht
        · cases ht
          exact (gpaLoc_inModule hl hg : Loc.inModule _)

theorem privateByte_inModule {s : State} {g l off : Nat} {acc : Acc} {h : Hit} (hp : privateByte s g l off acc = .ok h) : h.loc.inModule := by
  unfold privateByte at hp
  dsimp only at hp
  split at hp
  · exact vaultHit_inModule hp
  · split at hp
    · cases hp
    · rename_i hl
      split at hp
      · cases hp
      · rename_i hg
        cases hp
        exact (gpaLoc_inModule hl hg : Loc.inModule _)

theorem padHit_inModule {s : State} {t a n : Nat} {h : Hit} (hp : padHit s t a n = .ok h) : h.loc.inModule := by
  unfold padHit at hp
  dsimp only at hp
  split at hp
  · cases hp
  · split at hp
    · cases hp
    · split at hp
      · cases hp
      · cases hp
        exact Loc.inModule_pad _ _

/-- One word more of an access of space 0 (R85). -/
def privateStep (s : State) (g l off : Nat) (acc : Acc) (r : Except Fail Hit) (i : Nat) : Except Fail Hit :=
  match privateByte s g l (off + 4 * i) acc with
  | .error e => .error e
  | .ok h => match r with
    | .error e => .error e
    | .ok _ => .ok h

theorem privateHit_eq (s : State) (g l off n : Nat) (acc : Acc) :
    privateHit s g l off n acc
      = if (npb s (grp s g).part = 0 || !(launch s (team s (grp s g).team).launch).record.priv) = true then .error ⟨8, 7, off⟩
        else if 2 ^ pls s (grp s g).part < off + n then .error ⟨8, 6, off⟩
        else (List.range ((n + 3) / 4)).reverse.foldl (privateStep s g l off acc) (.ok { loc := .cell 0 }) := rfl

theorem privateStep_ok {s : State} {g l off i : Nat} {acc : Acc} {r : Except Fail Hit} {h : Hit} (hs : privateStep s g l off acc r i = .ok h) :
    (∃ q, r = .ok q) ∧ privateByte s g l (off + 4 * i) acc = .ok h := by
  unfold privateStep at hs
  split at hs
  · cases hs
  · rename_i hb
    split at hs
    · cases hs
    · cases hs
      exact ⟨⟨_, rfl⟩, hb⟩
theorem foldl_privateStep_ok {s : State} {g l off : Nat} {acc : Acc} {is : List Nat} {r : Except Fail Hit} {h : Hit}
    (hs : is.foldl (privateStep s g l off acc) r = .ok h) : (∃ q, r = .ok q) ∧ ∀ i ∈ is, ∃ q, privateByte s g l (off + 4 * i) acc = .ok q := by
  induction is generalizing r with
  | nil => exact ⟨⟨h, hs⟩, by simp⟩
  | cons i is ih =>
    obtain ⟨⟨q, hq⟩, his⟩ := ih hs
    obtain ⟨hr, hi⟩ := privateStep_ok hq
    exact ⟨hr, List.forall_mem_cons.mpr ⟨⟨q, hi⟩, his⟩⟩

/-- The words of an access of space 0 that is permitted all translate (R85, R451). -/
theorem privateHit_words {s : State} {g l off n : Nat} {acc : Acc} {h : Hit} (hp : privateHit s g l off n acc = .ok h) {i : Nat}
    (hi : i < (n + 3) / 4) : ∃ q, privateByte s g l (off + 4 * i) acc = .ok q := by
  rw [privateHit_eq] at hp
  split at hp
  · cases hp
  · split at hp
    · cases hp
    · exact (foldl_privateStep_ok hp).2 i (by simpa using hi)

/-! ### The runs of an access -/

/-- What step 7 of R439 translates an access to, by its space. -/
def accessHit (s : State) (g l space ea n : Nat) (acc : Acc) : Except Fail Hit :=
  match space with
  | 0 => privateHit s g l ea n acc
  | 1 => padHit s (grp s g).team ea n
  | 2 => vaultHit s (grp s g).part ea n ea
  | _ => translate s (grp s g).part (grp s g).core ea n acc

/-- An access that is permitted lands where it translates to. -/
theorem accessHit_of_access {s : State} {g l space ea n : Nat} {acc : Acc} {h : Hit} (ha : access s g l space ea n acc = .ok h) :
    accessHit s g l space ea n acc = .ok h := by
  unfold access at ha
  dsimp only at ha
  split at ha
  · cases ha
  · rename_i h' hr
    have same : h' = h := by
      clear hr
      split at ha
      · cases ha
      · cases ha
      · split at ha
        · cases ha
        · split at ha
          · split at ha
            · cases ha
            · exact Except.ok.inj ha
          · split at ha
            · cases ha
            · exact Except.ok.inj ha
          · split at ha
            · split at ha
              · cases ha
              · exact Except.ok.inj ha
            · split at ha
              · cases ha
              · exact Except.ok.inj ha
            · exact Except.ok.inj ha
          · exact Except.ok.inj ha
    subst same
    split at hr
    · cases hr
    · exact hr

/-- The places of a permitted access lie in this module, or below the end of another's addresses (R85). -/
theorem reach_inModule {s : State} {g l space ea n : Nat} {acc : Acc} {h : Hit} (ha : access s g l space ea n acc = .ok h) {r : Reach}
    (hr : r ∈ reach s g l space ea n acc h) : r.loc.inModule := by
  have ht := accessHit_of_access ha
  unfold reach at hr
  split at hr
  · obtain ⟨i, hi, rfl⟩ := List.mem_map.mp hr
    obtain ⟨q, hq⟩ := privateHit_words ht (List.mem_range.mp hi)
    rw [hq]
    exact privateByte_inModule hq
  · obtain rfl := List.mem_singleton.mp hr
    exact vaultHit_inModule ht
  · obtain rfl := List.mem_singleton.mp hr
    unfold accessHit at ht
    split at ht
    · contradiction
    · exact padHit_inModule ht
    · contradiction
    · exact translate_inModule ht

end Sys2Proof.Machine
end

section
/-!
PROOF. A vector word under a bound destination (R214, R215): the stores that it makes, and with `vecRun_effect` that every vector word
completes.
-/
namespace Sys2Proof.Machine

/-! ### The stores of a bound destination -/

/-- Every place of a bound destination is one that a permitted access of its lane reaches. -/
theorem streamDst_inModule {s : State} {wa wb wd : Nat} {d : Dst} (h : d ∈ streamDst s wa wb wd) : d.run.loc.inModule := by
  simp only [streamDst, List.mem_flatMap, List.mem_filter] at h
  obtain ⟨q, ⟨hq, hw⟩, r, hr, hd⟩ := h
  obtain ⟨u, -, rfl⟩ := List.mem_map.mp hq
  obtain ⟨l, -, rfl⟩ := List.mem_map.mp hr
  dsimp only at hw hd
  simp only [hw, Bool.not_true, Bool.false_and, Bool.false_eq_true, if_false, if_true] at hd
  split at hd
  · rename_i hit ha
    obtain ⟨i, hi, rfl⟩ := List.mem_mapIdx.mp hd
    refine reach_inModule ha (r := (useReach s u l hit)[i]) ?_
    have := List.getElem_mem hi
    simpa only [useReach, hw, if_true] using this
  · cases hd

theorem outBytes_length (wd : Nat) (o : LaneOut) : (outBytes wd o).length = wd / 8 := by simp [outBytes, leBytes]
theorem Dst.bytes_length_le (d : Dst) (l : List Byte) : (d.bytes l).length ≤ l.length := by
  simp only [Dst.bytes, List.length_take, List.length_drop]
  omega

theorem mem_boundStores {s : State} {wa wb wd : Nat} {out : Nat → LaneOut} {b : BoundStore} (h : b ∈ boundStores wa wb wd out s) :
    ∃ d ∈ streamDst s wa wb wd, b = ⟨d.lane, d.run.va, d.run.loc, d.bytes (outBytes wd (out d.lane))⟩ := by
  obtain ⟨d, hd, hb⟩ := List.mem_filterMap.mp h
  split at hb
  · exact ⟨d, hd, (Option.some.inj hb).symm⟩
  · cases hb

/-- The stores of operands of at most a line's length are such as `storeAll_stored` asks. -/
theorem asStores_fit {s : State} {wa wb wd : Nat} {out : Nat → LaneOut} (hwd : wd ≤ 1024) (p : Nat) :
    ∀ q ∈ asStores (boundStores wa wb wd out s), q.2.2.length ≤ 128 ∧ Straight p q.2.1.loc q.2.2.length := by
  intro q hq
  obtain ⟨b, hb, rfl⟩ := List.mem_map.mp hq
  obtain ⟨d, hd, rfl⟩ := mem_boundStores hb
  have hlen : (d.bytes (outBytes wd (out d.lane))).length ≤ 128 := by
    have := d.bytes_length_le (outBytes wd (out d.lane))
    rw [outBytes_length] at this
    omega
  exact ⟨hlen, (streamDst_inModule hd).straight p (Nat.le_trans hlen (by decide))⟩

theorem find_laneOuts (m : Mask) (f : Nat → LaneOut) (l : Nat) :
    (laneOuts m f).find? (fun q => q.1 == l) = if m.getLsbD l = true then some (l, f l) else none := by
  unfold laneOuts
  rw [List.find?_map]
  have same : ((fun q : Nat × LaneOut => q.1 == l) ∘ fun l => (l, f l)) = fun i => i == l := rfl
  rw [same]
  split
  · rename_i h
    have hmem := (Mask.mem_toList m l).mpr h
    cases hf : (Mask.toList m).find? (fun i => i == l) with
    | none => exact absurd (List.find?_eq_none.mp hf l hmem) (by simp)
    | some i =>
      obtain rfl : i = l := by simpa using List.find?_some hf
      rfl
  · rename_i h
    rw [List.find?_eq_none.mpr, Option.map_none]
    intro i hi
    have : i ≠ l := by
      rintro rfl
      exact h ((Mask.mem_toList m i).mp hi)
    simpa using this

/-- A word under a bound destination makes the stores that `boundStores` lists. -/
theorem storeOuts_eq (g wa wb wd : Nat) (out : Nat → LaneOut) (s u : State) :
    storeOuts g wd (laneOuts (active s) out) (streamDst s wa wb wd) u = storeAll g (asStores (boundStores wa wb wd out s)) u := by
  unfold storeOuts boundStores
  generalize streamDst s wa wb wd = dst
  induction dst generalizing u with
  | nil => rfl
  | cons d dst ih =>
    rw [List.foldl_cons, ih, find_laneOuts, List.filterMap_cons]
    by_cases ha : (active s).getLsbD d.lane = true
    · simp only [if_pos ha]
      rfl
    · simp only [if_neg ha]

/-! ### A vector word -/

/-- A vector word of fixed latency that nothing stops: its results are written, its bound destination stored, its lanes move on. -/
theorem vecRun_eq {i : Instr} {wa wb wd : Nat} {f : Src → Nat → LaneOut} {s : State} (h : ready i [] (active s) s = true)
    (hs : streamsOk wa wb wd s = true) :
    vecRun i wa wb wd false f s
      = done (storeAll s.cur.gid (asStores (boundStores wa wb wd (f (streamSrc s wa wb wd)) s))
          (outsWritten i (f (streamSrc s wa wb wd)) s (advanceStreams s.cur (fetchStreams wa wb wd s)))) := by
  have hcur : (advanceStreams s.cur (fetchStreams wa wb wd s)).cur = s.cur := by
    rw [(Local.advanceStreams s.cur _).cur, (fetchStreams_fetched wa wb wd s).1]
  unfold vecRun
  rw [judge_ready h, withStreams_ok hs]
  simp only [Bool.false_eq_true, if_false, hcur]
  rw [← storeOuts_eq]
  simp only [outsWritten, laneOuts, List.map_map]
  rfl

/-- Results written after the streams have advanced, then stores, then the lanes' move: what `BoundEffect` says of it. -/
theorem stores_effect (i : Instr) (out : Nat → LaneOut) {l : List (Nat × Hit × List Byte)} {s t : State} (hs : s.Canonical)
    (hl : ∀ p, ∀ q ∈ l, q.2.2.length ≤ 128 ∧ Straight p q.2.1.loc q.2.2.length)
    (ht : t = done (storeAll s.cur.gid l (outsWritten i out s (advanceStreams s.cur s)))) :
    let g := s.cur.gid
    Stored g l s t ∧ (∀ h, h ≠ g → KeepsV h s t ∧ KeepsP h s t ∧ KeepsK h [] s t) ∧ KeepsK g [] s t
      ∧ MovesOn s.cur s t ∧ t.tokens = s.tokens
      ∧ (∀ n, { (grp t g).x.get {} n with ahead := [] } = ({ (grp (advanceStreams s.cur s) g).x.get {} n with ahead := [] } : Stream))
      ∧ ((∀ l, ∀ q ∈ (received i out s l).v, q.1 < 256) →
          ∀ l n, l < 32 → n < 256 → vGet t g l n = lastOf n (vGet s g l n) (received i out s l).v)
      ∧ ∀ l n, l < 32 → 0 < n → pGet t g l n = lastOf n (pGet s g l n) (received i out s l).p := by
  intro g
  have hA : OnlyStreams g s (advanceStreams s.cur s) := OnlyStreams.advanceStreams ..
  have hLA : Local g s (advanceStreams s.cur s) := Local.advanceStreams ..
  have hO : OnlyOuts g (advanceStreams s.cur s) (outsWritten i out s (advanceStreams s.cur s)) := OnlyOuts.outsWritten ..
  have hLu : Local g s (outsWritten i out s (advanceStreams s.cur s)) := hLA.trans (Local.outsWritten ..)
  have vv := vGet_outsWritten i out s (advanceStreams s.cur s)
  have pp := pGet_outsWritten i out s (advanceStreams s.cur s)
  generalize advanceStreams s.cur s = a at *
  generalize outsWritten i out s a = u at *
  have hu : u.Canonical := hs.same (by rw [hLu.1.1]) (by rw [hLu.1.1])
  obtain ⟨hkept, hpad, hmem⟩ := storeAll_stored hu (fun q hq => hl (grp u g).part q hq)
  obtain ⟨hshape, hregs, hstreams⟩ := storeAll_frame g l u
  generalize storeAll g l u = w at *
  have hcur : w.cur = s.cur := by rw [hshape]; exact hLu.cur
  have htime : w.time = s.time := by rw [hshape]; exact (by rw [hLu.1.1] : u.time = s.time)
  have gw : grp w g = { grp s g with x := (grp w g).x, largestWd := (grp w g).largestWd, largestC := (grp a g).largestC,
                                     v := (grp u g).v, p := (grp u g).p } := by
    rw [hregs g, hO, hA]
  have hM : OnlyMoves g w t := by
    have := OnlyMoves.done w
    rwa [hcur, ← ht] at this
  have hLt : Local g w t := by
    have := Local.done w
    rwa [hcur, ← ht] at this
  obtain ⟨hcore, -, -, hpart, hlevel⟩ := hLu.fields g
  refine ⟨⟨fun j hj k => ?_, fun j off => ?_, ?_⟩, fun j hj => ?_, ht ▸ KeepsK.done hcur (fun n _ => kGet_of_k (by rw [gw]) n) (by rw [gw]),
    ht ▸ MovesOn.done hcur htime (by rw [gw]), ?_, fun n => ?_, fun hr j n _ hn => ?_, fun j n hj hn => ?_⟩
  · have h := hkept j (by rw [(hLu.fields j).1, hcore, hj]) k
    simp only [hpart, takesStore_congr hlevel, near_of_local hLu] at h
    exact (near_of_local hLt j k).trans h
  · have pads : ∀ {x y : State}, Local g x y → team y j = team x j := fun h => by rw [team, h.1.1]; rfl
    rw [pads hLt, hpad, pads hLu]
  · rw [hLt.1.1]
    exact hmem.trans (by rw [hLu.1.1])
  · have gj : grp t j = { grp s j with x := (grp w j).x, largestWd := (grp w j).largestWd } := by
      rw [hLt.1.2.1 j hj, hregs j, hLu.1.2.1 j hj]
    refine ⟨fun m n => ?_, fun m n => ?_, fun n _ _ => ?_⟩
    · rw [vGet, gj]
      rfl
    · rw [pGet, gj]
      rfl
    · rw [kGet, gj]
      rfl
  · rw [hLt.1.1, hshape, hLu.1.1]
  · rw [hM.x, hstreams g n, hO]
  · rw [hM.keepsV j n, vGet, gw]
    refine (vv hr j n hn).trans ?_
    rw [vGet, hA]
    rfl
  · rw [hM.keepsP j n, pGet, gw]
    refine (pp j n hj hn).trans ?_
    rw [pGet, hA]
    rfl

/-- Lines that come to the core change nothing that a lane receives. -/
theorem outsWritten_fetchStreams (i : Instr) (wa wb wd : Nat) (out : Nat → LaneOut) (s : State) :
    outsWritten i out (fetchStreams wa wb wd s) = outsWritten i out s := by
  obtain ⟨f1, -, f3⟩ := fetchStreams_fetched wa wb wd s
  have fc : (fetchStreams wa wb wd s).cur = s.cur := by rw [f1]
  have fa : active (fetchStreams wa wb wd s) = active s := active_of_pred fc (fun l n => by unfold pGet; rw [f3])
  funext t
  simp only [outsWritten, zeroLanes, fc, fa]

/-- A vector word that nothing stops and whose results a stream takes has the effect that `BoundEffect` describes (R207, R214). -/
theorem vecRun_bound {i : Instr} {wa wb wd : Nat} {f : Src → Nat → LaneOut} {s : State} (h : ready i [] (active s) s = true)
    (hs : streamsOk wa wb wd s = true) (hwd : wd ≤ 1024) (hc : s.Canonical) :
    BoundEffect wa wb wd i (f (streamSrc s wa wb wd)) s (fetchStreams wa wb wd s) (vecRun i wa wb wd false f s) := by
  have fetched := (fetchStreams_fetched wa wb wd s).1
  have fc : (fetchStreams wa wb wd s).cur = s.cur := by rw [fetched]
  have canon : (fetchStreams wa wb wd s).Canonical := hc.same (by rw [fetched]) (by rw [fetched])
  have run := vecRun_eq (f := f) h hs
  rw [← outsWritten_fetchStreams i wa wb wd, ← fc] at run
  exact stores_effect i _ canon (fun p => asStores_fit hwd p) run

/-- A word that `vecRun` runs, its results of at most a line's length, completes as `VecDone` says. -/
theorem vecDone_of_vecRun {i : Instr} {wa wb wd : Nat} {f : Src → Nat → LaneOut}
    (he : ∀ s, exec i s = .next (vecRun i wa wb wd false f s)) (hwd : wd ≤ 1024) : VecDone i wa wb wd f :=
  fun s h hs => ⟨fun hd => ⟨_, he s, vecRun_effect h hs hd⟩, fun _ hc => ⟨_, he s, vecRun_bound h hs hwd hc⟩⟩

end Sys2Proof.Machine
end

section
/-!
PROOF. Compare, select and the predicate file (R242 to R244, R248): the vector words by `vecDone_of_vecRun`, and a uniform compare as one
write of a predicate in each issuing lane.
-/
namespace Sys2Proof.Machine

/-! ### One predicate of several lanes -/

/-- A predicate of lanes of a group takes a value each. -/
def predPut (g d : Nat) (val : Nat → Bool) (ls : List Nat) (s : State) : State := ls.foldl (fun t l => pPut g l d (val l) t) s

theorem pGet_predPut (g d : Nat) (val : Nat → Bool) {ls : List Nat} (nd : ls.Nodup) (s : State) {l n : Nat} (hl : l < 32) (hn : 0 < n) :
    pGet (predPut g d val ls s) g l n = if n = d ∧ l ∈ ls then val l else pGet s g l n := by
  unfold predPut
  induction ls generalizing s with
  | nil => simp
  | cons i ls ih =>
    obtain ⟨hi, nd⟩ := List.nodup_cons.mp nd
    rw [List.foldl_cons, ih nd, pGet_pPut _ _ _ _ _ _ _ _ hl]
    by_cases hd : n = d
    · have h0 : d ≠ 0 := by omega
      by_cases e : l = i
      · subst e
        simp [hd, hi, h0]
      · simp [hd, e]
    · simp [hd]
theorem KeepsV.predPut (g d : Nat) (val : Nat → Bool) (ls : List Nat) (s : State) : KeepsV g s (predPut g d val ls s) := by
  unfold Machine.predPut
  induction ls generalizing s with
  | nil => exact .refl g s
  | cons i ls ih => exact KeepsV.trans (fun l n => vGet_pPut g i d g l n (val i) s) (ih (pPut g i d (val i) s))
theorem Local.predPut (g d : Nat) (val : Nat → Bool) (ls : List Nat) (s : State) : Local g s (predPut g d val ls s) :=
  Local.foldl _ (fun s l => .pPut g l d (val l) s) ls s
theorem OnlyOuts.predPut (g d : Nat) (val : Nat → Bool) (ls : List Nat) (s : State) : OnlyOuts g s (predPut g d val ls s) :=
  OnlyOuts.foldl _ (fun s l => .pPut g l d (val l) s) ls s

/-- A word that writes one predicate of every issuing lane and moves on (R192, R210, R234, R248). -/
theorem predPut_effect (d : Nat) (val : Nat → Bool) (s : State) :
    PredEffect d val [] s (done (predPut s.cur.gid d val (Mask.toList s.cur.lanes) s)) := by
  have pp := fun l n hl hn => pGet_predPut s.cur.gid d val (Mask.nodup_toList s.cur.lanes) s (l := l) (n := n) hl hn
  have hV := KeepsV.predPut s.cur.gid d val (Mask.toList s.cur.lanes) s
  have hL := Local.predPut s.cur.gid d val (Mask.toList s.cur.lanes) s
  have hO := OnlyOuts.predPut s.cur.gid d val (Mask.toList s.cur.lanes) s
  generalize predPut s.cur.gid d val (Mask.toList s.cur.lanes) s = u at *
  have hcur : u.cur = s.cur := hL.cur
  have htime : u.time = s.time := by rw [hL.1.1]
  have hM : OnlyMoves s.cur.gid u (done u) := by
    have := OnlyMoves.done u
    rwa [hcur] at this
  have hD : Local s.cur.gid u (done u) := by
    have := Local.done u
    rwa [hcur] at this
  refine ⟨(hL.trans hD).1, (hL.trans hD).2, KeepsLanes.done hcur (by rw [hO]) (by rw [hO]), MovesOn.done hcur htime (by rw [hO]),
    hV.trans hM.keepsV, KeepsK.done hcur (fun n _ => kGet_of_k (by rw [hO]) n) (by rw [hO]), hM.x.trans (by rw [hO]), fun l n hl hn => ?_⟩
  rw [hM.keepsP l n, pp l n hl hn]
  simp only [Mask.mem_toList]

/-! ### The words -/

theorem tyBits_le (t : BitVec 5) : tyBits t ≤ 64 := by
  unfold tyBits
  split <;> decide

/-- Settles O14: five words are `vecRun` of what they compute; `usetp` writes the comparison to one predicate of each issuing lane. -/
theorem predicateWords : Obligations.PredicateWords := by
  intro f
  have hw : tyBits f.ty ≤ 1024 := Nat.le_trans (tyBits_le f.ty) (by decide)
  refine ⟨⟨vecDone_of_vecRun (fun _ => rfl) (by decide), vecDone_of_vecRun (fun _ => rfl) hw, fun s h => ⟨_, rfl, ?_⟩⟩, ?_,
    vecDone_of_vecRun (fun _ => rfl) (by decide), vecDone_of_vecRun (fun _ => rfl) (by decide)⟩
  · rw [judge_ready h]
    exact predPut_effect _ _ s
  · refine vecDone_of_vecRun (fun s => ?_) (by decide)
    simp only [← truth_eq]
    rfl

end Sys2Proof.Machine
end

section
/-!
PROOF. Shuffles, broadcast, votes and matches (R275 to R279): the source lane of a shuffle inside its segment, the cross-lane words that
are `vecRun` of what they compute, and the cross-lane words that write a uniform register (`crossUni`).
-/
namespace Sys2Proof.Machine

/-! ### Segments -/

/-- The lane at place `r` of lane `l`'s segment lies in that segment (R276). -/
theorem segment_div {w r : Nat} (l : Nat) (hr : r < w) : (l - l % w + r) / w = l / w := by
  rw [← Nat.mul_div_self_eq_mod_sub_self, Nat.mul_add_div (Nat.zero_lt_of_lt hr), Nat.div_eq_of_lt hr, Nat.add_zero]
theorem segment_mod {w r : Nat} (l : Nat) (hr : r < w) : (l - l % w + r) % w = r := by
  rw [← Nat.mul_div_self_eq_mod_sub_self, Nat.mul_add_mod, Nat.mod_eq_of_lt hr]

/-- Down by `b` and back up by `b` is the place from before. -/
theorem mod_sub_add_mod {w r : Nat} (b : Nat) (hr : r < w) : ((r + w - b % w) % w + b) % w = r := by
  have hb : b % w < w := Nat.mod_lt b (Nat.zero_lt_of_lt hr)
  calc ((r + w - b % w) % w + b) % w
      = (r + w - b % w + b % w) % w := by rw [Nat.mod_add_mod, ← Nat.add_mod_mod]
    _ = (r + w) % w := by rw [Nat.sub_add_cancel (by omega)]
    _ = r := by rw [Nat.add_mod_right, Nat.mod_eq_of_lt hr]

/-! ### The source of a shuffle -/

theorem shflFrom_idx (w : Nat) (wrap : Bool) (l b : Nat) : shflFrom 0 w wrap l b = (l / w * w + b % w, true) := by
  rw [Nat.div_mul_self_eq_mod_sub_self]
  rfl

theorem shflFrom_up_inside {w : Nat} (l b : Nat) (hw : 0 < w) (h32 : w ≤ 32) : (shflFrom 1 w false l b).2 = decide (b ≤ l % w) := by
  have hl : l % w < w := Nat.mod_lt l hw
  have hle : l % w ≤ l := Nat.mod_le l w
  show (decide (b < 32) && decide (l - l % w + b ≤ l)) = _
  rw [← Bool.decide_and]
  exact decide_eq_decide.mpr (by omega)
theorem shflFrom_down_inside {w : Nat} (l : Nat) {b : Nat} (hb : b < 32) : (shflFrom 2 w false l b).2 = decide (l % w + b < w) := by
  have hle : l % w ≤ l := Nat.mod_le l w
  show (decide (b < 32) && decide (l + b < l - l % w + w)) = _
  rw [← Bool.decide_and]
  exact decide_eq_decide.mpr (by omega)

theorem shflFrom_up_wrap {w : Nat} (l b : Nat) (hw : 0 < w) :
    (shflFrom 1 w true l b).1 / w = l / w ∧ ((shflFrom 1 w true l b).1 % w + b) % w = l % w := by
  have place : (l % w + w - b % w) % w < w := Nat.mod_lt _ hw
  refine ⟨segment_div l place, ?_⟩
  exact (congrArg (fun r => (r + b) % w) (segment_mod l place)).trans (mod_sub_add_mod b (Nat.mod_lt l hw))
theorem shflFrom_down_wrap {w : Nat} (l b : Nat) (hw : 0 < w) :
    (shflFrom 2 w true l b).1 / w = l / w ∧ (shflFrom 2 w true l b).1 % w = (l % w + b) % w := by
  have place : (l % w + b % w) % w < w := Nat.mod_lt _ hw
  exact ⟨segment_div l place, (segment_mod l place).trans (Nat.add_mod_mod ..)⟩

/-! ### A uniform register from the participating lanes -/

/-- A cross-lane word's uniform result, written only where some lane participates (R278, R280, R283). -/
def crossPut (d : Nat) (x : DWord) (m : Mask) (s : State) : State := if m = 0 then s else kPut s.cur.gid d x s

theorem kGet_crossPut (d : Nat) (x : DWord) (m : Mask) (s : State) (n : Nat) :
    kGet (crossPut d x m s) s.cur.gid n = if m ≠ 0 ∧ n = d then x else kGet s s.cur.gid n := by
  unfold crossPut
  by_cases h : m = 0
  · simp only [h, if_true, ne_eq, not_true_eq_false, false_and, if_false]
  · simp only [h, if_false, ne_eq, not_false_eq_true, true_and, kGet_kPut]
theorem Local.crossPut (d : Nat) (x : DWord) (m : Mask) (s : State) : Local s.cur.gid s (crossPut d x m s) :=
  .ite (.refl ..) (.kPut ..)
/-- Of the group only the uniform registers differ. -/
theorem grp_crossPut (d : Nat) (x : DWord) (m : Mask) (s : State) :
    grp (crossPut d x m s) s.cur.gid = { grp s s.cur.gid with k := (grp (crossPut d x m s) s.cur.gid).k } := by
  unfold Machine.crossPut
  split
  · rfl
  · simp [kPut]

/-- A uniform register written after the streams have advanced, then the lanes' move: what `CrossEffect` says of it. -/
theorem crossPut_effect (d : Nat) (x : DWord) (s : State) :
    CrossEffect d x s (done (crossPut d x (active s) (advanceStreams s.cur s))) := by
  have hA : OnlyStreams s.cur.gid s (advanceStreams s.cur s) := OnlyStreams.advanceStreams ..
  have hLA : Local s.cur.gid s (advanceStreams s.cur s) := Local.advanceStreams ..
  have hLP := Local.crossPut d x (active s) (advanceStreams s.cur s)
  have hP := grp_crossPut d x (active s) (advanceStreams s.cur s)
  have kk := kGet_crossPut d x (active s) (advanceStreams s.cur s)
  have hx : KeepsX s (advanceStreams s.cur s) := rfl
  generalize advanceStreams s.cur s = a at *
  rw [hLA.cur] at hLP hP kk
  generalize crossPut d x (active s) a = u at *
  have hL : Local s.cur.gid s u := hLA.trans hLP
  have hcur : u.cur = s.cur := hL.cur
  have htime : u.time = s.time := by rw [hL.1.1]
  have gu : grp u s.cur.gid = { grp s s.cur.gid with x := (grp a s.cur.gid).x, largestC := (grp a s.cur.gid).largestC,
                                                     k := (grp u s.cur.gid).k } := by rw [hP, hA]
  have hloop : (grp u s.cur.gid).loop = (grp s s.cur.gid).loop := by rw [gu]
  have hk : ∀ n, kGet u s.cur.gid n = if active s ≠ 0 ∧ n = d then x else kGet s s.cur.gid n :=
    fun n => (kk n).trans (by rw [kGet_of_k (s := s) (t := a) (by rw [hA]) n])
  have hM : OnlyMoves s.cur.gid u (done u) := hcur ▸ OnlyMoves.done u
  have hD : Local s.cur.gid u (done u) := hcur ▸ Local.done u
  have hK : KeepsK s.cur.gid [] u (done u) := hcur ▸ KeepsK.done (s := u) rfl (fun _ _ => rfl) rfl
  refine ⟨(hL.trans hD).1, (hL.trans hD).2, KeepsLanes.done hcur (by rw [gu]) hloop, MovesOn.done hcur htime (by rw [gu]),
    fun l n => ?_, fun l n => ?_, ?_, KeepsK.done hcur (fun n hn => ?_) hloop, fun hb => ?_⟩
  · rw [hM.keepsV l n, vGet, gu]
    rfl
  · rw [hM.keepsP l n, pGet, gu]
    rfl
  · exact hM.x.trans (by rw [gu]; exact hx)
  · have : n ≠ d := by simpa using hn
    simp [hk, this]
  · rw [hK d (by simp) (by rw [hloop]; exact hb), hk]
    by_cases h : active s = 0 <;> simp [h]

theorem active_fetchStreams (wa wb wd : Nat) (s : State) : active (fetchStreams wa wb wd s) = active s := by
  obtain ⟨f1, -, f3⟩ := fetchStreams_fetched wa wb wd s
  exact active_of_pred (by rw [f1]) (fun l n => by unfold pGet; rw [f3])

/-- A cross-lane word of a uniform result that nothing stops: the result is written, its lanes move on. -/
theorem crossUni_eq {i : Instr} {wa : Nat} {d : Byte} {f : Src → Nat} {s : State} (h : ready i [] (active s) s = true)
    (hs : streamsOk wa 0 0 s = true) :
    crossUni i wa d f s = done (crossPut d.toNat (.ofNat 64 (f (streamSrc s wa 0 0))) (active s)
      (advanceStreams s.cur (fetchStreams wa 0 0 s))) := by
  unfold crossUni
  rw [judge_ready h, withStreams_ok hs]
  rfl

/-- A word that `crossUni` runs completes as `CrossDone` says (R278, R280, R283). -/
theorem crossDone_of_crossUni {i : Instr} {wa : Nat} {d : Byte} {f : Src → Nat} (he : ∀ s, exec i s = .next (crossUni i wa d f s)) :
    CrossDone i wa d f := by
  intro s h hs
  have fc : (fetchStreams wa 0 0 s).cur = s.cur := by rw [(fetchStreams_fetched wa 0 0 s).1]
  refine ⟨_, he s, ?_⟩
  have key := crossPut_effect d.toNat (.ofNat 64 (f (streamSrc s wa 0 0))) (fetchStreams wa 0 0 s)
  rwa [active_fetchStreams, fc, ← crossUni_eq h hs] at key

/-! ### The words -/

theorem voteBallot_vec {f : FR} (h : f.mo.getLsbD 1 = false) :
    VecDone (.voteBallot f) 32 0 32 (fun c _ => { v := [(f.d.toNat, .ofNat 32 (ballot f c))] }) := by
  refine vecDone_of_vecRun (fun s => ?_) (by decide)
  show execVoteBallot f s = _
  simp only [execVoteBallot, h, Bool.false_eq_true, if_false]
theorem voteBallot_uni {f : FR} (h : f.mo.getLsbD 1 = true) : CrossDone (.voteBallot f) 32 f.d (ballot f) := by
  refine crossDone_of_crossUni (fun s => ?_)
  show execVoteBallot f s = _
  simp only [execVoteBallot, h, if_true]

/-- Settles O18: the sources of a shuffle by its sub-op, inside a segment of 2^k lanes; every word but a ballot to kd is `vecRun` of what
it computes, and that one is `crossUni`. -/
theorem shufflesVotesMatches : Obligations.ShufflesVotesMatches := by
  refine ⟨fun k l b hk _ => ?_, fun f => ?_⟩
  · have hw : 0 < 2 ^ k := Nat.two_pow_pos k
    have h32 : 2 ^ k ≤ 32 := Nat.pow_le_pow_right (n := 2) (by decide) hk
    obtain ⟨upSegment, upPlace⟩ := shflFrom_up_wrap l b hw
    obtain ⟨downSegment, downPlace⟩ := shflFrom_down_wrap l b hw
    exact ⟨shflFrom_idx _ _ l b, shflFrom_up_inside l b hw h32, fun _ => rfl, shflFrom_down_inside l, fun _ => rfl,
      upSegment, upPlace, downSegment, downPlace, rfl⟩
  · have hw : tyBits f.ty ≤ 1024 := Nat.le_trans (tyBits_le f.ty) (by decide)
    refine ⟨?shuffleWords, ?voteWords, ?matchWords⟩
    case shuffleWords => refine ⟨?_, ?_, ?_, ?_, ?_⟩ <;> exact vecDone_of_vecRun (fun _ => rfl) hw
    case voteWords => refine ⟨?_, ?_, ?_, voteBallot_vec, voteBallot_uni⟩ <;> exact vecDone_of_vecRun (fun _ => rfl) (by decide)
    case matchWords => refine ⟨?_, ?_, ?_, ?_⟩ <;> exact vecDone_of_vecRun (fun _ => rfl) (by decide)

end Sys2Proof.Machine
end
